-- ==== Sys2Proof/Word.lean ====
section
/-! DEFINITION. The word types of HUFFCORE (00_scope.md rule R12) and the entry of its tree memory
(10_state.md rule R42). -/

namespace Sys2Proof

/-- A host register, a symbol, a frequency, a command word (R12, R22, R63). -/
abbrev Word := BitVec 32

/-- A byte of IN_MEM or OUT_MEM (R40). -/
abbrev Byte := BitVec 8

/-- A byte offset on the host port (R49). -/
abbrev Offset := BitVec 22

/-- The 32-bit word of a natural number that fits in 32 bits. -/
abbrev word (n : Nat) : Word := BitVec.ofNat 32 n

/-- NIL / NONE, the reserved node index (R12, R18). -/
abbrev nilWord : Word := 0xFFFFFFFF#32

/-- One allocated entry of NODE (R42).
Child indices are natural numbers and an absent right child is `none`;
a host read shows `none` as NONE = 0xFFFFFFFF (R93). -/
inductive Machine.Node where
  | leaf (sym freq : Word)
  | internal (freq : Word) (left : Nat) (right : Option Nat)
  deriving DecidableEq, Repr, Inhabited

end Sys2Proof
end

