-- ==== Sys2Proof/Syntax.lean ====
section
/-! DEFINITION. The command set HUFFCORE-CMD version 1: one constructor per row of
spec/opcode_table.json (30_encoding.md rule R65). -/

namespace Sys2Proof

/-- A command of the Engine. `n` is the N field, the bit count of BW_WRITE and BR_READ (R63, R64);
every other operand comes from registers and buffers. -/
inductive Instr where
  /-- NOP (R83) -/
  | nop
  /-- CLEAR (R84) -/
  | clear
  /-- FC_COUNT (R86) -/
  | fcCount
  /-- Q_FREQ (R88) -/
  | qFreq
  /-- TB_BUILD (R91) -/
  | tbBuild
  /-- Q_NODE (R93) -/
  | qNode
  /-- CT_BUILD (R94) -/
  | ctBuild
  /-- Q_CODE (R96) -/
  | qCode
  /-- BW_OPEN (R99) -/
  | bwOpen
  /-- BW_WRITE N (R100) -/
  | bwWrite (n : Nat)
  /-- BW_CLOSE (R101) -/
  | bwClose
  /-- BR_OPEN (R104) -/
  | brOpen
  /-- BR_READ N (R105) -/
  | brRead (n : Nat)
  /-- TC_SERIALIZE (R110) -/
  | tcSerialize
  /-- TC_PARSE (R111) -/
  | tcParse
  /-- ENCODE (R115) -/
  | encodeSyms
  /-- COMPRESS (R116) -/
  | compress
  /-- DECODE (R118) -/
  | decodeSyms
  /-- DECOMPRESS (R119) -/
  | decompress
  deriving DecidableEq, Repr

end Sys2Proof
end

