-- ==== Sys2Proof/WellFormed.lean ====
section
/-! DEFINITION. Which terms of `Instr` are commands: the N column of 30_encoding.md rule R65. -/

namespace Sys2Proof

/-- The bit counts BW_WRITE and BR_READ admit (R63, R65). -/
def countOk (n : Nat) : Bool := decide (1 ≤ n ∧ n ≤ 32)

/-- A command whose N field, where it has one, is in 1..32 (R65). -/
def Instr.wellFormed : Instr → Bool
  | .bwWrite n => countOk n
  | .brRead n => countOk n
  | .nop | .clear | .fcCount | .qFreq | .tbBuild | .qNode | .ctBuild | .qCode | .bwOpen | .bwClose | .brOpen
  | .tcSerialize | .tcParse | .encodeSyms | .compress | .decodeSyms | .decompress => true

end Sys2Proof
end

