-- ==== Sys2Proof/Decode.lean ====
section
/-! DEFINITION. The command word (30_encoding.md rules R63 to R66): decoding, total on 32-bit words and
rejecting by name, and the encoder written from the same table. -/

namespace Sys2Proof

/-- Why a word is illegal (R66). The Engine reports every one of them as ILLEGAL_COMMAND. -/
inductive DecodeError where
  /-- word[31:14] is not 0 -/
  | reservedBitsSet
  /-- OP is not in the table of R65 -/
  | unassignedOpcode
  /-- N is not 0 for a command that takes no N -/
  | countNotZero
  /-- N is 0 or above 32 for BW_WRITE or BR_READ -/
  | countOutOfRange
  deriving DecidableEq, Repr

/-- OP, bits 7:0 (R63). -/
def fieldOp (w : Word) : Nat := (w.extractLsb' 0 8).toNat

/-- N, bits 13:8 (R63). -/
def fieldN (w : Word) : Nat := (w.extractLsb' 8 6).toNat

/-- RSV, bits 31:14 (R63). -/
def fieldRsv (w : Word) : Nat := (w.extractLsb' 14 18).toNat

/-- A row of R65 whose N column is 0. -/
def plainRow (n : Nat) (i : Instr) : Except DecodeError Instr :=
  if n = 0 then .ok i else .error .countNotZero

/-- A row of R65 whose N column is 1..32. -/
def countedRow (n : Nat) (i : Instr) : Except DecodeError Instr :=
  if 1 ≤ n ∧ n ≤ 32 then .ok i else .error .countOutOfRange

/-- The opcode map (R65), for a word whose reserved bits are 0. -/
def decodeRow (op n : Nat) : Except DecodeError Instr :=
  match op with
  | 0x00 => plainRow n .nop
  | 0x01 => plainRow n .clear
  | 0x10 => plainRow n .fcCount
  | 0x11 => plainRow n .qFreq
  | 0x12 => plainRow n .tbBuild
  | 0x13 => plainRow n .qNode
  | 0x14 => plainRow n .ctBuild
  | 0x15 => plainRow n .qCode
  | 0x20 => plainRow n .bwOpen
  | 0x21 => countedRow n (.bwWrite n)
  | 0x22 => plainRow n .bwClose
  | 0x28 => plainRow n .brOpen
  | 0x29 => countedRow n (.brRead n)
  | 0x30 => plainRow n .tcSerialize
  | 0x31 => plainRow n .tcParse
  | 0x38 => plainRow n .encodeSyms
  | 0x39 => plainRow n .compress
  | 0x3C => plainRow n .decodeSyms
  | 0x3D => plainRow n .decompress
  | _ => .error .unassignedOpcode

/-- The command a word selects (R65), or why it is illegal (R66). -/
def decode (w : Word) : Except DecodeError Instr :=
  if fieldRsv w ≠ 0 then .error .reservedBitsSet else decodeRow (fieldOp w) (fieldN w)

/-- OP of a command (R65). -/
def opcodeOf : Instr → Nat
  | .nop => 0x00
  | .clear => 0x01
  | .fcCount => 0x10
  | .qFreq => 0x11
  | .tbBuild => 0x12
  | .qNode => 0x13
  | .ctBuild => 0x14
  | .qCode => 0x15
  | .bwOpen => 0x20
  | .bwWrite _ => 0x21
  | .bwClose => 0x22
  | .brOpen => 0x28
  | .brRead _ => 0x29
  | .tcSerialize => 0x30
  | .tcParse => 0x31
  | .encodeSyms => 0x38
  | .compress => 0x39
  | .decodeSyms => 0x3C
  | .decompress => 0x3D

/-- N of a command: the bit count, or 0 (R63, R64). -/
def countOf : Instr → Nat
  | .bwWrite n => n
  | .brRead n => n
  | .nop | .clear | .fcCount | .qFreq | .tbBuild | .qNode | .ctBuild | .qCode | .bwOpen | .bwClose | .brOpen
  | .tcSerialize | .tcParse | .encodeSyms | .compress | .decodeSyms | .decompress => 0

/-- The command word OP | (N << 8) (R65).
R65 and R67 are silent on an N that does not fit the 6-bit field (N >= 64); that the word is then OP | (N << 8)
modulo 2^32, with N spilling into RSV, is a DESIGN CHOICE, log entry 12. -/
def encode (i : Instr) : Word := word (opcodeOf i) ||| (word (countOf i) <<< 8)

/-- The instruction the decoder reads from the opcode table's word `w`; every command word has 32 bits,
and bits above `nbits` are 0. -/
def decodeTableWord (nbits w : Nat) : Option Instr :=
  match decode (word (w % 2 ^ min nbits 32)) with
  | .ok i => some i
  | .error _ => none

end Sys2Proof
end

