-- ==== Sys2Proof/Config.lean ====
section
/-! DEFINITION. What an implementation fixes: the parameters of 00_scope.md rule R10, their legality
(rule R11), and the values the spec leaves open ("any value" of 93_implementation_defined.md), each an
uninterpreted constant that no proof can look into. -/

namespace Sys2Proof

/-- The implementation parameters (R10). -/
structure Config where
  /-- SYM_CAP: entries of SYM_MEM. -/
  symCap : Nat
  /-- IN_CAP: bytes of IN_MEM. -/
  inCap : Nat
  /-- OUT_CAP: bytes of OUT_MEM. -/
  outCap : Nat
  /-- MAX_DISTINCT: entries of FT. -/
  maxDistinct : Nat
  /-- NODE_CAP: entries of NODE. -/
  nodeCap : Nat
  deriving DecidableEq, Repr

/-- The legal ranges of R10 and the constraint of R11; another configuration is not a HUFFCORE (I6). -/
def Config.legal (c : Config) : Bool :=
  decide (1 ≤ c.symCap ∧ c.symCap ≤ 262144 ∧
    2 ≤ c.inCap ∧ c.inCap ≤ 1048576 ∧
    2 ≤ c.outCap ∧ c.outCap ≤ 1048576 ∧
    1 ≤ c.maxDistinct ∧ c.maxDistinct ≤ 65536 ∧
    max 2 (2 * c.maxDistinct - 1) ≤ c.nodeCap ∧ c.nodeCap ≤ 131072)

/-- The reference configuration: the defaults of R10. -/
def Config.reference : Config where
  symCap := 65536
  inCap := 262144
  outCap := 262144
  maxDistinct := 4096
  nodeCap := 8192

/-- FREE VALUE (U1, U2): entry `i` of SYM_MEM, not written since reset number `epoch`. Log entry 2. -/
opaque Config.freeSym (epoch i : Nat) : Word

/-- FREE VALUE (U1, U2): byte `i` of IN_MEM, not written since reset number `epoch`. Log entry 2. -/
opaque Config.freeIn (epoch i : Nat) : Byte

/-- FREE VALUE (U1): byte `i` of OUT_MEM, not written since reset number `epoch`. Log entry 2. -/
opaque Config.freeOut (epoch i : Nat) : Byte

/-- FREE VALUE (U1, U4): entry `i` of NODE while it is not allocated. Log entry 9. -/
opaque Config.freeNode (epoch i : Nat) : Machine.Node

/-- FREE VALUE (U3): what the `n`-th host read of an unspecified value returns. Log entry 3. -/
opaque Config.freeRead (n : Nat) : Word

/-- FREE VALUE: what BIT_COUNT reads when `bits`, the bits written since BW_OPEN, need more than 32 bits.
Log entry 5. -/
opaque Config.freeBitCount (bits : Nat) : Word

/-- FREE VALUE: whether a host write to a window offset at or beyond the buffer's capacity sets BUSY_WR
while BUSY = 1; R58 says both "every host write to the SYM, IN or OUT window" and, of RAZ/WI offsets,
"do not set BUSY_WR". Log entry 7. -/
opaque Config.freeHoleSetsBusyWr (n : Nat) : Bool

end Sys2Proof
end

