-- ==== Sys2Proof/Machine/State.lean ====
section
/-! DEFINITION. The state of HUFFCORE (10_state.md), its reset value (70_reset_and_hazards.md rule R135),
the host accesses that wait to take effect, and the reasons a step can stop. -/

namespace Sys2Proof.Machine

/-- Sparse data by key: an association list whose keys strictly rise (`Assoc.wf`). -/
abbrev Assoc (α : Type) := List (Nat × α)

/-- A buffer of `w`-bit entries by index (R40): the entries written since reset.
An entry that is not listed holds a free value ("any value", R136).
`Memory 8` is a list of `Host.Cell`. -/
abbrev Memory (w : Nat) := Assoc (BitVec w)

/-- An error kind of 60_exceptions.md rule R122; `none` is code 0. -/
inductive ErrKind where
  | none
  | sourceUnavailable
  | streamOverflow
  | truncatedStream
  | malformedHeader
  | malformedStream
  | invalidSymbol
  | capacityExceeded
  | badState
  | illegalCommand
  | badArgument
  deriving DecidableEq, Repr

/-- An entry of FT (R41). -/
structure FtEntry where
  sym : Word
  count : Word
  deriving DecidableEq, Repr

/-- The tree memory while it is valid (R42): the allocated entries NODE[0..NODE_COUNT-1], and ROOT, `none`
for NIL. -/
structure Tree where
  nodes : List Node
  root : Option Nat
  deriving DecidableEq, Repr

/-- The code of a symbol, first bit first; `true` is 1, a right descent (R44). -/
abbrev Code := List Bool

/-- CT (R44): the code of each symbol, by the symbol's unsigned value. -/
abbrev CodeTable := Assoc Code

/-- A thing the outside world does to the block: an access on the host port (R49, R50; `bytes` is its
width) or an assertion of the reset input (R135). -/
inductive HostEvent where
  | read (bytes : Nat) (off : Offset)
  | write (bytes : Nat) (off : Offset) (data : Word)
  | reset
  deriving DecidableEq, Repr

/-- A host event and its timing: `early` lets it land while a command is latched and not yet performed
(BUSY = 1), otherwise it waits for the Engine's step (I7). Log entry 1. -/
structure HostInput where
  early : Bool
  event : HostEvent
  deriving DecidableEq, Repr

/-- The reasons a step can stop with a fault: there are none.
Every failure the spec describes is reported by a completion, which is a next state
(60_exceptions.md rule R125), and no behaviour of 93_implementation_defined.md has the treatment "stuck". -/
inductive Fault where
  deriving DecidableEq, Repr

/-- The reasons a step has no meaning. -/
inductive Refusal where
  /-- An instruction with no meaning yet; no arm of `exec` raises it. Safe: nothing follows. -/
  | notModelled (mnemonic : String)
  /-- Raised by a host access that is not 32 bits wide or not at a multiple of 4: "A model must refuse
  such an access" (R50, X5). Safe: nothing follows. -/
  | unsupportedAccess (bytes : Nat) (off : Offset)
  /-- Raised by a step under a configuration that breaks R10 or R11: "A model must refuse a configuration
  that breaks it" (R11, I6). Safe: nothing follows. -/
  | illegalConfiguration
  deriving DecidableEq, Repr

/-- The state of the machine.
STATUS.BUSY, TREE_NULL, BR_HAS_NEXT and IRQ, the valid flags, N_DISTINCT, NODE_COUNT, ROOT and BR_REMAIN
are views of these fields (Machine/Flags.lean). -/
structure State where
  /-- The parameters (R10); no step changes them. Log entry 4. -/
  cfg : Config
  /-- CTRL.VARIANT, true for the pixel variant (R24). -/
  variant : Bool
  /-- IRQ_EN.DONE_IE (R25). -/
  doneIe : Bool
  /-- IRQ_EN.ERR_IE (R25). -/
  errIe : Bool
  /-- STATUS.DONE (R26). -/
  done : Bool
  /-- STATUS.ERR (R26). -/
  err : Bool
  /-- STATUS.BUSY_WR (R26). -/
  busyWr : Bool
  /-- STATUS.HDR_VARIANT (R26). -/
  hdrVariant : Bool
  /-- CMD: the last accepted command word (R27). -/
  cmd : Word
  /-- ARG0 (R22). -/
  arg0 : Word
  /-- ARG1 (R22). -/
  arg1 : Word
  /-- ERR_KIND (R28). -/
  errKind : ErrKind
  /-- ERR_INFO (R28). -/
  errInfo : Word
  /-- RES0 (R29). -/
  res0 : Word
  /-- RES1 (R29). -/
  res1 : Word
  /-- RES2 (R29). -/
  res2 : Word
  /-- RES3 (R29). -/
  res3 : Word
  /-- SYM_COUNT (R30). -/
  symCount : Word
  /-- IN_LEN (R31). -/
  inLen : Word
  /-- IN_POS (R32). -/
  inPos : Word
  /-- OUT_LEN (R33). -/
  outLen : Word
  /-- OUT_BUDGET (R34). -/
  outBudget : Word
  /-- IMG_W (R35). -/
  imgW : Word
  /-- IMG_H (R35). -/
  imgH : Word
  /-- BIT_COUNT: the bits written since BW_OPEN (R37). Log entry 5. -/
  bitCount : Nat
  /-- FT, `none` while FT_VALID = 0 (R41, R45). -/
  ft : Option (List FtEntry)
  /-- NODE and ROOT, `none` while TREE_VALID = 0 (R42, R45). -/
  tree : Option Tree
  /-- CT, `none` while CT_VALID = 0 (R44, R45). -/
  ct : Option CodeTable
  /-- STATUS.BW_OPEN (R46). -/
  bwOpen : Bool
  /-- BW_ACC (R46). -/
  bwAcc : Byte
  /-- BW_NBITS, in 0..7 (R46). -/
  bwNbits : Fin 8
  /-- STATUS.BR_OPEN (R47). -/
  brOpen : Bool
  /-- BR_BASE (R47). -/
  brBase : Nat
  /-- BR_TOTAL (R47). -/
  brTotal : Nat
  /-- BR_BITPOS (R47). -/
  brBitPos : Nat
  /-- SYM_MEM (R40). -/
  symMem : Memory 32
  /-- IN_MEM (R40). -/
  inMem : Memory 8
  /-- OUT_MEM (R40). -/
  outMem : Memory 8
  /-- The command latch (R48); BUSY = 1 exactly while it holds a word. -/
  latch : Option Word
  /-- The model's own: host events that have not taken effect, in the order the Host issues them (R57). -/
  inbox : List HostInput
  /-- The model's own: the data of the last host read that took effect. -/
  readData : Option Word
  /-- The model's own: the resets taken since power-on; it names the free contents of the buffers (R136). -/
  resets : Nat
  /-- The model's own: the free values drawn so far for host reads and writes (R58). -/
  drawn : Nat
  deriving DecidableEq, Repr

/-- The block right after reset, with the parameters `c` (R135, R136). -/
def State.resetOf (c : Config) : State where
  cfg := c
  variant := false
  doneIe := false
  errIe := false
  done := false
  err := false
  busyWr := false
  hdrVariant := false
  cmd := 0
  arg0 := 0
  arg1 := 0
  errKind := .none
  errInfo := 0
  res0 := 0
  res1 := 0
  res2 := 0
  res3 := 0
  symCount := 0
  inLen := 0
  inPos := 0
  outLen := 0
  outBudget := word c.outCap
  imgW := 0
  imgH := 0
  bitCount := 0
  ft := none
  tree := none
  ct := none
  bwOpen := false
  bwAcc := 0
  bwNbits := 0
  brOpen := false
  brBase := 0
  brTotal := 0
  brBitPos := 0
  symMem := []
  inMem := []
  outMem := []
  latch := none
  inbox := []
  readData := none
  resets := 0
  drawn := 0

/-- The block right after power-on in the reference configuration (R10, R135). -/
def State.reset : State := State.resetOf Config.reference

end Sys2Proof.Machine
end

