-- ==== Sys2Proof/Machine/Ops.lean ====
section
/-! DEFINITION. The named operations of the machine: the buffers (R14, R40), how a command's pseudocode
runs and raises (40_control.md rule R80), how a command is accepted and ends (R78, R81), error entry and
its acknowledgement (60_exceptions.md rules R125, R126), the invalidations of 10_state.md rule R45, and
the primitives emitByte, writeBit and readBit (R97, R98, R103). -/

namespace Sys2Proof.Machine

/-! ### Sparse data by key -/

/-- The keys strictly rise. -/
def Assoc.wf {α : Type} (m : Assoc α) : Bool := decide ((m.map Prod.fst).Pairwise (· < ·))

/-- The value listed under a key. -/
def Assoc.get? {α : Type} (k : Nat) : Assoc α → Option α
  | [] => none
  | (k', v) :: rest => if k = k' then some v else Assoc.get? k rest

/-- List a value under a key, in its place, over a value the key had. -/
def Assoc.put {α : Type} (k : Nat) (v : α) : Assoc α → Assoc α
  | [] => [(k, v)]
  | (k', v') :: rest =>
    if k < k' then (k, v) :: (k', v') :: rest
    else if k = k' then (k, v) :: rest
    else (k', v') :: Assoc.put k v rest

/-- The canonical form of a buffer: indices strictly rise.
What an unlisted entry reads as is no value of the list, so no listed entry equals it. -/
def Memory.wf {w : Nat} (m : Memory w) : Bool := Assoc.wf m

/-- The entry of a buffer written since reset. -/
def Memory.read? {w : Nat} (m : Memory w) (i : Nat) : Option (BitVec w) := Assoc.get? i m

/-- Write one entry of a buffer. -/
def Memory.write {w : Nat} (m : Memory w) (i : Nat) (v : BitVec w) : Memory w := Assoc.put i v m

/-! ### The buffers (R14, R40) -/

/-- MemRead(SYM, i, 4). An entry not written since reset holds a free value (R136). -/
def State.symAt (s : State) (i : Nat) : Word := (s.symMem.read? i).getD (Config.freeSym s.resets i)

/-- MemRead(IN, a, 1). -/
def State.inAt (s : State) (a : Nat) : Byte := (s.inMem.read? a).getD (Config.freeIn s.resets a)

/-- MemRead(OUT, a, 1). -/
def State.outAt (s : State) (a : Nat) : Byte := (s.outMem.read? a).getD (Config.freeOut s.resets a)

/-- MemWrite(SYM, i, 4, v). -/
def State.setSym (s : State) (i : Nat) (v : Word) : State := { s with symMem := s.symMem.write i v }

/-- A host write of one byte of IN_MEM; no command writes it (R40). -/
def State.setIn (s : State) (a : Nat) (v : Byte) : State := { s with inMem := s.inMem.write a v }

/-- MemWrite(OUT, a, 1, v). -/
def State.setOut (s : State) (a : Nat) (v : Byte) : State := { s with outMem := s.outMem.write a v }

/-! ### Running and raising (R80) -/

/-- What `raise K(info)` reports. -/
structure Raise where
  kind : ErrKind
  info : Word
  deriving DecidableEq, Repr

/-- How a piece of pseudocode ends: with a value, or at a `raise`.
Either way the state is the one it wrote so far: nothing is rolled back (R80). -/
inductive Ran (α : Type) where
  | ok (a : α) (s : State)
  | raised (r : Raise) (s : State)
  deriving DecidableEq, Repr

/-- The state a piece of pseudocode ends in, with or without a `raise` (R80). -/
def Ran.state {α : Type} : Ran α → State
  | .ok _ s => s
  | .raised _ s => s

/-- Run the next statement, unless a `raise` stopped the command. -/
def Ran.bind {α β : Type} (x : Ran α) (f : α → State → Ran β) : Ran β :=
  match x with
  | .ok a s => f a s
  | .raised r s => .raised r s

/-- Run the next statement of a command whose statements so far give no value. -/
def Ran.andThen {α β : Type} (x : Ran α) (f : State → Ran β) : Ran β := x.bind fun _ s => f s

/-- `raise K(info)`, with an index, count or word as its info value. -/
def raise {α : Type} (k : ErrKind) (info : Nat) (s : State) : Ran α := .raised ⟨k, word info⟩ s

/-- A computation that reads the state and may raise, as a statement. -/
def Ran.ofExcept {α : Type} (x : Except Raise α) (s : State) : Ran α :=
  match x with
  | .ok a => .ok a s
  | .error r => .raised r s

/-! ### Acceptance and end of a command (R78, R81, R125, R126) -/

/-- The host write to CMD while BUSY = 0 (R78). -/
def State.accept (s : State) (w : Word) : State :=
  { s with latch := some w, cmd := w, done := false, err := false }

/-- The end of a command that succeeds (R81). -/
def State.finishOk (s : State) : State :=
  { s with errKind := .none, errInfo := 0, done := true, latch := none }

/-- Error entry: the end of a command that raised (R81, R125).
Nothing is saved or changed but the completion registers. -/
def State.errorEntry (s : State) (r : Raise) : State :=
  { s with errKind := r.kind, errInfo := r.info, err := true, done := true, latch := none }

/-- The end of a command, with the result of its pseudocode (R81). -/
def Ran.finish : Ran Unit → State
  | .ok _ s => s.finishOk
  | .raised r s => s.errorEntry r

/-- A command as a step: it always ends, by R81 (R9). -/
def complete (x : Ran Unit) : Host.Outcome State Fault Refusal := .next x.finish

/-- The host write to STATUS: write 1 to clear DONE (bit 1), ERR (bit 2) and BUSY_WR (bit 3) (R26).
With `w` = 0xE it is the acknowledgement that stands for a return from an error (R126). -/
def State.acknowledge (s : State) (w : Word) : State :=
  { s with
    done := s.done && !w.getLsbD 1
    err := s.err && !w.getLsbD 2
    busyWr := s.busyWr && !w.getLsbD 3 }

/-- The platform asserts the reset input (R135): every register, the hidden state and the latch take
their reset values, and the buffers and tables hold new free contents (R136). -/
def State.platformReset (s : State) : State :=
  { State.resetOf s.cfg with
    inbox := s.inbox, readData := s.readData, resets := s.resets + 1, drawn := s.drawn }

/-! ### Invalidation and clearing (R45, R46, R47) -/

/-- Invalidate FT (R45). -/
def State.invalidateFt (s : State) : State := { s with ft := none }

/-- Invalidate the tree (R45). -/
def State.invalidateTree (s : State) : State := { s with tree := none }

/-- Invalidate the codes (R45). -/
def State.invalidateCodes (s : State) : State := { s with ct := none }

/-- Invalidate the tree and the codes, the start of TB_BUILD and TC_PARSE (R45). -/
def State.invalidateTreeCodes (s : State) : State := s.invalidateTree.invalidateCodes

/-- Invalidate all three tables, the start of FC_COUNT, CLEAR, COMPRESS and DECOMPRESS (R45). -/
def State.invalidateAll (s : State) : State := s.invalidateFt.invalidateTreeCodes

/-- Open or close the BitWriter with no pending bits and no bits counted (R84, R99, R116). -/
def State.freshWriter (s : State) (isOpen : Bool) : State :=
  { s with bwOpen := isOpen, bwAcc := 0, bwNbits := 0, bitCount := 0 }

/-- Close the BitReader and zero its state (R84, R104, R119). -/
def State.clearReader (s : State) : State :=
  { s with brOpen := false, brBase := 0, brTotal := 0, brBitPos := 0 }

/-- FT <- ft, N_DISTINCT and FT_VALID with it (R86). -/
def State.storeFt (s : State) (ft : List FtEntry) : State := { s with ft := some ft }

/-- NODE, NODE_COUNT, ROOT, TREE_VALID and TREE_NULL (R91, R111). -/
def State.storeTree (s : State) (t : Tree) : State := { s with tree := some t }

/-- CT <- m and CT_VALID <- 1 (R94). -/
def State.storeCodes (s : State) (m : CodeTable) : State := { s with ct := some m }

/-- Open the BitReader on `total` valid bits from IN_MEM index `base` on (R104). -/
def State.openReader (s : State) (base total : Nat) : State :=
  { s with brOpen := true, brBase := base, brTotal := total, brBitPos := 0 }

/-- SYM_COUNT <- k (R118). -/
def State.setSymCount (s : State) (k : Nat) : State := { s with symCount := word k }

/-- Write RES0 to RES3 (R29). -/
def State.setRes (s : State) (r0 r1 r2 r3 : Word) : State :=
  { s with res0 := r0, res1 := r1, res2 := r2, res3 := r3 }

/-- NODE[i]; an entry that is not allocated holds a free value (U1). -/
def State.nodeAt (s : State) (t : Tree) (i : Nat) : Node := t.nodes.getD i (Config.freeNode s.resets i)

/-! ### Primitives -/

/-- MemWrite(OUT, OUT_LEN, 1, v) and OUT_LEN <- OUT_LEN + 1 (R97). -/
def State.pushByte (s : State) (v : Byte) : State := { s.setOut s.outLen.toNat v with outLen := s.outLen + 1 }

/-- emitByte(v), the only way a command writes OUT_MEM (R97). -/
def emitByte (v : Byte) (s : State) : Ran Unit :=
  if s.outBudget ≤ s.outLen then .raised ⟨.streamOverflow, s.outLen⟩ s else .ok () (s.pushByte v)

/-- Emit bytes in order. -/
def emitBytes : List Byte → State → Ran Unit
  | [], s => .ok () s
  | v :: vs, s => (emitByte v s).andThen (emitBytes vs)

/-- ((BW_ACC << 1) | b)[7:0] (R98). -/
def shiftIn (acc : Byte) (b : Bool) : Byte := (acc <<< 1) ||| (BitVec.ofBool b).setWidth 8

/-- Write BW_ACC and BW_NBITS (R98). -/
def State.setPending (s : State) (acc : Byte) (n : Fin 8) : State := { s with bwAcc := acc, bwNbits := n }

/-- BIT_COUNT <- BIT_COUNT + 1 (R98). -/
def State.countBit (s : State) : State := { s with bitCount := s.bitCount + 1 }

/-- writeBit(b) (R98). -/
def writeBit (b : Bool) (s : State) : Ran Unit :=
  if s.bwNbits = 7 then
    (emitByte (shiftIn s.bwAcc b) s).andThen fun s => .ok () (s.setPending 0 0).countBit
  else .ok () (s.setPending (shiftIn s.bwAcc b) (s.bwNbits + 1)).countBit

/-- Write bits in order. -/
def writeBits : List Bool → State → Ran Unit
  | [], s => .ok () s
  | b :: bs, s => (writeBit b s).andThen (writeBits bs)

/-- Valid bit `k` of the open stream: bit 7 - (k mod 8) of its byte floor(k/8) (R76, R103). -/
def State.streamBit (s : State) (k : Nat) : Bool := (s.inAt (s.brBase + k / 8)).getLsbD (7 - k % 8)

/-- BR_BITPOS <- BR_BITPOS + n (R103). -/
def State.skipBits (s : State) (n : Nat) : State := { s with brBitPos := s.brBitPos + n }

/-- readBit() (R103). -/
def readBit (s : State) : Ran Bool :=
  if s.brTotal ≤ s.brBitPos then raise .truncatedStream s.brBitPos s
  else .ok (s.streamBit s.brBitPos) (s.skipBits 1)

/-- `n` bits, first read first. -/
def readBits : Nat → State → Ran (List Bool)
  | 0, s => .ok [] s
  | n + 1, s => (readBit s).bind fun b s => (readBits n s).bind fun bs s => .ok (b :: bs) s

end Sys2Proof.Machine
end

