-- ==== Sys2Proof/Machine/Operands.lean ====
section
/-! DEFINITION. How operands are assembled (30_encoding.md rule R64) and how header text spells values
(rules R69, R70, R71): bit strings of a word, decimal digits, and symbols. -/

namespace Sys2Proof.Machine

/-! ### Bits of a word -/

/-- The value of a bit string, first bit most significant: `v <- (v << 1) | b` (R105). -/
def bitsValue (bs : List Bool) : Nat := bs.foldl (fun v b => 2 * v + b.toNat) 0

/-- The bits v[n-1], v[n-2], ..., v[0], in the order BW_WRITE writes them (R64, R100). -/
def lowBits (n : Nat) (v : Word) : List Bool := (List.range n).map fun j => v.getLsbD (n - 1 - j)

/-- The 32 code bits from bit `k` on, 0 past the end of the code (R96). -/
def codeWindow (c : Code) (k : Nat) : List Bool := (List.range 32).map fun j => c.getD (k + j) false

/-! ### Control bytes (R69) -/

/-- OPEN -/
def byteOpen : Byte := 0x01
/-- SEP -/
def byteSep : Byte := 0x02
/-- CLOSE -/
def byteClose : Byte := 0x03
/-- END -/
def byteEnd : Byte := 0x04
/-- COLON -/
def byteColon : Byte := 0x3A
/-- LETTER_X -/
def byteLetterX : Byte := 0x78

/-- is_digit(c) (R109). -/
def isDigit (c : Byte) : Bool := decide (0x30 ≤ c ∧ c ≤ 0x39)

/-- The value of a digit byte (R69). -/
def digitValue (c : Byte) : Nat := c.toNat - 0x30

/-- The byte of a digit (R69). -/
def digitByte (d : Nat) : Byte := BitVec.ofNat 8 (0x30 + d)

/-! ### Numbers and symbols as text -/

/-- The digit bytes of `v`, most significant first, before the digits `later`; `room` bounds their number. -/
def decDigitsAux : (room : Nat) → (v : Nat) → (later : List Byte) → List Byte
  | 0, _, later => later
  | room + 1, v, later =>
    if v < 10 then digitByte v :: later
    else decDigitsAux room (v / 10) (digitByte (v % 10) :: later)

/-- The canonical decimal spelling of a 32-bit value (R70, R108); 2^32 - 1 has ten digits. -/
def decText (v : Word) : List Byte := decDigitsAux 10 v.toNat []

/-- valid_sym(s, V): `pixel` is V = 1 (R85). -/
def validSym (s : Word) (pixel : Bool) : Bool :=
  pixel || decide (s ≤ 0xFF ∧ s ≠ 0x01 ∧ s ≠ 0x02 ∧ s ≠ 0x03 ∧ s ≠ 0x04)

/-- emitSym's bytes: the character, or the decimal spelling of the pixel (R71, R108). -/
def symText (s : Word) (pixel : Bool) : List Byte := if pixel then decText s else [s.setWidth 8]

end Sys2Proof.Machine
end

