-- ==== Sys2Proof/Machine/Flags.lean ====
section
/-! DEFINITION. STATUS (10_state.md rule R26), the interrupt line (60_exceptions.md rule R128), the count
registers that are views of the tables and of the reader (R36, R38), and the error codes (R122). -/

namespace Sys2Proof.Machine

/-- code(K) (R122). -/
def ErrKind.code : ErrKind → Nat
  | .none => 0
  | .sourceUnavailable => 1
  | .streamOverflow => 2
  | .truncatedStream => 3
  | .malformedHeader => 4
  | .malformedStream => 5
  | .invalidSymbol => 6
  | .capacityExceeded => 7
  | .badState => 8
  | .illegalCommand => 9
  | .badArgument => 10

/-- The word of one bit at position `pos`. -/
def flagBit (b : Bool) (pos : Nat) : Word := if b then 1#32 <<< pos else 0

/-- STATUS.BUSY (R26, R48). -/
def State.busy (s : State) : Bool := s.latch.isSome

/-- STATUS.FT_VALID (R45). -/
def State.ftValid (s : State) : Bool := s.ft.isSome

/-- STATUS.TREE_VALID (R45). -/
def State.treeValid (s : State) : Bool := s.tree.isSome

/-- STATUS.CT_VALID (R45). -/
def State.ctValid (s : State) : Bool := s.ct.isSome

/-- The entries of FT; none while it is invalid (R45). -/
def State.ftEntries (s : State) : List FtEntry := s.ft.getD []

/-- N_DISTINCT (R36). -/
def State.nDistinct (s : State) : Nat := s.ftEntries.length

/-- NODE and ROOT; while the tree is invalid, no entry and NIL (R45). -/
def State.treeOrNull (s : State) : Tree := s.tree.getD ⟨[], none⟩

/-- NODE_COUNT (R36). -/
def State.nodeCount (s : State) : Nat := s.treeOrNull.nodes.length

/-- A node index as a register shows it, NIL for none (R12, R36). -/
def indexWord (i : Option Nat) : Word := (i.map word).getD nilWord

/-- ROOT (R36). -/
def State.rootWord (s : State) : Word := indexWord s.treeOrNull.root

/-- STATUS.TREE_NULL (R26). -/
def State.treeNull (s : State) : Bool := s.treeValid && s.treeOrNull.root.isNone

/-- BR_REMAIN (R38). -/
def State.brRemain (s : State) : Nat := if s.brOpen then s.brTotal - s.brBitPos else 0

/-- STATUS.BR_HAS_NEXT (R26). -/
def State.brHasNext (s : State) : Bool := s.brOpen && decide (0 < s.brRemain)

/-- The interrupt output irq, and STATUS.IRQ (R128). -/
def State.irq (s : State) : Bool := (s.done && s.doneIe) || (s.err && s.errIe)

/-- STATUS as a host read returns it (R26). -/
def State.status (s : State) : Word :=
  flagBit s.busy 0 ||| flagBit s.done 1 ||| flagBit s.err 2 ||| flagBit s.busyWr 3 |||
  flagBit s.ftValid 4 ||| flagBit s.treeValid 5 ||| flagBit s.treeNull 6 ||| flagBit s.ctValid 7 |||
  flagBit s.bwOpen 8 ||| flagBit s.brOpen 9 ||| flagBit s.brHasNext 10 ||| flagBit s.hdrVariant 11 |||
  flagBit s.irq 12

/-- BIT_COUNT as a host read returns it; a count above 32 bits has no stated value (R37). Log entry 5. -/
def State.bitCountWord (s : State) : Word :=
  if s.bitCount < 2 ^ 32 then word s.bitCount else Config.freeBitCount s.bitCount

end Sys2Proof.Machine
end

