-- ==== Sys2Proof/Machine/BitReader.lean ====
section
/-! DEFINITION. The BitReader: BR_OPEN and BR_READ (45_bit_reader.md). -/

namespace Sys2Proof.Machine

/-- The bytes of the stream that starts at IN_POS and ends at IN_LEN (R104). -/
def State.streamBytes (s : State) : Nat :=
  if s.inPos.toNat ≤ s.inLen.toNat then s.inLen.toNat - s.inPos.toNat else 0

/-- The pseudocode of BR_OPEN (R104). -/
def brOpenBody (s : State) : Ran Unit :=
  let s := s.clearReader
  let len := s.inLen.toNat
  let n := s.streamBytes
  if s.cfg.inCap < len then raise .sourceUnavailable len s
  else if n < 2 then raise .truncatedStream n s
  else
    let t := (s.inAt (len - 1)).toNat
    if 8 < t then raise .malformedStream (len - 1) s
    else .ok () (s.openReader s.inPos.toNat (8 * (n - 2) + t))

/-- BR_OPEN (R104). -/
def execBrOpen (s : State) : Host.Outcome State Fault Refusal := complete (brOpenBody s)

/-- The pseudocode of BR_READ (R105). -/
def brReadBody (n : Nat) (s : State) : Ran Unit :=
  if !s.brOpen then raise .badState 0 s
  else if s.brTotal - s.brBitPos < n then raise .truncatedStream (s.brTotal - s.brBitPos) s
  else (readBits n s).bind fun bs s => .ok () (s.setRes (word (bitsValue bs)) 0 0 0)

/-- BR_READ N (R105). -/
def execBrRead (n : Nat) (s : State) : Host.Outcome State Fault Refusal := complete (brReadBody n s)

end Sys2Proof.Machine
end

