-- ==== Sys2Proof/Machine/BitWriter.lean ====
section
/-! DEFINITION. The BitWriter: BW_OPEN, BW_WRITE and BW_CLOSE (44_bit_writer.md). -/

namespace Sys2Proof.Machine

/-- The pseudocode of BW_OPEN (R99). -/
def bwOpenBody (s : State) : Ran Unit := .ok () (s.freshWriter true)

/-- BW_OPEN (R99). -/
def execBwOpen (s : State) : Host.Outcome State Fault Refusal := complete (bwOpenBody s)

/-- BW_WRITE N (R100). -/
def execBwWrite (n : Nat) (s : State) : Host.Outcome State Fault Refusal :=
  complete (if !s.bwOpen then raise .badState 0 s else writeBits (lowBits n s.arg0) s)

/-- The last data byte of a stream: (BW_ACC << (8 - BW_NBITS))[7:0] (R101). -/
def State.partialByte (s : State) : Byte := s.bwAcc <<< (8 - s.bwNbits.val)

/-- The trailer: BW_NBITS as a byte (R101). -/
def State.trailerByte (s : State) : Byte := BitVec.ofNat 8 s.bwNbits.val

/-- The writer closes; BIT_COUNT keeps its value (R101). -/
def State.closeWriter (s : State) : State := { s with bwOpen := false, bwAcc := 0, bwNbits := 0 }

/-- The pseudocode of BW_CLOSE after its state check (R101). -/
def bwCloseBody (s : State) : Ran Unit :=
  if s.outBudget.toNat < s.outLen.toNat + 2 then raise .streamOverflow s.outLen.toNat s
  else (emitBytes [s.partialByte, s.trailerByte] s).andThen fun s =>
    .ok () s.closeWriter

/-- BW_CLOSE (R101). -/
def execBwClose (s : State) : Host.Outcome State Fault Refusal :=
  complete (if !s.bwOpen then raise .badState 0 s else bwCloseBody s)

end Sys2Proof.Machine
end

