-- ==== Sys2Proof/Machine/CodeTable.lean ====
section
/-! DEFINITION. The CodeTable stage: CT_BUILD and Q_CODE (43_code_table.md). -/

namespace Sys2Proof.Machine

/-- The codes of the leaves below NODE[i], depth-first, left before right (R94).
A path of the tree has at most NODE_COUNT entries, and `depth` counts those still allowed. Log entry 9. -/
def walkCodes (look : Nat → Node) : (depth : Nat) → (i : Nat) → (path : Code) → List (Word × Code)
  | 0, _, _ => []
  | depth + 1, i, path =>
    match look i with
    | .leaf sym _ => [(sym, path)]
    | .internal _ l none => walkCodes look depth l (path ++ [false])
    | .internal _ l (some r) =>
      walkCodes look depth l (path ++ [false]) ++ walkCodes look depth r (path ++ [true])

/-- `M[s] <- path` for each code in turn (R94). -/
def codeTableOf (codes : List (Word × Code)) : CodeTable :=
  codes.foldl (fun m c => Assoc.put c.1.toNat c.2 m) []

/-- The code of a symbol, where it has one (R44). -/
def CodeTable.code? (m : CodeTable) (x : Word) : Option Code := Assoc.get? x.toNat m

/-- The code table of the current tree (R94). -/
def State.treeCodes (s : State) : CodeTable :=
  match s.treeOrNull.root with
  | none => []
  | some r => codeTableOf (walkCodes (s.nodeAt s.treeOrNull) s.nodeCount r [])

/-- The pseudocode of CT_BUILD after its check (R94). -/
def ctBuildBody (s : State) : Ran Unit := .ok () (s.invalidateCodes.storeCodes s.treeCodes)

/-- CT_BUILD (R94). -/
def execCtBuild (s : State) : Host.Outcome State Fault Refusal :=
  complete (if !s.treeValid then raise .badState 0 s else ctBuildBody s)

/-- The pseudocode of Q_CODE (R96). -/
def qCodeBody (s : State) : Ran Unit :=
  match s.ct with
  | none => raise .badState 0 s
  | some m =>
    match m.code? s.arg0 with
    | none => .ok () (s.setRes 0 0 0 0)
    | some c => .ok () (s.setRes (word c.length) (word (bitsValue (codeWindow c s.arg1.toNat))) 0 0)

/-- Q_CODE (R96). -/
def execQCode (s : State) : Host.Outcome State Fault Refusal := complete (qCodeBody s)

end Sys2Proof.Machine
end

