-- ==== Sys2Proof/Machine/FrequencyCounter.lean ====
section
/-! DEFINITION. The FrequencyCounter stage: FC_COUNT and Q_FREQ (41_frequency_counter.md). -/

namespace Sys2Proof.Machine

/-- Count one more occurrence of `x`: raise its count by one, or append (x, 1) at the end, so that entries
stay in first-seen order (R86, R87). -/
def countSymbol (x : Word) : List FtEntry → List FtEntry
  | [] => [⟨x, 1⟩]
  | e :: rest => if e.sym = x then ⟨e.sym, e.count + 1⟩ :: rest else e :: countSymbol x rest

/-- The loop of FC_COUNT over the next `left` entries of SYM_MEM from index `i` on, with the list `ft` so
far (R86). -/
def countLoop (s : State) : (left i : Nat) → List FtEntry → Except Raise (List FtEntry)
  | 0, _, ft => .ok ft
  | left + 1, i, ft =>
    let x := s.symAt i
    if !validSym x s.variant then .error ⟨.invalidSymbol, word i⟩
    else if !(ft.any fun e => e.sym = x) && ft.length = s.cfg.maxDistinct then
      .error ⟨.capacityExceeded, word i⟩
    else countLoop s left (i + 1) (countSymbol x ft)

/-- The pseudocode of FC_COUNT (R86). -/
def fcCountBody (s : State) : Ran Unit :=
  let s := s.invalidateAll
  if s.cfg.symCap < s.symCount.toNat then raise .sourceUnavailable s.symCount.toNat s
  else (Ran.ofExcept (countLoop s s.symCount.toNat 0 []) s).bind fun ft s => .ok () (s.storeFt ft)

/-- FC_COUNT (R86). -/
def execFcCount (s : State) : Host.Outcome State Fault Refusal := complete (fcCountBody s)

/-- The pseudocode of Q_FREQ (R88). -/
def qFreqBody (s : State) : Ran Unit :=
  match s.ft with
  | none => raise .badState 0 s
  | some ft =>
    match ft[s.arg0.toNat]? with
    | none => raise .badArgument s.arg0.toNat s
    | some e => .ok () (s.setRes e.sym e.count 0 0)

/-- Q_FREQ (R88). -/
def execQFreq (s : State) : Host.Outcome State Fault Refusal := complete (qFreqBody s)

end Sys2Proof.Machine
end

