-- ==== Sys2Proof/Machine/TreeBuilder.lean ====
section
/-! DEFINITION. The TreeBuilder stage: TB_BUILD and Q_NODE (42_tree_builder.md). -/

namespace Sys2Proof.Machine

/-- An element q of the priority collection: its key is (NODE[q].freq, q) (R89). -/
structure QItem where
  freq : Word
  idx : Nat
  deriving DecidableEq, Repr

/-- key(a) < key(b): lower frequency first, then lower NODE index (R89). -/
def QItem.before (a b : QItem) : Bool := decide (a.freq < b.freq ∨ (a.freq = b.freq ∧ a.idx < b.idx))

/-- The element with the least key, and the others, by a linear scan (R90). -/
def takeLeast : List QItem → Option (QItem × List QItem)
  | [] => none
  | x :: rest =>
    match takeLeast rest with
    | none => some (x, [])
    | some (m, others) => if m.before x then some (m, x :: others) else some (x, rest)

/-- The merge loop (R91, R92): while two elements remain, t1 and then t2 are removed and become the left and
the right child of the next entry.
Each merge leaves one element fewer, so `merges` bounds their number. -/
def mergeLoop : (merges : Nat) → List QItem → List Node → List QItem × List Node
  | 0, q, nodes => (q, nodes)
  | merges + 1, q, nodes =>
    match takeLeast q with
    | none => (q, nodes)
    | some (t1, q1) =>
      match takeLeast q1 with
      | none => (q, nodes)
      | some (t2, q2) =>
        let f := t1.freq + t2.freq
        mergeLoop merges (⟨f, nodes.length⟩ :: q2) (nodes ++ [.internal f t1.idx (some t2.idx)])

/-- The Leaf entries NODE[0..N-1], in FT order (R91). -/
def ftLeaves (ft : List FtEntry) : List Node := ft.map fun e => .leaf e.sym e.count

/-- The tree of a frequency table (R91). -/
def buildTree (ft : List FtEntry) : Tree :=
  match ft with
  | [] => ⟨[], none⟩
  | [e] => ⟨[.leaf e.sym e.count, .internal e.count 0 none], some 1⟩
  | _ =>
    let leaves := ft.mapIdx fun i e => (⟨e.count, i⟩ : QItem)
    let (q, nodes) := mergeLoop (ft.length - 1) leaves (ftLeaves ft)
    ⟨nodes, q.head?.map QItem.idx⟩

/-- The pseudocode of TB_BUILD after its check (R91). -/
def tbBuildBody (s : State) : Ran Unit :=
  .ok () (s.invalidateTreeCodes.storeTree (buildTree s.ftEntries))

/-- TB_BUILD (R91). -/
def execTbBuild (s : State) : Host.Outcome State Fault Refusal :=
  complete (if !s.ftValid then raise .badState 0 s else tbBuildBody s)

/-- RES0 of Q_NODE: KIND in bit 0, HAS_RIGHT in bit 1 (R93). -/
def nodeKindWord : Node → Word
  | .leaf _ _ => 0
  | .internal _ _ r => if r.isSome then 3 else 1

/-- The results of Q_NODE for an entry (R93). -/
def State.setNodeRes (s : State) (n : Node) : State :=
  match n with
  | .leaf sym f => s.setRes (nodeKindWord n) f sym nilWord
  | .internal f l r => s.setRes (nodeKindWord n) f (word l) (indexWord r)

/-- The pseudocode of Q_NODE (R93). -/
def qNodeBody (s : State) : Ran Unit :=
  match s.tree with
  | none => raise .badState 0 s
  | some t =>
    match t.nodes[s.arg0.toNat]? with
    | none => raise .badArgument s.arg0.toNat s
    | some n => .ok () (s.setNodeRes n)

/-- Q_NODE (R93). -/
def execQNode (s : State) : Host.Outcome State Fault Refusal := complete (qNodeBody s)

end Sys2Proof.Machine
end

