-- ==== Sys2Proof/Machine/TreeCodec.lean ====
section
/-! DEFINITION. The TreeCodec: TC_SERIALIZE and TC_PARSE (46_tree_codec.md). -/

namespace Sys2Proof.Machine

/-! ### Serialization (R73, R110) -/

/-- ser(i) for an entry of NODE (R73, R110).
A path of the tree has at most NODE_COUNT entries, and `depth` counts those still allowed. Log entry 9. -/
def serNode (look : Nat → Node) (pixel : Bool) : (depth : Nat) → (i : Nat) → List Byte
  | 0, _ => []
  | depth + 1, i =>
    match look i with
    | .leaf sym f => symText sym pixel ++ byteColon :: decText f
    | .internal f l none =>
      byteOpen :: serNode look pixel depth l ++ byteSep :: byteClose :: byteColon :: decText f
    | .internal f l (some r) =>
      byteOpen :: serNode look pixel depth l ++ byteSep :: serNode look pixel depth r ++
        byteClose :: byteColon :: decText f

/-- The pixel prefix, empty in the character variant (R73). -/
def State.pixelText (s : State) : List Byte :=
  if s.variant then decText s.imgW ++ byteLetterX :: decText s.imgH ++ [byteSep] else []

/-- ser(ROOT) (R73). -/
def State.treeText (s : State) : List Byte :=
  match s.treeOrNull.root with
  | none => [byteOpen, byteSep, byteClose]
  | some r => serNode (s.nodeAt s.treeOrNull) s.variant s.nodeCount r

/-- The header: prefix || ser(ROOT) || END (R73). -/
def State.headerText (s : State) : List Byte := s.pixelText ++ s.treeText ++ [byteEnd]

/-- A leaf whose symbol the variant cannot spell (R110). -/
def Node.unspellable (pixel : Bool) : Node → Bool
  | .leaf sym _ => !validSym sym pixel
  | .internal _ _ _ => false

/-- The pseudocode of TC_SERIALIZE after its state check (R110). -/
def tcSerializeBody (s : State) : Ran Unit :=
  match s.treeOrNull.nodes.findIdx? (Node.unspellable s.variant) with
  | some i => raise .invalidSymbol i s
  | none => emitBytes s.headerText s

/-- TC_SERIALIZE (R110). -/
def execTcSerialize (s : State) : Host.Outcome State Fault Refusal :=
  complete (if !s.treeValid then raise .badState 0 s else tcSerializeBody s)

/-! ### Parsing (R109, R111) -/

/-- `raise K(q)` inside the parser. -/
def parseFail {α : Type} (k : ErrKind) (q : Nat) : Except Raise α := .error ⟨k, word q⟩

/-- byte(q) (R111). -/
def byteIn (s : State) (q : Nat) : Except Raise Byte :=
  if s.inLen.toNat ≤ q then parseFail .truncatedStream q else .ok (s.inAt q)

/-- expect(q, c) (R111). -/
def expectByte (s : State) (q : Nat) (c : Byte) : Except Raise Nat :=
  match byteIn s q with
  | .error r => .error r
  | .ok b => if b ≠ c then parseFail .malformedHeader q else .ok (q + 1)

/-- The digit loop of parseDec over at most `left` bytes: the input ends there (R109). -/
def parseDigits (s : State) : (left v q : Nat) → Except Raise (Nat × Nat)
  | 0, v, q => .ok (v, q)
  | left + 1, v, q =>
    if !isDigit (s.inAt q) then .ok (v, q)
    else
      let v' := 10 * v + digitValue (s.inAt q)
      if 0xFFFFFFFF < v' then parseFail .malformedHeader q else parseDigits s left v' (q + 1)

/-- parseDec(p): the value and the index after the last digit (R109). -/
def parseDec (s : State) (p : Nat) : Except Raise (Word × Nat) := do
  let c ← byteIn s p
  if !isDigit c then parseFail .malformedHeader p
  else
    let (v, q) ← parseDigits s (s.inLen.toNat - p) 0 p
    return (word v, q)

/-- alloc(e, q): the entries allocated so far with `e` after them, and its index (R111). -/
def allocNode (s : State) (nodes : List Node) (e : Node) (q : Nat) : Except Raise (Nat × List Node) :=
  if nodes.length = s.cfg.nodeCap then parseFail .capacityExceeded q
  else .ok (nodes.length, nodes ++ [e])

/-- The entry is a leaf of symbol `x`; a header may not name a symbol twice (R111). -/
def Node.isLeafOf (x : Word) : Node → Bool
  | .leaf sym _ => sym = x
  | .internal _ _ _ => false

/-- The symbol text of a leaf that starts at `p` with byte `c` (R111). -/
def parseSym (s : State) (pixel : Bool) (p : Nat) (c : Byte) : Except Raise (Word × Nat) :=
  if pixel then
    if !isDigit c then parseFail .malformedHeader p else parseDec s p
  else if c = byteSep ∨ c = byteClose ∨ c = byteEnd then parseFail .malformedHeader p
  else .ok (c.setWidth 32, p + 1)

/-- The leaf branch of parseNode (R111). -/
def parseLeaf (s : State) (pixel : Bool) (p : Nat) (c : Byte) (nodes : List Node) :
    Except Raise (Nat × Nat × List Node) := do
  let (sym, q) ← parseSym s pixel p c
  let q ← expectByte s q byteColon
  let (f, q) ← parseDec s q
  if nodes.any (Node.isLeafOf sym) then parseFail .malformedHeader p
  else
    let (i, nodes) ← allocNode s nodes (.leaf sym f) p
    return (i, q, nodes)

/-- The right slot at `q`: absent when CLOSE stands there, else a node that `parse` reads (R111). -/
def parseRight (s : State) (parse : Nat → List Node → Except Raise (Nat × Nat × List Node)) (q : Nat)
    (nodes : List Node) : Except Raise (Option Nat × Nat × List Node) := do
  let b ← byteIn s q
  if b = byteClose then return (none, q, nodes)
  else
    let (r, q, nodes) ← parse q nodes
    return (some r, q, nodes)

/-- The rest of the internal branch of parseNode after its OPEN at `p` (R111). -/
def parseInternal (s : State) (parse : Nat → List Node → Except Raise (Nat × Nat × List Node)) (p : Nat)
    (nodes : List Node) : Except Raise (Nat × Nat × List Node) := do
  let (l, q, nodes) ← parse (p + 1) nodes
  let q ← expectByte s q byteSep
  let (r, q, nodes) ← parseRight s parse q nodes
  let q ← expectByte s q byteClose
  let q ← expectByte s q byteColon
  let (f, q) ← parseDec s q
  let (i, nodes) ← allocNode s nodes (.internal f l r) p
  return (i, q, nodes)

/-- parseNode(p, d, V): the entry's index, the index after its text, and the entries allocated so far
(R111). `levels` is NODE_CAP - d, so that an internal node at depth NODE_CAP or more raises
CAPACITY_EXCEEDED. -/
def parseNode (s : State) (pixel : Bool) : (levels p : Nat) → List Node → Except Raise (Nat × Nat × List Node)
  | 0, p, nodes => do
    let c ← byteIn s p
    if c = byteOpen then parseFail .capacityExceeded p else parseLeaf s pixel p c nodes
  | levels + 1, p, nodes => do
    let c ← byteIn s p
    if c = byteOpen then parseInternal s (parseNode s pixel levels) p nodes else parseLeaf s pixel p c nodes

/-- What a header says: the tree, the variant, the index after END, and the pixel prefix (R111). -/
structure Header where
  tree : Tree
  pixel : Bool
  next : Nat
  size : Option (Word × Word)
  deriving DecidableEq, Repr

/-- The pixel prefix: width, height and the index after SEP (R72, R111). -/
def parsePixelSize (s : State) (p : Nat) : Except Raise (Word × Word × Nat) := do
  let (w, p) ← parseDec s p
  let p ← expectByte s p byteLetterX
  let (h, p) ← parseDec s p
  let p ← expectByte s p byteSep
  return (w, h, p)

/-- The tree at index `p`, where OPEN stands: the null tree, or a root node at depth 1 (R111). -/
def parseTree (s : State) (pixel : Bool) (p : Nat) : Except Raise (Tree × Nat) := do
  let b ← byteIn s (p + 1)
  if b = byteSep then
    let q ← expectByte s (p + 2) byteClose
    return (⟨[], none⟩, q)
  else
    let (i, q, nodes) ← parseNode s pixel (s.cfg.nodeCap - 1) p []
    return (⟨nodes, some i⟩, q)

/-- The tree and END from index `p` on (R111). -/
def parseTop (s : State) (pixel : Bool) (p : Nat) : Except Raise (Tree × Nat) := do
  let c ← byteIn s p
  if c ≠ byteOpen then parseFail .malformedHeader p
  else
    let (t, q) ← parseTree s pixel p
    let q ← expectByte s q byteEnd
    return (t, q)

/-- The header at IN_POS (R111). The first byte selects the variant (R77). -/
def parseHeader (s : State) : Except Raise Header := do
  let p := s.inPos.toNat
  let c ← byteIn s p
  if c = byteOpen then
    let (t, q) ← parseTop s false p
    return ⟨t, false, q, none⟩
  else if isDigit c then
    let (w, h, p) ← parsePixelSize s p
    let (t, q) ← parseTop s true p
    return ⟨t, true, q, some (w, h)⟩
  else parseFail .malformedHeader p

/-- What TC_PARSE writes when the header is well formed (R111). -/
def State.setHeader (s : State) (h : Header) : State :=
  { s with
    tree := some h.tree
    hdrVariant := h.pixel
    inPos := word h.next
    imgW := (h.size.map Prod.fst).getD s.imgW
    imgH := (h.size.map Prod.snd).getD s.imgH }

/-- The pseudocode of TC_PARSE (R111). -/
def tcParseBody (s : State) : Ran Unit :=
  let s := s.invalidateTreeCodes
  if s.cfg.inCap < s.inLen.toNat then raise .sourceUnavailable s.inLen.toNat s
  else (Ran.ofExcept (parseHeader s) s).bind fun h s => .ok () (s.setHeader h)

/-- TC_PARSE (R111). -/
def execTcParse (s : State) : Host.Outcome State Fault Refusal := complete (tcParseBody s)

end Sys2Proof.Machine
end

