-- ==== Sys2Proof/Machine/Compressor.lean ====
section
/-! DEFINITION. The Compressor: ENCODE and COMPRESS (47_compressor.md). -/

namespace Sys2Proof.Machine

/-- CT; no code while it is invalid (R45). -/
def State.ctOrEmpty (s : State) : CodeTable := s.ct.getD []

/-- The loop of ENCODE over the next `left` entries of SYM_MEM from index `i` on (R115). -/
def encodeLoop : (left i : Nat) → State → Ran Unit
  | 0, _, s => .ok () s
  | left + 1, i, s =>
    match s.ctOrEmpty.code? (s.symAt i) with
    | none => raise .invalidSymbol i s
    | some c => (writeBits c s).andThen (encodeLoop left (i + 1))

/-- The pseudocode of ENCODE after its state checks (R115). -/
def encodeBody (s : State) : Ran Unit :=
  if s.cfg.symCap < s.symCount.toNat then raise .sourceUnavailable s.symCount.toNat s
  else encodeLoop s.symCount.toNat 0 s

/-- ENCODE (R115). -/
def execEncodeSyms (s : State) : Host.Outcome State Fault Refusal :=
  complete (if !s.ctValid then raise .badState 0 s
    else if !s.bwOpen then raise .badState 0 s
    else encodeBody s)

/-- The start-of-command writes of COMPRESS (R116, R124). -/
def compressStart (s : State) : State := ({ s with outLen := 0 }).invalidateAll.freshWriter false

/-- The steps of COMPRESS after its code table is built (R116). -/
def compressEmit (s : State) : Ran Unit :=
  if s.nDistinct = 0 then (bwOpenBody s).andThen bwCloseBody
  else (((tcSerializeBody s).andThen bwOpenBody).andThen encodeBody).andThen bwCloseBody

/-- The pseudocode of COMPRESS (R116). -/
def compressBody (s : State) : Ran Unit :=
  (((fcCountBody (compressStart s)).andThen tbBuildBody).andThen ctBuildBody).andThen compressEmit

/-- COMPRESS (R116). -/
def execCompress (s : State) : Host.Outcome State Fault Refusal := complete (compressBody s)

end Sys2Proof.Machine
end

