-- ==== Sys2Proof/Machine/Control.lean ====
section
/-! DEFINITION. The control commands NOP and CLEAR (40_control.md). -/

namespace Sys2Proof.Machine

/-- NOP (R83). -/
def execNop (s : State) : Host.Outcome State Fault Refusal := complete (.ok () s)

/-- The pseudocode of CLEAR (R84). -/
def clearBody (s : State) : State :=
  { (s.invalidateAll.freshWriter false).clearReader.setRes 0 0 0 0 with hdrVariant := false }

/-- CLEAR (R84). -/
def execClear (s : State) : Host.Outcome State Fault Refusal := complete (.ok () (clearBody s))

end Sys2Proof.Machine
end

