-- ==== Sys2Proof/Machine/Decompressor.lean ====
section
/-! DEFINITION. The Decompressor: DECODE and DECOMPRESS (48_decompressor.md). -/

namespace Sys2Proof.Machine

/-- The child a bit descends to; `none` for an absent right child (R118).
The walk stands on an Internal entry in every state a run reaches. Log entry 9. -/
def Node.child (b : Bool) : Node → Option Nat
  | .internal _ l r => if b then r else some l
  | .leaf _ _ => none

/-- The decode walk over the next `left` bits: `cur` is the cursor, `k` the symbols decoded, and the value is
where the cursor stands at the end (R118). -/
def decodeLoop (t : Tree) (root : Nat) : (left cur k : Nat) → State → Ran (Nat × Nat)
  | 0, cur, k, s => .ok (cur, k) s
  | left + 1, cur, k, s =>
    (readBit s).bind fun b s =>
      match (s.nodeAt t cur).child b with
      | none => raise .malformedStream (s.brBitPos - 1) s
      | some nxt =>
        match s.nodeAt t nxt with
        | .internal _ _ _ => decodeLoop t root left nxt k s
        | .leaf sym _ =>
          if k = s.cfg.symCap then raise .capacityExceeded k s
          else decodeLoop t root left root (k + 1) ((s.setSym k sym).setSymCount (k + 1))

/-- The pseudocode of DECODE after its state checks (R118). -/
def decodeBody (s : State) : Ran Unit :=
  let t := s.treeOrNull
  let s := s.setSymCount 0
  match t.root with
  | none => if s.brBitPos < s.brTotal then raise .malformedStream s.brBitPos s else .ok () s
  | some root =>
    (decodeLoop t root (s.brTotal - s.brBitPos) root 0 s).bind fun (cur, k) s =>
      if cur ≠ root then raise .truncatedStream k s else .ok () s

/-- DECODE (R118). -/
def execDecodeSyms (s : State) : Host.Outcome State Fault Refusal :=
  complete (if !s.treeValid then raise .badState 0 s
    else if !s.brOpen then raise .badState 0 s
    else decodeBody s)

/-- The start-of-command writes of DECOMPRESS (R119, R124). -/
def decompressStart (s : State) : State := ({ s with inPos := 0 }).invalidateAll.clearReader

/-- What DECOMPRESS writes for the empty-input file (R119). -/
def State.setEmptyFile (s : State) : State :=
  { s with tree := some ⟨[], none⟩, hdrVariant := false, symCount := 0, imgW := 0, imgH := 0 }

/-- The pseudocode of DECOMPRESS (R119). -/
def decompressBody (s : State) : Ran Unit :=
  let s := decompressStart s
  let len := s.inLen.toNat
  if s.cfg.inCap < len then raise .sourceUnavailable len s
  else if len < 2 then raise .truncatedStream len s
  else if s.inAt 0 = 0 then
    if s.inAt 1 ≠ 0 then raise .malformedHeader 1 s
    else if len ≠ 2 then raise .malformedHeader 2 s
    else .ok () s.setEmptyFile
  else ((tcParseBody s).andThen brOpenBody).andThen decodeBody

/-- DECOMPRESS (R119). -/
def execDecompress (s : State) : Host.Outcome State Fault Refusal := complete (decompressBody s)

end Sys2Proof.Machine
end

