-- ==== Sys2Proof/Machine/Dispatch.lean ====
section
/-! DEFINITION. The dispatch of a decoded command to its meaning (40_control.md rule R79). -/

namespace Sys2Proof.Machine

def exec (i : Instr) (s : State) : Host.Outcome State Fault Refusal :=
  match i with
  | .nop => Sys2Proof.Machine.execNop s
  | .clear => Sys2Proof.Machine.execClear s
  | .fcCount => Sys2Proof.Machine.execFcCount s
  | .qFreq => Sys2Proof.Machine.execQFreq s
  | .tbBuild => Sys2Proof.Machine.execTbBuild s
  | .qNode => Sys2Proof.Machine.execQNode s
  | .ctBuild => Sys2Proof.Machine.execCtBuild s
  | .qCode => Sys2Proof.Machine.execQCode s
  | .bwOpen => Sys2Proof.Machine.execBwOpen s
  | .bwWrite n => Sys2Proof.Machine.execBwWrite n s
  | .bwClose => Sys2Proof.Machine.execBwClose s
  | .brOpen => Sys2Proof.Machine.execBrOpen s
  | .brRead n => Sys2Proof.Machine.execBrRead n s
  | .tcSerialize => Sys2Proof.Machine.execTcSerialize s
  | .tcParse => Sys2Proof.Machine.execTcParse s
  | .encodeSyms => Sys2Proof.Machine.execEncodeSyms s
  | .compress => Sys2Proof.Machine.execCompress s
  | .decodeSyms => Sys2Proof.Machine.execDecodeSyms s
  | .decompress => Sys2Proof.Machine.execDecompress s

end Sys2Proof.Machine
end

