-- ==== Sys2Proof/Machine/HostPort.lean ====
section
/-! DEFINITION. The host port: the register block (10_state.md rule R22), the three windows
(20_memory.md rules R49, R51), accesses while BUSY = 1 (R58) and the accesses a model refuses (R50). -/

namespace Sys2Proof.Machine

/-- The registers of R22, in the order of their offsets. -/
inductive RegName where
  | id | version | capSym | capIn | capOut | capDistinct | capNode
  | ctrl | irqEn | status | cmd | arg0 | arg1 | errKind | errInfo
  | res0 | res1 | res2 | res3 | symCount | inLen | inPos | outLen | outBudget
  | imgW | imgH | nDistinct | nodeCount | root | bitCount | brRemain
  deriving DecidableEq, Repr

/-- The byte offset of a register (R22). -/
def regOffset : RegName → Nat
  | .id => 0x000 | .version => 0x004 | .capSym => 0x008 | .capIn => 0x00C | .capOut => 0x010
  | .capDistinct => 0x014 | .capNode => 0x018
  | .ctrl => 0x020 | .irqEn => 0x024 | .status => 0x028 | .cmd => 0x02C | .arg0 => 0x030 | .arg1 => 0x034
  | .errKind => 0x038 | .errInfo => 0x03C
  | .res0 => 0x040 | .res1 => 0x044 | .res2 => 0x048 | .res3 => 0x04C
  | .symCount => 0x050 | .inLen => 0x054 | .inPos => 0x058 | .outLen => 0x05C | .outBudget => 0x060
  | .imgW => 0x064 | .imgH => 0x068 | .nDistinct => 0x06C | .nodeCount => 0x070 | .root => 0x074
  | .bitCount => 0x078 | .brRemain => 0x07C

/-- The register at a byte offset; `none` for the reserved offsets (R22). -/
def regAt : Nat → Option RegName
  | 0x000 => some .id | 0x004 => some .version | 0x008 => some .capSym | 0x00C => some .capIn
  | 0x010 => some .capOut | 0x014 => some .capDistinct | 0x018 => some .capNode
  | 0x020 => some .ctrl | 0x024 => some .irqEn | 0x028 => some .status | 0x02C => some .cmd
  | 0x030 => some .arg0 | 0x034 => some .arg1 | 0x038 => some .errKind | 0x03C => some .errInfo
  | 0x040 => some .res0 | 0x044 => some .res1 | 0x048 => some .res2 | 0x04C => some .res3
  | 0x050 => some .symCount | 0x054 => some .inLen | 0x058 => some .inPos | 0x05C => some .outLen
  | 0x060 => some .outBudget | 0x064 => some .imgW | 0x068 => some .imgH | 0x06C => some .nDistinct
  | 0x070 => some .nodeCount | 0x074 => some .root | 0x078 => some .bitCount | 0x07C => some .brRemain
  | _ => none

/-- What an offset of the host port names (R49); window entries are words of the window. -/
inductive Place where
  | reg (r : RegName)
  | reserved
  | sym (i : Nat)
  | inWord (k : Nat)
  | outWord (k : Nat)
  deriving DecidableEq, Repr

/-- The address map, for an offset that is a multiple of 4 (R49). -/
def placeAt (off : Offset) : Place :=
  let a := off.toNat
  if a < 0x100000 then
    match regAt a with
    | some r => .reg r
    | none => .reserved
  else if a < 0x200000 then .sym ((a - 0x100000) / 4)
  else if a < 0x300000 then .inWord ((a - 0x200000) / 4)
  else .outWord ((a - 0x300000) / 4)

/-! ### Registers -/

/-- A read of a register (R22 to R38). -/
def State.readReg (s : State) : RegName → Word
  | .id => 0x48554646
  | .version => 0x00010007
  | .capSym => word s.cfg.symCap
  | .capIn => word s.cfg.inCap
  | .capOut => word s.cfg.outCap
  | .capDistinct => word s.cfg.maxDistinct
  | .capNode => word s.cfg.nodeCap
  | .ctrl => flagBit s.variant 0
  | .irqEn => flagBit s.doneIe 0 ||| flagBit s.errIe 1
  | .status => s.status
  | .cmd => s.cmd
  | .arg0 => s.arg0
  | .arg1 => s.arg1
  | .errKind => word s.errKind.code
  | .errInfo => s.errInfo
  | .res0 => s.res0
  | .res1 => s.res1
  | .res2 => s.res2
  | .res3 => s.res3
  | .symCount => s.symCount
  | .inLen => s.inLen
  | .inPos => s.inPos
  | .outLen => s.outLen
  | .outBudget => s.outBudget
  | .imgW => s.imgW
  | .imgH => s.imgH
  | .nDistinct => word s.nDistinct
  | .nodeCount => word s.nodeCount
  | .root => s.rootWord
  | .bitCount => s.bitCountWord
  | .brRemain => word s.brRemain

/-- min(value, OUT_CAP), what a WARL register stores (R33, R34). -/
def State.clampOut (s : State) (v : Word) : Word := if s.cfg.outCap < v.toNat then word s.cfg.outCap else v

/-- A write of a register while BUSY = 0; a read-only register ignores it (R22 to R38, R78). -/
def State.writeReg (s : State) (r : RegName) (v : Word) : State :=
  match r with
  | .ctrl => { s with variant := v.getLsbD 0 }
  | .irqEn => { s with doneIe := v.getLsbD 0, errIe := v.getLsbD 1 }
  | .status => s.acknowledge v
  | .cmd => s.accept v
  | .arg0 => { s with arg0 := v }
  | .arg1 => { s with arg1 := v }
  | .symCount => { s with symCount := v }
  | .inLen => { s with inLen := v }
  | .inPos => { s with inPos := v }
  | .outLen => { s with outLen := s.clampOut v }
  | .outBudget => { s with outBudget := s.clampOut v }
  | .imgW => { s with imgW := v }
  | .imgH => { s with imgH := v }
  | .id | .version | .capSym | .capIn | .capOut | .capDistinct | .capNode | .errKind | .errInfo
  | .res0 | .res1 | .res2 | .res3 | .nDistinct | .nodeCount | .root | .bitCount | .brRemain => s

/-- The registers whose value a read returns even while BUSY = 1 (R22, R58). -/
def RegName.readsWhileBusy : RegName → Bool
  | .id | .version | .capSym | .capIn | .capOut | .capDistinct | .capNode | .irqEn | .status | .cmd => true
  | .ctrl | .arg0 | .arg1 | .errKind | .errInfo | .res0 | .res1 | .res2 | .res3 | .symCount | .inLen | .inPos
  | .outLen | .outBudget | .imgW | .imgH | .nDistinct | .nodeCount | .root | .bitCount | .brRemain => false

/-- The registers a host write may change (R22). -/
def RegName.writable : RegName → Bool
  | .ctrl | .irqEn | .status | .cmd | .arg0 | .arg1 | .symCount | .inLen | .inPos | .outLen | .outBudget
  | .imgW | .imgH => true
  | .id | .version | .capSym | .capIn | .capOut | .capDistinct | .capNode | .errKind | .errInfo
  | .res0 | .res1 | .res2 | .res3 | .nDistinct | .nodeCount | .root | .bitCount | .brRemain => false

/-! ### Windows -/

/-- The little-endian word of four byte lanes, where a lane at or beyond the capacity reads 0 (R49, R51). -/
def lanesWord (cap : Nat) (byteAt : Nat → Byte) (k : Nat) : Word :=
  let lane := fun j : Nat => if 4 * k + j < cap then byteAt (4 * k + j) else 0
  lane 3 ++ lane 2 ++ lane 1 ++ lane 0

/-- Byte lane `j` of a word (R51). -/
def laneOf (v : Word) (j : Nat) : Byte := v.extractLsb' (8 * j) 8

/-- Write the lanes of a word that are below the capacity (R51). -/
def writeLanes (cap : Nat) (set : State → Nat → Byte → State) (s : State) (k : Nat) (v : Word) : State :=
  [0, 1, 2, 3].foldl (fun s j => if 4 * k + j < cap then set s (4 * k + j) (laneOf v j) else s) s

/-- A read of a place while BUSY = 0 (R49). -/
def State.readPlace (s : State) : Place → Word
  | .reg r => s.readReg r
  | .reserved => 0
  | .sym i => if i < s.cfg.symCap then s.symAt i else 0
  | .inWord k => lanesWord s.cfg.inCap s.inAt k
  | .outWord k => lanesWord s.cfg.outCap s.outAt k

/-- A write of a place while BUSY = 0 (R49). -/
def State.writePlace (s : State) (v : Word) : Place → State
  | .reg r => s.writeReg r v
  | .reserved => s
  | .sym i => if i < s.cfg.symCap then s.setSym i v else s
  | .inWord k => writeLanes s.cfg.inCap State.setIn s k v
  | .outWord k => writeLanes s.cfg.outCap State.setOut s k v

/-- The place is a window word at or beyond the buffer's capacity, which is RAZ/WI (R49, X4). -/
def State.isHole (s : State) : Place → Bool
  | .reg _ => false
  | .reserved => false
  | .sym i => decide (s.cfg.symCap ≤ i)
  | .inWord k => decide (s.cfg.inCap ≤ 4 * k)
  | .outWord k => decide (s.cfg.outCap ≤ 4 * k)

/-! ### Accesses while BUSY = 1 (R58) -/

/-- A read of the place is defined while BUSY = 1 (R58). -/
def Place.readsWhileBusy : Place → Bool
  | .reg r => r.readsWhileBusy
  | .reserved => true
  | .sym _ => false
  | .inWord _ => false
  | .outWord _ => false

/-- Draw a free value for a host read of an unspecified value (U3). -/
def State.drawRead (s : State) : State :=
  { s with readData := some (Config.freeRead s.drawn), drawn := s.drawn + 1 }

/-- Set BUSY_WR: a host write was dropped or rejected (R58, R78). -/
def State.noteDropped (s : State) : State := { s with busyWr := true }

/-- A dropped write of a window word beyond the capacity: whether it sets BUSY_WR is free. Log entry 7. -/
def State.noteHoleWrite (s : State) : State :=
  { s with busyWr := s.busyWr || Config.freeHoleSetsBusyWr s.drawn, drawn := s.drawn + 1 }

/-- A host write while BUSY = 1 (R58): IRQ_EN and W1C take effect, CMD rejects (R78), read-only and reserved
places ignore it, and every other write is dropped and noted. -/
def State.busyWrite (s : State) (p : Place) (v : Word) : State :=
  match p with
  | .reserved => s
  | .reg .irqEn => s.writeReg .irqEn v
  | .reg .status => s.writeReg .status v
  | .reg r => if r.writable then s.noteDropped else s
  | .sym i => if s.isHole (.sym i) then s.noteHoleWrite else s.noteDropped
  | .inWord k => if s.isHole (.inWord k) then s.noteHoleWrite else s.noteDropped
  | .outWord k => if s.isHole (.outWord k) then s.noteHoleWrite else s.noteDropped

/-! ### One host event -/

/-- The access is one the block defines: 32 bits wide at a multiple of 4 (R50). -/
def accessOk (bytes : Nat) (off : Offset) : Bool := decide (bytes = 4 ∧ off.toNat % 4 = 0)

/-- A 32-bit host read: its data, and no side effect (R49, R58). -/
def State.hostRead (s : State) (off : Offset) : State :=
  if s.busy && !(placeAt off).readsWhileBusy then s.drawRead
  else { s with readData := some (s.readPlace (placeAt off)) }

/-- A 32-bit host write (R49, R58, R78). -/
def State.hostWrite (s : State) (off : Offset) (v : Word) : State :=
  if s.busy then s.busyWrite (placeAt off) v else s.writePlace v (placeAt off)

/-- A host event takes effect. -/
def hostEvent (e : HostEvent) (s : State) : Host.Outcome State Fault Refusal :=
  match e with
  | .read bytes off => if accessOk bytes off then .next (s.hostRead off) else .refused (.unsupportedAccess bytes off)
  | .write bytes off v =>
    if accessOk bytes off then .next (s.hostWrite off v) else .refused (.unsupportedAccess bytes off)
  | .reset => .next s.platformReset

/-- The next host event takes effect; with none, the block is idle and changes nothing (R134). -/
def hostStep (s : State) : Host.Outcome State Fault Refusal :=
  match s.inbox with
  | [] => .next s
  | e :: rest => hostEvent e.event { s with inbox := rest }

/-- The next host event lands before the Engine performs the latched command (I7). Log entry 1. -/
def State.hostFirst (s : State) : Bool :=
  match s.inbox with
  | [] => false
  | e :: _ => e.early

end Sys2Proof.Machine
end

