-- ==== Sys2Proof/Machine/Engine.lean ====
section
/-! DEFINITION. The Engine's step on a latched word (40_control.md rule R79), which agent moves, and how a
command word comes into the latch. -/

namespace Sys2Proof.Machine

/-- The Engine performs the latched word: the command it selects, or ILLEGAL_COMMAND(w) (R66, R79, R124). -/
def engineStep (w : Word) (s : State) : Host.Outcome State Fault Refusal :=
  match decode w with
  | .ok i => exec i s
  | .error _ => complete (raise .illegalCommand w.toNat s)

/-- The agent that moves: the Engine when a word is latched, unless a host event lands before it; else the
Host (R8, R58). -/
def agentStep (s : State) : Host.Outcome State Fault Refusal :=
  match s.latch with
  | some w => if s.hostFirst then hostStep s else engineStep w s
  | none => hostStep s

/-- The word is accepted as by a host write to CMD (R78), with no host event left that lands before the
Engine's step. -/
def State.loadWord (s : State) (w : Word) : State := { s.accept w with inbox := [] }

end Sys2Proof.Machine
end

