-- ==== Sys2Proof/Machine/Step.lean ====
section
/-! DEFINITION. One step of HUFFCORE (00_scope.md rules R7, R8), and the placing of a command word where
the next step finds it. -/

namespace Sys2Proof.Machine

/-- One step: the Engine performs the latched command, or the next host event takes effect.
A configuration that breaks R10 or R11 is refused (R11, I6). -/
def step (s : State) : Host.Outcome State Fault Refusal :=
  if s.cfg.legal then agentStep s else .refused .illegalConfiguration

/-- `s` with the command word in the latch, so that the next step performs it.
HUFFCORE fetches nothing (R61): a program is the sequence of words the Host writes to CMD, and this stands
for the acceptance of one of them (R78). Log entry 10. -/
def State.withFetchWord (s : State) (nbits w : Nat) : State := s.loadWord (word (w % 2 ^ min nbits 32))

end Sys2Proof.Machine
end

