-- ==== Sys2Proof/Machine/HostProgram.lean ====
section
/-! DEFINITION. Host programs (30_encoding.md rules R67, R68): their statements, the pseudo-instructions and
their expansions, and how the Host runs one statement against the block.
They are the Host's side of the port: no step of the block depends on them. -/

namespace Sys2Proof.Machine

/-- The buffer a window shows (R49). -/
inductive BufName where
  | sym
  | inp
  | out
  deriving DecidableEq, Repr

/-- A statement of a host program (R67).
`wrLane` is the second statement of WRB, a `WRW` whose value is the word last read with one lane changed
(R68). -/
inductive HostStmt where
  | wr (r : RegName) (v : Word)
  | rd (r : RegName)
  | wrw (b : BufName) (k : Nat) (v : Word)
  | rdw (b : BufName) (k : Nat)
  | issue (i : Instr)
  | label (l : Nat)
  | bnz (r : RegName) (m : Word) (l : Nat)
  | bz (r : RegName) (m : Word) (l : Nat)
  | wrLane (b : BufName) (a : Nat) (v : Byte)
  deriving DecidableEq, Repr

/-- A pseudo-instruction (R68); `l` is the label its loop uses. -/
inductive HostPseudo where
  | wait (l : Nat)
  | run (i : Instr) (l : Nat)
  | ack
  | wrb (b : BufName) (a : Nat) (v : Byte)
  | loadb (bs : List Byte)
  | loads (xs : List Word)
  deriving DecidableEq, Repr

/-! ### Expansions (R68) -/

/-- `L: RD STATUS`, `BNZ STATUS, 0x1, L`. -/
def expandWait (l : Nat) : List HostStmt := [.label l, .rd .status, .bnz .status 1 l]

/-- The word of four byte lanes, lane 0 in bits 7:0 (R51). -/
def packLanes (b0 b1 b2 b3 : Byte) : Word := b3 ++ b2 ++ b1 ++ b0

/-- Bytes as the words LOADB writes; the missing bytes of the last word are 0. -/
def packWords : List Byte → List Word
  | [] => []
  | [b0] => [packLanes b0 0 0 0]
  | [b0, b1] => [packLanes b0 b1 0 0]
  | [b0, b1, b2] => [packLanes b0 b1 b2 0]
  | b0 :: b1 :: b2 :: b3 :: bs => packLanes b0 b1 b2 b3 :: packWords bs

/-- The expansion of a pseudo-instruction.
R68 gives WRB for IN and OUT only, and SYM has no lanes (R51); that WRB on SYM changes one byte of the word SYM[a/4] is
a DESIGN CHOICE, log entry 12.
So is the expansion of a LOADB or LOADS of no value, which R68 does not write. -/
def HostPseudo.expand : HostPseudo → List HostStmt
  | .wait l => expandWait l
  | .run i l => .issue i :: expandWait l
  | .ack => [.wr .status 0x0000000E]
  | .wrb b a v => [.rdw b (a / 4), .wrLane b a v]
  | .loadb bs => (packWords bs).mapIdx (fun k w => .wrw .inp k w) ++ [.wr .inLen (word bs.length)]
  | .loads xs => xs.mapIdx (fun i x => .wrw .sym i x) ++ [.wr .symCount (word xs.length)]

/-! ### Running a statement -/

/-- The byte offset of word `k` of a window (R49).
R67 names only words of the window, k < 0x40000, and is silent beyond it; that the offset is then computed modulo
2^22, so that SYM[0x40000] lies in the IN window and OUT[0x40000] at offset 0, is a DESIGN CHOICE, log entry 12. -/
def windowOffset (b : BufName) (k : Nat) : Offset :=
  match b with
  | .sym => BitVec.ofNat 22 (0x100000 + 4 * k)
  | .inp => BitVec.ofNat 22 (0x200000 + 4 * k)
  | .out => BitVec.ofNat 22 (0x300000 + 4 * k)

/-- The byte offset of a register, as an offset of the port (R22). -/
def portOffset (r : RegName) : Offset := BitVec.ofNat 22 (regOffset r)

/-- (w & ~(0xFF << 8*(a&3))) | (v << 8*(a&3)) (R68). -/
def replaceLane (w : Word) (a : Nat) (v : Byte) : Word :=
  (w &&& ~~~(0xFF#32 <<< (8 * (a % 4)))) ||| (v.setWidth 32 <<< (8 * (a % 4)))

/-- A running host program: the statement it stands at, the last word read, and the values read, newest first
(R67). -/
structure HostRun where
  program : List HostStmt
  pos : Nat
  lastRead : Word
  seen : List (RegName × Word)
  deriving DecidableEq, Repr

/-- The place of a label: the program goes on at the statement after it (R67).
R67 and R68 are silent on a label that stands on two statements, and on one that stands on none; that the first one
counts, and that the program ends without one, are DESIGN CHOICES, log entry 12. -/
def HostRun.labelAt (h : HostRun) (l : Nat) : Nat := h.program.findIdx (fun st => decide (st = .label l))

/-- The bus access of a statement: every statement but a label and a branch is one (R67).
The word of an ISSUE whose N does not fit its field is a DESIGN CHOICE of `encode`, log entry 12. -/
def HostStmt.access (lastRead : Word) : HostStmt → Option HostEvent
  | .wr r v => some (.write 4 (portOffset r) v)
  | .rd r => some (.read 4 (portOffset r))
  | .wrw b k v => some (.write 4 (windowOffset b k) v)
  | .rdw b k => some (.read 4 (windowOffset b k))
  | .issue i => some (.write 4 (portOffset .cmd) (encode i))
  | .wrLane b a v => some (.write 4 (windowOffset b (a / 4)) (replaceLane lastRead a v))
  | .label _ => none
  | .bnz _ _ _ => none
  | .bz _ _ _ => none

/-- The next statement. -/
def HostRun.next (h : HostRun) : HostRun := { h with pos := h.pos + 1 }

/-- A branch that is taken when `cond` holds of (the last value read of REG) AND m (R67).
`none` when the program has not read the register, which R67 gives no meaning. -/
def HostRun.branch (h : HostRun) (r : RegName) (m : Word) (l : Nat) (cond : Word → Bool) : Option HostRun :=
  (h.seen.lookup r).map fun v => if cond (v &&& m) then { h with pos := h.labelAt l } else h.next

/-- The Host takes note of what a read returned. -/
def HostRun.note (h : HostRun) (st : HostStmt) (data : Option Word) : HostRun :=
  match st, data with
  | .rd r, some v => { h with lastRead := v, seen := (r, v) :: h.seen }
  | .rdw _ _, some v => { h with lastRead := v }
  | .rd _, none | .rdw _ _, none | .wr _ _, _ | .wrw _ _ _, _ | .issue _, _ | .label _, _ | .bnz _ _ _, _
  | .bz _ _ _, _ | .wrLane _ _ _, _ => h

/-- The Host runs the statement at `pos` against the block: an access takes effect at once (R57).
`none` at the end of the program. -/
def HostRun.step (h : HostRun) (s : State) : Option (HostRun × Host.Outcome State Fault Refusal) :=
  match h.program[h.pos]? with
  | none => none
  | some st =>
    match st with
    | .label _ => some (h.next, .next s)
    | .bnz r m l => (h.branch r m l fun v => v != 0).map fun h' => (h', .next s)
    | .bz r m l => (h.branch r m l fun v => v == 0).map fun h' => (h', .next s)
    | .wr _ _ | .rd _ | .wrw _ _ _ | .rdw _ _ | .issue _ | .wrLane _ _ _ =>
      match st.access h.lastRead with
      | none => none
      | some e =>
        match hostEvent e s with
        | .next t => some (h.next.note st t.readData, .next t)
        | .fault f => some (h, .fault f)
        | .refused r => some (h, .refused r)

end Sys2Proof.Machine
end

