-- ==== Sys2Proof/Safety.lean ====
section
/-! DEFINITION. The terms claims use: when a state is well formed (10_state.md rules R41 to R47), what a
tree, a stream of bits, the text of a header and a file are as plain data, and what it means that a command wrote
bits. -/

namespace Sys2Proof.Machine

/-! ### Bytes and bits (R52, R76) -/

/-- `bs` stands from index `a` on. -/
def BytesAt (read : Nat → Byte) (a : Nat) (bs : List Byte) : Prop :=
  ∀ (k : Nat) (h : k < bs.length), read (a + k) = bs[k]

/-- The bits of a byte, bit 7 first (R52). -/
def byteBits (b : Byte) : List Bool := (List.range 8).map fun j => b.getLsbD (7 - j)

/-- The bits of bytes, in order (R52). -/
def bytesBits (bs : List Byte) : List Bool := bs.flatMap byteBits

/-- `bytes` is a stream that carries the valid bits `bits` and zero padding: full bytes, a last data byte,
and the trailer that counts its valid bits (R76). -/
structure IsStream (bytes : List Byte) (bits : List Bool) : Prop where
  length_eq : bytes.length = bits.length / 8 + 2
  data_eq : bytesBits bytes.dropLast = bits ++ List.replicate (8 - bits.length % 8) false
  trailer_eq : bytes.getLast? = some (BitVec.ofNat 8 (bits.length % 8))

/-- `bytes` is a stream that carries the valid bits `bits`: n >= 2 bytes whose last one, the trailer, is at most 8
and makes the number of valid bits 8*(n-2) + trailer, with valid bit k in bit 7 - (k mod 8) of byte floor(k/8).
The padding is free (R76). -/
structure CarriesBits (bytes : List Byte) (bits : List Bool) : Prop where
  length_ge : 2 ≤ bytes.length
  trailer : ∃ v, bytes.getLast? = some v ∧ v.toNat ≤ 8 ∧ bits.length = 8 * (bytes.length - 2) + v.toNat
  bit : ∀ k b, bits[k]? = some b → ∃ x, bytes[k / 8]? = some x ∧ x.getLsbD (7 - k % 8) = b

/-- The bytes that can still be emitted: none when OUT_LEN is at or above OUT_BUDGET (R97). -/
def State.room (s : State) : Nat := s.outBudget.toNat - s.outLen.toNat

/-- The bits in BW_ACC that no emitted byte holds yet, oldest first (R46). -/
def State.pendingBits (s : State) : List Bool :=
  (List.range s.bwNbits.val).map fun j => s.bwAcc.getLsbD (s.bwNbits.val - 1 - j)

/-- OUT_MEM[a .. a+n-1]. -/
def State.outBytes (s : State) (a n : Nat) : List Byte := (List.range n).map fun k => s.outAt (a + k)

/-- From `s`, the writer took `bits` and reached `t`: the bytes they filled stand from the old OUT_LEN on,
the others are pending, BIT_COUNT counts them, and nothing else changed (R97, R98). -/
structure WroteBits (bits : List Bool) (s t : State) : Prop where
  outLen_eq : t.outLen.toNat = s.outLen.toNat + (s.bwNbits.val + bits.length) / 8
  nbits_eq : t.bwNbits.val = (s.bwNbits.val + bits.length) % 8
  bits_eq : bytesBits (t.outBytes s.outLen.toNat ((s.bwNbits.val + bits.length) / 8)) ++ t.pendingBits =
    s.pendingBits ++ bits
  bitCount_eq : t.bitCount = s.bitCount + bits.length
  out_frame : ∀ a, a < s.outLen.toNat ∨ t.outLen.toNat ≤ a → t.outAt a = s.outAt a
  frame : t = { s with outLen := t.outLen, outMem := t.outMem, bwAcc := t.bwAcc, bwNbits := t.bwNbits, bitCount := t.bitCount }

/-- From `s`, bytes were emitted and `t` was reached: they stand from the old OUT_LEN on, and nothing else
changed (R97). -/
structure EmittedBytes (bytes : List Byte) (s t : State) : Prop where
  outLen_eq : t.outLen.toNat = s.outLen.toNat + bytes.length
  bytes_at : BytesAt t.outAt s.outLen.toNat bytes
  out_frame : ∀ a, a < s.outLen.toNat ∨ s.outLen.toNat + bytes.length ≤ a → t.outAt a = s.outAt a
  frame : t = { s with outLen := t.outLen, outMem := t.outMem }

/-! ### Trees (R42, R43, R113) -/

/-- The children of an entry (R42). -/
def Node.children : Node → List Nat
  | .leaf _ _ => []
  | .internal _ l none => [l]
  | .internal _ l (some r) => [l, r]

/-- The symbol of a leaf. -/
def Node.sym? : Node → Option Word
  | .leaf sym _ => some sym
  | .internal _ _ _ => none

/-- The frequency of an entry. -/
def Node.freq : Node → Word
  | .leaf _ f => f
  | .internal f _ _ => f

/-- The tree conditions of R42 and R43: ROOT is the last entry and an Internal one, or NIL when there is no
entry; children have lower indices, so no entry is its own descendant; every entry but ROOT is a child
exactly once; and no symbol has two leaves. -/
structure Tree.Ok (t : Tree) : Prop where
  root_eq : t.root = if t.nodes = [] then none else some (t.nodes.length - 1)
  root_internal : ∀ r, t.root = some r → ∃ f l c, t.nodes[r]? = some (.internal f l c)
  below : ∀ (i : Nat) (n : Node), t.nodes[i]? = some n → ∀ c ∈ n.children, c < i
  owned : (t.nodes.flatMap Node.children).Perm (List.range (t.nodes.length - 1))
  distinct : (t.nodes.filterMap Node.sym?).Nodup

/-- The entry a path of descents reaches from entry `i` (R44). -/
def Tree.reach (t : Tree) : Nat → Code → Option Node
  | i, [] => t.nodes[i]?
  | i, b :: bs =>
    match t.nodes[i]? with
    | none => none
    | some n =>
      match n.child b with
      | none => none
      | some j => t.reach j bs

/-- `c` is the code of `x`: the path from ROOT to a leaf of `x` (R44). -/
def Tree.IsCode (t : Tree) (x : Word) (c : Code) : Prop :=
  ∃ r f, t.root = some r ∧ t.reach r c = some (.leaf x f)

/-- A tree without its indices: what two trees of the same shape share (R113). -/
inductive Shape where
  | leaf (sym freq : Word)
  | one (freq : Word) (left : Shape)
  | two (freq : Word) (left right : Shape)
  deriving DecidableEq, Repr

/-- The subtree at entry `i` has the shape (R113). -/
def Tree.HasShape (t : Tree) : Shape → Nat → Prop
  | .leaf sym f, i => t.nodes[i]? = some (.leaf sym f)
  | .one f a, i => ∃ l, t.nodes[i]? = some (.internal f l none) ∧ t.HasShape a l
  | .two f a b, i => ∃ l r, t.nodes[i]? = some (.internal f l (some r)) ∧ t.HasShape a l ∧ t.HasShape b r

/-- The symbols of a shape's leaves, left to right. -/
def Shape.syms : Shape → List Word
  | .leaf sym _ => [sym]
  | .one _ a => a.syms
  | .two _ a b => a.syms ++ b.syms

/-- The entries a shape needs. -/
def Shape.size : Shape → Nat
  | .leaf _ _ => 1
  | .one _ a => a.size + 1
  | .two _ a b => a.size + b.size + 1

/-- The shape is not a lone leaf (R43). -/
def Shape.isInternal : Shape → Bool
  | .leaf _ _ => false
  | .one _ _ => true
  | .two _ _ _ => true

/-- The serialization of R73, by shape. -/
def Shape.text (pixel : Bool) : Shape → List Byte
  | .leaf sym f => symText sym pixel ++ [byteColon] ++ decText f
  | .one f a => [byteOpen] ++ a.text pixel ++ [byteSep, byteClose, byteColon] ++ decText f
  | .two f a b => [byteOpen] ++ a.text pixel ++ [byteSep] ++ b.text pixel ++ [byteClose, byteColon] ++ decText f

/-- A header: the pixel prefix, the tree or OPEN SEP CLOSE for the null tree, and END (R72, R73). -/
def headerOf (pixel : Bool) (w h : Word) (shape : Option Shape) : List Byte :=
  (if pixel then decText w ++ [byteLetterX] ++ decText h ++ [byteSep] else []) ++
  (match shape with
    | none => [byteOpen, byteSep, byteClose]
    | some sh => sh.text pixel) ++ [byteEnd]

/-- The whole tree has the shape; `none` is the null tree. -/
def Tree.HasWholeShape (t : Tree) : Option Shape → Prop
  | none => t = ⟨[], none⟩
  | some sh => ∃ r, t.root = some r ∧ t.HasShape sh r

/-! ### Headers as text (R70 to R72, R109, R111) -/

/-- The digit bytes spell the number `v`; leading zeros are allowed (R70). -/
structure Numeral (text : List Byte) (v : Word) : Prop where
  ne_nil : text ≠ []
  digits : ∀ b ∈ text, isDigit b = true
  value : text.foldl (fun n c => 10 * n + digitValue c) 0 = v.toNat

/-- The text spells the symbol of a leaf: a number in the pixel variant, else the symbol's byte, which is no
control byte (R71). -/
def SymText (pixel : Bool) (text : List Byte) (x : Word) : Prop :=
  if pixel then Numeral text x else text = [x.setWidth 8] ∧ validSym x false = true

/-- The text is a `node` of the grammar, of the given shape (R72). -/
inductive NodeText (pixel : Bool) : List Byte → Shape → Prop where
  | leaf {a b x f} : SymText pixel a x → Numeral b f → NodeText pixel (a ++ [byteColon] ++ b) (.leaf x f)
  | one {a b l f} : NodeText pixel a l → Numeral b f →
      NodeText pixel ([byteOpen] ++ a ++ [byteSep, byteClose, byteColon] ++ b) (.one f l)
  | two {a b c l r f} : NodeText pixel a l → NodeText pixel b r → Numeral c f →
      NodeText pixel ([byteOpen] ++ a ++ [byteSep] ++ b ++ [byteClose, byteColon] ++ c) (.two f l r)

/-- The text is the `pixel_prefix` of width `w` and height `h`, empty in the character variant (R72). -/
def PrefixText (pixel : Bool) (w h : Word) (text : List Byte) : Prop :=
  if pixel then ∃ a b, text = a ++ [byteLetterX] ++ b ++ [byteSep] ∧ Numeral a w ∧ Numeral b h else text = []

/-- The text is the `top` of a header: the null tree or an internal node (R72). -/
def TopText (pixel : Bool) (text : List Byte) : Option Shape → Prop
  | none => text = [byteOpen, byteSep, byteClose]
  | some sh => sh.isInternal = true ∧ NodeText pixel text sh

/-- The text is a `header` of the grammar (R72). -/
def HeaderText (pixel : Bool) (w h : Word) (shape : Option Shape) (text : List Byte) : Prop :=
  ∃ a b, text = a ++ b ++ [byteEnd] ∧ PrefixText pixel w h a ∧ TopText pixel b shape

/-- The entries of a shape in post-order, allocated from index `base` on (R112). -/
def Shape.entries : Shape → (base : Nat) → List Node
  | .leaf x f, _ => [.leaf x f]
  | .one f a, base => a.entries base ++ [.internal f (base + a.size - 1) none]
  | .two f a b, base =>
    a.entries base ++ b.entries (base + a.size) ++
      [.internal f (base + a.size - 1) (some (base + a.size + b.size - 1))]

/-- The tree of a header, in post-order: ROOT is its last entry (R112). -/
def treeOfShape : Option Shape → Tree
  | none => ⟨[], none⟩
  | some sh => ⟨sh.entries 0, some (sh.size - 1)⟩

/-- The levels of internal nodes in a shape. -/
def Shape.height : Shape → Nat
  | .leaf _ _ => 0
  | .one _ a => a.height + 1
  | .two _ a b => max a.height b.height + 1

/-- The frequency label of a shape's root, the last number of its text. -/
def Shape.freq : Shape → Word
  | .leaf _ f => f
  | .one f _ => f
  | .two f _ _ => f

/-- TC_PARSE takes a node of this shape at depth `d` (the root's is 1) when it has allocated `nodes`: no symbol
comes twice, every entry fits in NODE_CAP, and no internal node is at depth NODE_CAP or more (R111). -/
structure Shape.Taken (sh : Shape) (cap d : Nat) (nodes : List Node) : Prop where
  distinct : (nodes.filterMap Node.sym? ++ sh.syms).Nodup
  fits : nodes.length + sh.size ≤ cap
  levels : d + sh.height ≤ cap

/-- TC_PARSE comes to the frequency label of a node of this shape at depth `d` when it has allocated `nodes`: it takes
the children.
Whether it takes the node itself, a leaf whose symbol came before or an entry without room, is decided after the label
(R111). -/
structure Shape.LabelRead (sh : Shape) (cap d : Nat) (nodes : List Node) : Prop where
  distinct : sh.isInternal = true → (nodes.filterMap Node.sym? ++ sh.syms).Nodup
  fits : nodes.length + sh.size ≤ cap + 1
  levels : d + sh.height ≤ cap

/-- The text of a `top` up to a place where a node may start: inside `d` open nodes, with `nodes` allocated and no
error so far.
`slot` says that the place is a right slot, which may stay empty (R111). -/
inductive NodeStarts (pixel : Bool) (cap : Nat) : (slot : Bool) → List Byte → (d : Nat) → List Node → Prop where
  | root : NodeStarts pixel cap false [] 0 []
  | left {slot t d nodes} : NodeStarts pixel cap slot t d nodes → d + 1 < cap →
      NodeStarts pixel cap false (t ++ [byteOpen]) (d + 1) nodes
  | right {t a l d nodes} : NodeStarts pixel cap false t d nodes → 0 < d → NodeText pixel a l →
      l.Taken cap (d + 1) nodes → NodeStarts pixel cap true (t ++ a ++ [byteSep]) d (nodes ++ l.entries nodes.length)

/-- The text of a right slot: empty, or a node (R72). -/
inductive SlotText (pixel : Bool) (cap d : Nat) (nodes : List Node) : List Byte → Prop where
  | empty : SlotText pixel cap d nodes []
  | node {a r} : NodeText pixel a r → r.Taken cap (d + 1) nodes → SlotText pixel cap d nodes a

/-- The byte can start a node (R72). -/
def StartsNode (pixel : Bool) (b : Byte) : Prop :=
  b = byteOpen ∨ if pixel then isDigit b = true else b ≠ byteSep ∧ b ≠ byteClose ∧ b ≠ byteEnd

/-- The byte is one more digit of a number that is `v` so far, and the number stays below 2^32 (R109). -/
def MoreDigits (v : Word) (b : Byte) : Prop := isDigit b = true ∧ 10 * v.toNat + digitValue b ≤ 0xFFFFFFFF

/-- After this text of a `top` and its END the bytes that fit the grammar next are those of `ok` (R72). -/
inductive TopNext (pixel : Bool) (cap : Nat) : List Byte → (ok : Byte → Prop) → Prop where
  | first : TopNext pixel cap [] (fun b => b = byteOpen)
  | second : TopNext pixel cap [byteOpen] (fun b => StartsNode pixel b ∨ b = byteSep)
  | nullSep : TopNext pixel cap [byteOpen, byteSep] (fun b => b = byteClose)
  | nullClose : TopNext pixel cap [byteOpen, byteSep, byteClose] (fun b => b = byteEnd)
  | left {t d nodes} : NodeStarts pixel cap false t d nodes → 1 < d → TopNext pixel cap t (StartsNode pixel)
  | right {t d nodes} : NodeStarts pixel cap true t d nodes →
      TopNext pixel cap t (fun b => StartsNode pixel b ∨ b = byteClose)
  | symbol {slot t d nodes a x} : NodeStarts pixel cap slot t d nodes → 0 < d → SymText pixel a x →
      TopNext pixel cap (t ++ a) (fun b => b = byteColon ∨ (pixel = true ∧ MoreDigits x b))
  | label {slot t d nodes a x} : NodeStarts pixel cap slot t d nodes → 0 < d → SymText pixel a x →
      TopNext pixel cap (t ++ a ++ [byteColon]) (fun b => isDigit b = true)
  | leftDone {t d nodes a l} : NodeStarts pixel cap false t d nodes → 0 < d → NodeText pixel a l →
      l.Taken cap (d + 1) nodes → TopNext pixel cap (t ++ a) (fun b => b = byteSep ∨ MoreDigits l.freq b)
  | rightDone {t d nodes a r} : NodeStarts pixel cap true t d nodes → NodeText pixel a r →
      r.Taken cap (d + 1) nodes → TopNext pixel cap (t ++ a) (fun b => b = byteClose ∨ MoreDigits r.freq b)
  | closed {t d nodes a} : NodeStarts pixel cap true t d nodes → SlotText pixel cap d nodes a →
      TopNext pixel cap (t ++ a ++ [byteClose]) (fun b => b = byteColon)
  | closedColon {t d nodes a} : NodeStarts pixel cap true t d nodes → SlotText pixel cap d nodes a →
      TopNext pixel cap (t ++ a ++ [byteClose, byteColon]) (fun b => isDigit b = true)
  | done {a sh} : sh.isInternal = true → NodeText pixel a sh → sh.Taken cap 1 [] →
      TopNext pixel cap a (fun b => b = byteEnd ∨ MoreDigits sh.freq b)

/-- After this text of a header the bytes that fit the grammar next are those of `ok` (R72). -/
inductive HeaderNext (cap : Nat) : List Byte → (ok : Byte → Prop) → Prop where
  | first : HeaderNext cap [] (fun b => b = byteOpen ∨ isDigit b = true)
  | width {a w} : Numeral a w → HeaderNext cap a (fun b => b = byteLetterX ∨ MoreDigits w b)
  | letterX {a w} : Numeral a w → HeaderNext cap (a ++ [byteLetterX]) (fun b => isDigit b = true)
  | height {a b w h} : Numeral a w → Numeral b h →
      HeaderNext cap (a ++ [byteLetterX] ++ b) (fun c => c = byteSep ∨ MoreDigits h c)
  | top {pixel w h a t ok} : PrefixText pixel w h a → TopNext pixel cap t ok → a ++ t ≠ [] →
      HeaderNext cap (a ++ t) ok

/-- NODE[q] is in the priority collection when entry `j` is made: it is allocated and no entry before `j` has
it as a child (R91). -/
def Waiting (nodes : List Node) (j q : Nat) : Prop :=
  q < j ∧ ∀ (k : Nat) (n : Node), k < j → nodes[k]? = some n → q ∉ n.children

/-- key(a) < key(b): lower frequency, or equal frequency and lower index (R89). -/
def KeyBefore (nodes : List Node) (a b : Nat) : Prop :=
  ∃ m n, nodes[a]? = some m ∧ nodes[b]? = some n ∧ (m.freq < n.freq ∨ (m.freq = n.freq ∧ a < b))

/-- Entry `j` merges the two waiting entries of least key, the least one as its left child (R91, R92). -/
def MergesLeastTwo (nodes : List Node) (j : Nat) : Prop :=
  ∃ a b m n, nodes[a]? = some m ∧ nodes[b]? = some n ∧
    nodes[j]? = some (.internal (m.freq + n.freq) a (some b)) ∧
    Waiting nodes j a ∧ Waiting nodes j b ∧ KeyBefore nodes a b ∧
    ∀ q, Waiting nodes j q → q = a ∨ q = b ∨ KeyBefore nodes b q

/-! ### The codec as a function of the symbol sequence (R86, R91, R94, R75) -/

/-- SYM_MEM[0 .. SYM_COUNT-1]. -/
def State.symbols (s : State) : List Word := (List.range s.symCount.toNat).map s.symAt

/-- The distinct symbols of a sequence, in first-seen order (R41). -/
def firstSeen (xs : List Word) : List Word := xs.reverse.dedup.reverse

/-- The frequency table of a sequence (R41, R86). -/
def freqTable (xs : List Word) : List FtEntry := (firstSeen xs).map fun x => ⟨x, word (xs.count x)⟩

/-- The tree of a sequence (R91). -/
def huffTree (xs : List Word) : Tree := buildTree (freqTable xs)

/-- The entries of a tree by index, as the walks read them. -/
def Tree.look (t : Tree) (i : Nat) : Node := t.nodes.getD i default

/-- The code table of a tree (R94). -/
def Tree.codes (t : Tree) : CodeTable :=
  match t.root with
  | none => []
  | some r => codeTableOf (walkCodes t.look t.nodes.length r [])

/-- The code bits of a sequence (R115). -/
def codeBits (m : CodeTable) (xs : List Word) : List Bool := xs.flatMap fun x => (m.code? x).getD []

/-- Bits as whole bytes, first bit in bit 7 of the first byte; the last byte is padded with 0 (R52). -/
def packBytes : List Bool → List Byte
  | b7 :: b6 :: b5 :: b4 :: b3 :: b2 :: b1 :: b0 :: rest =>
    BitVec.ofNat 8 (bitsValue [b7, b6, b5, b4, b3, b2, b1, b0]) :: packBytes rest
  | bits => [BitVec.ofNat 8 (bitsValue (bits ++ List.replicate (8 - bits.length) false))]

/-- The closed stream of a bit sequence (R76). -/
def streamOf (bits : List Bool) : List Byte := packBytes bits ++ [BitVec.ofNat 8 (bits.length % 8)]

/-- The tree's serialization (R73). -/
def Tree.text (t : Tree) (pixel : Bool) : List Byte :=
  match t.root with
  | none => [byteOpen, byteSep, byteClose]
  | some r => serNode t.look pixel t.nodes.length r

/-- The header of the file of a sequence that is not empty (R73). -/
def huffHeader (pixel : Bool) (w h : Word) (xs : List Word) : List Byte :=
  (if pixel then decText w ++ [byteLetterX] ++ decText h ++ [byteSep] else []) ++ (huffTree xs).text pixel ++ [byteEnd]

/-- The code bits of the file of a sequence (R115). -/
def huffBits (xs : List Word) : List Bool := codeBits (huffTree xs).codes xs

/-- The compressed file of a sequence (R75): 0x00 0x00 when it is empty, else the header and the stream. -/
def huffFile (pixel : Bool) (w h : Word) (xs : List Word) : List Byte :=
  if xs = [] then [0, 0] else huffHeader pixel w h xs ++ streamOf (huffBits xs)

/-- From `s`, DECODE took `n` bits, wrote the symbols of `codes` to SYM_MEM[0..], set SYM_COUNT to their number,
reached `t`, and changed nothing else (R118). -/
structure DecodedTo (codes : List (Word × Code)) (n : Nat) (s t : State) : Prop where
  symbols : ∀ k, t.symAt k = ((codes[k]?).map Prod.fst).getD (s.symAt k)
  frame : t = { s with symMem := t.symMem, symCount := word codes.length, brBitPos := s.brBitPos + n }

/-- A sequence the compressor accepts (R86, R121). -/
structure Encodable (c : Config) (pixel : Bool) (xs : List Word) : Prop where
  valid : ∀ x ∈ xs, validSym x pixel = true
  length_le : xs.length ≤ c.symCap
  distinct_le : (firstSeen xs).length ≤ c.maxDistinct

/-! ### Host events -/

/-- The next step is the host event `e`: it is first in the inbox, and no command is latched or it lands before
the Engine's step (R58). -/
def State.HostMoves (s : State) (e : HostEvent) (rest : List HostInput) : Prop :=
  s.cfg.legal = true ∧ ∃ early, s.inbox = ⟨early, e⟩ :: rest ∧ (s.latch = none ∨ early = true)

/-! ### Invariants of the machine -/

/-- The canonical form of everything the state keeps by key (R40, R44). -/
structure State.Canonical (s : State) : Prop where
  sym : s.symMem.wf = true
  inp : s.inMem.wf = true
  out : s.outMem.wf = true
  codes : ∀ m, s.ct = some m → Assoc.wf m = true

/-- Registers and streams: the configuration is legal, OUT_LEN and OUT_BUDGET are within OUT_CAP (R33, R34),
BW_NBITS is BIT_COUNT mod 8 while the writer is open (R46), BW_ACC holds BW_NBITS bits (R46), a closed writer or
reader holds nothing (R46, R47), and the reader is within its stream and IN_MEM (R47, R54). -/
structure State.StreamsOk (s : State) : Prop where
  config : s.cfg.legal = true
  outLen_le : s.outLen.toNat ≤ s.cfg.outCap
  outBudget_le : s.outBudget.toNat ≤ s.cfg.outCap
  acc_lt : s.bwAcc.toNat < 2 ^ s.bwNbits.val
  writer_open : s.bwOpen = true → s.bitCount % 8 = s.bwNbits.val
  writer_closed : s.bwOpen = false → s.bwAcc = 0 ∧ s.bwNbits = 0
  reader_pos : s.brBitPos ≤ s.brTotal
  reader_range : 8 * s.brBase + s.brTotal ≤ 8 * s.cfg.inCap
  reader_closed : s.brOpen = false → s.brBase = 0 ∧ s.brTotal = 0 ∧ s.brBitPos = 0

/-- The command protocol: while a word is latched it is what CMD reads, and DONE and ERR are 0 (R27, R78); a
success leaves no info value (R28). -/
structure State.ProtocolOk (s : State) : Prop where
  latched : ∀ w, s.latch = some w → s.cmd = w ∧ s.done = false ∧ s.err = false
  info_zero : s.errKind = .none → s.errInfo = 0

/-- The tables: FT names a symbol once, with a positive count, and fits (R41); the tree is a tree and fits
(R42, R43); CT is the code table of the valid tree (R44, R45). -/
structure State.TablesOk (s : State) : Prop where
  config : s.cfg.legal = true
  ft_nodup : ∀ ft, s.ft = some ft → (ft.map FtEntry.sym).Nodup
  ft_pos : ∀ ft, s.ft = some ft → ∀ e ∈ ft, e.count ≠ 0
  ft_fits : ∀ ft, s.ft = some ft → ft.length ≤ s.cfg.maxDistinct
  tree_ok : ∀ t, s.tree = some t → t.Ok
  tree_fits : ∀ t, s.tree = some t → t.nodes.length ≤ s.cfg.nodeCap
  codes_of_tree : ∀ m, s.ct = some m → ∃ t, s.tree = some t ∧ m = t.codes

end Sys2Proof.Machine
end

