-- ==== Sys2Proof/Certificates/Slice0/Obligations.lean ====
section
/-! DEFINITION. The statements about HUFFCORE, from the numbered rules of the spec.
In them `finishOk` and `errorEntry` are the end of a command by R81, which `EveryCommandEndsByR81` states. -/

open Sys2Proof Sys2Proof.Machine

/-! ### Encoding -/

/-- R65: the word of a command is OP | (N << 8), and decoding it gives the command back, at every N the
encoding admits. -/
def Obligations.DecodeInvertsEncode : Prop :=
  ∀ i : Instr, i.wellFormed = true → decode (encode i) = .ok i

/-- R65, R66: a word that decodes is the word of a well-formed command, and of that command only. -/
def Obligations.EncodeInvertsDecode : Prop :=
  ∀ (w : Word) (i : Instr), decode w = .ok i → i.wellFormed = true ∧ encode i = w

/-- R66: the illegal words, by the values of OP (bits 7:0), N (bits 13:8) and RSV (bits 31:14). -/
def Obligations.IllegalWordsAreThoseOfR66 : Prop :=
  ∀ w : Word,
    let op := w.toNat % 256
    let n := w.toNat / 256 % 64
    (∃ e, decode w = .error e) ↔
      (op ∉ [0x00, 0x01, 0x10, 0x11, 0x12, 0x13, 0x14, 0x15, 0x20, 0x21, 0x22, 0x28, 0x29, 0x30, 0x31, 0x38,
        0x39, 0x3C, 0x3D]) ∨
      w.toNat / 16384 ≠ 0 ∨
      (op ∉ [0x21, 0x29] ∧ n ≠ 0) ∨
      (op ∈ [0x21, 0x29] ∧ (n = 0 ∨ 32 < n))

/-- R65, R67: words of the opcode map, written out, decode to their commands. -/
def Obligations.TableWordsDecode : Prop :=
  decode 0x00000000 = .ok .nop ∧ decode 0x00000001 = .ok .clear ∧ decode 0x00000010 = .ok .fcCount ∧
  decode 0x00000012 = .ok .tbBuild ∧ decode 0x00000014 = .ok .ctBuild ∧ decode 0x00000321 = .ok (.bwWrite 3) ∧
  decode 0x00002021 = .ok (.bwWrite 32) ∧ decode 0x00000329 = .ok (.brRead 3) ∧
  decode 0x00000030 = .ok .tcSerialize ∧ decode 0x00000039 = .ok .compress ∧ decode 0x0000003D = .ok .decompress

/-! ### Steps and the command protocol -/

/-- R79: a step with a legal word latched performs the command it selects. -/
def Obligations.StepPerformsLatchedCommand : Prop :=
  ∀ (s : State) (w : Word) (i : Instr), s.cfg.legal = true → s.latch = some w → s.hostFirst = false →
    decode w = .ok i → step s = exec i s

/-- R66, R79, R124: a step with an illegal word latched ends it with ILLEGAL_COMMAND(w) and changes nothing else. -/
def Obligations.IllegalWordEndsAtOnce : Prop :=
  ∀ (s : State) (w : Word) (e : DecodeError), s.cfg.legal = true → s.latch = some w → s.hostFirst = false →
    decode w = .error e →
    step s = .next { s with
      errKind := .illegalCommand, errInfo := w, err := true, done := true, latch := none }

/-- R81, R9: every command ends, whatever the state: DONE is set, the latch is empty, a success leaves ERR_KIND
and ERR_INFO 0 and ERR as it was, and a failure sets ERR. -/
def Obligations.EveryCommandEndsByR81 : Prop :=
  ∀ (i : Instr) (s : State), ∃ t, exec i s = .next t ∧ t.done = true ∧ t.latch = none ∧
    ((t.errKind = .none ∧ t.errInfo = 0 ∧ t.err = s.err) ∨ (t.errKind ≠ .none ∧ t.err = true))

/-- R24, R25, R31, R34, R40: no command writes the parameters, CTRL, IRQ_EN, BUSY_WR, CMD, ARG0, ARG1, IN_LEN,
OUT_BUDGET or IN_MEM, or the model's own fields of the host port (log entries 1, 3 and 8). -/
def Obligations.CommandsLeaveHostOwnedState : Prop :=
  ∀ (i : Instr) (s t : State), exec i s = .next t →
    t.cfg = s.cfg ∧ t.variant = s.variant ∧ t.doneIe = s.doneIe ∧ t.errIe = s.errIe ∧ t.busyWr = s.busyWr ∧
    t.cmd = s.cmd ∧ t.arg0 = s.arg0 ∧ t.arg1 = s.arg1 ∧ t.inLen = s.inLen ∧ t.outBudget = s.outBudget ∧
    t.inMem = s.inMem ∧ t.inbox = s.inbox ∧ t.readData = s.readData ∧ t.resets = s.resets ∧ t.drawn = s.drawn

/-- R40, R33, R30, R29: the Engine writes OUT_MEM and OUT_LEN only in the emitting commands, SYM_MEM and
SYM_COUNT only in DECODE and DECOMPRESS, and RES0 to RES3 only in CLEAR, BR_READ and the queries. -/
def Obligations.BuffersWrittenOnlyByTheirCommands : Prop :=
  ∀ (i : Instr) (s t : State), exec i s = .next t →
    (i ≠ .tcSerialize → (∀ n, i ≠ .bwWrite n) → i ≠ .bwClose → i ≠ .encodeSyms → i ≠ .compress →
      t.outMem = s.outMem ∧ t.outLen = s.outLen) ∧
    (i ≠ .decodeSyms → i ≠ .decompress → t.symMem = s.symMem ∧ t.symCount = s.symCount) ∧
    (i ≠ .clear → (∀ n, i ≠ .brRead n) → i ≠ .qFreq → i ≠ .qNode → i ≠ .qCode →
      t.res0 = s.res0 ∧ t.res1 = s.res1 ∧ t.res2 = s.res2 ∧ t.res3 = s.res3)

/-- R124, R45: a command that needs a table, a writer or a reader it does not have fails with BAD_STATE(0) and
changes nothing but the completion registers. -/
def Obligations.BadStateChangesNothing : Prop :=
  ∀ (s : State) (n : Nat),
    let fails := fun i : Instr => exec i s = .next (s.errorEntry ⟨.badState, 0⟩)
    (s.ftValid = false → fails .qFreq ∧ fails .tbBuild) ∧
    (s.treeValid = false → fails .qNode ∧ fails .ctBuild ∧ fails .tcSerialize ∧ fails .decodeSyms) ∧
    (s.ctValid = false → fails .qCode ∧ fails .encodeSyms) ∧
    (s.bwOpen = false → fails (.bwWrite n) ∧ fails .bwClose ∧ fails .encodeSyms) ∧
    (s.brOpen = false → fails (.brRead n) ∧ fails .decodeSyms)

/-! ### The host port -/

/-- R50: an access that is not 32 bits wide or not at a multiple of 4 is refused. -/
def Obligations.UnsupportedAccessRefused : Prop :=
  ∀ (s : State) (rest : List HostInput) (bytes : Nat) (off : Offset) (v : Word),
    bytes ≠ 4 ∨ off.toNat % 4 ≠ 0 →
    (s.HostMoves (.read bytes off) rest → step s = .refused (.unsupportedAccess bytes off)) ∧
    (s.HostMoves (.write bytes off v) rest → step s = .refused (.unsupportedAccess bytes off))

/-- A configuration outside R10's ranges or R11's constraint is refused.
R11 and I6 ask for the refusal of a configuration that breaks the NODE_CAP constraint; that a value outside R10's
ranges is refused too is the model's reading (log entry 4, DEDUCED). -/
def Obligations.IllegalConfigurationRefused : Prop :=
  ∀ s : State,
    ¬ (1 ≤ s.cfg.symCap ∧ s.cfg.symCap ≤ 262144 ∧ 2 ≤ s.cfg.inCap ∧ s.cfg.inCap ≤ 1048576 ∧
      2 ≤ s.cfg.outCap ∧ s.cfg.outCap ≤ 1048576 ∧ 1 ≤ s.cfg.maxDistinct ∧ s.cfg.maxDistinct ≤ 65536 ∧
      2 ≤ s.cfg.nodeCap ∧ 2 * s.cfg.maxDistinct - 1 ≤ s.cfg.nodeCap ∧ s.cfg.nodeCap ≤ 131072) →
    step s = .refused .illegalConfiguration

/-- R78: a host write of CMD is accepted while BUSY = 0, and while BUSY = 1 it is rejected and sets BUSY_WR. -/
def Obligations.CmdWriteAcceptedOrRejected : Prop :=
  ∀ (s : State) (rest : List HostInput) (w : Word), s.HostMoves (.write 4 0x00002C w) rest →
    (s.busy = false → step s = .next { s with inbox := rest, latch := some w, cmd := w, done := false, err := false }) ∧
    (s.busy = true → step s = .next { s with inbox := rest, busyWr := true })

/-- R26, R58, R126: a host write of STATUS clears each of DONE, ERR and BUSY_WR whose bit is 1, busy or not,
and a host write of IRQ_EN stores its two bits, busy or not. -/
def Obligations.StatusAndIrqEnWrites : Prop :=
  ∀ (s : State) (rest : List HostInput) (w : Word),
    (s.HostMoves (.write 4 0x000028 w) rest → step s = .next { s with
      inbox := rest
      done := if w.getLsbD 1 then false else s.done
      err := if w.getLsbD 2 then false else s.err
      busyWr := if w.getLsbD 3 then false else s.busyWr }) ∧
    (s.HostMoves (.write 4 0x000024 w) rest → step s = .next { s with
      inbox := rest, doneIe := w.getLsbD 0, errIe := w.getLsbD 1 })

/-- R22, R24, R30 to R35, R49: what a host write of an operand register stores while BUSY = 0, and that a write of a
read-only register or a reserved offset is ignored. -/
def Obligations.OperandRegisterWrites : Prop :=
  ∀ (s : State) (rest : List HostInput) (v : Word), s.busy = false →
    (s.HostMoves (.write 4 0x000020 v) rest → step s = .next { s with inbox := rest, variant := v.getLsbD 0 }) ∧
    (s.HostMoves (.write 4 0x000030 v) rest → step s = .next { s with inbox := rest, arg0 := v }) ∧
    (s.HostMoves (.write 4 0x000034 v) rest → step s = .next { s with inbox := rest, arg1 := v }) ∧
    (s.HostMoves (.write 4 0x000050 v) rest → step s = .next { s with inbox := rest, symCount := v }) ∧
    (s.HostMoves (.write 4 0x000054 v) rest → step s = .next { s with inbox := rest, inLen := v }) ∧
    (s.HostMoves (.write 4 0x000058 v) rest → step s = .next { s with inbox := rest, inPos := v }) ∧
    (s.HostMoves (.write 4 0x00005C v) rest →
      step s = .next { s with inbox := rest, outLen := word (min v.toNat s.cfg.outCap) }) ∧
    (s.HostMoves (.write 4 0x000060 v) rest →
      step s = .next { s with inbox := rest, outBudget := word (min v.toNat s.cfg.outCap) }) ∧
    (s.HostMoves (.write 4 0x000064 v) rest → step s = .next { s with inbox := rest, imgW := v }) ∧
    (s.HostMoves (.write 4 0x000068 v) rest → step s = .next { s with inbox := rest, imgH := v }) ∧
    ∀ off : Offset, off.toNat % 4 = 0 →
      (off.toNat ∈ [0x000, 0x004, 0x008, 0x00C, 0x010, 0x014, 0x018, 0x01C, 0x038, 0x03C, 0x040, 0x044, 0x048,
        0x04C, 0x06C, 0x070, 0x074, 0x078, 0x07C] ∨ (0x080 ≤ off.toNat ∧ off.toNat < 0x100000)) →
      s.HostMoves (.write 4 off v) rest → step s = .next { s with inbox := rest }

/-- R58: while BUSY = 1 a host write of any other register or of a window entry within capacity is dropped and
sets BUSY_WR, and a write of a read-only register or a reserved offset is ignored.
A write of a window word at or beyond the capacity is dropped as well, and can only set BUSY_WR: whether it does, where
R58 says both, is a free value of the model (log entry 7, DESIGN CHOICE), drawn by its own counter. -/
def Obligations.BusyWritesDropped : Prop :=
  ∀ (s : State) (rest : List HostInput) (off : Offset) (v : Word), s.HostMoves (.write 4 off v) rest →
    off.toNat % 4 = 0 → s.busy = true →
    ((off.toNat ∈ [0x020, 0x030, 0x034, 0x050, 0x054, 0x058, 0x05C, 0x060, 0x064, 0x068] ∨
        (0x100000 ≤ off.toNat ∧ off.toNat < 0x100000 + 4 * s.cfg.symCap) ∨
        (0x200000 ≤ off.toNat ∧ off.toNat < 0x200000 + s.cfg.inCap) ∨
        (0x300000 ≤ off.toNat ∧ off.toNat < 0x300000 + s.cfg.outCap)) →
      step s = .next { s with inbox := rest, busyWr := true }) ∧
    ((off.toNat ∈ [0x000, 0x004, 0x008, 0x00C, 0x010, 0x014, 0x018, 0x01C, 0x038, 0x03C, 0x040, 0x044, 0x048,
        0x04C, 0x06C, 0x070, 0x074, 0x078, 0x07C] ∨ (0x080 ≤ off.toNat ∧ off.toNat < 0x100000)) →
      step s = .next { s with inbox := rest }) ∧
    (((0x100000 + 4 * s.cfg.symCap ≤ off.toNat ∧ off.toNat < 0x200000) ∨
        (0x200000 + s.cfg.inCap ≤ off.toNat ∧ off.toNat < 0x300000) ∨ 0x300000 + s.cfg.outCap ≤ off.toNat) →
      ∃ t, step s = .next t ∧ t = { s with inbox := rest, busyWr := t.busyWr, drawn := t.drawn } ∧
        (s.busyWr = true → t.busyWr = true))

/-- R49, R51: word `k` of the IN window holds the bytes 4k to 4k+3 of IN_MEM, little-endian.
While BUSY = 0 a host write sets those of them that exist and no other byte of any buffer, and a host read returns
them, with 0 in a lane at or beyond the capacity; the same for the OUT window. -/
def Obligations.ByteWindowAccess : Prop :=
  ∀ (s : State) (rest : List HostInput) (k : Nat) (v : Word), s.busy = false → k < 0x40000 →
    (s.HostMoves (.write 4 (BitVec.ofNat 22 (0x200000 + 4 * k)) v) rest →
      ∃ t, step s = .next t ∧ t = { s with inbox := rest, inMem := t.inMem } ∧
        ∀ a, t.inAt a = if a / 4 = k ∧ a < s.cfg.inCap then v.extractLsb' (8 * (a % 4)) 8 else s.inAt a) ∧
    (s.HostMoves (.write 4 (BitVec.ofNat 22 (0x300000 + 4 * k)) v) rest →
      ∃ t, step s = .next t ∧ t = { s with inbox := rest, outMem := t.outMem } ∧
        ∀ a, t.outAt a = if a / 4 = k ∧ a < s.cfg.outCap then v.extractLsb' (8 * (a % 4)) 8 else s.outAt a) ∧
    (s.HostMoves (.read 4 (BitVec.ofNat 22 (0x200000 + 4 * k))) rest →
      ∃ w : Word, step s = .next { s with inbox := rest, readData := some w } ∧
        ∀ j, j < 4 → w.extractLsb' (8 * j) 8 = if 4 * k + j < s.cfg.inCap then s.inAt (4 * k + j) else 0) ∧
    (s.HostMoves (.read 4 (BitVec.ofNat 22 (0x300000 + 4 * k))) rest →
      ∃ w : Word, step s = .next { s with inbox := rest, readData := some w } ∧
        ∀ j, j < 4 → w.extractLsb' (8 * j) 8 = if 4 * k + j < s.cfg.outCap then s.outAt (4 * k + j) else 0)

/-- R49, R51: word `i` of the SYM window is SYM_MEM[i], for a host write and for a host read, and a word at or
beyond SYM_CAP ignores writes and reads 0. -/
def Obligations.SymbolWindowAccess : Prop :=
  ∀ (s : State) (rest : List HostInput) (i : Nat) (v : Word), s.busy = false → i < 0x40000 →
    (s.HostMoves (.write 4 (BitVec.ofNat 22 (0x100000 + 4 * i)) v) rest →
      ∃ t, step s = .next t ∧ t = { s with inbox := rest, symMem := t.symMem } ∧
        ∀ j, t.symAt j = if j = i ∧ i < s.cfg.symCap then v else s.symAt j) ∧
    (s.HostMoves (.read 4 (BitVec.ofNat 22 (0x100000 + 4 * i))) rest →
      step s = .next { s with inbox := rest, readData := some (if i < s.cfg.symCap then s.symAt i else 0) })

/-- R49, R58: a host read changes nothing but the data the port returns (and the model's own count of drawn
values, log entry 3), whatever the offset and whether or not a command is in progress. -/
def Obligations.HostReadsHaveNoSideEffect : Prop :=
  ∀ (s : State) (rest : List HostInput) (off : Offset), s.HostMoves (.read 4 off) rest → off.toNat % 4 = 0 →
    ∃ t, step s = .next t ∧ t = { s with inbox := rest, readData := t.readData, drawn := t.drawn } ∧
      t.readData.isSome = true

/-- R26, R45, R48, R128, R58: what a host read of STATUS returns, busy or not, bit by bit. -/
def Obligations.StatusReadShowsFlags : Prop :=
  ∀ (s : State) (rest : List HostInput), s.HostMoves (.read 4 0x000028) rest →
    ∃ w : Word, step s = .next { s with inbox := rest, readData := some w } ∧
      w.getLsbD 0 = s.latch.isSome ∧ w.getLsbD 1 = s.done ∧ w.getLsbD 2 = s.err ∧ w.getLsbD 3 = s.busyWr ∧
      w.getLsbD 4 = s.ft.isSome ∧ w.getLsbD 5 = s.tree.isSome ∧
      (w.getLsbD 6 = true ↔ ∃ t, s.tree = some t ∧ t.root = none) ∧ w.getLsbD 7 = s.ct.isSome ∧
      w.getLsbD 8 = s.bwOpen ∧ w.getLsbD 9 = s.brOpen ∧
      (w.getLsbD 10 = true ↔ s.brOpen = true ∧ s.brBitPos < s.brTotal) ∧ w.getLsbD 11 = s.hdrVariant ∧
      w.getLsbD 12 = ((s.done && s.doneIe) || (s.err && s.errIe)) ∧ ∀ i, 13 ≤ i → w.getLsbD i = false

/-- R22 to R38, R58: what a host read returns at the offset of every register but STATUS, and at a reserved offset:
ID, VERSION, the capacities, IRQ_EN, CMD and the reserved offsets busy or not, the others while BUSY = 0.
A bit count that needs more than 32 bits has no stated reading (log entry 5). -/
def Obligations.RegisterReads : Prop :=
  ∀ (s : State) (rest : List HostInput),
    let reads := fun (off : Offset) (w : Word) =>
      s.HostMoves (.read 4 off) rest → step s = .next { s with inbox := rest, readData := some w }
    (reads 0x000 0x48554646 ∧ reads 0x004 0x00010007 ∧ reads 0x008 (word s.cfg.symCap) ∧
      reads 0x00C (word s.cfg.inCap) ∧ reads 0x010 (word s.cfg.outCap) ∧ reads 0x014 (word s.cfg.maxDistinct) ∧
      reads 0x018 (word s.cfg.nodeCap) ∧ reads 0x024 (word (s.doneIe.toNat + 2 * s.errIe.toNat)) ∧
      reads 0x02C s.cmd ∧
      ∀ off : Offset, off.toNat % 4 = 0 → (off.toNat = 0x01C ∨ (0x080 ≤ off.toNat ∧ off.toNat < 0x100000)) →
        reads off 0) ∧
    (s.busy = false →
      reads 0x020 (word s.variant.toNat) ∧ reads 0x030 s.arg0 ∧ reads 0x034 s.arg1 ∧
      (∀ p ∈ [(ErrKind.none, 0), (.sourceUnavailable, 1), (.streamOverflow, 2), (.truncatedStream, 3),
          (.malformedHeader, 4), (.malformedStream, 5), (.invalidSymbol, 6), (.capacityExceeded, 7), (.badState, 8),
          (.illegalCommand, 9), (.badArgument, 10)], s.errKind = p.1 → reads 0x038 (word p.2)) ∧
      reads 0x03C s.errInfo ∧ reads 0x040 s.res0 ∧ reads 0x044 s.res1 ∧ reads 0x048 s.res2 ∧ reads 0x04C s.res3 ∧
      reads 0x050 s.symCount ∧ reads 0x054 s.inLen ∧ reads 0x058 s.inPos ∧ reads 0x05C s.outLen ∧
      reads 0x060 s.outBudget ∧ reads 0x064 s.imgW ∧ reads 0x068 s.imgH ∧
      (s.ft = none → reads 0x06C 0) ∧ (∀ ft, s.ft = some ft → reads 0x06C (word ft.length)) ∧
      (s.tree = none → reads 0x070 0 ∧ reads 0x074 0xFFFFFFFF) ∧
      (∀ t, s.tree = some t → reads 0x070 (word t.nodes.length) ∧
        (t.root = none → reads 0x074 0xFFFFFFFF) ∧ ∀ r, t.root = some r → reads 0x074 (word r)) ∧
      (s.bitCount < 2 ^ 32 → reads 0x078 (word s.bitCount)) ∧
      (s.brOpen = true → reads 0x07C (word (s.brTotal - s.brBitPos))) ∧ (s.brOpen = false → reads 0x07C 0))

/-- R68, R51: the host program WRB IN[a], v or WRB OUT[a], v, on an idle block, sets byte `a` of the buffer to `v` and
changes no other byte and no other state of the block but the data the port last returned.
That each access of the program takes effect at once, and that the write is a statement of its own, are the model's
choices (log entry 12). -/
def Obligations.WrbChangesOneByte : Prop :=
  ∀ (s : State) (a : Nat) (v : Byte), s.cfg.legal = true → s.busy = false →
    (a < s.cfg.inCap →
      ∃ h1 h2 s1 s2, HostRun.step ⟨(HostPseudo.wrb .inp a v).expand, 0, 0, []⟩ s = some (h1, .next s1) ∧
        HostRun.step h1 s1 = some (h2, .next s2) ∧
        s2 = { s with inMem := s2.inMem, readData := s2.readData } ∧
        ∀ b, s2.inAt b = if b = a then v else s.inAt b) ∧
    (a < s.cfg.outCap →
      ∃ h1 h2 s1 s2, HostRun.step ⟨(HostPseudo.wrb .out a v).expand, 0, 0, []⟩ s = some (h1, .next s1) ∧
        HostRun.step h1 s1 = some (h2, .next s2) ∧
        s2 = { s with outMem := s2.outMem, readData := s2.readData } ∧
        ∀ b, s2.outAt b = if b = a then v else s.outAt b)

/-- R134: with no command latched and no host event, the block changes no state. -/
def Obligations.IdleChangesNothing : Prop :=
  ∀ s : State, s.cfg.legal = true → s.latch = none → s.inbox = [] → step s = .next s

/-- R135: after reset, at power-on and when the platform asserts it, every register reads its reset column, every
STATUS bit and the hidden state are 0, the latch is empty and irq is 0; a reset that finds a latched command
discards it. -/
def Obligations.ResetValues : Prop :=
  let ok := fun (c : Config) (t : State) =>
    t.readReg .id = 0x48554646 ∧ t.readReg .version = 0x00010007 ∧
    t.readReg .capSym = word c.symCap ∧ t.readReg .capIn = word c.inCap ∧ t.readReg .capOut = word c.outCap ∧
    t.readReg .capDistinct = word c.maxDistinct ∧ t.readReg .capNode = word c.nodeCap ∧
    t.readReg .outBudget = word c.outCap ∧ t.readReg .root = 0xFFFFFFFF ∧
    (∀ r, r ∈ [RegName.ctrl, .irqEn, .status, .cmd, .arg0, .arg1, .errKind, .errInfo, .res0, .res1, .res2, .res3,
      .symCount, .inLen, .inPos, .outLen, .imgW, .imgH, .nDistinct, .nodeCount, .bitCount, .brRemain] →
      t.readReg r = 0) ∧
    t.latch = none ∧ t.irq = false ∧
    t.bwAcc = 0 ∧ t.bwNbits = 0 ∧ t.brBase = 0 ∧ t.brTotal = 0 ∧ t.brBitPos = 0
  (∀ c, ok c (State.resetOf c)) ∧
  ∀ (s : State) (rest : List HostInput), s.HostMoves .reset rest → ∃ t, step s = .next t ∧ ok s.cfg t

/-! ### Invariants -/

/-- Every step keeps the buffers and the code table in canonical form (the model's own form, log entry 2). -/
def Obligations.CanonicalFormStays : Prop :=
  ∀ s t : State, s.Canonical → step s = .next t → t.Canonical

/-- R33, R34, R46, R47: every step keeps OUT_LEN and OUT_BUDGET within OUT_CAP and the writer and the reader
consistent. -/
def Obligations.StreamsStayConsistent : Prop :=
  ∀ s t : State, s.StreamsOk → step s = .next t → t.StreamsOk

/-- R27, R28, R78: every step keeps the command protocol: a latched word is what CMD reads, with DONE and ERR
0, and a success leaves no info value. -/
def Obligations.ProtocolStays : Prop :=
  ∀ s t : State, s.ProtocolOk → step s = .next t → t.ProtocolOk

/-- R41 to R45: every step keeps FT a frequency table, NODE a tree and CT the code table of that tree. -/
def Obligations.TablesStayConsistent : Prop :=
  ∀ s t : State, s.TablesOk → step s = .next t → t.TablesOk

/-- The four invariants hold after reset, in every legal configuration. -/
def Obligations.ResetMeetsInvariants : Prop :=
  ∀ c : Config, c.legal = true →
    (State.resetOf c).Canonical ∧ (State.resetOf c).StreamsOk ∧ (State.resetOf c).ProtocolOk ∧
    (State.resetOf c).TablesOk ∧ State.reset = State.resetOf Config.reference

/-! ### Control commands -/

/-- R83: NOP completes and leaves all data state. -/
def Obligations.NopCompletes : Prop :=
  ∀ s : State, exec .nop s = .next { s with errKind := .none, errInfo := 0, done := true, latch := none }

/-- R84: CLEAR discards the tables, the writer, the reader, HDR_VARIANT and the results, and nothing else. -/
def Obligations.ClearDiscardsDerivedState : Prop :=
  ∀ s : State, exec .clear s = .next { s with
    ft := none, tree := none, ct := none
    bwOpen := false, bwAcc := 0, bwNbits := 0, bitCount := 0
    brOpen := false, brBase := 0, brTotal := 0, brBitPos := 0
    hdrVariant := false, res0 := 0, res1 := 0, res2 := 0, res3 := 0
    errKind := .none, errInfo := 0, done := true, latch := none }

/-! ### FrequencyCounter -/

/-- R86, R87, R41: FC_COUNT of an acceptable sequence completes with the frequency table in first-seen order,
the downstream tables invalid, and nothing else changed. -/
def Obligations.FcCountBuildsFrequencyTable : Prop :=
  ∀ s : State, Encodable s.cfg s.variant s.symbols →
    exec .fcCount s = .next { s with
      ft := some (freqTable s.symbols), tree := none, ct := none }.finishOk

/-- R86: FC_COUNT fails with SOURCE_UNAVAILABLE(SYM_COUNT), INVALID_SYMBOL(i) at the first invalid symbol, or
CAPACITY_EXCEEDED(i) at the first symbol too many; the tables it invalidated stay invalid. -/
def Obligations.FcCountErrors : Prop :=
  ∀ s : State,
    let cleared : State := { s with ft := none, tree := none, ct := none }
    (s.cfg.symCap < s.symCount.toNat →
      exec .fcCount s = .next (cleared.errorEntry ⟨.sourceUnavailable, s.symCount⟩)) ∧
    ∀ i, s.symCount.toNat ≤ s.cfg.symCap → i < s.symCount.toNat →
      (∀ x ∈ s.symbols.take i, validSym x s.variant = true) →
      (firstSeen (s.symbols.take i)).length ≤ s.cfg.maxDistinct →
      (validSym (s.symAt i) s.variant = false →
        exec .fcCount s = .next (cleared.errorEntry ⟨.invalidSymbol, word i⟩)) ∧
      (validSym (s.symAt i) s.variant = true → s.symAt i ∉ s.symbols.take i →
        (firstSeen (s.symbols.take i)).length = s.cfg.maxDistinct →
        exec .fcCount s = .next (cleared.errorEntry ⟨.capacityExceeded, word i⟩))

/-- R88: Q_FREQ returns entry ARG0 of FT, or fails with BAD_STATE(0) or BAD_ARGUMENT(ARG0) and changes nothing
else. -/
def Obligations.QFreqReadsEntry : Prop :=
  ∀ s : State, (s.ft = none → exec .qFreq s = .next (s.errorEntry ⟨.badState, 0⟩)) ∧
    ∀ ft : List FtEntry, s.ft = some ft →
    (∀ e, ft[s.arg0.toNat]? = some e → exec .qFreq s = .next { s with
      res0 := e.sym, res1 := e.count, res2 := 0, res3 := 0 }.finishOk) ∧
    (ft.length ≤ s.arg0.toNat → exec .qFreq s = .next (s.errorEntry ⟨.badArgument, s.arg0⟩))

/-! ### TreeBuilder -/

/-- R91, R92, R89: TB_BUILD from N entries: no tree for N = 0, the degenerate tree for N = 1, and for N >= 2 the
N leaves in FT order and N - 1 merges, each of the two waiting entries of least key, with ROOT = 2N - 2; without
a valid FT it fails with BAD_STATE(0).
That the merged frequency is the 32-bit sum for any FT is the model's reading (log entry 15, DEDUCED); counts that
FC_COUNT makes have a sum below 2^32. -/
def Obligations.TbBuildMergesLeastPairs : Prop :=
  ∀ s : State, (s.ft = none → exec .tbBuild s = .next (s.errorEntry ⟨.badState, 0⟩)) ∧
    ∀ ft : List FtEntry, s.ft = some ft →
    ∃ t : Tree, exec .tbBuild s = .next { s with tree := some t, ct := none }.finishOk ∧
      (ft = [] → t = ⟨[], none⟩) ∧
      (∀ e, ft = [e] → t = ⟨[.leaf e.sym e.count, .internal e.count 0 none], some 1⟩) ∧
      (2 ≤ ft.length → t.root = some (2 * ft.length - 2) ∧ t.nodes.length = 2 * ft.length - 1 ∧
        (∀ (i : Nat) (e : FtEntry), ft[i]? = some e → t.nodes[i]? = some (.leaf e.sym e.count)) ∧
        ∀ j, ft.length ≤ j → j < 2 * ft.length - 1 → MergesLeastTwo t.nodes j)

/-- R93: Q_NODE returns entry ARG0 of NODE, or fails with BAD_STATE(0) or BAD_ARGUMENT(ARG0) and changes nothing
else. -/
def Obligations.QNodeReadsEntry : Prop :=
  ∀ s : State, (s.tree = none → exec .qNode s = .next (s.errorEntry ⟨.badState, 0⟩)) ∧
    ∀ t : Tree, s.tree = some t →
    (∀ sym f, t.nodes[s.arg0.toNat]? = some (.leaf sym f) → exec .qNode s = .next { s with
      res0 := 0, res1 := f, res2 := sym, res3 := 0xFFFFFFFF }.finishOk) ∧
    (∀ f l, t.nodes[s.arg0.toNat]? = some (.internal f l none) → exec .qNode s = .next { s with
      res0 := 1, res1 := f, res2 := word l, res3 := 0xFFFFFFFF }.finishOk) ∧
    (∀ f l r, t.nodes[s.arg0.toNat]? = some (.internal f l (some r)) → exec .qNode s = .next { s with
      res0 := 3, res1 := f, res2 := word l, res3 := word r }.finishOk) ∧
    (t.nodes.length ≤ s.arg0.toNat → exec .qNode s = .next (s.errorEntry ⟨.badArgument, s.arg0⟩))

/-! ### CodeTable -/

/-- R94, R44: CT_BUILD of a tree completes with the map from each symbol to the path to its leaf, and changes
nothing else; without a valid tree it fails with BAD_STATE(0). -/
def Obligations.CtBuildMapsLeavesToPaths : Prop :=
  ∀ s : State, (s.tree = none → exec .ctBuild s = .next (s.errorEntry ⟨.badState, 0⟩)) ∧
    ∀ t : Tree, s.tree = some t → t.Ok →
    ∃ m : CodeTable, exec .ctBuild s = .next { s with ct := some m }.finishOk ∧ Assoc.wf m = true ∧
      (∀ x c, m.code? x = some c ↔ t.IsCode x c) ∧ (∀ k c, (k, c) ∈ m → k < 2 ^ 32)

/-- R95, R44: for every CT that CT_BUILD makes, no code is empty or a prefix of another and the map is a bijection onto
the leaves reachable from ROOT; and for the tree TB_BUILD makes from the FT of a sequence, the sum over FT of code
length times count is the BIT_COUNT that ENCODE of the same SYM_MEM produces. -/
def Obligations.CodesArePrefixFree : Prop :=
  (∀ (s : State) (t : Tree), s.tree = some t → t.Ok →
    ∃ m : CodeTable, exec .ctBuild s = .next { s with ct := some m }.finishOk ∧
      (∀ (x y : Word) (c d : Code), m.code? x = some c → m.code? y = some d → c ≠ [] ∧ (c <+: d → x = y ∧ c = d)) ∧
      (∀ (x : Word) (c : Code), m.code? x = some c → ∃ r f, t.root = some r ∧ t.reach r c = some (.leaf x f)) ∧
      ∀ (r : Nat) (p : Code) (x f : Word), t.root = some r → t.reach r p = some (.leaf x f) → m.code? x = some p) ∧
  (∀ (s s1 s2 s3 s4 s5 : State) (ft : List FtEntry) (m : CodeTable), exec .fcCount s = .next s1 → s1.ft = some ft →
    exec .tbBuild s1 = .next s2 → exec .ctBuild s2 = .next s3 → s3.ct = some m → exec .bwOpen s3 = .next s4 →
    exec .encodeSyms s4 = .next s5 → s5.errKind = .none →
    s5.bitCount = (ft.map fun e => ((m.code? e.sym).getD []).length * e.count.toNat).sum)

/-- R96: Q_CODE returns the length of the code of ARG0 and its 32 bits from bit ARG1 on, left-aligned, or zeros
for a symbol with no code; without a valid CT it fails with BAD_STATE(0). -/
def Obligations.QCodeReadsCodeBits : Prop :=
  ∀ s : State, (s.ct = none → exec .qCode s = .next (s.errorEntry ⟨.badState, 0⟩)) ∧
    ∀ m : CodeTable, s.ct = some m →
    (m.code? s.arg0 = none →
      exec .qCode s = .next { s with res0 := 0, res1 := 0, res2 := 0, res3 := 0 }.finishOk) ∧
    (∀ c, m.code? s.arg0 = some c → ∃ r : Word,
      exec .qCode s = .next { s with res0 := word c.length, res1 := r, res2 := 0, res3 := 0 }.finishOk ∧
      ∀ j, j < 32 → r.getLsbD (31 - j) = c.getD (s.arg1.toNat + j) false)

/-! ### BitWriter -/

/-- R99: BW_OPEN opens the writer with no pending bits and BIT_COUNT 0, and leaves OUT_LEN. -/
def Obligations.BwOpenStartsStream : Prop :=
  ∀ s : State, exec .bwOpen s = .next { s with bwOpen := true, bwAcc := 0, bwNbits := 0, bitCount := 0 }.finishOk

/-- R100, R97, R98, R80: BW_WRITE N writes ARG0[N-1], ..., ARG0[0] in that order when there is room below OUT_BUDGET
for the bytes they fill.
With too little room it fails with STREAM_OVERFLOW(OUT_LEN) at the first bit that would fill a byte there is no room
for, and the bits before it stay written; with the writer closed it fails with BAD_STATE(0).
OUT_LEN above OUT_BUDGET leaves no room. -/
def Obligations.BwWriteWritesLowBits : Prop :=
  ∀ (s : State) (n : Nat), 1 ≤ n → n ≤ 32 →
    let bits := (List.range n).map fun j => s.arg0.getLsbD (n - 1 - j)
    (s.bwOpen = false → exec (.bwWrite n) s = .next (s.errorEntry ⟨.badState, 0⟩)) ∧
    (s.bwOpen = true →
      ((s.bwNbits.val + n) / 8 ≤ s.room → ∃ t, exec (.bwWrite n) s = .next t.finishOk ∧ WroteBits bits s t) ∧
      (s.room < (s.bwNbits.val + n) / 8 → ∃ t, exec (.bwWrite n) s = .next (t.errorEntry ⟨.streamOverflow, t.outLen⟩) ∧
        WroteBits (bits.take (8 * s.room + 7 - s.bwNbits.val)) s t))

/-- R101: BW_CLOSE emits the partial byte, its pending bits first and zeros after them, and the trailer
BW_NBITS, and closes the writer; with fewer than 2 bytes of budget left it emits nothing and the writer stays
open; with the writer closed it fails with BAD_STATE(0). -/
def Obligations.BwCloseFlushesAndAppendsTrailer : Prop :=
  ∀ s : State, (s.bwOpen = false → exec .bwClose s = .next (s.errorEntry ⟨.badState, 0⟩)) ∧ (s.bwOpen = true →
    (s.outLen.toNat + 2 ≤ s.outBudget.toNat → ∃ (t : State) (b : Byte),
      exec .bwClose s = .next { t with bwOpen := false, bwAcc := 0, bwNbits := 0 }.finishOk ∧
      EmittedBytes [b, BitVec.ofNat 8 s.bwNbits.val] s t ∧
      byteBits b = s.pendingBits ++ List.replicate (8 - s.bwNbits.val) false) ∧
    (s.outBudget.toNat < s.outLen.toNat + 2 →
      exec .bwClose s = .next (s.errorEntry ⟨.streamOverflow, s.outLen⟩)))

/-- R102, R76: the bytes from BW_OPEN to BW_CLOSE are a stream that carries exactly the bits written. -/
def Obligations.ClosedWriterLeavesStream : Prop :=
  ∀ (s t u : State) (bits : List Bool), s.bwOpen = true → s.bwNbits = 0 → WroteBits bits s t →
    t.outLen.toNat + 2 ≤ t.outBudget.toNat → exec .bwClose t = .next u →
    IsStream (u.outBytes s.outLen.toNat (u.outLen.toNat - s.outLen.toNat)) bits

/-! ### BitReader -/

/-- R104: BR_OPEN opens the stream from IN_POS to IN_LEN, with 8(n-2) + trailer valid bits, or fails closed with
SOURCE_UNAVAILABLE, TRUNCATED_STREAM(n) or MALFORMED_STREAM(IN_LEN-1). -/
def Obligations.BrOpenLatchesStream : Prop :=
  ∀ s : State,
    let closed : State := { s with brOpen := false, brBase := 0, brTotal := 0, brBitPos := 0 }
    let n := s.inLen.toNat - s.inPos.toNat
    let trailer := s.inAt (s.inLen.toNat - 1)
    (s.cfg.inCap < s.inLen.toNat →
      exec .brOpen s = .next (closed.errorEntry ⟨.sourceUnavailable, s.inLen⟩)) ∧
    (s.inLen.toNat ≤ s.cfg.inCap → n < 2 →
      exec .brOpen s = .next (closed.errorEntry ⟨.truncatedStream, word n⟩)) ∧
    (s.inLen.toNat ≤ s.cfg.inCap → 2 ≤ n → 8 < trailer.toNat →
      exec .brOpen s = .next (closed.errorEntry ⟨.malformedStream, s.inLen - 1⟩)) ∧
    (s.inLen.toNat ≤ s.cfg.inCap → 2 ≤ n → trailer.toNat ≤ 8 →
      exec .brOpen s = .next { s with
        brOpen := true, brBase := s.inPos.toNat, brTotal := 8 * (n - 2) + trailer.toNat, brBitPos := 0 }.finishOk)

/-- R105, R103, R52: BR_READ N returns the next N bits, the first of them in bit N-1 of RES0, or fails with
TRUNCATED_STREAM(BR_REMAIN) and consumes none; with the reader closed it fails with BAD_STATE(0). -/
def Obligations.BrReadReturnsNextBits : Prop :=
  ∀ (s : State) (n : Nat), 1 ≤ n → n ≤ 32 →
    (s.brOpen = false → exec (.brRead n) s = .next (s.errorEntry ⟨.badState, 0⟩)) ∧ (s.brOpen = true →
    (s.brBitPos + n ≤ s.brTotal → ∃ r : Word,
      exec (.brRead n) s = .next { s with
        brBitPos := s.brBitPos + n, res0 := r, res1 := 0, res2 := 0, res3 := 0 }.finishOk ∧
      r.toNat < 2 ^ n ∧
      ∀ j, j < n → r.getLsbD (n - 1 - j) =
        (s.inAt (s.brBase + (s.brBitPos + j) / 8)).getLsbD (7 - (s.brBitPos + j) % 8)) ∧
    (s.brTotal - s.brBitPos < n →
      exec (.brRead n) s = .next (s.errorEntry ⟨.truncatedStream, word (s.brTotal - s.brBitPos)⟩)))

/-- R107, R76: a stream that stands in IN_MEM from IN_POS to IN_LEN opens with exactly its valid bits, in order,
whatever its padding; and what the BitWriter leaves is such a stream. -/
def Obligations.ReaderDeliversStreamBits : Prop :=
  (∀ (s : State) (bytes : List Byte) (bits : List Bool), CarriesBits bytes bits →
    BytesAt s.inAt s.inPos.toNat bytes → s.inLen.toNat = s.inPos.toNat + bytes.length →
    s.inLen.toNat ≤ s.cfg.inCap →
    ∃ t, exec .brOpen s = .next t ∧ t.errKind = .none ∧ t.brOpen = true ∧ t.brBitPos = 0 ∧
      t.brTotal = bits.length ∧ ∀ k b, bits[k]? = some b → t.streamBit k = b) ∧
  ∀ (bytes : List Byte) (bits : List Bool), IsStream bytes bits → CarriesBits bytes bits

/-! ### TreeCodec -/

/-- R70, R108: the decimal spelling the Engine emits is the canonical one: digits only, no leading zero but for
0 itself, and its value is the number. -/
def Obligations.EmittedDecimalIsCanonical : Prop :=
  ∀ v : Word, (decText v).all isDigit = true ∧
    (decText v).foldl (fun n c => 10 * n + digitValue c) 0 = v.toNat ∧
    (v ≠ 0 → (decText v).head? ≠ some 0x30) ∧ (v = 0 → decText v = [0x30]) ∧ 1 ≤ (decText v).length

/-- R110, R73, R80: TC_SERIALIZE of a tree whose leaves can be spelled writes its header at OUT_LEN when there is room
for it below OUT_BUDGET.
With too little room it fails with STREAM_OVERFLOW(OUT_LEN) after the bytes that fit; at a leaf that cannot be spelled
it fails with INVALID_SYMBOL(i), at the lowest such i, and emits nothing; without a valid tree it fails with
BAD_STATE(0).
OUT_LEN above OUT_BUDGET leaves no room. -/
def Obligations.TcSerializeWritesHeader : Prop :=
  ∀ s : State, (s.tree = none → exec .tcSerialize s = .next (s.errorEntry ⟨.badState, 0⟩)) ∧
    ∀ t : Tree, s.tree = some t →
    (∀ i x f, t.nodes[i]? = some (.leaf x f) → validSym x s.variant = false →
      (∀ (j : Nat) (y g : Word), j < i → t.nodes[j]? = some (.leaf y g) → validSym y s.variant = true) →
      exec .tcSerialize s = .next (s.errorEntry ⟨.invalidSymbol, word i⟩)) ∧
    (∀ shape, t.Ok → t.HasWholeShape shape → (∀ x ∈ t.nodes.filterMap Node.sym?, validSym x s.variant = true) →
      let header := headerOf s.variant s.imgW s.imgH shape
      (header.length ≤ s.room → ∃ u, exec .tcSerialize s = .next u.finishOk ∧ EmittedBytes header s u) ∧
      (s.room < header.length → ∃ u, exec .tcSerialize s = .next (u.errorEntry ⟨.streamOverflow, u.outLen⟩) ∧
        EmittedBytes (header.take s.room) s u))

/-- R111, R112, R113: TC_PARSE of a header of the grammar, followed by any bytes, completes with the tree of its shape,
whose entries stand in post-order with ROOT the last of them, the variant, IN_POS after END and, in the pixel variant,
the width and height; and the header TC_SERIALIZE writes is a header of the grammar. -/
def Obligations.TcParseInvertsSerialize : Prop :=
  (∀ (s : State) (pixel : Bool) (w h : Word) (shape : Option Shape) (text : List Byte),
    HeaderText pixel w h shape text →
    (∀ sh, shape = some sh → sh.syms.Nodup ∧ sh.size ≤ s.cfg.nodeCap) →
    BytesAt s.inAt s.inPos.toNat text → s.inPos.toNat + text.length ≤ s.inLen.toNat → s.inLen.toNat ≤ s.cfg.inCap →
    exec .tcParse s = .next { s with
      tree := some (treeOfShape shape), ct := none, hdrVariant := pixel, inPos := word (s.inPos.toNat + text.length)
      imgW := if pixel then w else s.imgW, imgH := if pixel then h else s.imgH }.finishOk ∧
    (treeOfShape shape).Ok ∧ (treeOfShape shape).HasWholeShape shape ∧
    ∀ sh, shape = some sh → (treeOfShape shape).root = some ((treeOfShape shape).nodes.length - 1) ∧
      (treeOfShape shape).nodes.filterMap Node.sym? = sh.syms) ∧
  ∀ (pixel : Bool) (w h : Word) (shape : Option Shape),
    (∀ sh, shape = some sh → sh.isInternal = true ∧ ∀ x ∈ sh.syms, validSym x pixel = true) →
    HeaderText pixel w h shape (headerOf pixel w h shape)

/-- R111, R109, R72: how TC_PARSE fails, at the first byte that shows the error.
The input ends where the header needs a byte: TRUNCATED_STREAM; a byte does not fit the grammar, or is a digit that
takes a number above 2^32 - 1, be it the label of a node that would be refused for its symbol or for want of room:
MALFORMED_HEADER at that byte; a leaf has the symbol of an earlier one: MALFORMED_HEADER at the leaf's first byte;
an internal node is at depth NODE_CAP, or a node's entry is the first without room: CAPACITY_EXCEEDED at the node's
first byte.
A failure leaves the tree and the codes invalid and everything else as it was. -/
def Obligations.TcParseErrors : Prop :=
  ∀ s : State,
    let fails := fun (k : ErrKind) (q : Nat) =>
      exec .tcParse s = .next ({ s with tree := none, ct := none }.errorEntry ⟨k, word q⟩)
    let noDigit := fun q : Nat => s.inLen.toNat ≤ q ∨ isDigit (s.inAt q) = false
    let stands := fun text : List Byte =>
      BytesAt s.inAt s.inPos.toNat text ∧ s.inPos.toNat + text.length ≤ s.inLen.toNat
    (∀ t, exec .tcParse s = .next t → t.errKind ≠ .none →
      t = { s with tree := none, ct := none }.errorEntry ⟨t.errKind, t.errInfo⟩) ∧
    (s.cfg.inCap < s.inLen.toNat → fails .sourceUnavailable s.inLen.toNat) ∧
    (s.inLen.toNat ≤ s.cfg.inCap → 2 ≤ s.cfg.nodeCap →
      (∀ text ok, HeaderNext s.cfg.nodeCap text ok → stands text →
        let q := s.inPos.toNat + text.length
        (s.inLen.toNat = q → fails .truncatedStream q) ∧
        (q < s.inLen.toNat → ¬ ok (s.inAt q) → fails .malformedHeader q)) ∧
      (s.inLen.toNat < s.inPos.toNat → fails .truncatedStream s.inPos.toNat) ∧
      (∀ pixel w h slot pre t d nodes, PrefixText pixel w h pre → NodeStarts pixel s.cfg.nodeCap slot t d nodes →
        let q := s.inPos.toNat + (pre ++ t).length
        (∀ a b x f, 0 < d → SymText pixel a x → Numeral b f → stands (pre ++ t ++ a ++ [byteColon] ++ b) →
          noDigit (q + (a ++ [byteColon] ++ b).length) → x ∈ nodes.filterMap Node.sym? → fails .malformedHeader q) ∧
        (0 < d → d + 1 = s.cfg.nodeCap → stands (pre ++ t ++ [byteOpen]) → fails .capacityExceeded q) ∧
        (∀ a sh, (d = 0 → sh.isInternal = true) → NodeText pixel a sh → stands (pre ++ t ++ a) →
          noDigit (q + a.length) → (nodes.filterMap Node.sym? ++ sh.syms).Nodup →
          nodes.length + sh.size = s.cfg.nodeCap + 1 → d + 1 + sh.height ≤ s.cfg.nodeCap →
          fails .capacityExceeded q) ∧
        (∀ a sh, (d = 0 → sh.isInternal = true) → NodeText pixel a sh → stands (pre ++ t ++ a) →
          sh.LabelRead s.cfg.nodeCap (d + 1) nodes → q + a.length < s.inLen.toNat →
          isDigit (s.inAt (q + a.length)) = true →
          0xFFFFFFFF < 10 * sh.freq.toNat + digitValue (s.inAt (q + a.length)) →
          fails .malformedHeader (q + a.length))))

/-! ### Compressor -/

/-- R115, R80: ENCODE writes the code of every symbol in order when there is room below OUT_BUDGET for the bytes they
fill.
It fails with BAD_STATE(0), with SOURCE_UNAVAILABLE(SYM_COUNT), with INVALID_SYMBOL(i) at the first symbol that has no
code, after the codes of the symbols before it, or with STREAM_OVERFLOW(OUT_LEN) at the first bit that fills a byte
there is no room for, after the bits before it.
OUT_LEN above OUT_BUDGET leaves no room. -/
def Obligations.EncodeWritesCodes : Prop :=
  ∀ s : State, (s.ct = none → exec .encodeSyms s = .next (s.errorEntry ⟨.badState, 0⟩)) ∧
    (s.bwOpen = false → exec .encodeSyms s = .next (s.errorEntry ⟨.badState, 0⟩)) ∧
    ∀ m : CodeTable, s.ct = some m → s.bwOpen = true →
    (s.cfg.symCap < s.symCount.toNat →
      exec .encodeSyms s = .next (s.errorEntry ⟨.sourceUnavailable, s.symCount⟩)) ∧
    (s.symCount.toNat ≤ s.cfg.symCap →
      ((∀ x ∈ s.symbols, (m.code? x).isSome = true) →
        (s.bwNbits.val + (codeBits m s.symbols).length) / 8 ≤ s.room →
        ∃ t, exec .encodeSyms s = .next t.finishOk ∧ WroteBits (codeBits m s.symbols) s t) ∧
      ∀ i, (∀ x ∈ s.symbols.take i, (m.code? x).isSome = true) →
        let bits := codeBits m (s.symbols.take i)
        (i < s.symCount.toNat → m.code? (s.symAt i) = none → (s.bwNbits.val + bits.length) / 8 ≤ s.room →
          ∃ t, exec .encodeSyms s = .next (t.errorEntry ⟨.invalidSymbol, word i⟩) ∧ WroteBits bits s t) ∧
        (s.room < (s.bwNbits.val + bits.length) / 8 →
          ∃ t, exec .encodeSyms s = .next (t.errorEntry ⟨.streamOverflow, t.outLen⟩) ∧
            WroteBits (bits.take (8 * s.room + 7 - s.bwNbits.val)) s t))

/-- R116, R75: COMPRESS of an acceptable sequence whose file fits in OUT_BUDGET writes that file at OUT_MEM[0],
leaves the tables valid and the writer closed, and changes nothing else. -/
def Obligations.CompressWritesFile : Prop :=
  ∀ s : State, Encodable s.cfg s.variant s.symbols →
    (huffFile s.variant s.imgW s.imgH s.symbols).length ≤ s.outBudget.toNat →
    ∃ t, exec .compress s = .next t ∧
      t = { s with
        ft := some (freqTable s.symbols), tree := some (huffTree s.symbols), ct := some (huffTree s.symbols).codes
        bwOpen := false, bwAcc := 0, bwNbits := 0
        bitCount := (codeBits (huffTree s.symbols).codes s.symbols).length
        outLen := word (huffFile s.variant s.imgW s.imgH s.symbols).length, outMem := t.outMem }.finishOk ∧
      BytesAt t.outAt 0 (huffFile s.variant s.imgW s.imgH s.symbols) ∧
      ∀ a, (huffFile s.variant s.imgW s.imgH s.symbols).length ≤ a → t.outAt a = s.outAt a

/-- R116, R124 (point 3), R80: how COMPRESS fails, and what it leaves.
FC_COUNT's errors leave OUT_LEN and BIT_COUNT 0, the tables invalid and the writer closed; a file that does not fit in
OUT_BUDGET fails with STREAM_OVERFLOW(OUT_LEN) with the tables valid: inside the header, after the bytes that fit and
with the writer closed; inside the code bits, after the bits that fit and with the writer open; or at BW_CLOSE, after
every code bit and with the writer open. -/
def Obligations.CompressErrors : Prop :=
  ∀ s : State,
    let start : State := { s with
      outLen := 0, ft := none, tree := none, ct := none, bwOpen := false, bwAcc := 0, bwNbits := 0, bitCount := 0 }
    (s.cfg.symCap < s.symCount.toNat →
      exec .compress s = .next (start.errorEntry ⟨.sourceUnavailable, s.symCount⟩)) ∧
    (∀ i, s.symCount.toNat ≤ s.cfg.symCap → i < s.symCount.toNat →
      (∀ x ∈ s.symbols.take i, validSym x s.variant = true) →
      (firstSeen (s.symbols.take i)).length ≤ s.cfg.maxDistinct →
      (validSym (s.symAt i) s.variant = false →
        exec .compress s = .next (start.errorEntry ⟨.invalidSymbol, word i⟩)) ∧
      (validSym (s.symAt i) s.variant = true → s.symAt i ∉ s.symbols.take i →
        (firstSeen (s.symbols.take i)).length = s.cfg.maxDistinct →
        exec .compress s = .next (start.errorEntry ⟨.capacityExceeded, word i⟩))) ∧
    (Encodable s.cfg s.variant s.symbols →
      let built : State := { start with
        ft := some (freqTable s.symbols), tree := some (huffTree s.symbols), ct := some (huffTree s.symbols).codes }
      let header := huffHeader s.variant s.imgW s.imgH s.symbols
      let bits := huffBits s.symbols
      let budget := s.outBudget.toNat
      (s.symbols = [] → budget < 2 →
        exec .compress s = .next ({ built with bwOpen := true }.errorEntry ⟨.streamOverflow, 0⟩)) ∧
      (s.symbols ≠ [] →
        (budget < header.length →
          ∃ u, EmittedBytes (header.take budget) built u ∧
            exec .compress s = .next (u.errorEntry ⟨.streamOverflow, u.outLen⟩)) ∧
        (header.length ≤ budget → budget < header.length + bits.length / 8 →
          ∃ u v, EmittedBytes header built u ∧
            WroteBits (bits.take (8 * (budget - header.length) + 7)) { u with bwOpen := true } v ∧
            exec .compress s = .next (v.errorEntry ⟨.streamOverflow, v.outLen⟩)) ∧
        (header.length + bits.length / 8 ≤ budget →
          budget < (huffFile s.variant s.imgW s.imgH s.symbols).length →
          ∃ u v, EmittedBytes header built u ∧ WroteBits bits { u with bwOpen := true } v ∧
            exec .compress s = .next (v.errorEntry ⟨.streamOverflow, v.outLen⟩))))

/-- R117: COMPRESS does what its stage commands do one after another from OUT_LEN = 0, when each of them
succeeds. -/
def Obligations.CompressMatchesStages : Prop :=
  ∀ s s1 s2 s3 : State, exec .fcCount { s with outLen := 0 } = .next s1 → s1.errKind = .none →
    exec .tbBuild s1 = .next s2 → s2.errKind = .none → exec .ctBuild s2 = .next s3 → s3.errKind = .none →
    (s.symCount = 0 → ∀ s4 s5, exec .bwOpen s3 = .next s4 → exec .bwClose s4 = .next s5 → s5.errKind = .none →
      exec .compress s = .next s5) ∧
    (s.symCount ≠ 0 → ∀ s4 s5 s6 s7, exec .tcSerialize s3 = .next s4 → s4.errKind = .none →
      exec .bwOpen s4 = .next s5 → exec .encodeSyms s5 = .next s6 → s6.errKind = .none →
      exec .bwClose s6 = .next s7 → s7.errKind = .none → exec .compress s = .next s7)

/-! ### Decompressor -/

/-- R118: DECODE of a stream whose remaining bits are the codes of a sequence writes that sequence to SYM_MEM,
sets SYM_COUNT, consumes every bit, and changes nothing else. -/
def Obligations.DecodeFollowsCodes : Prop :=
  ∀ (s : State) (t : Tree) (codes : List (Word × Code)), s.tree = some t → t.Ok → s.brOpen = true →
    s.brBitPos ≤ s.brTotal → (∀ p ∈ codes, t.IsCode p.1 p.2) → codes.length ≤ s.cfg.symCap →
    s.cfg.symCap < 2 ^ 32 →
    ((List.range (s.brTotal - s.brBitPos)).map fun j => s.streamBit (s.brBitPos + j)) = codes.flatMap Prod.snd →
    ∃ u, exec .decodeSyms s = .next u ∧
      u = { s with symMem := u.symMem, symCount := word codes.length, brBitPos := s.brTotal }.finishOk ∧
      ∀ k, u.symAt k = ((codes[k]?).map Prod.fst).getD (s.symAt k)

/-- R118, R80: how DECODE fails, each time with the symbols decoded before it in SYM_MEM and SYM_COUNT, the bits it
took consumed, and nothing else changed.
MALFORMED_STREAM at a bit under the null tree or with no child to descend to, TRUNCATED_STREAM(k) when the bits end
inside a code after k symbols, CAPACITY_EXCEEDED(SYM_CAP) at the code of a symbol too many. -/
def Obligations.DecodeErrors : Prop :=
  ∀ (s : State) (t : Tree), s.tree = some t → s.brOpen = true →
    let ahead := (List.range (s.brTotal - s.brBitPos)).map fun j => s.streamBit (s.brBitPos + j)
    (t = ⟨[], none⟩ → s.brBitPos < s.brTotal →
      exec .decodeSyms s = .next ({ s with symCount := 0 }.errorEntry ⟨.malformedStream, word s.brBitPos⟩)) ∧
    (∀ (r : Nat) (codes : List (Word × Code)), t.Ok → t.root = some r → (∀ p ∈ codes, t.IsCode p.1 p.2) →
      codes.length ≤ s.cfg.symCap → s.cfg.symCap < 2 ^ 32 →
      let taken := (codes.flatMap Prod.snd).length
      (∀ (path rest : List Bool) (f : Word) (l : Nat), ahead = codes.flatMap Prod.snd ++ path ++ true :: rest →
        t.reach r path = some (.internal f l none) →
        ∃ u, DecodedTo codes (taken + path.length + 1) s u ∧ exec .decodeSyms s =
          .next (u.errorEntry ⟨.malformedStream, word (s.brBitPos + taken + path.length)⟩)) ∧
      (∀ (path : List Bool) (f : Word) (l : Nat) (c : Option Nat), ahead = codes.flatMap Prod.snd ++ path →
        path ≠ [] → t.reach r path = some (.internal f l c) →
        ∃ u, DecodedTo codes (taken + path.length) s u ∧ exec .decodeSyms s =
          .next (u.errorEntry ⟨.truncatedStream, word codes.length⟩)) ∧
      (∀ (x : Word) (c : Code) (rest : List Bool), ahead = codes.flatMap Prod.snd ++ c ++ rest →
        codes.length = s.cfg.symCap → t.IsCode x c →
        ∃ u, DecodedTo codes (taken + c.length) s u ∧ exec .decodeSyms s =
          .next (u.errorEntry ⟨.capacityExceeded, word s.cfg.symCap⟩)))

/-- R119: DECOMPRESS of the empty-input file completes with the null tree; a file that is too long, too short or
a longer or different file that starts with 0x00 fails. -/
def Obligations.DecompressOfShortFiles : Prop :=
  ∀ s : State,
    let start : State := { s with
      inPos := 0, ft := none, tree := none, ct := none, brOpen := false, brBase := 0, brTotal := 0, brBitPos := 0 }
    (s.cfg.inCap < s.inLen.toNat →
      exec .decompress s = .next (start.errorEntry ⟨.sourceUnavailable, s.inLen⟩)) ∧
    (s.inLen.toNat ≤ s.cfg.inCap → s.inLen.toNat < 2 →
      exec .decompress s = .next (start.errorEntry ⟨.truncatedStream, s.inLen⟩)) ∧
    (s.inLen.toNat ≤ s.cfg.inCap → 2 ≤ s.inLen.toNat → s.inAt 0 = 0 → s.inAt 1 ≠ 0 →
      exec .decompress s = .next (start.errorEntry ⟨.malformedHeader, 1⟩)) ∧
    (s.inLen.toNat ≤ s.cfg.inCap → 2 < s.inLen.toNat → s.inAt 0 = 0 → s.inAt 1 = 0 →
      exec .decompress s = .next (start.errorEntry ⟨.malformedHeader, 2⟩)) ∧
    (s.inLen.toNat ≤ s.cfg.inCap → s.inLen.toNat = 2 → s.inAt 0 = 0 → s.inAt 1 = 0 →
      exec .decompress s = .next { start with
        tree := some ⟨[], none⟩, hdrVariant := false, symCount := 0, imgW := 0, imgH := 0 }.finishOk)

/-- R120, R119: DECOMPRESS of a file whose first byte is not 0x00 does what TC_PARSE, BR_OPEN and DECODE do one after
another from IN_POS = 0, when each of them succeeds; and when one of them fails it ends as that stage does, with its
error, the stages after it not run and, after a failed TC_PARSE, the reader closed.
It leaves FT invalid, as R119 says, where the stages leave FT as it was; that the two differ in this, which R120 does
not name, is the model's reading (log entry 13, DEDUCED). -/
def Obligations.DecompressMatchesStages : Prop :=
  ∀ s s1 : State, 2 ≤ s.inLen.toNat → s.inAt 0 ≠ 0 → exec .tcParse { s with inPos := 0 } = .next s1 →
    (s1.errKind ≠ .none → exec .decompress s = .next { s1 with
      ft := none, brOpen := false, brBase := 0, brTotal := 0, brBitPos := 0 }) ∧
    (s1.errKind = .none → ∀ s2, exec .brOpen s1 = .next s2 →
      (s2.errKind ≠ .none → exec .decompress s = .next { s2 with ft := none }) ∧
      (s2.errKind = .none → ∀ s3, exec .decodeSyms s2 = .next s3 →
        exec .decompress s = .next { s3 with ft := none }))

/-- R119, R111, R112, R104, R118, R114: DECOMPRESS of a file completes: when a header of the grammar stands at
IN_MEM[0..] and the stream after it carries the codes of a sequence in the header's tree, the sequence is in SYM_MEM
and SYM_COUNT, the tree and the header's values are valid, the reader has delivered every bit, and nothing else
changed. -/
def Obligations.DecompressDecodesFile : Prop :=
  ∀ (s : State) (pixel : Bool) (w h : Word) (shape : Option Shape) (text bytes : List Byte)
    (codes : List (Word × Code)), HeaderText pixel w h shape text →
    (∀ sh, shape = some sh → sh.syms.Nodup ∧ sh.size ≤ s.cfg.nodeCap) →
    (∀ p ∈ codes, (treeOfShape shape).IsCode p.1 p.2) → CarriesBits bytes (codes.flatMap Prod.snd) →
    BytesAt s.inAt 0 (text ++ bytes) → s.inLen.toNat = (text ++ bytes).length → s.inLen.toNat ≤ s.cfg.inCap →
    codes.length ≤ s.cfg.symCap → s.cfg.symCap < 2 ^ 32 →
    ∃ u, exec .decompress s = .next u ∧
      u = { s with
        ft := none, tree := some (treeOfShape shape), ct := none, hdrVariant := pixel, inPos := word text.length
        imgW := if pixel then w else s.imgW, imgH := if pixel then h else s.imgH
        brOpen := true, brBase := text.length, brTotal := (codes.flatMap Prod.snd).length
        brBitPos := (codes.flatMap Prod.snd).length
        symMem := u.symMem, symCount := word codes.length }.finishOk ∧
      ∀ k, u.symAt k = ((codes[k]?).map Prod.fst).getD (s.symAt k)

/-- R121: round trip. Run COMPRESS on an acceptable sequence whose file fits in OUT_BUDGET, copy the file to
IN_MEM[0..], set IN_LEN to its length, and run DECOMPRESS: it succeeds, restores the sequence and, for a
non-empty pixel sequence, the width and height, and changes nothing that is not its output. -/
def Obligations.DecompressInvertsCompress : Prop :=
  ∀ c d s : State, s.cfg = c.cfg → s.cfg.legal = true → Encodable c.cfg c.variant c.symbols →
    (huffFile c.variant c.imgW c.imgH c.symbols).length ≤ c.outBudget.toNat → c.outBudget.toNat ≤ c.cfg.inCap →
    exec .compress c = .next d → (∀ k, k < d.outLen.toNat → s.inAt k = d.outAt k) → s.inLen = d.outLen →
    ∃ t, exec .decompress s = .next t ∧
      t = { s with
        ft := none, tree := t.tree, ct := none, hdrVariant := t.hdrVariant, inPos := t.inPos, imgW := t.imgW
        imgH := t.imgH, brOpen := t.brOpen, brBase := t.brBase, brTotal := t.brTotal, brBitPos := t.brBitPos
        symCount := c.symCount, symMem := t.symMem }.finishOk ∧
      (∀ k, t.symAt k = if k < c.symCount.toNat then c.symAt k else s.symAt k) ∧
      (c.symCount ≠ 0 → t.hdrVariant = c.variant ∧ (c.variant = true → t.imgW = c.imgW ∧ t.imgH = c.imgH))
end

