-- ==== Sys2Proof/Laws/Memory.lean ====
section
/-! SUPPORT. The laws of sparse data: a read after a write, and that a write keeps the canonical form. -/

namespace Sys2Proof.Machine

variable {α : Type} {w : Nat}

theorem Assoc.wf_nil : Assoc.wf ([] : Assoc α) = true := rfl

theorem Assoc.wf_iff (m : Assoc α) : Assoc.wf m = true ↔ (m.map Prod.fst).Pairwise (· < ·) := by
  simp [Assoc.wf]

theorem Assoc.wf_cons (p : Nat × α) (m : Assoc α) :
    Assoc.wf (p :: m) = true ↔ (∀ q ∈ m, p.1 < q.1) ∧ Assoc.wf m = true := by
  simp [Assoc.wf_iff]

@[simp] theorem Assoc.get?_nil (k : Nat) : Assoc.get? k ([] : Assoc α) = none := rfl

@[simp] theorem Assoc.get?_put_same (k : Nat) (v : α) (m : Assoc α) : Assoc.get? k (Assoc.put k v m) = some v := by
  induction m with
  | nil => simp [Assoc.put, Assoc.get?]
  | cons p m ih =>
    simp only [Assoc.put]
    split
    · simp [Assoc.get?]
    · split
      · simp [Assoc.get?]
      · simp [Assoc.get?, *]

theorem Assoc.get?_put_other {k j : Nat} (h : j ≠ k) (v : α) (m : Assoc α) :
    Assoc.get? j (Assoc.put k v m) = Assoc.get? j m := by
  induction m with
  | nil => simp [Assoc.put, Assoc.get?, h]
  | cons p m ih =>
    simp only [Assoc.put]
    split
    · simp [Assoc.get?, h]
    · split
      · next hk => subst hk; simp [Assoc.get?, h]
      · simp [Assoc.get?, ih]

theorem Assoc.get?_put (k j : Nat) (v : α) (m : Assoc α) :
    Assoc.get? j (Assoc.put k v m) = if j = k then some v else Assoc.get? j m := by
  split
  · next h => subst h; simp
  · next h => exact Assoc.get?_put_other h v m

/-- The keys of a list after a write are its keys and the key written. -/
theorem Assoc.mem_put {k : Nat} {v : α} {m : Assoc α} {q : Nat × α} (h : q ∈ Assoc.put k v m) :
    q.1 = k ∨ q ∈ m := by
  induction m with
  | nil => simp [Assoc.put] at h; simp [h]
  | cons p m ih =>
    simp only [Assoc.put] at h
    split at h
    · simp at h; rcases h with rfl | rfl | h <;> simp [*]
    · split at h
      · simp at h; rcases h with rfl | h <;> simp [*]
      · simp at h
        rcases h with rfl | h
        · simp
        · rcases ih h with h | h <;> simp [h]

/-- A write keeps the canonical form. -/
theorem Assoc.put_wf (k : Nat) (v : α) {m : Assoc α} (h : Assoc.wf m = true) : Assoc.wf (Assoc.put k v m) = true := by
  induction m with
  | nil => simp [Assoc.put, Assoc.wf]
  | cons p m ih =>
    obtain ⟨hp, hm⟩ := (Assoc.wf_cons p m).1 h
    simp only [Assoc.put]
    split
    · next hk =>
      refine (Assoc.wf_cons _ _).2 ⟨?_, h⟩
      intro q hq
      rcases List.mem_cons.1 hq with rfl | hq
      · exact hk
      · exact Nat.lt_trans hk (hp q hq)
    · split
      · next _ hk => subst hk; exact (Assoc.wf_cons _ _).2 ⟨hp, hm⟩
      · next hlt hne =>
        refine (Assoc.wf_cons _ _).2 ⟨?_, ih hm⟩
        intro q hq
        rcases Assoc.mem_put hq with rfl | hq
        · omega
        · exact hp q hq

/-- In canonical form, a listed pair is what its key reads as. -/
theorem Assoc.get?_eq_some_iff {m : Assoc α} (h : Assoc.wf m = true) (k : Nat) (v : α) :
    Assoc.get? k m = some v ↔ (k, v) ∈ m := by
  induction m with
  | nil => simp
  | cons p m ih =>
    obtain ⟨hp, hm⟩ := (Assoc.wf_cons p m).1 h
    obtain ⟨k', v'⟩ := p
    simp only [Assoc.get?, List.mem_cons, Prod.mk.injEq]
    split
    · next hk =>
      subst hk
      constructor
      · intro h; simp at h; simp [h]
      · rintro (⟨-, rfl⟩ | h)
        · rfl
        · exact absurd (hp _ h) (by simp)
    · next hk => rw [ih hm]; simp [hk]

/-- Two lists in canonical form that read the same are the same list. -/
theorem Assoc.ext {m n : Assoc α} (hm : Assoc.wf m = true) (hn : Assoc.wf n = true)
    (h : ∀ k, Assoc.get? k m = Assoc.get? k n) : m = n := by
  have hp : ∀ l : Assoc α, Assoc.wf l = true → l.Pairwise (fun a b => a.1 < b.1) := by
    intro l hl
    simpa [List.pairwise_map] using (Assoc.wf_iff l).1 hl
  apply List.Perm.eq_of_pairwise (le := fun a b : Nat × α => a.1 < b.1) _ (hp m hm) (hp n hn)
  · refine (List.perm_ext_iff_of_nodup ?_ ?_).2 ?_
    · exact (hp m hm).imp (fun {a b} hab => by rintro rfl; exact absurd hab (Nat.lt_irrefl _))
    · exact (hp n hn).imp (fun {a b} hab => by rintro rfl; exact absurd hab (Nat.lt_irrefl _))
    · rintro ⟨k, v⟩
      rw [← Assoc.get?_eq_some_iff hm, ← Assoc.get?_eq_some_iff hn, h]
  · intro a b _ _ hab hba
    exact absurd hab (by omega)

@[simp] theorem Memory.read?_nil (i : Nat) : Memory.read? ([] : Memory w) i = none := rfl

/-- A read after a write: the value written there, and every other entry as before. -/
theorem Memory.read?_write (m : Memory w) (i j : Nat) (v : BitVec w) :
    (m.write i v).read? j = if j = i then some v else m.read? j := Assoc.get?_put i j v m

/-- Every write keeps the canonical form. -/
theorem Memory.write_wf {m : Memory w} (h : m.wf = true) (i : Nat) (v : BitVec w) : (m.write i v).wf = true :=
  Assoc.put_wf i v h

variable (s : State)

theorem State.symAt_setSym (i j : Nat) (v : Word) : (s.setSym i v).symAt j = if j = i then v else s.symAt j := by
  simp only [State.symAt, State.setSym, Memory.read?_write]; split <;> rfl

theorem State.inAt_setIn (i j : Nat) (v : Byte) : (s.setIn i v).inAt j = if j = i then v else s.inAt j := by
  simp only [State.inAt, State.setIn, Memory.read?_write]; split <;> rfl

theorem State.outAt_setOut (i j : Nat) (v : Byte) : (s.setOut i v).outAt j = if j = i then v else s.outAt j := by
  simp only [State.outAt, State.setOut, Memory.read?_write]; split <;> rfl

end Sys2Proof.Machine
end

