-- ==== Sys2Proof/Laws/State.lean ====
section
/-! SUPPORT. One lemma per field per named update of State, true by rfl, so that no later proof unfolds a
record update. -/

namespace Sys2Proof.Machine

variable (s : State)

/-! ### invalidateFt -/

@[simp] theorem State.invalidateFt_cfg : (s.invalidateFt).cfg = s.cfg := rfl
@[simp] theorem State.invalidateFt_variant : (s.invalidateFt).variant = s.variant := rfl
@[simp] theorem State.invalidateFt_doneIe : (s.invalidateFt).doneIe = s.doneIe := rfl
@[simp] theorem State.invalidateFt_errIe : (s.invalidateFt).errIe = s.errIe := rfl
@[simp] theorem State.invalidateFt_done : (s.invalidateFt).done = s.done := rfl
@[simp] theorem State.invalidateFt_err : (s.invalidateFt).err = s.err := rfl
@[simp] theorem State.invalidateFt_busyWr : (s.invalidateFt).busyWr = s.busyWr := rfl
@[simp] theorem State.invalidateFt_hdrVariant : (s.invalidateFt).hdrVariant = s.hdrVariant := rfl
@[simp] theorem State.invalidateFt_cmd : (s.invalidateFt).cmd = s.cmd := rfl
@[simp] theorem State.invalidateFt_arg0 : (s.invalidateFt).arg0 = s.arg0 := rfl
@[simp] theorem State.invalidateFt_arg1 : (s.invalidateFt).arg1 = s.arg1 := rfl
@[simp] theorem State.invalidateFt_errKind : (s.invalidateFt).errKind = s.errKind := rfl
@[simp] theorem State.invalidateFt_errInfo : (s.invalidateFt).errInfo = s.errInfo := rfl
@[simp] theorem State.invalidateFt_res0 : (s.invalidateFt).res0 = s.res0 := rfl
@[simp] theorem State.invalidateFt_res1 : (s.invalidateFt).res1 = s.res1 := rfl
@[simp] theorem State.invalidateFt_res2 : (s.invalidateFt).res2 = s.res2 := rfl
@[simp] theorem State.invalidateFt_res3 : (s.invalidateFt).res3 = s.res3 := rfl
@[simp] theorem State.invalidateFt_symCount : (s.invalidateFt).symCount = s.symCount := rfl
@[simp] theorem State.invalidateFt_inLen : (s.invalidateFt).inLen = s.inLen := rfl
@[simp] theorem State.invalidateFt_inPos : (s.invalidateFt).inPos = s.inPos := rfl
@[simp] theorem State.invalidateFt_outLen : (s.invalidateFt).outLen = s.outLen := rfl
@[simp] theorem State.invalidateFt_outBudget : (s.invalidateFt).outBudget = s.outBudget := rfl
@[simp] theorem State.invalidateFt_imgW : (s.invalidateFt).imgW = s.imgW := rfl
@[simp] theorem State.invalidateFt_imgH : (s.invalidateFt).imgH = s.imgH := rfl
@[simp] theorem State.invalidateFt_bitCount : (s.invalidateFt).bitCount = s.bitCount := rfl
@[simp] theorem State.invalidateFt_ft : (s.invalidateFt).ft = none := rfl
@[simp] theorem State.invalidateFt_tree : (s.invalidateFt).tree = s.tree := rfl
@[simp] theorem State.invalidateFt_ct : (s.invalidateFt).ct = s.ct := rfl
@[simp] theorem State.invalidateFt_bwOpen : (s.invalidateFt).bwOpen = s.bwOpen := rfl
@[simp] theorem State.invalidateFt_bwAcc : (s.invalidateFt).bwAcc = s.bwAcc := rfl
@[simp] theorem State.invalidateFt_bwNbits : (s.invalidateFt).bwNbits = s.bwNbits := rfl
@[simp] theorem State.invalidateFt_brOpen : (s.invalidateFt).brOpen = s.brOpen := rfl
@[simp] theorem State.invalidateFt_brBase : (s.invalidateFt).brBase = s.brBase := rfl
@[simp] theorem State.invalidateFt_brTotal : (s.invalidateFt).brTotal = s.brTotal := rfl
@[simp] theorem State.invalidateFt_brBitPos : (s.invalidateFt).brBitPos = s.brBitPos := rfl
@[simp] theorem State.invalidateFt_symMem : (s.invalidateFt).symMem = s.symMem := rfl
@[simp] theorem State.invalidateFt_inMem : (s.invalidateFt).inMem = s.inMem := rfl
@[simp] theorem State.invalidateFt_outMem : (s.invalidateFt).outMem = s.outMem := rfl
@[simp] theorem State.invalidateFt_latch : (s.invalidateFt).latch = s.latch := rfl
@[simp] theorem State.invalidateFt_inbox : (s.invalidateFt).inbox = s.inbox := rfl
@[simp] theorem State.invalidateFt_readData : (s.invalidateFt).readData = s.readData := rfl
@[simp] theorem State.invalidateFt_resets : (s.invalidateFt).resets = s.resets := rfl
@[simp] theorem State.invalidateFt_drawn : (s.invalidateFt).drawn = s.drawn := rfl

/-! ### invalidateTree -/

@[simp] theorem State.invalidateTree_cfg : (s.invalidateTree).cfg = s.cfg := rfl
@[simp] theorem State.invalidateTree_variant : (s.invalidateTree).variant = s.variant := rfl
@[simp] theorem State.invalidateTree_doneIe : (s.invalidateTree).doneIe = s.doneIe := rfl
@[simp] theorem State.invalidateTree_errIe : (s.invalidateTree).errIe = s.errIe := rfl
@[simp] theorem State.invalidateTree_done : (s.invalidateTree).done = s.done := rfl
@[simp] theorem State.invalidateTree_err : (s.invalidateTree).err = s.err := rfl
@[simp] theorem State.invalidateTree_busyWr : (s.invalidateTree).busyWr = s.busyWr := rfl
@[simp] theorem State.invalidateTree_hdrVariant : (s.invalidateTree).hdrVariant = s.hdrVariant := rfl
@[simp] theorem State.invalidateTree_cmd : (s.invalidateTree).cmd = s.cmd := rfl
@[simp] theorem State.invalidateTree_arg0 : (s.invalidateTree).arg0 = s.arg0 := rfl
@[simp] theorem State.invalidateTree_arg1 : (s.invalidateTree).arg1 = s.arg1 := rfl
@[simp] theorem State.invalidateTree_errKind : (s.invalidateTree).errKind = s.errKind := rfl
@[simp] theorem State.invalidateTree_errInfo : (s.invalidateTree).errInfo = s.errInfo := rfl
@[simp] theorem State.invalidateTree_res0 : (s.invalidateTree).res0 = s.res0 := rfl
@[simp] theorem State.invalidateTree_res1 : (s.invalidateTree).res1 = s.res1 := rfl
@[simp] theorem State.invalidateTree_res2 : (s.invalidateTree).res2 = s.res2 := rfl
@[simp] theorem State.invalidateTree_res3 : (s.invalidateTree).res3 = s.res3 := rfl
@[simp] theorem State.invalidateTree_symCount : (s.invalidateTree).symCount = s.symCount := rfl
@[simp] theorem State.invalidateTree_inLen : (s.invalidateTree).inLen = s.inLen := rfl
@[simp] theorem State.invalidateTree_inPos : (s.invalidateTree).inPos = s.inPos := rfl
@[simp] theorem State.invalidateTree_outLen : (s.invalidateTree).outLen = s.outLen := rfl
@[simp] theorem State.invalidateTree_outBudget : (s.invalidateTree).outBudget = s.outBudget := rfl
@[simp] theorem State.invalidateTree_imgW : (s.invalidateTree).imgW = s.imgW := rfl
@[simp] theorem State.invalidateTree_imgH : (s.invalidateTree).imgH = s.imgH := rfl
@[simp] theorem State.invalidateTree_bitCount : (s.invalidateTree).bitCount = s.bitCount := rfl
@[simp] theorem State.invalidateTree_ft : (s.invalidateTree).ft = s.ft := rfl
@[simp] theorem State.invalidateTree_tree : (s.invalidateTree).tree = none := rfl
@[simp] theorem State.invalidateTree_ct : (s.invalidateTree).ct = s.ct := rfl
@[simp] theorem State.invalidateTree_bwOpen : (s.invalidateTree).bwOpen = s.bwOpen := rfl
@[simp] theorem State.invalidateTree_bwAcc : (s.invalidateTree).bwAcc = s.bwAcc := rfl
@[simp] theorem State.invalidateTree_bwNbits : (s.invalidateTree).bwNbits = s.bwNbits := rfl
@[simp] theorem State.invalidateTree_brOpen : (s.invalidateTree).brOpen = s.brOpen := rfl
@[simp] theorem State.invalidateTree_brBase : (s.invalidateTree).brBase = s.brBase := rfl
@[simp] theorem State.invalidateTree_brTotal : (s.invalidateTree).brTotal = s.brTotal := rfl
@[simp] theorem State.invalidateTree_brBitPos : (s.invalidateTree).brBitPos = s.brBitPos := rfl
@[simp] theorem State.invalidateTree_symMem : (s.invalidateTree).symMem = s.symMem := rfl
@[simp] theorem State.invalidateTree_inMem : (s.invalidateTree).inMem = s.inMem := rfl
@[simp] theorem State.invalidateTree_outMem : (s.invalidateTree).outMem = s.outMem := rfl
@[simp] theorem State.invalidateTree_latch : (s.invalidateTree).latch = s.latch := rfl
@[simp] theorem State.invalidateTree_inbox : (s.invalidateTree).inbox = s.inbox := rfl
@[simp] theorem State.invalidateTree_readData : (s.invalidateTree).readData = s.readData := rfl
@[simp] theorem State.invalidateTree_resets : (s.invalidateTree).resets = s.resets := rfl
@[simp] theorem State.invalidateTree_drawn : (s.invalidateTree).drawn = s.drawn := rfl

/-! ### invalidateCodes -/

@[simp] theorem State.invalidateCodes_cfg : (s.invalidateCodes).cfg = s.cfg := rfl
@[simp] theorem State.invalidateCodes_variant : (s.invalidateCodes).variant = s.variant := rfl
@[simp] theorem State.invalidateCodes_doneIe : (s.invalidateCodes).doneIe = s.doneIe := rfl
@[simp] theorem State.invalidateCodes_errIe : (s.invalidateCodes).errIe = s.errIe := rfl
@[simp] theorem State.invalidateCodes_done : (s.invalidateCodes).done = s.done := rfl
@[simp] theorem State.invalidateCodes_err : (s.invalidateCodes).err = s.err := rfl
@[simp] theorem State.invalidateCodes_busyWr : (s.invalidateCodes).busyWr = s.busyWr := rfl
@[simp] theorem State.invalidateCodes_hdrVariant : (s.invalidateCodes).hdrVariant = s.hdrVariant := rfl
@[simp] theorem State.invalidateCodes_cmd : (s.invalidateCodes).cmd = s.cmd := rfl
@[simp] theorem State.invalidateCodes_arg0 : (s.invalidateCodes).arg0 = s.arg0 := rfl
@[simp] theorem State.invalidateCodes_arg1 : (s.invalidateCodes).arg1 = s.arg1 := rfl
@[simp] theorem State.invalidateCodes_errKind : (s.invalidateCodes).errKind = s.errKind := rfl
@[simp] theorem State.invalidateCodes_errInfo : (s.invalidateCodes).errInfo = s.errInfo := rfl
@[simp] theorem State.invalidateCodes_res0 : (s.invalidateCodes).res0 = s.res0 := rfl
@[simp] theorem State.invalidateCodes_res1 : (s.invalidateCodes).res1 = s.res1 := rfl
@[simp] theorem State.invalidateCodes_res2 : (s.invalidateCodes).res2 = s.res2 := rfl
@[simp] theorem State.invalidateCodes_res3 : (s.invalidateCodes).res3 = s.res3 := rfl
@[simp] theorem State.invalidateCodes_symCount : (s.invalidateCodes).symCount = s.symCount := rfl
@[simp] theorem State.invalidateCodes_inLen : (s.invalidateCodes).inLen = s.inLen := rfl
@[simp] theorem State.invalidateCodes_inPos : (s.invalidateCodes).inPos = s.inPos := rfl
@[simp] theorem State.invalidateCodes_outLen : (s.invalidateCodes).outLen = s.outLen := rfl
@[simp] theorem State.invalidateCodes_outBudget : (s.invalidateCodes).outBudget = s.outBudget := rfl
@[simp] theorem State.invalidateCodes_imgW : (s.invalidateCodes).imgW = s.imgW := rfl
@[simp] theorem State.invalidateCodes_imgH : (s.invalidateCodes).imgH = s.imgH := rfl
@[simp] theorem State.invalidateCodes_bitCount : (s.invalidateCodes).bitCount = s.bitCount := rfl
@[simp] theorem State.invalidateCodes_ft : (s.invalidateCodes).ft = s.ft := rfl
@[simp] theorem State.invalidateCodes_tree : (s.invalidateCodes).tree = s.tree := rfl
@[simp] theorem State.invalidateCodes_ct : (s.invalidateCodes).ct = none := rfl
@[simp] theorem State.invalidateCodes_bwOpen : (s.invalidateCodes).bwOpen = s.bwOpen := rfl
@[simp] theorem State.invalidateCodes_bwAcc : (s.invalidateCodes).bwAcc = s.bwAcc := rfl
@[simp] theorem State.invalidateCodes_bwNbits : (s.invalidateCodes).bwNbits = s.bwNbits := rfl
@[simp] theorem State.invalidateCodes_brOpen : (s.invalidateCodes).brOpen = s.brOpen := rfl
@[simp] theorem State.invalidateCodes_brBase : (s.invalidateCodes).brBase = s.brBase := rfl
@[simp] theorem State.invalidateCodes_brTotal : (s.invalidateCodes).brTotal = s.brTotal := rfl
@[simp] theorem State.invalidateCodes_brBitPos : (s.invalidateCodes).brBitPos = s.brBitPos := rfl
@[simp] theorem State.invalidateCodes_symMem : (s.invalidateCodes).symMem = s.symMem := rfl
@[simp] theorem State.invalidateCodes_inMem : (s.invalidateCodes).inMem = s.inMem := rfl
@[simp] theorem State.invalidateCodes_outMem : (s.invalidateCodes).outMem = s.outMem := rfl
@[simp] theorem State.invalidateCodes_latch : (s.invalidateCodes).latch = s.latch := rfl
@[simp] theorem State.invalidateCodes_inbox : (s.invalidateCodes).inbox = s.inbox := rfl
@[simp] theorem State.invalidateCodes_readData : (s.invalidateCodes).readData = s.readData := rfl
@[simp] theorem State.invalidateCodes_resets : (s.invalidateCodes).resets = s.resets := rfl
@[simp] theorem State.invalidateCodes_drawn : (s.invalidateCodes).drawn = s.drawn := rfl

/-! ### freshWriter -/

@[simp] theorem State.freshWriter_cfg (o : Bool) : (s.freshWriter o).cfg = s.cfg := rfl
@[simp] theorem State.freshWriter_variant (o : Bool) : (s.freshWriter o).variant = s.variant := rfl
@[simp] theorem State.freshWriter_doneIe (o : Bool) : (s.freshWriter o).doneIe = s.doneIe := rfl
@[simp] theorem State.freshWriter_errIe (o : Bool) : (s.freshWriter o).errIe = s.errIe := rfl
@[simp] theorem State.freshWriter_done (o : Bool) : (s.freshWriter o).done = s.done := rfl
@[simp] theorem State.freshWriter_err (o : Bool) : (s.freshWriter o).err = s.err := rfl
@[simp] theorem State.freshWriter_busyWr (o : Bool) : (s.freshWriter o).busyWr = s.busyWr := rfl
@[simp] theorem State.freshWriter_hdrVariant (o : Bool) : (s.freshWriter o).hdrVariant = s.hdrVariant := rfl
@[simp] theorem State.freshWriter_cmd (o : Bool) : (s.freshWriter o).cmd = s.cmd := rfl
@[simp] theorem State.freshWriter_arg0 (o : Bool) : (s.freshWriter o).arg0 = s.arg0 := rfl
@[simp] theorem State.freshWriter_arg1 (o : Bool) : (s.freshWriter o).arg1 = s.arg1 := rfl
@[simp] theorem State.freshWriter_errKind (o : Bool) : (s.freshWriter o).errKind = s.errKind := rfl
@[simp] theorem State.freshWriter_errInfo (o : Bool) : (s.freshWriter o).errInfo = s.errInfo := rfl
@[simp] theorem State.freshWriter_res0 (o : Bool) : (s.freshWriter o).res0 = s.res0 := rfl
@[simp] theorem State.freshWriter_res1 (o : Bool) : (s.freshWriter o).res1 = s.res1 := rfl
@[simp] theorem State.freshWriter_res2 (o : Bool) : (s.freshWriter o).res2 = s.res2 := rfl
@[simp] theorem State.freshWriter_res3 (o : Bool) : (s.freshWriter o).res3 = s.res3 := rfl
@[simp] theorem State.freshWriter_symCount (o : Bool) : (s.freshWriter o).symCount = s.symCount := rfl
@[simp] theorem State.freshWriter_inLen (o : Bool) : (s.freshWriter o).inLen = s.inLen := rfl
@[simp] theorem State.freshWriter_inPos (o : Bool) : (s.freshWriter o).inPos = s.inPos := rfl
@[simp] theorem State.freshWriter_outLen (o : Bool) : (s.freshWriter o).outLen = s.outLen := rfl
@[simp] theorem State.freshWriter_outBudget (o : Bool) : (s.freshWriter o).outBudget = s.outBudget := rfl
@[simp] theorem State.freshWriter_imgW (o : Bool) : (s.freshWriter o).imgW = s.imgW := rfl
@[simp] theorem State.freshWriter_imgH (o : Bool) : (s.freshWriter o).imgH = s.imgH := rfl
@[simp] theorem State.freshWriter_bitCount (o : Bool) : (s.freshWriter o).bitCount = 0 := rfl
@[simp] theorem State.freshWriter_ft (o : Bool) : (s.freshWriter o).ft = s.ft := rfl
@[simp] theorem State.freshWriter_tree (o : Bool) : (s.freshWriter o).tree = s.tree := rfl
@[simp] theorem State.freshWriter_ct (o : Bool) : (s.freshWriter o).ct = s.ct := rfl
@[simp] theorem State.freshWriter_bwOpen (o : Bool) : (s.freshWriter o).bwOpen = o := rfl
@[simp] theorem State.freshWriter_bwAcc (o : Bool) : (s.freshWriter o).bwAcc = 0 := rfl
@[simp] theorem State.freshWriter_bwNbits (o : Bool) : (s.freshWriter o).bwNbits = 0 := rfl
@[simp] theorem State.freshWriter_brOpen (o : Bool) : (s.freshWriter o).brOpen = s.brOpen := rfl
@[simp] theorem State.freshWriter_brBase (o : Bool) : (s.freshWriter o).brBase = s.brBase := rfl
@[simp] theorem State.freshWriter_brTotal (o : Bool) : (s.freshWriter o).brTotal = s.brTotal := rfl
@[simp] theorem State.freshWriter_brBitPos (o : Bool) : (s.freshWriter o).brBitPos = s.brBitPos := rfl
@[simp] theorem State.freshWriter_symMem (o : Bool) : (s.freshWriter o).symMem = s.symMem := rfl
@[simp] theorem State.freshWriter_inMem (o : Bool) : (s.freshWriter o).inMem = s.inMem := rfl
@[simp] theorem State.freshWriter_outMem (o : Bool) : (s.freshWriter o).outMem = s.outMem := rfl
@[simp] theorem State.freshWriter_latch (o : Bool) : (s.freshWriter o).latch = s.latch := rfl
@[simp] theorem State.freshWriter_inbox (o : Bool) : (s.freshWriter o).inbox = s.inbox := rfl
@[simp] theorem State.freshWriter_readData (o : Bool) : (s.freshWriter o).readData = s.readData := rfl
@[simp] theorem State.freshWriter_resets (o : Bool) : (s.freshWriter o).resets = s.resets := rfl
@[simp] theorem State.freshWriter_drawn (o : Bool) : (s.freshWriter o).drawn = s.drawn := rfl

/-! ### clearReader -/

@[simp] theorem State.clearReader_cfg : (s.clearReader).cfg = s.cfg := rfl
@[simp] theorem State.clearReader_variant : (s.clearReader).variant = s.variant := rfl
@[simp] theorem State.clearReader_doneIe : (s.clearReader).doneIe = s.doneIe := rfl
@[simp] theorem State.clearReader_errIe : (s.clearReader).errIe = s.errIe := rfl
@[simp] theorem State.clearReader_done : (s.clearReader).done = s.done := rfl
@[simp] theorem State.clearReader_err : (s.clearReader).err = s.err := rfl
@[simp] theorem State.clearReader_busyWr : (s.clearReader).busyWr = s.busyWr := rfl
@[simp] theorem State.clearReader_hdrVariant : (s.clearReader).hdrVariant = s.hdrVariant := rfl
@[simp] theorem State.clearReader_cmd : (s.clearReader).cmd = s.cmd := rfl
@[simp] theorem State.clearReader_arg0 : (s.clearReader).arg0 = s.arg0 := rfl
@[simp] theorem State.clearReader_arg1 : (s.clearReader).arg1 = s.arg1 := rfl
@[simp] theorem State.clearReader_errKind : (s.clearReader).errKind = s.errKind := rfl
@[simp] theorem State.clearReader_errInfo : (s.clearReader).errInfo = s.errInfo := rfl
@[simp] theorem State.clearReader_res0 : (s.clearReader).res0 = s.res0 := rfl
@[simp] theorem State.clearReader_res1 : (s.clearReader).res1 = s.res1 := rfl
@[simp] theorem State.clearReader_res2 : (s.clearReader).res2 = s.res2 := rfl
@[simp] theorem State.clearReader_res3 : (s.clearReader).res3 = s.res3 := rfl
@[simp] theorem State.clearReader_symCount : (s.clearReader).symCount = s.symCount := rfl
@[simp] theorem State.clearReader_inLen : (s.clearReader).inLen = s.inLen := rfl
@[simp] theorem State.clearReader_inPos : (s.clearReader).inPos = s.inPos := rfl
@[simp] theorem State.clearReader_outLen : (s.clearReader).outLen = s.outLen := rfl
@[simp] theorem State.clearReader_outBudget : (s.clearReader).outBudget = s.outBudget := rfl
@[simp] theorem State.clearReader_imgW : (s.clearReader).imgW = s.imgW := rfl
@[simp] theorem State.clearReader_imgH : (s.clearReader).imgH = s.imgH := rfl
@[simp] theorem State.clearReader_bitCount : (s.clearReader).bitCount = s.bitCount := rfl
@[simp] theorem State.clearReader_ft : (s.clearReader).ft = s.ft := rfl
@[simp] theorem State.clearReader_tree : (s.clearReader).tree = s.tree := rfl
@[simp] theorem State.clearReader_ct : (s.clearReader).ct = s.ct := rfl
@[simp] theorem State.clearReader_bwOpen : (s.clearReader).bwOpen = s.bwOpen := rfl
@[simp] theorem State.clearReader_bwAcc : (s.clearReader).bwAcc = s.bwAcc := rfl
@[simp] theorem State.clearReader_bwNbits : (s.clearReader).bwNbits = s.bwNbits := rfl
@[simp] theorem State.clearReader_brOpen : (s.clearReader).brOpen = false := rfl
@[simp] theorem State.clearReader_brBase : (s.clearReader).brBase = 0 := rfl
@[simp] theorem State.clearReader_brTotal : (s.clearReader).brTotal = 0 := rfl
@[simp] theorem State.clearReader_brBitPos : (s.clearReader).brBitPos = 0 := rfl
@[simp] theorem State.clearReader_symMem : (s.clearReader).symMem = s.symMem := rfl
@[simp] theorem State.clearReader_inMem : (s.clearReader).inMem = s.inMem := rfl
@[simp] theorem State.clearReader_outMem : (s.clearReader).outMem = s.outMem := rfl
@[simp] theorem State.clearReader_latch : (s.clearReader).latch = s.latch := rfl
@[simp] theorem State.clearReader_inbox : (s.clearReader).inbox = s.inbox := rfl
@[simp] theorem State.clearReader_readData : (s.clearReader).readData = s.readData := rfl
@[simp] theorem State.clearReader_resets : (s.clearReader).resets = s.resets := rfl
@[simp] theorem State.clearReader_drawn : (s.clearReader).drawn = s.drawn := rfl

/-! ### setRes -/

@[simp] theorem State.setRes_cfg (a b c d : Word) : (s.setRes a b c d).cfg = s.cfg := rfl
@[simp] theorem State.setRes_variant (a b c d : Word) : (s.setRes a b c d).variant = s.variant := rfl
@[simp] theorem State.setRes_doneIe (a b c d : Word) : (s.setRes a b c d).doneIe = s.doneIe := rfl
@[simp] theorem State.setRes_errIe (a b c d : Word) : (s.setRes a b c d).errIe = s.errIe := rfl
@[simp] theorem State.setRes_done (a b c d : Word) : (s.setRes a b c d).done = s.done := rfl
@[simp] theorem State.setRes_err (a b c d : Word) : (s.setRes a b c d).err = s.err := rfl
@[simp] theorem State.setRes_busyWr (a b c d : Word) : (s.setRes a b c d).busyWr = s.busyWr := rfl
@[simp] theorem State.setRes_hdrVariant (a b c d : Word) : (s.setRes a b c d).hdrVariant = s.hdrVariant := rfl
@[simp] theorem State.setRes_cmd (a b c d : Word) : (s.setRes a b c d).cmd = s.cmd := rfl
@[simp] theorem State.setRes_arg0 (a b c d : Word) : (s.setRes a b c d).arg0 = s.arg0 := rfl
@[simp] theorem State.setRes_arg1 (a b c d : Word) : (s.setRes a b c d).arg1 = s.arg1 := rfl
@[simp] theorem State.setRes_errKind (a b c d : Word) : (s.setRes a b c d).errKind = s.errKind := rfl
@[simp] theorem State.setRes_errInfo (a b c d : Word) : (s.setRes a b c d).errInfo = s.errInfo := rfl
@[simp] theorem State.setRes_res0 (a b c d : Word) : (s.setRes a b c d).res0 = a := rfl
@[simp] theorem State.setRes_res1 (a b c d : Word) : (s.setRes a b c d).res1 = b := rfl
@[simp] theorem State.setRes_res2 (a b c d : Word) : (s.setRes a b c d).res2 = c := rfl
@[simp] theorem State.setRes_res3 (a b c d : Word) : (s.setRes a b c d).res3 = d := rfl
@[simp] theorem State.setRes_symCount (a b c d : Word) : (s.setRes a b c d).symCount = s.symCount := rfl
@[simp] theorem State.setRes_inLen (a b c d : Word) : (s.setRes a b c d).inLen = s.inLen := rfl
@[simp] theorem State.setRes_inPos (a b c d : Word) : (s.setRes a b c d).inPos = s.inPos := rfl
@[simp] theorem State.setRes_outLen (a b c d : Word) : (s.setRes a b c d).outLen = s.outLen := rfl
@[simp] theorem State.setRes_outBudget (a b c d : Word) : (s.setRes a b c d).outBudget = s.outBudget := rfl
@[simp] theorem State.setRes_imgW (a b c d : Word) : (s.setRes a b c d).imgW = s.imgW := rfl
@[simp] theorem State.setRes_imgH (a b c d : Word) : (s.setRes a b c d).imgH = s.imgH := rfl
@[simp] theorem State.setRes_bitCount (a b c d : Word) : (s.setRes a b c d).bitCount = s.bitCount := rfl
@[simp] theorem State.setRes_ft (a b c d : Word) : (s.setRes a b c d).ft = s.ft := rfl
@[simp] theorem State.setRes_tree (a b c d : Word) : (s.setRes a b c d).tree = s.tree := rfl
@[simp] theorem State.setRes_ct (a b c d : Word) : (s.setRes a b c d).ct = s.ct := rfl
@[simp] theorem State.setRes_bwOpen (a b c d : Word) : (s.setRes a b c d).bwOpen = s.bwOpen := rfl
@[simp] theorem State.setRes_bwAcc (a b c d : Word) : (s.setRes a b c d).bwAcc = s.bwAcc := rfl
@[simp] theorem State.setRes_bwNbits (a b c d : Word) : (s.setRes a b c d).bwNbits = s.bwNbits := rfl
@[simp] theorem State.setRes_brOpen (a b c d : Word) : (s.setRes a b c d).brOpen = s.brOpen := rfl
@[simp] theorem State.setRes_brBase (a b c d : Word) : (s.setRes a b c d).brBase = s.brBase := rfl
@[simp] theorem State.setRes_brTotal (a b c d : Word) : (s.setRes a b c d).brTotal = s.brTotal := rfl
@[simp] theorem State.setRes_brBitPos (a b c d : Word) : (s.setRes a b c d).brBitPos = s.brBitPos := rfl
@[simp] theorem State.setRes_symMem (a b c d : Word) : (s.setRes a b c d).symMem = s.symMem := rfl
@[simp] theorem State.setRes_inMem (a b c d : Word) : (s.setRes a b c d).inMem = s.inMem := rfl
@[simp] theorem State.setRes_outMem (a b c d : Word) : (s.setRes a b c d).outMem = s.outMem := rfl
@[simp] theorem State.setRes_latch (a b c d : Word) : (s.setRes a b c d).latch = s.latch := rfl
@[simp] theorem State.setRes_inbox (a b c d : Word) : (s.setRes a b c d).inbox = s.inbox := rfl
@[simp] theorem State.setRes_readData (a b c d : Word) : (s.setRes a b c d).readData = s.readData := rfl
@[simp] theorem State.setRes_resets (a b c d : Word) : (s.setRes a b c d).resets = s.resets := rfl
@[simp] theorem State.setRes_drawn (a b c d : Word) : (s.setRes a b c d).drawn = s.drawn := rfl

/-! ### finishOk -/

@[simp] theorem State.finishOk_cfg : (s.finishOk).cfg = s.cfg := rfl
@[simp] theorem State.finishOk_variant : (s.finishOk).variant = s.variant := rfl
@[simp] theorem State.finishOk_doneIe : (s.finishOk).doneIe = s.doneIe := rfl
@[simp] theorem State.finishOk_errIe : (s.finishOk).errIe = s.errIe := rfl
@[simp] theorem State.finishOk_done : (s.finishOk).done = true := rfl
@[simp] theorem State.finishOk_err : (s.finishOk).err = s.err := rfl
@[simp] theorem State.finishOk_busyWr : (s.finishOk).busyWr = s.busyWr := rfl
@[simp] theorem State.finishOk_hdrVariant : (s.finishOk).hdrVariant = s.hdrVariant := rfl
@[simp] theorem State.finishOk_cmd : (s.finishOk).cmd = s.cmd := rfl
@[simp] theorem State.finishOk_arg0 : (s.finishOk).arg0 = s.arg0 := rfl
@[simp] theorem State.finishOk_arg1 : (s.finishOk).arg1 = s.arg1 := rfl
@[simp] theorem State.finishOk_errKind : (s.finishOk).errKind = .none := rfl
@[simp] theorem State.finishOk_errInfo : (s.finishOk).errInfo = 0 := rfl
@[simp] theorem State.finishOk_res0 : (s.finishOk).res0 = s.res0 := rfl
@[simp] theorem State.finishOk_res1 : (s.finishOk).res1 = s.res1 := rfl
@[simp] theorem State.finishOk_res2 : (s.finishOk).res2 = s.res2 := rfl
@[simp] theorem State.finishOk_res3 : (s.finishOk).res3 = s.res3 := rfl
@[simp] theorem State.finishOk_symCount : (s.finishOk).symCount = s.symCount := rfl
@[simp] theorem State.finishOk_inLen : (s.finishOk).inLen = s.inLen := rfl
@[simp] theorem State.finishOk_inPos : (s.finishOk).inPos = s.inPos := rfl
@[simp] theorem State.finishOk_outLen : (s.finishOk).outLen = s.outLen := rfl
@[simp] theorem State.finishOk_outBudget : (s.finishOk).outBudget = s.outBudget := rfl
@[simp] theorem State.finishOk_imgW : (s.finishOk).imgW = s.imgW := rfl
@[simp] theorem State.finishOk_imgH : (s.finishOk).imgH = s.imgH := rfl
@[simp] theorem State.finishOk_bitCount : (s.finishOk).bitCount = s.bitCount := rfl
@[simp] theorem State.finishOk_ft : (s.finishOk).ft = s.ft := rfl
@[simp] theorem State.finishOk_tree : (s.finishOk).tree = s.tree := rfl
@[simp] theorem State.finishOk_ct : (s.finishOk).ct = s.ct := rfl
@[simp] theorem State.finishOk_bwOpen : (s.finishOk).bwOpen = s.bwOpen := rfl
@[simp] theorem State.finishOk_bwAcc : (s.finishOk).bwAcc = s.bwAcc := rfl
@[simp] theorem State.finishOk_bwNbits : (s.finishOk).bwNbits = s.bwNbits := rfl
@[simp] theorem State.finishOk_brOpen : (s.finishOk).brOpen = s.brOpen := rfl
@[simp] theorem State.finishOk_brBase : (s.finishOk).brBase = s.brBase := rfl
@[simp] theorem State.finishOk_brTotal : (s.finishOk).brTotal = s.brTotal := rfl
@[simp] theorem State.finishOk_brBitPos : (s.finishOk).brBitPos = s.brBitPos := rfl
@[simp] theorem State.finishOk_symMem : (s.finishOk).symMem = s.symMem := rfl
@[simp] theorem State.finishOk_inMem : (s.finishOk).inMem = s.inMem := rfl
@[simp] theorem State.finishOk_outMem : (s.finishOk).outMem = s.outMem := rfl
@[simp] theorem State.finishOk_latch : (s.finishOk).latch = none := rfl
@[simp] theorem State.finishOk_inbox : (s.finishOk).inbox = s.inbox := rfl
@[simp] theorem State.finishOk_readData : (s.finishOk).readData = s.readData := rfl
@[simp] theorem State.finishOk_resets : (s.finishOk).resets = s.resets := rfl
@[simp] theorem State.finishOk_drawn : (s.finishOk).drawn = s.drawn := rfl

/-! ### errorEntry -/

@[simp] theorem State.errorEntry_cfg (r : Raise) : (s.errorEntry r).cfg = s.cfg := rfl
@[simp] theorem State.errorEntry_variant (r : Raise) : (s.errorEntry r).variant = s.variant := rfl
@[simp] theorem State.errorEntry_doneIe (r : Raise) : (s.errorEntry r).doneIe = s.doneIe := rfl
@[simp] theorem State.errorEntry_errIe (r : Raise) : (s.errorEntry r).errIe = s.errIe := rfl
@[simp] theorem State.errorEntry_done (r : Raise) : (s.errorEntry r).done = true := rfl
@[simp] theorem State.errorEntry_err (r : Raise) : (s.errorEntry r).err = true := rfl
@[simp] theorem State.errorEntry_busyWr (r : Raise) : (s.errorEntry r).busyWr = s.busyWr := rfl
@[simp] theorem State.errorEntry_hdrVariant (r : Raise) : (s.errorEntry r).hdrVariant = s.hdrVariant := rfl
@[simp] theorem State.errorEntry_cmd (r : Raise) : (s.errorEntry r).cmd = s.cmd := rfl
@[simp] theorem State.errorEntry_arg0 (r : Raise) : (s.errorEntry r).arg0 = s.arg0 := rfl
@[simp] theorem State.errorEntry_arg1 (r : Raise) : (s.errorEntry r).arg1 = s.arg1 := rfl
@[simp] theorem State.errorEntry_errKind (r : Raise) : (s.errorEntry r).errKind = r.kind := rfl
@[simp] theorem State.errorEntry_errInfo (r : Raise) : (s.errorEntry r).errInfo = r.info := rfl
@[simp] theorem State.errorEntry_res0 (r : Raise) : (s.errorEntry r).res0 = s.res0 := rfl
@[simp] theorem State.errorEntry_res1 (r : Raise) : (s.errorEntry r).res1 = s.res1 := rfl
@[simp] theorem State.errorEntry_res2 (r : Raise) : (s.errorEntry r).res2 = s.res2 := rfl
@[simp] theorem State.errorEntry_res3 (r : Raise) : (s.errorEntry r).res3 = s.res3 := rfl
@[simp] theorem State.errorEntry_symCount (r : Raise) : (s.errorEntry r).symCount = s.symCount := rfl
@[simp] theorem State.errorEntry_inLen (r : Raise) : (s.errorEntry r).inLen = s.inLen := rfl
@[simp] theorem State.errorEntry_inPos (r : Raise) : (s.errorEntry r).inPos = s.inPos := rfl
@[simp] theorem State.errorEntry_outLen (r : Raise) : (s.errorEntry r).outLen = s.outLen := rfl
@[simp] theorem State.errorEntry_outBudget (r : Raise) : (s.errorEntry r).outBudget = s.outBudget := rfl
@[simp] theorem State.errorEntry_imgW (r : Raise) : (s.errorEntry r).imgW = s.imgW := rfl
@[simp] theorem State.errorEntry_imgH (r : Raise) : (s.errorEntry r).imgH = s.imgH := rfl
@[simp] theorem State.errorEntry_bitCount (r : Raise) : (s.errorEntry r).bitCount = s.bitCount := rfl
@[simp] theorem State.errorEntry_ft (r : Raise) : (s.errorEntry r).ft = s.ft := rfl
@[simp] theorem State.errorEntry_tree (r : Raise) : (s.errorEntry r).tree = s.tree := rfl
@[simp] theorem State.errorEntry_ct (r : Raise) : (s.errorEntry r).ct = s.ct := rfl
@[simp] theorem State.errorEntry_bwOpen (r : Raise) : (s.errorEntry r).bwOpen = s.bwOpen := rfl
@[simp] theorem State.errorEntry_bwAcc (r : Raise) : (s.errorEntry r).bwAcc = s.bwAcc := rfl
@[simp] theorem State.errorEntry_bwNbits (r : Raise) : (s.errorEntry r).bwNbits = s.bwNbits := rfl
@[simp] theorem State.errorEntry_brOpen (r : Raise) : (s.errorEntry r).brOpen = s.brOpen := rfl
@[simp] theorem State.errorEntry_brBase (r : Raise) : (s.errorEntry r).brBase = s.brBase := rfl
@[simp] theorem State.errorEntry_brTotal (r : Raise) : (s.errorEntry r).brTotal = s.brTotal := rfl
@[simp] theorem State.errorEntry_brBitPos (r : Raise) : (s.errorEntry r).brBitPos = s.brBitPos := rfl
@[simp] theorem State.errorEntry_symMem (r : Raise) : (s.errorEntry r).symMem = s.symMem := rfl
@[simp] theorem State.errorEntry_inMem (r : Raise) : (s.errorEntry r).inMem = s.inMem := rfl
@[simp] theorem State.errorEntry_outMem (r : Raise) : (s.errorEntry r).outMem = s.outMem := rfl
@[simp] theorem State.errorEntry_latch (r : Raise) : (s.errorEntry r).latch = none := rfl
@[simp] theorem State.errorEntry_inbox (r : Raise) : (s.errorEntry r).inbox = s.inbox := rfl
@[simp] theorem State.errorEntry_readData (r : Raise) : (s.errorEntry r).readData = s.readData := rfl
@[simp] theorem State.errorEntry_resets (r : Raise) : (s.errorEntry r).resets = s.resets := rfl
@[simp] theorem State.errorEntry_drawn (r : Raise) : (s.errorEntry r).drawn = s.drawn := rfl

/-! ### accept -/

@[simp] theorem State.accept_cfg (w : Word) : (s.accept w).cfg = s.cfg := rfl
@[simp] theorem State.accept_variant (w : Word) : (s.accept w).variant = s.variant := rfl
@[simp] theorem State.accept_doneIe (w : Word) : (s.accept w).doneIe = s.doneIe := rfl
@[simp] theorem State.accept_errIe (w : Word) : (s.accept w).errIe = s.errIe := rfl
@[simp] theorem State.accept_done (w : Word) : (s.accept w).done = false := rfl
@[simp] theorem State.accept_err (w : Word) : (s.accept w).err = false := rfl
@[simp] theorem State.accept_busyWr (w : Word) : (s.accept w).busyWr = s.busyWr := rfl
@[simp] theorem State.accept_hdrVariant (w : Word) : (s.accept w).hdrVariant = s.hdrVariant := rfl
@[simp] theorem State.accept_cmd (w : Word) : (s.accept w).cmd = w := rfl
@[simp] theorem State.accept_arg0 (w : Word) : (s.accept w).arg0 = s.arg0 := rfl
@[simp] theorem State.accept_arg1 (w : Word) : (s.accept w).arg1 = s.arg1 := rfl
@[simp] theorem State.accept_errKind (w : Word) : (s.accept w).errKind = s.errKind := rfl
@[simp] theorem State.accept_errInfo (w : Word) : (s.accept w).errInfo = s.errInfo := rfl
@[simp] theorem State.accept_res0 (w : Word) : (s.accept w).res0 = s.res0 := rfl
@[simp] theorem State.accept_res1 (w : Word) : (s.accept w).res1 = s.res1 := rfl
@[simp] theorem State.accept_res2 (w : Word) : (s.accept w).res2 = s.res2 := rfl
@[simp] theorem State.accept_res3 (w : Word) : (s.accept w).res3 = s.res3 := rfl
@[simp] theorem State.accept_symCount (w : Word) : (s.accept w).symCount = s.symCount := rfl
@[simp] theorem State.accept_inLen (w : Word) : (s.accept w).inLen = s.inLen := rfl
@[simp] theorem State.accept_inPos (w : Word) : (s.accept w).inPos = s.inPos := rfl
@[simp] theorem State.accept_outLen (w : Word) : (s.accept w).outLen = s.outLen := rfl
@[simp] theorem State.accept_outBudget (w : Word) : (s.accept w).outBudget = s.outBudget := rfl
@[simp] theorem State.accept_imgW (w : Word) : (s.accept w).imgW = s.imgW := rfl
@[simp] theorem State.accept_imgH (w : Word) : (s.accept w).imgH = s.imgH := rfl
@[simp] theorem State.accept_bitCount (w : Word) : (s.accept w).bitCount = s.bitCount := rfl
@[simp] theorem State.accept_ft (w : Word) : (s.accept w).ft = s.ft := rfl
@[simp] theorem State.accept_tree (w : Word) : (s.accept w).tree = s.tree := rfl
@[simp] theorem State.accept_ct (w : Word) : (s.accept w).ct = s.ct := rfl
@[simp] theorem State.accept_bwOpen (w : Word) : (s.accept w).bwOpen = s.bwOpen := rfl
@[simp] theorem State.accept_bwAcc (w : Word) : (s.accept w).bwAcc = s.bwAcc := rfl
@[simp] theorem State.accept_bwNbits (w : Word) : (s.accept w).bwNbits = s.bwNbits := rfl
@[simp] theorem State.accept_brOpen (w : Word) : (s.accept w).brOpen = s.brOpen := rfl
@[simp] theorem State.accept_brBase (w : Word) : (s.accept w).brBase = s.brBase := rfl
@[simp] theorem State.accept_brTotal (w : Word) : (s.accept w).brTotal = s.brTotal := rfl
@[simp] theorem State.accept_brBitPos (w : Word) : (s.accept w).brBitPos = s.brBitPos := rfl
@[simp] theorem State.accept_symMem (w : Word) : (s.accept w).symMem = s.symMem := rfl
@[simp] theorem State.accept_inMem (w : Word) : (s.accept w).inMem = s.inMem := rfl
@[simp] theorem State.accept_outMem (w : Word) : (s.accept w).outMem = s.outMem := rfl
@[simp] theorem State.accept_latch (w : Word) : (s.accept w).latch = some w := rfl
@[simp] theorem State.accept_inbox (w : Word) : (s.accept w).inbox = s.inbox := rfl
@[simp] theorem State.accept_readData (w : Word) : (s.accept w).readData = s.readData := rfl
@[simp] theorem State.accept_resets (w : Word) : (s.accept w).resets = s.resets := rfl
@[simp] theorem State.accept_drawn (w : Word) : (s.accept w).drawn = s.drawn := rfl

/-! ### acknowledge -/

@[simp] theorem State.acknowledge_cfg (w : Word) : (s.acknowledge w).cfg = s.cfg := rfl
@[simp] theorem State.acknowledge_variant (w : Word) : (s.acknowledge w).variant = s.variant := rfl
@[simp] theorem State.acknowledge_doneIe (w : Word) : (s.acknowledge w).doneIe = s.doneIe := rfl
@[simp] theorem State.acknowledge_errIe (w : Word) : (s.acknowledge w).errIe = s.errIe := rfl
@[simp] theorem State.acknowledge_done (w : Word) : (s.acknowledge w).done = (s.done && !w.getLsbD 1) := rfl
@[simp] theorem State.acknowledge_err (w : Word) : (s.acknowledge w).err = (s.err && !w.getLsbD 2) := rfl
@[simp] theorem State.acknowledge_busyWr (w : Word) : (s.acknowledge w).busyWr = (s.busyWr && !w.getLsbD 3) := rfl
@[simp] theorem State.acknowledge_hdrVariant (w : Word) : (s.acknowledge w).hdrVariant = s.hdrVariant := rfl
@[simp] theorem State.acknowledge_cmd (w : Word) : (s.acknowledge w).cmd = s.cmd := rfl
@[simp] theorem State.acknowledge_arg0 (w : Word) : (s.acknowledge w).arg0 = s.arg0 := rfl
@[simp] theorem State.acknowledge_arg1 (w : Word) : (s.acknowledge w).arg1 = s.arg1 := rfl
@[simp] theorem State.acknowledge_errKind (w : Word) : (s.acknowledge w).errKind = s.errKind := rfl
@[simp] theorem State.acknowledge_errInfo (w : Word) : (s.acknowledge w).errInfo = s.errInfo := rfl
@[simp] theorem State.acknowledge_res0 (w : Word) : (s.acknowledge w).res0 = s.res0 := rfl
@[simp] theorem State.acknowledge_res1 (w : Word) : (s.acknowledge w).res1 = s.res1 := rfl
@[simp] theorem State.acknowledge_res2 (w : Word) : (s.acknowledge w).res2 = s.res2 := rfl
@[simp] theorem State.acknowledge_res3 (w : Word) : (s.acknowledge w).res3 = s.res3 := rfl
@[simp] theorem State.acknowledge_symCount (w : Word) : (s.acknowledge w).symCount = s.symCount := rfl
@[simp] theorem State.acknowledge_inLen (w : Word) : (s.acknowledge w).inLen = s.inLen := rfl
@[simp] theorem State.acknowledge_inPos (w : Word) : (s.acknowledge w).inPos = s.inPos := rfl
@[simp] theorem State.acknowledge_outLen (w : Word) : (s.acknowledge w).outLen = s.outLen := rfl
@[simp] theorem State.acknowledge_outBudget (w : Word) : (s.acknowledge w).outBudget = s.outBudget := rfl
@[simp] theorem State.acknowledge_imgW (w : Word) : (s.acknowledge w).imgW = s.imgW := rfl
@[simp] theorem State.acknowledge_imgH (w : Word) : (s.acknowledge w).imgH = s.imgH := rfl
@[simp] theorem State.acknowledge_bitCount (w : Word) : (s.acknowledge w).bitCount = s.bitCount := rfl
@[simp] theorem State.acknowledge_ft (w : Word) : (s.acknowledge w).ft = s.ft := rfl
@[simp] theorem State.acknowledge_tree (w : Word) : (s.acknowledge w).tree = s.tree := rfl
@[simp] theorem State.acknowledge_ct (w : Word) : (s.acknowledge w).ct = s.ct := rfl
@[simp] theorem State.acknowledge_bwOpen (w : Word) : (s.acknowledge w).bwOpen = s.bwOpen := rfl
@[simp] theorem State.acknowledge_bwAcc (w : Word) : (s.acknowledge w).bwAcc = s.bwAcc := rfl
@[simp] theorem State.acknowledge_bwNbits (w : Word) : (s.acknowledge w).bwNbits = s.bwNbits := rfl
@[simp] theorem State.acknowledge_brOpen (w : Word) : (s.acknowledge w).brOpen = s.brOpen := rfl
@[simp] theorem State.acknowledge_brBase (w : Word) : (s.acknowledge w).brBase = s.brBase := rfl
@[simp] theorem State.acknowledge_brTotal (w : Word) : (s.acknowledge w).brTotal = s.brTotal := rfl
@[simp] theorem State.acknowledge_brBitPos (w : Word) : (s.acknowledge w).brBitPos = s.brBitPos := rfl
@[simp] theorem State.acknowledge_symMem (w : Word) : (s.acknowledge w).symMem = s.symMem := rfl
@[simp] theorem State.acknowledge_inMem (w : Word) : (s.acknowledge w).inMem = s.inMem := rfl
@[simp] theorem State.acknowledge_outMem (w : Word) : (s.acknowledge w).outMem = s.outMem := rfl
@[simp] theorem State.acknowledge_latch (w : Word) : (s.acknowledge w).latch = s.latch := rfl
@[simp] theorem State.acknowledge_inbox (w : Word) : (s.acknowledge w).inbox = s.inbox := rfl
@[simp] theorem State.acknowledge_readData (w : Word) : (s.acknowledge w).readData = s.readData := rfl
@[simp] theorem State.acknowledge_resets (w : Word) : (s.acknowledge w).resets = s.resets := rfl
@[simp] theorem State.acknowledge_drawn (w : Word) : (s.acknowledge w).drawn = s.drawn := rfl

/-! ### setSym -/

@[simp] theorem State.setSym_cfg (i : Nat) (v : Word) : (s.setSym i v).cfg = s.cfg := rfl
@[simp] theorem State.setSym_variant (i : Nat) (v : Word) : (s.setSym i v).variant = s.variant := rfl
@[simp] theorem State.setSym_doneIe (i : Nat) (v : Word) : (s.setSym i v).doneIe = s.doneIe := rfl
@[simp] theorem State.setSym_errIe (i : Nat) (v : Word) : (s.setSym i v).errIe = s.errIe := rfl
@[simp] theorem State.setSym_done (i : Nat) (v : Word) : (s.setSym i v).done = s.done := rfl
@[simp] theorem State.setSym_err (i : Nat) (v : Word) : (s.setSym i v).err = s.err := rfl
@[simp] theorem State.setSym_busyWr (i : Nat) (v : Word) : (s.setSym i v).busyWr = s.busyWr := rfl
@[simp] theorem State.setSym_hdrVariant (i : Nat) (v : Word) : (s.setSym i v).hdrVariant = s.hdrVariant := rfl
@[simp] theorem State.setSym_cmd (i : Nat) (v : Word) : (s.setSym i v).cmd = s.cmd := rfl
@[simp] theorem State.setSym_arg0 (i : Nat) (v : Word) : (s.setSym i v).arg0 = s.arg0 := rfl
@[simp] theorem State.setSym_arg1 (i : Nat) (v : Word) : (s.setSym i v).arg1 = s.arg1 := rfl
@[simp] theorem State.setSym_errKind (i : Nat) (v : Word) : (s.setSym i v).errKind = s.errKind := rfl
@[simp] theorem State.setSym_errInfo (i : Nat) (v : Word) : (s.setSym i v).errInfo = s.errInfo := rfl
@[simp] theorem State.setSym_res0 (i : Nat) (v : Word) : (s.setSym i v).res0 = s.res0 := rfl
@[simp] theorem State.setSym_res1 (i : Nat) (v : Word) : (s.setSym i v).res1 = s.res1 := rfl
@[simp] theorem State.setSym_res2 (i : Nat) (v : Word) : (s.setSym i v).res2 = s.res2 := rfl
@[simp] theorem State.setSym_res3 (i : Nat) (v : Word) : (s.setSym i v).res3 = s.res3 := rfl
@[simp] theorem State.setSym_symCount (i : Nat) (v : Word) : (s.setSym i v).symCount = s.symCount := rfl
@[simp] theorem State.setSym_inLen (i : Nat) (v : Word) : (s.setSym i v).inLen = s.inLen := rfl
@[simp] theorem State.setSym_inPos (i : Nat) (v : Word) : (s.setSym i v).inPos = s.inPos := rfl
@[simp] theorem State.setSym_outLen (i : Nat) (v : Word) : (s.setSym i v).outLen = s.outLen := rfl
@[simp] theorem State.setSym_outBudget (i : Nat) (v : Word) : (s.setSym i v).outBudget = s.outBudget := rfl
@[simp] theorem State.setSym_imgW (i : Nat) (v : Word) : (s.setSym i v).imgW = s.imgW := rfl
@[simp] theorem State.setSym_imgH (i : Nat) (v : Word) : (s.setSym i v).imgH = s.imgH := rfl
@[simp] theorem State.setSym_bitCount (i : Nat) (v : Word) : (s.setSym i v).bitCount = s.bitCount := rfl
@[simp] theorem State.setSym_ft (i : Nat) (v : Word) : (s.setSym i v).ft = s.ft := rfl
@[simp] theorem State.setSym_tree (i : Nat) (v : Word) : (s.setSym i v).tree = s.tree := rfl
@[simp] theorem State.setSym_ct (i : Nat) (v : Word) : (s.setSym i v).ct = s.ct := rfl
@[simp] theorem State.setSym_bwOpen (i : Nat) (v : Word) : (s.setSym i v).bwOpen = s.bwOpen := rfl
@[simp] theorem State.setSym_bwAcc (i : Nat) (v : Word) : (s.setSym i v).bwAcc = s.bwAcc := rfl
@[simp] theorem State.setSym_bwNbits (i : Nat) (v : Word) : (s.setSym i v).bwNbits = s.bwNbits := rfl
@[simp] theorem State.setSym_brOpen (i : Nat) (v : Word) : (s.setSym i v).brOpen = s.brOpen := rfl
@[simp] theorem State.setSym_brBase (i : Nat) (v : Word) : (s.setSym i v).brBase = s.brBase := rfl
@[simp] theorem State.setSym_brTotal (i : Nat) (v : Word) : (s.setSym i v).brTotal = s.brTotal := rfl
@[simp] theorem State.setSym_brBitPos (i : Nat) (v : Word) : (s.setSym i v).brBitPos = s.brBitPos := rfl
@[simp] theorem State.setSym_symMem (i : Nat) (v : Word) : (s.setSym i v).symMem = s.symMem.write i v := rfl
@[simp] theorem State.setSym_inMem (i : Nat) (v : Word) : (s.setSym i v).inMem = s.inMem := rfl
@[simp] theorem State.setSym_outMem (i : Nat) (v : Word) : (s.setSym i v).outMem = s.outMem := rfl
@[simp] theorem State.setSym_latch (i : Nat) (v : Word) : (s.setSym i v).latch = s.latch := rfl
@[simp] theorem State.setSym_inbox (i : Nat) (v : Word) : (s.setSym i v).inbox = s.inbox := rfl
@[simp] theorem State.setSym_readData (i : Nat) (v : Word) : (s.setSym i v).readData = s.readData := rfl
@[simp] theorem State.setSym_resets (i : Nat) (v : Word) : (s.setSym i v).resets = s.resets := rfl
@[simp] theorem State.setSym_drawn (i : Nat) (v : Word) : (s.setSym i v).drawn = s.drawn := rfl

/-! ### setIn -/

@[simp] theorem State.setIn_cfg (i : Nat) (v : Byte) : (s.setIn i v).cfg = s.cfg := rfl
@[simp] theorem State.setIn_variant (i : Nat) (v : Byte) : (s.setIn i v).variant = s.variant := rfl
@[simp] theorem State.setIn_doneIe (i : Nat) (v : Byte) : (s.setIn i v).doneIe = s.doneIe := rfl
@[simp] theorem State.setIn_errIe (i : Nat) (v : Byte) : (s.setIn i v).errIe = s.errIe := rfl
@[simp] theorem State.setIn_done (i : Nat) (v : Byte) : (s.setIn i v).done = s.done := rfl
@[simp] theorem State.setIn_err (i : Nat) (v : Byte) : (s.setIn i v).err = s.err := rfl
@[simp] theorem State.setIn_busyWr (i : Nat) (v : Byte) : (s.setIn i v).busyWr = s.busyWr := rfl
@[simp] theorem State.setIn_hdrVariant (i : Nat) (v : Byte) : (s.setIn i v).hdrVariant = s.hdrVariant := rfl
@[simp] theorem State.setIn_cmd (i : Nat) (v : Byte) : (s.setIn i v).cmd = s.cmd := rfl
@[simp] theorem State.setIn_arg0 (i : Nat) (v : Byte) : (s.setIn i v).arg0 = s.arg0 := rfl
@[simp] theorem State.setIn_arg1 (i : Nat) (v : Byte) : (s.setIn i v).arg1 = s.arg1 := rfl
@[simp] theorem State.setIn_errKind (i : Nat) (v : Byte) : (s.setIn i v).errKind = s.errKind := rfl
@[simp] theorem State.setIn_errInfo (i : Nat) (v : Byte) : (s.setIn i v).errInfo = s.errInfo := rfl
@[simp] theorem State.setIn_res0 (i : Nat) (v : Byte) : (s.setIn i v).res0 = s.res0 := rfl
@[simp] theorem State.setIn_res1 (i : Nat) (v : Byte) : (s.setIn i v).res1 = s.res1 := rfl
@[simp] theorem State.setIn_res2 (i : Nat) (v : Byte) : (s.setIn i v).res2 = s.res2 := rfl
@[simp] theorem State.setIn_res3 (i : Nat) (v : Byte) : (s.setIn i v).res3 = s.res3 := rfl
@[simp] theorem State.setIn_symCount (i : Nat) (v : Byte) : (s.setIn i v).symCount = s.symCount := rfl
@[simp] theorem State.setIn_inLen (i : Nat) (v : Byte) : (s.setIn i v).inLen = s.inLen := rfl
@[simp] theorem State.setIn_inPos (i : Nat) (v : Byte) : (s.setIn i v).inPos = s.inPos := rfl
@[simp] theorem State.setIn_outLen (i : Nat) (v : Byte) : (s.setIn i v).outLen = s.outLen := rfl
@[simp] theorem State.setIn_outBudget (i : Nat) (v : Byte) : (s.setIn i v).outBudget = s.outBudget := rfl
@[simp] theorem State.setIn_imgW (i : Nat) (v : Byte) : (s.setIn i v).imgW = s.imgW := rfl
@[simp] theorem State.setIn_imgH (i : Nat) (v : Byte) : (s.setIn i v).imgH = s.imgH := rfl
@[simp] theorem State.setIn_bitCount (i : Nat) (v : Byte) : (s.setIn i v).bitCount = s.bitCount := rfl
@[simp] theorem State.setIn_ft (i : Nat) (v : Byte) : (s.setIn i v).ft = s.ft := rfl
@[simp] theorem State.setIn_tree (i : Nat) (v : Byte) : (s.setIn i v).tree = s.tree := rfl
@[simp] theorem State.setIn_ct (i : Nat) (v : Byte) : (s.setIn i v).ct = s.ct := rfl
@[simp] theorem State.setIn_bwOpen (i : Nat) (v : Byte) : (s.setIn i v).bwOpen = s.bwOpen := rfl
@[simp] theorem State.setIn_bwAcc (i : Nat) (v : Byte) : (s.setIn i v).bwAcc = s.bwAcc := rfl
@[simp] theorem State.setIn_bwNbits (i : Nat) (v : Byte) : (s.setIn i v).bwNbits = s.bwNbits := rfl
@[simp] theorem State.setIn_brOpen (i : Nat) (v : Byte) : (s.setIn i v).brOpen = s.brOpen := rfl
@[simp] theorem State.setIn_brBase (i : Nat) (v : Byte) : (s.setIn i v).brBase = s.brBase := rfl
@[simp] theorem State.setIn_brTotal (i : Nat) (v : Byte) : (s.setIn i v).brTotal = s.brTotal := rfl
@[simp] theorem State.setIn_brBitPos (i : Nat) (v : Byte) : (s.setIn i v).brBitPos = s.brBitPos := rfl
@[simp] theorem State.setIn_symMem (i : Nat) (v : Byte) : (s.setIn i v).symMem = s.symMem := rfl
@[simp] theorem State.setIn_inMem (i : Nat) (v : Byte) : (s.setIn i v).inMem = s.inMem.write i v := rfl
@[simp] theorem State.setIn_outMem (i : Nat) (v : Byte) : (s.setIn i v).outMem = s.outMem := rfl
@[simp] theorem State.setIn_latch (i : Nat) (v : Byte) : (s.setIn i v).latch = s.latch := rfl
@[simp] theorem State.setIn_inbox (i : Nat) (v : Byte) : (s.setIn i v).inbox = s.inbox := rfl
@[simp] theorem State.setIn_readData (i : Nat) (v : Byte) : (s.setIn i v).readData = s.readData := rfl
@[simp] theorem State.setIn_resets (i : Nat) (v : Byte) : (s.setIn i v).resets = s.resets := rfl
@[simp] theorem State.setIn_drawn (i : Nat) (v : Byte) : (s.setIn i v).drawn = s.drawn := rfl

/-! ### pushByte -/

@[simp] theorem State.pushByte_cfg (v : Byte) : (s.pushByte v).cfg = s.cfg := rfl
@[simp] theorem State.pushByte_variant (v : Byte) : (s.pushByte v).variant = s.variant := rfl
@[simp] theorem State.pushByte_doneIe (v : Byte) : (s.pushByte v).doneIe = s.doneIe := rfl
@[simp] theorem State.pushByte_errIe (v : Byte) : (s.pushByte v).errIe = s.errIe := rfl
@[simp] theorem State.pushByte_done (v : Byte) : (s.pushByte v).done = s.done := rfl
@[simp] theorem State.pushByte_err (v : Byte) : (s.pushByte v).err = s.err := rfl
@[simp] theorem State.pushByte_busyWr (v : Byte) : (s.pushByte v).busyWr = s.busyWr := rfl
@[simp] theorem State.pushByte_hdrVariant (v : Byte) : (s.pushByte v).hdrVariant = s.hdrVariant := rfl
@[simp] theorem State.pushByte_cmd (v : Byte) : (s.pushByte v).cmd = s.cmd := rfl
@[simp] theorem State.pushByte_arg0 (v : Byte) : (s.pushByte v).arg0 = s.arg0 := rfl
@[simp] theorem State.pushByte_arg1 (v : Byte) : (s.pushByte v).arg1 = s.arg1 := rfl
@[simp] theorem State.pushByte_errKind (v : Byte) : (s.pushByte v).errKind = s.errKind := rfl
@[simp] theorem State.pushByte_errInfo (v : Byte) : (s.pushByte v).errInfo = s.errInfo := rfl
@[simp] theorem State.pushByte_res0 (v : Byte) : (s.pushByte v).res0 = s.res0 := rfl
@[simp] theorem State.pushByte_res1 (v : Byte) : (s.pushByte v).res1 = s.res1 := rfl
@[simp] theorem State.pushByte_res2 (v : Byte) : (s.pushByte v).res2 = s.res2 := rfl
@[simp] theorem State.pushByte_res3 (v : Byte) : (s.pushByte v).res3 = s.res3 := rfl
@[simp] theorem State.pushByte_symCount (v : Byte) : (s.pushByte v).symCount = s.symCount := rfl
@[simp] theorem State.pushByte_inLen (v : Byte) : (s.pushByte v).inLen = s.inLen := rfl
@[simp] theorem State.pushByte_inPos (v : Byte) : (s.pushByte v).inPos = s.inPos := rfl
@[simp] theorem State.pushByte_outLen (v : Byte) : (s.pushByte v).outLen = s.outLen + 1 := rfl
@[simp] theorem State.pushByte_outBudget (v : Byte) : (s.pushByte v).outBudget = s.outBudget := rfl
@[simp] theorem State.pushByte_imgW (v : Byte) : (s.pushByte v).imgW = s.imgW := rfl
@[simp] theorem State.pushByte_imgH (v : Byte) : (s.pushByte v).imgH = s.imgH := rfl
@[simp] theorem State.pushByte_bitCount (v : Byte) : (s.pushByte v).bitCount = s.bitCount := rfl
@[simp] theorem State.pushByte_ft (v : Byte) : (s.pushByte v).ft = s.ft := rfl
@[simp] theorem State.pushByte_tree (v : Byte) : (s.pushByte v).tree = s.tree := rfl
@[simp] theorem State.pushByte_ct (v : Byte) : (s.pushByte v).ct = s.ct := rfl
@[simp] theorem State.pushByte_bwOpen (v : Byte) : (s.pushByte v).bwOpen = s.bwOpen := rfl
@[simp] theorem State.pushByte_bwAcc (v : Byte) : (s.pushByte v).bwAcc = s.bwAcc := rfl
@[simp] theorem State.pushByte_bwNbits (v : Byte) : (s.pushByte v).bwNbits = s.bwNbits := rfl
@[simp] theorem State.pushByte_brOpen (v : Byte) : (s.pushByte v).brOpen = s.brOpen := rfl
@[simp] theorem State.pushByte_brBase (v : Byte) : (s.pushByte v).brBase = s.brBase := rfl
@[simp] theorem State.pushByte_brTotal (v : Byte) : (s.pushByte v).brTotal = s.brTotal := rfl
@[simp] theorem State.pushByte_brBitPos (v : Byte) : (s.pushByte v).brBitPos = s.brBitPos := rfl
@[simp] theorem State.pushByte_symMem (v : Byte) : (s.pushByte v).symMem = s.symMem := rfl
@[simp] theorem State.pushByte_inMem (v : Byte) : (s.pushByte v).inMem = s.inMem := rfl
@[simp] theorem State.pushByte_outMem (v : Byte) : (s.pushByte v).outMem = s.outMem.write s.outLen.toNat v := rfl
@[simp] theorem State.pushByte_latch (v : Byte) : (s.pushByte v).latch = s.latch := rfl
@[simp] theorem State.pushByte_inbox (v : Byte) : (s.pushByte v).inbox = s.inbox := rfl
@[simp] theorem State.pushByte_readData (v : Byte) : (s.pushByte v).readData = s.readData := rfl
@[simp] theorem State.pushByte_resets (v : Byte) : (s.pushByte v).resets = s.resets := rfl
@[simp] theorem State.pushByte_drawn (v : Byte) : (s.pushByte v).drawn = s.drawn := rfl

/-! ### setPending -/

@[simp] theorem State.setPending_cfg (a : Byte) (n : Fin 8) : (s.setPending a n).cfg = s.cfg := rfl
@[simp] theorem State.setPending_variant (a : Byte) (n : Fin 8) : (s.setPending a n).variant = s.variant := rfl
@[simp] theorem State.setPending_doneIe (a : Byte) (n : Fin 8) : (s.setPending a n).doneIe = s.doneIe := rfl
@[simp] theorem State.setPending_errIe (a : Byte) (n : Fin 8) : (s.setPending a n).errIe = s.errIe := rfl
@[simp] theorem State.setPending_done (a : Byte) (n : Fin 8) : (s.setPending a n).done = s.done := rfl
@[simp] theorem State.setPending_err (a : Byte) (n : Fin 8) : (s.setPending a n).err = s.err := rfl
@[simp] theorem State.setPending_busyWr (a : Byte) (n : Fin 8) : (s.setPending a n).busyWr = s.busyWr := rfl
@[simp] theorem State.setPending_hdrVariant (a : Byte) (n : Fin 8) : (s.setPending a n).hdrVariant = s.hdrVariant := rfl
@[simp] theorem State.setPending_cmd (a : Byte) (n : Fin 8) : (s.setPending a n).cmd = s.cmd := rfl
@[simp] theorem State.setPending_arg0 (a : Byte) (n : Fin 8) : (s.setPending a n).arg0 = s.arg0 := rfl
@[simp] theorem State.setPending_arg1 (a : Byte) (n : Fin 8) : (s.setPending a n).arg1 = s.arg1 := rfl
@[simp] theorem State.setPending_errKind (a : Byte) (n : Fin 8) : (s.setPending a n).errKind = s.errKind := rfl
@[simp] theorem State.setPending_errInfo (a : Byte) (n : Fin 8) : (s.setPending a n).errInfo = s.errInfo := rfl
@[simp] theorem State.setPending_res0 (a : Byte) (n : Fin 8) : (s.setPending a n).res0 = s.res0 := rfl
@[simp] theorem State.setPending_res1 (a : Byte) (n : Fin 8) : (s.setPending a n).res1 = s.res1 := rfl
@[simp] theorem State.setPending_res2 (a : Byte) (n : Fin 8) : (s.setPending a n).res2 = s.res2 := rfl
@[simp] theorem State.setPending_res3 (a : Byte) (n : Fin 8) : (s.setPending a n).res3 = s.res3 := rfl
@[simp] theorem State.setPending_symCount (a : Byte) (n : Fin 8) : (s.setPending a n).symCount = s.symCount := rfl
@[simp] theorem State.setPending_inLen (a : Byte) (n : Fin 8) : (s.setPending a n).inLen = s.inLen := rfl
@[simp] theorem State.setPending_inPos (a : Byte) (n : Fin 8) : (s.setPending a n).inPos = s.inPos := rfl
@[simp] theorem State.setPending_outLen (a : Byte) (n : Fin 8) : (s.setPending a n).outLen = s.outLen := rfl
@[simp] theorem State.setPending_outBudget (a : Byte) (n : Fin 8) : (s.setPending a n).outBudget = s.outBudget := rfl
@[simp] theorem State.setPending_imgW (a : Byte) (n : Fin 8) : (s.setPending a n).imgW = s.imgW := rfl
@[simp] theorem State.setPending_imgH (a : Byte) (n : Fin 8) : (s.setPending a n).imgH = s.imgH := rfl
@[simp] theorem State.setPending_bitCount (a : Byte) (n : Fin 8) : (s.setPending a n).bitCount = s.bitCount := rfl
@[simp] theorem State.setPending_ft (a : Byte) (n : Fin 8) : (s.setPending a n).ft = s.ft := rfl
@[simp] theorem State.setPending_tree (a : Byte) (n : Fin 8) : (s.setPending a n).tree = s.tree := rfl
@[simp] theorem State.setPending_ct (a : Byte) (n : Fin 8) : (s.setPending a n).ct = s.ct := rfl
@[simp] theorem State.setPending_bwOpen (a : Byte) (n : Fin 8) : (s.setPending a n).bwOpen = s.bwOpen := rfl
@[simp] theorem State.setPending_bwAcc (a : Byte) (n : Fin 8) : (s.setPending a n).bwAcc = a := rfl
@[simp] theorem State.setPending_bwNbits (a : Byte) (n : Fin 8) : (s.setPending a n).bwNbits = n := rfl
@[simp] theorem State.setPending_brOpen (a : Byte) (n : Fin 8) : (s.setPending a n).brOpen = s.brOpen := rfl
@[simp] theorem State.setPending_brBase (a : Byte) (n : Fin 8) : (s.setPending a n).brBase = s.brBase := rfl
@[simp] theorem State.setPending_brTotal (a : Byte) (n : Fin 8) : (s.setPending a n).brTotal = s.brTotal := rfl
@[simp] theorem State.setPending_brBitPos (a : Byte) (n : Fin 8) : (s.setPending a n).brBitPos = s.brBitPos := rfl
@[simp] theorem State.setPending_symMem (a : Byte) (n : Fin 8) : (s.setPending a n).symMem = s.symMem := rfl
@[simp] theorem State.setPending_inMem (a : Byte) (n : Fin 8) : (s.setPending a n).inMem = s.inMem := rfl
@[simp] theorem State.setPending_outMem (a : Byte) (n : Fin 8) : (s.setPending a n).outMem = s.outMem := rfl
@[simp] theorem State.setPending_latch (a : Byte) (n : Fin 8) : (s.setPending a n).latch = s.latch := rfl
@[simp] theorem State.setPending_inbox (a : Byte) (n : Fin 8) : (s.setPending a n).inbox = s.inbox := rfl
@[simp] theorem State.setPending_readData (a : Byte) (n : Fin 8) : (s.setPending a n).readData = s.readData := rfl
@[simp] theorem State.setPending_resets (a : Byte) (n : Fin 8) : (s.setPending a n).resets = s.resets := rfl
@[simp] theorem State.setPending_drawn (a : Byte) (n : Fin 8) : (s.setPending a n).drawn = s.drawn := rfl

/-! ### countBit -/

@[simp] theorem State.countBit_cfg : (s.countBit).cfg = s.cfg := rfl
@[simp] theorem State.countBit_variant : (s.countBit).variant = s.variant := rfl
@[simp] theorem State.countBit_doneIe : (s.countBit).doneIe = s.doneIe := rfl
@[simp] theorem State.countBit_errIe : (s.countBit).errIe = s.errIe := rfl
@[simp] theorem State.countBit_done : (s.countBit).done = s.done := rfl
@[simp] theorem State.countBit_err : (s.countBit).err = s.err := rfl
@[simp] theorem State.countBit_busyWr : (s.countBit).busyWr = s.busyWr := rfl
@[simp] theorem State.countBit_hdrVariant : (s.countBit).hdrVariant = s.hdrVariant := rfl
@[simp] theorem State.countBit_cmd : (s.countBit).cmd = s.cmd := rfl
@[simp] theorem State.countBit_arg0 : (s.countBit).arg0 = s.arg0 := rfl
@[simp] theorem State.countBit_arg1 : (s.countBit).arg1 = s.arg1 := rfl
@[simp] theorem State.countBit_errKind : (s.countBit).errKind = s.errKind := rfl
@[simp] theorem State.countBit_errInfo : (s.countBit).errInfo = s.errInfo := rfl
@[simp] theorem State.countBit_res0 : (s.countBit).res0 = s.res0 := rfl
@[simp] theorem State.countBit_res1 : (s.countBit).res1 = s.res1 := rfl
@[simp] theorem State.countBit_res2 : (s.countBit).res2 = s.res2 := rfl
@[simp] theorem State.countBit_res3 : (s.countBit).res3 = s.res3 := rfl
@[simp] theorem State.countBit_symCount : (s.countBit).symCount = s.symCount := rfl
@[simp] theorem State.countBit_inLen : (s.countBit).inLen = s.inLen := rfl
@[simp] theorem State.countBit_inPos : (s.countBit).inPos = s.inPos := rfl
@[simp] theorem State.countBit_outLen : (s.countBit).outLen = s.outLen := rfl
@[simp] theorem State.countBit_outBudget : (s.countBit).outBudget = s.outBudget := rfl
@[simp] theorem State.countBit_imgW : (s.countBit).imgW = s.imgW := rfl
@[simp] theorem State.countBit_imgH : (s.countBit).imgH = s.imgH := rfl
@[simp] theorem State.countBit_bitCount : (s.countBit).bitCount = s.bitCount + 1 := rfl
@[simp] theorem State.countBit_ft : (s.countBit).ft = s.ft := rfl
@[simp] theorem State.countBit_tree : (s.countBit).tree = s.tree := rfl
@[simp] theorem State.countBit_ct : (s.countBit).ct = s.ct := rfl
@[simp] theorem State.countBit_bwOpen : (s.countBit).bwOpen = s.bwOpen := rfl
@[simp] theorem State.countBit_bwAcc : (s.countBit).bwAcc = s.bwAcc := rfl
@[simp] theorem State.countBit_bwNbits : (s.countBit).bwNbits = s.bwNbits := rfl
@[simp] theorem State.countBit_brOpen : (s.countBit).brOpen = s.brOpen := rfl
@[simp] theorem State.countBit_brBase : (s.countBit).brBase = s.brBase := rfl
@[simp] theorem State.countBit_brTotal : (s.countBit).brTotal = s.brTotal := rfl
@[simp] theorem State.countBit_brBitPos : (s.countBit).brBitPos = s.brBitPos := rfl
@[simp] theorem State.countBit_symMem : (s.countBit).symMem = s.symMem := rfl
@[simp] theorem State.countBit_inMem : (s.countBit).inMem = s.inMem := rfl
@[simp] theorem State.countBit_outMem : (s.countBit).outMem = s.outMem := rfl
@[simp] theorem State.countBit_latch : (s.countBit).latch = s.latch := rfl
@[simp] theorem State.countBit_inbox : (s.countBit).inbox = s.inbox := rfl
@[simp] theorem State.countBit_readData : (s.countBit).readData = s.readData := rfl
@[simp] theorem State.countBit_resets : (s.countBit).resets = s.resets := rfl
@[simp] theorem State.countBit_drawn : (s.countBit).drawn = s.drawn := rfl

/-! ### closeWriter -/

@[simp] theorem State.closeWriter_cfg : (s.closeWriter).cfg = s.cfg := rfl
@[simp] theorem State.closeWriter_variant : (s.closeWriter).variant = s.variant := rfl
@[simp] theorem State.closeWriter_doneIe : (s.closeWriter).doneIe = s.doneIe := rfl
@[simp] theorem State.closeWriter_errIe : (s.closeWriter).errIe = s.errIe := rfl
@[simp] theorem State.closeWriter_done : (s.closeWriter).done = s.done := rfl
@[simp] theorem State.closeWriter_err : (s.closeWriter).err = s.err := rfl
@[simp] theorem State.closeWriter_busyWr : (s.closeWriter).busyWr = s.busyWr := rfl
@[simp] theorem State.closeWriter_hdrVariant : (s.closeWriter).hdrVariant = s.hdrVariant := rfl
@[simp] theorem State.closeWriter_cmd : (s.closeWriter).cmd = s.cmd := rfl
@[simp] theorem State.closeWriter_arg0 : (s.closeWriter).arg0 = s.arg0 := rfl
@[simp] theorem State.closeWriter_arg1 : (s.closeWriter).arg1 = s.arg1 := rfl
@[simp] theorem State.closeWriter_errKind : (s.closeWriter).errKind = s.errKind := rfl
@[simp] theorem State.closeWriter_errInfo : (s.closeWriter).errInfo = s.errInfo := rfl
@[simp] theorem State.closeWriter_res0 : (s.closeWriter).res0 = s.res0 := rfl
@[simp] theorem State.closeWriter_res1 : (s.closeWriter).res1 = s.res1 := rfl
@[simp] theorem State.closeWriter_res2 : (s.closeWriter).res2 = s.res2 := rfl
@[simp] theorem State.closeWriter_res3 : (s.closeWriter).res3 = s.res3 := rfl
@[simp] theorem State.closeWriter_symCount : (s.closeWriter).symCount = s.symCount := rfl
@[simp] theorem State.closeWriter_inLen : (s.closeWriter).inLen = s.inLen := rfl
@[simp] theorem State.closeWriter_inPos : (s.closeWriter).inPos = s.inPos := rfl
@[simp] theorem State.closeWriter_outLen : (s.closeWriter).outLen = s.outLen := rfl
@[simp] theorem State.closeWriter_outBudget : (s.closeWriter).outBudget = s.outBudget := rfl
@[simp] theorem State.closeWriter_imgW : (s.closeWriter).imgW = s.imgW := rfl
@[simp] theorem State.closeWriter_imgH : (s.closeWriter).imgH = s.imgH := rfl
@[simp] theorem State.closeWriter_bitCount : (s.closeWriter).bitCount = s.bitCount := rfl
@[simp] theorem State.closeWriter_ft : (s.closeWriter).ft = s.ft := rfl
@[simp] theorem State.closeWriter_tree : (s.closeWriter).tree = s.tree := rfl
@[simp] theorem State.closeWriter_ct : (s.closeWriter).ct = s.ct := rfl
@[simp] theorem State.closeWriter_bwOpen : (s.closeWriter).bwOpen = false := rfl
@[simp] theorem State.closeWriter_bwAcc : (s.closeWriter).bwAcc = 0 := rfl
@[simp] theorem State.closeWriter_bwNbits : (s.closeWriter).bwNbits = 0 := rfl
@[simp] theorem State.closeWriter_brOpen : (s.closeWriter).brOpen = s.brOpen := rfl
@[simp] theorem State.closeWriter_brBase : (s.closeWriter).brBase = s.brBase := rfl
@[simp] theorem State.closeWriter_brTotal : (s.closeWriter).brTotal = s.brTotal := rfl
@[simp] theorem State.closeWriter_brBitPos : (s.closeWriter).brBitPos = s.brBitPos := rfl
@[simp] theorem State.closeWriter_symMem : (s.closeWriter).symMem = s.symMem := rfl
@[simp] theorem State.closeWriter_inMem : (s.closeWriter).inMem = s.inMem := rfl
@[simp] theorem State.closeWriter_outMem : (s.closeWriter).outMem = s.outMem := rfl
@[simp] theorem State.closeWriter_latch : (s.closeWriter).latch = s.latch := rfl
@[simp] theorem State.closeWriter_inbox : (s.closeWriter).inbox = s.inbox := rfl
@[simp] theorem State.closeWriter_readData : (s.closeWriter).readData = s.readData := rfl
@[simp] theorem State.closeWriter_resets : (s.closeWriter).resets = s.resets := rfl
@[simp] theorem State.closeWriter_drawn : (s.closeWriter).drawn = s.drawn := rfl

/-! ### skipBits -/

@[simp] theorem State.skipBits_cfg (n : Nat) : (s.skipBits n).cfg = s.cfg := rfl
@[simp] theorem State.skipBits_variant (n : Nat) : (s.skipBits n).variant = s.variant := rfl
@[simp] theorem State.skipBits_doneIe (n : Nat) : (s.skipBits n).doneIe = s.doneIe := rfl
@[simp] theorem State.skipBits_errIe (n : Nat) : (s.skipBits n).errIe = s.errIe := rfl
@[simp] theorem State.skipBits_done (n : Nat) : (s.skipBits n).done = s.done := rfl
@[simp] theorem State.skipBits_err (n : Nat) : (s.skipBits n).err = s.err := rfl
@[simp] theorem State.skipBits_busyWr (n : Nat) : (s.skipBits n).busyWr = s.busyWr := rfl
@[simp] theorem State.skipBits_hdrVariant (n : Nat) : (s.skipBits n).hdrVariant = s.hdrVariant := rfl
@[simp] theorem State.skipBits_cmd (n : Nat) : (s.skipBits n).cmd = s.cmd := rfl
@[simp] theorem State.skipBits_arg0 (n : Nat) : (s.skipBits n).arg0 = s.arg0 := rfl
@[simp] theorem State.skipBits_arg1 (n : Nat) : (s.skipBits n).arg1 = s.arg1 := rfl
@[simp] theorem State.skipBits_errKind (n : Nat) : (s.skipBits n).errKind = s.errKind := rfl
@[simp] theorem State.skipBits_errInfo (n : Nat) : (s.skipBits n).errInfo = s.errInfo := rfl
@[simp] theorem State.skipBits_res0 (n : Nat) : (s.skipBits n).res0 = s.res0 := rfl
@[simp] theorem State.skipBits_res1 (n : Nat) : (s.skipBits n).res1 = s.res1 := rfl
@[simp] theorem State.skipBits_res2 (n : Nat) : (s.skipBits n).res2 = s.res2 := rfl
@[simp] theorem State.skipBits_res3 (n : Nat) : (s.skipBits n).res3 = s.res3 := rfl
@[simp] theorem State.skipBits_symCount (n : Nat) : (s.skipBits n).symCount = s.symCount := rfl
@[simp] theorem State.skipBits_inLen (n : Nat) : (s.skipBits n).inLen = s.inLen := rfl
@[simp] theorem State.skipBits_inPos (n : Nat) : (s.skipBits n).inPos = s.inPos := rfl
@[simp] theorem State.skipBits_outLen (n : Nat) : (s.skipBits n).outLen = s.outLen := rfl
@[simp] theorem State.skipBits_outBudget (n : Nat) : (s.skipBits n).outBudget = s.outBudget := rfl
@[simp] theorem State.skipBits_imgW (n : Nat) : (s.skipBits n).imgW = s.imgW := rfl
@[simp] theorem State.skipBits_imgH (n : Nat) : (s.skipBits n).imgH = s.imgH := rfl
@[simp] theorem State.skipBits_bitCount (n : Nat) : (s.skipBits n).bitCount = s.bitCount := rfl
@[simp] theorem State.skipBits_ft (n : Nat) : (s.skipBits n).ft = s.ft := rfl
@[simp] theorem State.skipBits_tree (n : Nat) : (s.skipBits n).tree = s.tree := rfl
@[simp] theorem State.skipBits_ct (n : Nat) : (s.skipBits n).ct = s.ct := rfl
@[simp] theorem State.skipBits_bwOpen (n : Nat) : (s.skipBits n).bwOpen = s.bwOpen := rfl
@[simp] theorem State.skipBits_bwAcc (n : Nat) : (s.skipBits n).bwAcc = s.bwAcc := rfl
@[simp] theorem State.skipBits_bwNbits (n : Nat) : (s.skipBits n).bwNbits = s.bwNbits := rfl
@[simp] theorem State.skipBits_brOpen (n : Nat) : (s.skipBits n).brOpen = s.brOpen := rfl
@[simp] theorem State.skipBits_brBase (n : Nat) : (s.skipBits n).brBase = s.brBase := rfl
@[simp] theorem State.skipBits_brTotal (n : Nat) : (s.skipBits n).brTotal = s.brTotal := rfl
@[simp] theorem State.skipBits_brBitPos (n : Nat) : (s.skipBits n).brBitPos = s.brBitPos + n := rfl
@[simp] theorem State.skipBits_symMem (n : Nat) : (s.skipBits n).symMem = s.symMem := rfl
@[simp] theorem State.skipBits_inMem (n : Nat) : (s.skipBits n).inMem = s.inMem := rfl
@[simp] theorem State.skipBits_outMem (n : Nat) : (s.skipBits n).outMem = s.outMem := rfl
@[simp] theorem State.skipBits_latch (n : Nat) : (s.skipBits n).latch = s.latch := rfl
@[simp] theorem State.skipBits_inbox (n : Nat) : (s.skipBits n).inbox = s.inbox := rfl
@[simp] theorem State.skipBits_readData (n : Nat) : (s.skipBits n).readData = s.readData := rfl
@[simp] theorem State.skipBits_resets (n : Nat) : (s.skipBits n).resets = s.resets := rfl
@[simp] theorem State.skipBits_drawn (n : Nat) : (s.skipBits n).drawn = s.drawn := rfl

/-! ### storeFt -/

@[simp] theorem State.storeFt_cfg (x : List FtEntry) : (s.storeFt x).cfg = s.cfg := rfl
@[simp] theorem State.storeFt_variant (x : List FtEntry) : (s.storeFt x).variant = s.variant := rfl
@[simp] theorem State.storeFt_doneIe (x : List FtEntry) : (s.storeFt x).doneIe = s.doneIe := rfl
@[simp] theorem State.storeFt_errIe (x : List FtEntry) : (s.storeFt x).errIe = s.errIe := rfl
@[simp] theorem State.storeFt_done (x : List FtEntry) : (s.storeFt x).done = s.done := rfl
@[simp] theorem State.storeFt_err (x : List FtEntry) : (s.storeFt x).err = s.err := rfl
@[simp] theorem State.storeFt_busyWr (x : List FtEntry) : (s.storeFt x).busyWr = s.busyWr := rfl
@[simp] theorem State.storeFt_hdrVariant (x : List FtEntry) : (s.storeFt x).hdrVariant = s.hdrVariant := rfl
@[simp] theorem State.storeFt_cmd (x : List FtEntry) : (s.storeFt x).cmd = s.cmd := rfl
@[simp] theorem State.storeFt_arg0 (x : List FtEntry) : (s.storeFt x).arg0 = s.arg0 := rfl
@[simp] theorem State.storeFt_arg1 (x : List FtEntry) : (s.storeFt x).arg1 = s.arg1 := rfl
@[simp] theorem State.storeFt_errKind (x : List FtEntry) : (s.storeFt x).errKind = s.errKind := rfl
@[simp] theorem State.storeFt_errInfo (x : List FtEntry) : (s.storeFt x).errInfo = s.errInfo := rfl
@[simp] theorem State.storeFt_res0 (x : List FtEntry) : (s.storeFt x).res0 = s.res0 := rfl
@[simp] theorem State.storeFt_res1 (x : List FtEntry) : (s.storeFt x).res1 = s.res1 := rfl
@[simp] theorem State.storeFt_res2 (x : List FtEntry) : (s.storeFt x).res2 = s.res2 := rfl
@[simp] theorem State.storeFt_res3 (x : List FtEntry) : (s.storeFt x).res3 = s.res3 := rfl
@[simp] theorem State.storeFt_symCount (x : List FtEntry) : (s.storeFt x).symCount = s.symCount := rfl
@[simp] theorem State.storeFt_inLen (x : List FtEntry) : (s.storeFt x).inLen = s.inLen := rfl
@[simp] theorem State.storeFt_inPos (x : List FtEntry) : (s.storeFt x).inPos = s.inPos := rfl
@[simp] theorem State.storeFt_outLen (x : List FtEntry) : (s.storeFt x).outLen = s.outLen := rfl
@[simp] theorem State.storeFt_outBudget (x : List FtEntry) : (s.storeFt x).outBudget = s.outBudget := rfl
@[simp] theorem State.storeFt_imgW (x : List FtEntry) : (s.storeFt x).imgW = s.imgW := rfl
@[simp] theorem State.storeFt_imgH (x : List FtEntry) : (s.storeFt x).imgH = s.imgH := rfl
@[simp] theorem State.storeFt_bitCount (x : List FtEntry) : (s.storeFt x).bitCount = s.bitCount := rfl
@[simp] theorem State.storeFt_ft (x : List FtEntry) : (s.storeFt x).ft = some x := rfl
@[simp] theorem State.storeFt_tree (x : List FtEntry) : (s.storeFt x).tree = s.tree := rfl
@[simp] theorem State.storeFt_ct (x : List FtEntry) : (s.storeFt x).ct = s.ct := rfl
@[simp] theorem State.storeFt_bwOpen (x : List FtEntry) : (s.storeFt x).bwOpen = s.bwOpen := rfl
@[simp] theorem State.storeFt_bwAcc (x : List FtEntry) : (s.storeFt x).bwAcc = s.bwAcc := rfl
@[simp] theorem State.storeFt_bwNbits (x : List FtEntry) : (s.storeFt x).bwNbits = s.bwNbits := rfl
@[simp] theorem State.storeFt_brOpen (x : List FtEntry) : (s.storeFt x).brOpen = s.brOpen := rfl
@[simp] theorem State.storeFt_brBase (x : List FtEntry) : (s.storeFt x).brBase = s.brBase := rfl
@[simp] theorem State.storeFt_brTotal (x : List FtEntry) : (s.storeFt x).brTotal = s.brTotal := rfl
@[simp] theorem State.storeFt_brBitPos (x : List FtEntry) : (s.storeFt x).brBitPos = s.brBitPos := rfl
@[simp] theorem State.storeFt_symMem (x : List FtEntry) : (s.storeFt x).symMem = s.symMem := rfl
@[simp] theorem State.storeFt_inMem (x : List FtEntry) : (s.storeFt x).inMem = s.inMem := rfl
@[simp] theorem State.storeFt_outMem (x : List FtEntry) : (s.storeFt x).outMem = s.outMem := rfl
@[simp] theorem State.storeFt_latch (x : List FtEntry) : (s.storeFt x).latch = s.latch := rfl
@[simp] theorem State.storeFt_inbox (x : List FtEntry) : (s.storeFt x).inbox = s.inbox := rfl
@[simp] theorem State.storeFt_readData (x : List FtEntry) : (s.storeFt x).readData = s.readData := rfl
@[simp] theorem State.storeFt_resets (x : List FtEntry) : (s.storeFt x).resets = s.resets := rfl
@[simp] theorem State.storeFt_drawn (x : List FtEntry) : (s.storeFt x).drawn = s.drawn := rfl

/-! ### storeTree -/

@[simp] theorem State.storeTree_cfg (t : Tree) : (s.storeTree t).cfg = s.cfg := rfl
@[simp] theorem State.storeTree_variant (t : Tree) : (s.storeTree t).variant = s.variant := rfl
@[simp] theorem State.storeTree_doneIe (t : Tree) : (s.storeTree t).doneIe = s.doneIe := rfl
@[simp] theorem State.storeTree_errIe (t : Tree) : (s.storeTree t).errIe = s.errIe := rfl
@[simp] theorem State.storeTree_done (t : Tree) : (s.storeTree t).done = s.done := rfl
@[simp] theorem State.storeTree_err (t : Tree) : (s.storeTree t).err = s.err := rfl
@[simp] theorem State.storeTree_busyWr (t : Tree) : (s.storeTree t).busyWr = s.busyWr := rfl
@[simp] theorem State.storeTree_hdrVariant (t : Tree) : (s.storeTree t).hdrVariant = s.hdrVariant := rfl
@[simp] theorem State.storeTree_cmd (t : Tree) : (s.storeTree t).cmd = s.cmd := rfl
@[simp] theorem State.storeTree_arg0 (t : Tree) : (s.storeTree t).arg0 = s.arg0 := rfl
@[simp] theorem State.storeTree_arg1 (t : Tree) : (s.storeTree t).arg1 = s.arg1 := rfl
@[simp] theorem State.storeTree_errKind (t : Tree) : (s.storeTree t).errKind = s.errKind := rfl
@[simp] theorem State.storeTree_errInfo (t : Tree) : (s.storeTree t).errInfo = s.errInfo := rfl
@[simp] theorem State.storeTree_res0 (t : Tree) : (s.storeTree t).res0 = s.res0 := rfl
@[simp] theorem State.storeTree_res1 (t : Tree) : (s.storeTree t).res1 = s.res1 := rfl
@[simp] theorem State.storeTree_res2 (t : Tree) : (s.storeTree t).res2 = s.res2 := rfl
@[simp] theorem State.storeTree_res3 (t : Tree) : (s.storeTree t).res3 = s.res3 := rfl
@[simp] theorem State.storeTree_symCount (t : Tree) : (s.storeTree t).symCount = s.symCount := rfl
@[simp] theorem State.storeTree_inLen (t : Tree) : (s.storeTree t).inLen = s.inLen := rfl
@[simp] theorem State.storeTree_inPos (t : Tree) : (s.storeTree t).inPos = s.inPos := rfl
@[simp] theorem State.storeTree_outLen (t : Tree) : (s.storeTree t).outLen = s.outLen := rfl
@[simp] theorem State.storeTree_outBudget (t : Tree) : (s.storeTree t).outBudget = s.outBudget := rfl
@[simp] theorem State.storeTree_imgW (t : Tree) : (s.storeTree t).imgW = s.imgW := rfl
@[simp] theorem State.storeTree_imgH (t : Tree) : (s.storeTree t).imgH = s.imgH := rfl
@[simp] theorem State.storeTree_bitCount (t : Tree) : (s.storeTree t).bitCount = s.bitCount := rfl
@[simp] theorem State.storeTree_ft (t : Tree) : (s.storeTree t).ft = s.ft := rfl
@[simp] theorem State.storeTree_tree (t : Tree) : (s.storeTree t).tree = some t := rfl
@[simp] theorem State.storeTree_ct (t : Tree) : (s.storeTree t).ct = s.ct := rfl
@[simp] theorem State.storeTree_bwOpen (t : Tree) : (s.storeTree t).bwOpen = s.bwOpen := rfl
@[simp] theorem State.storeTree_bwAcc (t : Tree) : (s.storeTree t).bwAcc = s.bwAcc := rfl
@[simp] theorem State.storeTree_bwNbits (t : Tree) : (s.storeTree t).bwNbits = s.bwNbits := rfl
@[simp] theorem State.storeTree_brOpen (t : Tree) : (s.storeTree t).brOpen = s.brOpen := rfl
@[simp] theorem State.storeTree_brBase (t : Tree) : (s.storeTree t).brBase = s.brBase := rfl
@[simp] theorem State.storeTree_brTotal (t : Tree) : (s.storeTree t).brTotal = s.brTotal := rfl
@[simp] theorem State.storeTree_brBitPos (t : Tree) : (s.storeTree t).brBitPos = s.brBitPos := rfl
@[simp] theorem State.storeTree_symMem (t : Tree) : (s.storeTree t).symMem = s.symMem := rfl
@[simp] theorem State.storeTree_inMem (t : Tree) : (s.storeTree t).inMem = s.inMem := rfl
@[simp] theorem State.storeTree_outMem (t : Tree) : (s.storeTree t).outMem = s.outMem := rfl
@[simp] theorem State.storeTree_latch (t : Tree) : (s.storeTree t).latch = s.latch := rfl
@[simp] theorem State.storeTree_inbox (t : Tree) : (s.storeTree t).inbox = s.inbox := rfl
@[simp] theorem State.storeTree_readData (t : Tree) : (s.storeTree t).readData = s.readData := rfl
@[simp] theorem State.storeTree_resets (t : Tree) : (s.storeTree t).resets = s.resets := rfl
@[simp] theorem State.storeTree_drawn (t : Tree) : (s.storeTree t).drawn = s.drawn := rfl

/-! ### storeCodes -/

@[simp] theorem State.storeCodes_cfg (m : CodeTable) : (s.storeCodes m).cfg = s.cfg := rfl
@[simp] theorem State.storeCodes_variant (m : CodeTable) : (s.storeCodes m).variant = s.variant := rfl
@[simp] theorem State.storeCodes_doneIe (m : CodeTable) : (s.storeCodes m).doneIe = s.doneIe := rfl
@[simp] theorem State.storeCodes_errIe (m : CodeTable) : (s.storeCodes m).errIe = s.errIe := rfl
@[simp] theorem State.storeCodes_done (m : CodeTable) : (s.storeCodes m).done = s.done := rfl
@[simp] theorem State.storeCodes_err (m : CodeTable) : (s.storeCodes m).err = s.err := rfl
@[simp] theorem State.storeCodes_busyWr (m : CodeTable) : (s.storeCodes m).busyWr = s.busyWr := rfl
@[simp] theorem State.storeCodes_hdrVariant (m : CodeTable) : (s.storeCodes m).hdrVariant = s.hdrVariant := rfl
@[simp] theorem State.storeCodes_cmd (m : CodeTable) : (s.storeCodes m).cmd = s.cmd := rfl
@[simp] theorem State.storeCodes_arg0 (m : CodeTable) : (s.storeCodes m).arg0 = s.arg0 := rfl
@[simp] theorem State.storeCodes_arg1 (m : CodeTable) : (s.storeCodes m).arg1 = s.arg1 := rfl
@[simp] theorem State.storeCodes_errKind (m : CodeTable) : (s.storeCodes m).errKind = s.errKind := rfl
@[simp] theorem State.storeCodes_errInfo (m : CodeTable) : (s.storeCodes m).errInfo = s.errInfo := rfl
@[simp] theorem State.storeCodes_res0 (m : CodeTable) : (s.storeCodes m).res0 = s.res0 := rfl
@[simp] theorem State.storeCodes_res1 (m : CodeTable) : (s.storeCodes m).res1 = s.res1 := rfl
@[simp] theorem State.storeCodes_res2 (m : CodeTable) : (s.storeCodes m).res2 = s.res2 := rfl
@[simp] theorem State.storeCodes_res3 (m : CodeTable) : (s.storeCodes m).res3 = s.res3 := rfl
@[simp] theorem State.storeCodes_symCount (m : CodeTable) : (s.storeCodes m).symCount = s.symCount := rfl
@[simp] theorem State.storeCodes_inLen (m : CodeTable) : (s.storeCodes m).inLen = s.inLen := rfl
@[simp] theorem State.storeCodes_inPos (m : CodeTable) : (s.storeCodes m).inPos = s.inPos := rfl
@[simp] theorem State.storeCodes_outLen (m : CodeTable) : (s.storeCodes m).outLen = s.outLen := rfl
@[simp] theorem State.storeCodes_outBudget (m : CodeTable) : (s.storeCodes m).outBudget = s.outBudget := rfl
@[simp] theorem State.storeCodes_imgW (m : CodeTable) : (s.storeCodes m).imgW = s.imgW := rfl
@[simp] theorem State.storeCodes_imgH (m : CodeTable) : (s.storeCodes m).imgH = s.imgH := rfl
@[simp] theorem State.storeCodes_bitCount (m : CodeTable) : (s.storeCodes m).bitCount = s.bitCount := rfl
@[simp] theorem State.storeCodes_ft (m : CodeTable) : (s.storeCodes m).ft = s.ft := rfl
@[simp] theorem State.storeCodes_tree (m : CodeTable) : (s.storeCodes m).tree = s.tree := rfl
@[simp] theorem State.storeCodes_ct (m : CodeTable) : (s.storeCodes m).ct = some m := rfl
@[simp] theorem State.storeCodes_bwOpen (m : CodeTable) : (s.storeCodes m).bwOpen = s.bwOpen := rfl
@[simp] theorem State.storeCodes_bwAcc (m : CodeTable) : (s.storeCodes m).bwAcc = s.bwAcc := rfl
@[simp] theorem State.storeCodes_bwNbits (m : CodeTable) : (s.storeCodes m).bwNbits = s.bwNbits := rfl
@[simp] theorem State.storeCodes_brOpen (m : CodeTable) : (s.storeCodes m).brOpen = s.brOpen := rfl
@[simp] theorem State.storeCodes_brBase (m : CodeTable) : (s.storeCodes m).brBase = s.brBase := rfl
@[simp] theorem State.storeCodes_brTotal (m : CodeTable) : (s.storeCodes m).brTotal = s.brTotal := rfl
@[simp] theorem State.storeCodes_brBitPos (m : CodeTable) : (s.storeCodes m).brBitPos = s.brBitPos := rfl
@[simp] theorem State.storeCodes_symMem (m : CodeTable) : (s.storeCodes m).symMem = s.symMem := rfl
@[simp] theorem State.storeCodes_inMem (m : CodeTable) : (s.storeCodes m).inMem = s.inMem := rfl
@[simp] theorem State.storeCodes_outMem (m : CodeTable) : (s.storeCodes m).outMem = s.outMem := rfl
@[simp] theorem State.storeCodes_latch (m : CodeTable) : (s.storeCodes m).latch = s.latch := rfl
@[simp] theorem State.storeCodes_inbox (m : CodeTable) : (s.storeCodes m).inbox = s.inbox := rfl
@[simp] theorem State.storeCodes_readData (m : CodeTable) : (s.storeCodes m).readData = s.readData := rfl
@[simp] theorem State.storeCodes_resets (m : CodeTable) : (s.storeCodes m).resets = s.resets := rfl
@[simp] theorem State.storeCodes_drawn (m : CodeTable) : (s.storeCodes m).drawn = s.drawn := rfl

/-! ### openReader -/

@[simp] theorem State.openReader_cfg (base total : Nat) : (s.openReader base total).cfg = s.cfg := rfl
@[simp] theorem State.openReader_variant (base total : Nat) : (s.openReader base total).variant = s.variant := rfl
@[simp] theorem State.openReader_doneIe (base total : Nat) : (s.openReader base total).doneIe = s.doneIe := rfl
@[simp] theorem State.openReader_errIe (base total : Nat) : (s.openReader base total).errIe = s.errIe := rfl
@[simp] theorem State.openReader_done (base total : Nat) : (s.openReader base total).done = s.done := rfl
@[simp] theorem State.openReader_err (base total : Nat) : (s.openReader base total).err = s.err := rfl
@[simp] theorem State.openReader_busyWr (base total : Nat) : (s.openReader base total).busyWr = s.busyWr := rfl
@[simp] theorem State.openReader_hdrVariant (base total : Nat) : (s.openReader base total).hdrVariant = s.hdrVariant := rfl
@[simp] theorem State.openReader_cmd (base total : Nat) : (s.openReader base total).cmd = s.cmd := rfl
@[simp] theorem State.openReader_arg0 (base total : Nat) : (s.openReader base total).arg0 = s.arg0 := rfl
@[simp] theorem State.openReader_arg1 (base total : Nat) : (s.openReader base total).arg1 = s.arg1 := rfl
@[simp] theorem State.openReader_errKind (base total : Nat) : (s.openReader base total).errKind = s.errKind := rfl
@[simp] theorem State.openReader_errInfo (base total : Nat) : (s.openReader base total).errInfo = s.errInfo := rfl
@[simp] theorem State.openReader_res0 (base total : Nat) : (s.openReader base total).res0 = s.res0 := rfl
@[simp] theorem State.openReader_res1 (base total : Nat) : (s.openReader base total).res1 = s.res1 := rfl
@[simp] theorem State.openReader_res2 (base total : Nat) : (s.openReader base total).res2 = s.res2 := rfl
@[simp] theorem State.openReader_res3 (base total : Nat) : (s.openReader base total).res3 = s.res3 := rfl
@[simp] theorem State.openReader_symCount (base total : Nat) : (s.openReader base total).symCount = s.symCount := rfl
@[simp] theorem State.openReader_inLen (base total : Nat) : (s.openReader base total).inLen = s.inLen := rfl
@[simp] theorem State.openReader_inPos (base total : Nat) : (s.openReader base total).inPos = s.inPos := rfl
@[simp] theorem State.openReader_outLen (base total : Nat) : (s.openReader base total).outLen = s.outLen := rfl
@[simp] theorem State.openReader_outBudget (base total : Nat) : (s.openReader base total).outBudget = s.outBudget := rfl
@[simp] theorem State.openReader_imgW (base total : Nat) : (s.openReader base total).imgW = s.imgW := rfl
@[simp] theorem State.openReader_imgH (base total : Nat) : (s.openReader base total).imgH = s.imgH := rfl
@[simp] theorem State.openReader_bitCount (base total : Nat) : (s.openReader base total).bitCount = s.bitCount := rfl
@[simp] theorem State.openReader_ft (base total : Nat) : (s.openReader base total).ft = s.ft := rfl
@[simp] theorem State.openReader_tree (base total : Nat) : (s.openReader base total).tree = s.tree := rfl
@[simp] theorem State.openReader_ct (base total : Nat) : (s.openReader base total).ct = s.ct := rfl
@[simp] theorem State.openReader_bwOpen (base total : Nat) : (s.openReader base total).bwOpen = s.bwOpen := rfl
@[simp] theorem State.openReader_bwAcc (base total : Nat) : (s.openReader base total).bwAcc = s.bwAcc := rfl
@[simp] theorem State.openReader_bwNbits (base total : Nat) : (s.openReader base total).bwNbits = s.bwNbits := rfl
@[simp] theorem State.openReader_brOpen (base total : Nat) : (s.openReader base total).brOpen = true := rfl
@[simp] theorem State.openReader_brBase (base total : Nat) : (s.openReader base total).brBase = base := rfl
@[simp] theorem State.openReader_brTotal (base total : Nat) : (s.openReader base total).brTotal = total := rfl
@[simp] theorem State.openReader_brBitPos (base total : Nat) : (s.openReader base total).brBitPos = 0 := rfl
@[simp] theorem State.openReader_symMem (base total : Nat) : (s.openReader base total).symMem = s.symMem := rfl
@[simp] theorem State.openReader_inMem (base total : Nat) : (s.openReader base total).inMem = s.inMem := rfl
@[simp] theorem State.openReader_outMem (base total : Nat) : (s.openReader base total).outMem = s.outMem := rfl
@[simp] theorem State.openReader_latch (base total : Nat) : (s.openReader base total).latch = s.latch := rfl
@[simp] theorem State.openReader_inbox (base total : Nat) : (s.openReader base total).inbox = s.inbox := rfl
@[simp] theorem State.openReader_readData (base total : Nat) : (s.openReader base total).readData = s.readData := rfl
@[simp] theorem State.openReader_resets (base total : Nat) : (s.openReader base total).resets = s.resets := rfl
@[simp] theorem State.openReader_drawn (base total : Nat) : (s.openReader base total).drawn = s.drawn := rfl

/-! ### setSymCount -/

@[simp] theorem State.setSymCount_cfg (k : Nat) : (s.setSymCount k).cfg = s.cfg := rfl
@[simp] theorem State.setSymCount_variant (k : Nat) : (s.setSymCount k).variant = s.variant := rfl
@[simp] theorem State.setSymCount_doneIe (k : Nat) : (s.setSymCount k).doneIe = s.doneIe := rfl
@[simp] theorem State.setSymCount_errIe (k : Nat) : (s.setSymCount k).errIe = s.errIe := rfl
@[simp] theorem State.setSymCount_done (k : Nat) : (s.setSymCount k).done = s.done := rfl
@[simp] theorem State.setSymCount_err (k : Nat) : (s.setSymCount k).err = s.err := rfl
@[simp] theorem State.setSymCount_busyWr (k : Nat) : (s.setSymCount k).busyWr = s.busyWr := rfl
@[simp] theorem State.setSymCount_hdrVariant (k : Nat) : (s.setSymCount k).hdrVariant = s.hdrVariant := rfl
@[simp] theorem State.setSymCount_cmd (k : Nat) : (s.setSymCount k).cmd = s.cmd := rfl
@[simp] theorem State.setSymCount_arg0 (k : Nat) : (s.setSymCount k).arg0 = s.arg0 := rfl
@[simp] theorem State.setSymCount_arg1 (k : Nat) : (s.setSymCount k).arg1 = s.arg1 := rfl
@[simp] theorem State.setSymCount_errKind (k : Nat) : (s.setSymCount k).errKind = s.errKind := rfl
@[simp] theorem State.setSymCount_errInfo (k : Nat) : (s.setSymCount k).errInfo = s.errInfo := rfl
@[simp] theorem State.setSymCount_res0 (k : Nat) : (s.setSymCount k).res0 = s.res0 := rfl
@[simp] theorem State.setSymCount_res1 (k : Nat) : (s.setSymCount k).res1 = s.res1 := rfl
@[simp] theorem State.setSymCount_res2 (k : Nat) : (s.setSymCount k).res2 = s.res2 := rfl
@[simp] theorem State.setSymCount_res3 (k : Nat) : (s.setSymCount k).res3 = s.res3 := rfl
@[simp] theorem State.setSymCount_symCount (k : Nat) : (s.setSymCount k).symCount = word k := rfl
@[simp] theorem State.setSymCount_inLen (k : Nat) : (s.setSymCount k).inLen = s.inLen := rfl
@[simp] theorem State.setSymCount_inPos (k : Nat) : (s.setSymCount k).inPos = s.inPos := rfl
@[simp] theorem State.setSymCount_outLen (k : Nat) : (s.setSymCount k).outLen = s.outLen := rfl
@[simp] theorem State.setSymCount_outBudget (k : Nat) : (s.setSymCount k).outBudget = s.outBudget := rfl
@[simp] theorem State.setSymCount_imgW (k : Nat) : (s.setSymCount k).imgW = s.imgW := rfl
@[simp] theorem State.setSymCount_imgH (k : Nat) : (s.setSymCount k).imgH = s.imgH := rfl
@[simp] theorem State.setSymCount_bitCount (k : Nat) : (s.setSymCount k).bitCount = s.bitCount := rfl
@[simp] theorem State.setSymCount_ft (k : Nat) : (s.setSymCount k).ft = s.ft := rfl
@[simp] theorem State.setSymCount_tree (k : Nat) : (s.setSymCount k).tree = s.tree := rfl
@[simp] theorem State.setSymCount_ct (k : Nat) : (s.setSymCount k).ct = s.ct := rfl
@[simp] theorem State.setSymCount_bwOpen (k : Nat) : (s.setSymCount k).bwOpen = s.bwOpen := rfl
@[simp] theorem State.setSymCount_bwAcc (k : Nat) : (s.setSymCount k).bwAcc = s.bwAcc := rfl
@[simp] theorem State.setSymCount_bwNbits (k : Nat) : (s.setSymCount k).bwNbits = s.bwNbits := rfl
@[simp] theorem State.setSymCount_brOpen (k : Nat) : (s.setSymCount k).brOpen = s.brOpen := rfl
@[simp] theorem State.setSymCount_brBase (k : Nat) : (s.setSymCount k).brBase = s.brBase := rfl
@[simp] theorem State.setSymCount_brTotal (k : Nat) : (s.setSymCount k).brTotal = s.brTotal := rfl
@[simp] theorem State.setSymCount_brBitPos (k : Nat) : (s.setSymCount k).brBitPos = s.brBitPos := rfl
@[simp] theorem State.setSymCount_symMem (k : Nat) : (s.setSymCount k).symMem = s.symMem := rfl
@[simp] theorem State.setSymCount_inMem (k : Nat) : (s.setSymCount k).inMem = s.inMem := rfl
@[simp] theorem State.setSymCount_outMem (k : Nat) : (s.setSymCount k).outMem = s.outMem := rfl
@[simp] theorem State.setSymCount_latch (k : Nat) : (s.setSymCount k).latch = s.latch := rfl
@[simp] theorem State.setSymCount_inbox (k : Nat) : (s.setSymCount k).inbox = s.inbox := rfl
@[simp] theorem State.setSymCount_readData (k : Nat) : (s.setSymCount k).readData = s.readData := rfl
@[simp] theorem State.setSymCount_resets (k : Nat) : (s.setSymCount k).resets = s.resets := rfl
@[simp] theorem State.setSymCount_drawn (k : Nat) : (s.setSymCount k).drawn = s.drawn := rfl

/-! ### setOut -/

@[simp] theorem State.setOut_cfg (i : Nat) (v : Byte) : (s.setOut i v).cfg = s.cfg := rfl
@[simp] theorem State.setOut_variant (i : Nat) (v : Byte) : (s.setOut i v).variant = s.variant := rfl
@[simp] theorem State.setOut_doneIe (i : Nat) (v : Byte) : (s.setOut i v).doneIe = s.doneIe := rfl
@[simp] theorem State.setOut_errIe (i : Nat) (v : Byte) : (s.setOut i v).errIe = s.errIe := rfl
@[simp] theorem State.setOut_done (i : Nat) (v : Byte) : (s.setOut i v).done = s.done := rfl
@[simp] theorem State.setOut_err (i : Nat) (v : Byte) : (s.setOut i v).err = s.err := rfl
@[simp] theorem State.setOut_busyWr (i : Nat) (v : Byte) : (s.setOut i v).busyWr = s.busyWr := rfl
@[simp] theorem State.setOut_hdrVariant (i : Nat) (v : Byte) : (s.setOut i v).hdrVariant = s.hdrVariant := rfl
@[simp] theorem State.setOut_cmd (i : Nat) (v : Byte) : (s.setOut i v).cmd = s.cmd := rfl
@[simp] theorem State.setOut_arg0 (i : Nat) (v : Byte) : (s.setOut i v).arg0 = s.arg0 := rfl
@[simp] theorem State.setOut_arg1 (i : Nat) (v : Byte) : (s.setOut i v).arg1 = s.arg1 := rfl
@[simp] theorem State.setOut_errKind (i : Nat) (v : Byte) : (s.setOut i v).errKind = s.errKind := rfl
@[simp] theorem State.setOut_errInfo (i : Nat) (v : Byte) : (s.setOut i v).errInfo = s.errInfo := rfl
@[simp] theorem State.setOut_res0 (i : Nat) (v : Byte) : (s.setOut i v).res0 = s.res0 := rfl
@[simp] theorem State.setOut_res1 (i : Nat) (v : Byte) : (s.setOut i v).res1 = s.res1 := rfl
@[simp] theorem State.setOut_res2 (i : Nat) (v : Byte) : (s.setOut i v).res2 = s.res2 := rfl
@[simp] theorem State.setOut_res3 (i : Nat) (v : Byte) : (s.setOut i v).res3 = s.res3 := rfl
@[simp] theorem State.setOut_symCount (i : Nat) (v : Byte) : (s.setOut i v).symCount = s.symCount := rfl
@[simp] theorem State.setOut_inLen (i : Nat) (v : Byte) : (s.setOut i v).inLen = s.inLen := rfl
@[simp] theorem State.setOut_inPos (i : Nat) (v : Byte) : (s.setOut i v).inPos = s.inPos := rfl
@[simp] theorem State.setOut_outLen (i : Nat) (v : Byte) : (s.setOut i v).outLen = s.outLen := rfl
@[simp] theorem State.setOut_outBudget (i : Nat) (v : Byte) : (s.setOut i v).outBudget = s.outBudget := rfl
@[simp] theorem State.setOut_imgW (i : Nat) (v : Byte) : (s.setOut i v).imgW = s.imgW := rfl
@[simp] theorem State.setOut_imgH (i : Nat) (v : Byte) : (s.setOut i v).imgH = s.imgH := rfl
@[simp] theorem State.setOut_bitCount (i : Nat) (v : Byte) : (s.setOut i v).bitCount = s.bitCount := rfl
@[simp] theorem State.setOut_ft (i : Nat) (v : Byte) : (s.setOut i v).ft = s.ft := rfl
@[simp] theorem State.setOut_tree (i : Nat) (v : Byte) : (s.setOut i v).tree = s.tree := rfl
@[simp] theorem State.setOut_ct (i : Nat) (v : Byte) : (s.setOut i v).ct = s.ct := rfl
@[simp] theorem State.setOut_bwOpen (i : Nat) (v : Byte) : (s.setOut i v).bwOpen = s.bwOpen := rfl
@[simp] theorem State.setOut_bwAcc (i : Nat) (v : Byte) : (s.setOut i v).bwAcc = s.bwAcc := rfl
@[simp] theorem State.setOut_bwNbits (i : Nat) (v : Byte) : (s.setOut i v).bwNbits = s.bwNbits := rfl
@[simp] theorem State.setOut_brOpen (i : Nat) (v : Byte) : (s.setOut i v).brOpen = s.brOpen := rfl
@[simp] theorem State.setOut_brBase (i : Nat) (v : Byte) : (s.setOut i v).brBase = s.brBase := rfl
@[simp] theorem State.setOut_brTotal (i : Nat) (v : Byte) : (s.setOut i v).brTotal = s.brTotal := rfl
@[simp] theorem State.setOut_brBitPos (i : Nat) (v : Byte) : (s.setOut i v).brBitPos = s.brBitPos := rfl
@[simp] theorem State.setOut_symMem (i : Nat) (v : Byte) : (s.setOut i v).symMem = s.symMem := rfl
@[simp] theorem State.setOut_inMem (i : Nat) (v : Byte) : (s.setOut i v).inMem = s.inMem := rfl
@[simp] theorem State.setOut_outMem (i : Nat) (v : Byte) : (s.setOut i v).outMem = s.outMem.write i v := rfl
@[simp] theorem State.setOut_latch (i : Nat) (v : Byte) : (s.setOut i v).latch = s.latch := rfl
@[simp] theorem State.setOut_inbox (i : Nat) (v : Byte) : (s.setOut i v).inbox = s.inbox := rfl
@[simp] theorem State.setOut_readData (i : Nat) (v : Byte) : (s.setOut i v).readData = s.readData := rfl
@[simp] theorem State.setOut_resets (i : Nat) (v : Byte) : (s.setOut i v).resets = s.resets := rfl
@[simp] theorem State.setOut_drawn (i : Nat) (v : Byte) : (s.setOut i v).drawn = s.drawn := rfl

end Sys2Proof.Machine
end

