-- ==== Sys2Proof/Laws/Ops.lean ====
section
/-! SUPPORT. One lemma per shared operation that says everything it can do: running and raising, emitByte,
emitBytes, writeBit, writeBits, readBit, readBits, and bit strings. -/

namespace Sys2Proof.Machine

/-! ### Running and raising -/

section
variable {α β : Type}

@[simp] theorem Ran.bind_ok (a : α) (s : State) (f : α → State → Ran β) : (Ran.ok a s).bind f = f a s := rfl
@[simp] theorem Ran.bind_raised (r : Raise) (s : State) (f : α → State → Ran β) :
    (Ran.raised r s).bind f = .raised r s := rfl
@[simp] theorem Ran.andThen_ok (a : α) (s : State) (f : State → Ran β) : (Ran.ok a s).andThen f = f s := rfl
@[simp] theorem Ran.andThen_raised (r : Raise) (s : State) (f : State → Ran β) :
    (Ran.raised r s : Ran α).andThen f = .raised r s := rfl
@[simp] theorem Ran.ofExcept_ok (a : α) (s : State) : Ran.ofExcept (.ok a) s = .ok a s := rfl
@[simp] theorem Ran.ofExcept_error (r : Raise) (s : State) : Ran.ofExcept (.error r : Except Raise α) s = .raised r s := rfl
@[simp] theorem Ran.finish_ok (a : Unit) (s : State) : (Ran.ok a s).finish = s.finishOk := rfl
@[simp] theorem Ran.finish_raised (r : Raise) (s : State) : (Ran.raised r s).finish = s.errorEntry r := rfl
@[simp] theorem complete_eq (x : Ran Unit) : complete x = .next x.finish := rfl

theorem Ran.bind_eq_ok {x : Ran α} {f : α → State → Ran β} {b : β} {t : State} :
    x.bind f = .ok b t ↔ ∃ a s, x = .ok a s ∧ f a s = .ok b t := by
  cases x <;> simp

theorem Ran.andThen_eq_ok {x : Ran α} {f : State → Ran β} {b : β} {t : State} :
    x.andThen f = .ok b t ↔ ∃ a s, x = .ok a s ∧ f s = .ok b t := by
  cases x <;> simp

theorem Ran.bind_eq_raised {x : Ran α} {f : α → State → Ran β} {r : Raise} {t : State} :
    x.bind f = .raised r t ↔ x = .raised r t ∨ ∃ a s, x = .ok a s ∧ f a s = .raised r t := by
  cases x <;> simp

@[simp] theorem Ran.state_ok (a : α) (s : State) : (Ran.ok a s).state = s := rfl
@[simp] theorem Ran.state_raised (r : Raise) (s : State) : (Ran.raised r s : Ran α).state = s := rfl

/-- A property each part keeps is kept by the sequence, whether or not a raise stops it. -/
theorem Ran.bind_keeps {P : State → Prop} {x : Ran α} {f : α → State → Ran β} (hx : P x.state)
    (hf : ∀ a s, P s → P (f a s).state) : P (x.bind f).state := by
  cases x with
  | ok a s => exact hf a s hx
  | raised r s => exact hx

theorem Ran.andThen_keeps {P : State → Prop} {x : Ran α} {f : State → Ran β} (hx : P x.state)
    (hf : ∀ s, P s → P (f s).state) : P (x.andThen f).state :=
  Ran.bind_keeps hx fun _ s h => hf s h

end

/-! ### Bit strings -/

@[simp] theorem byteBits_length (b : Byte) : (byteBits b).length = 8 := by simp [byteBits]

@[simp] theorem bytesBits_nil : bytesBits [] = [] := rfl
@[simp] theorem bytesBits_cons (b : Byte) (bs : List Byte) : bytesBits (b :: bs) = byteBits b ++ bytesBits bs := rfl
@[simp] theorem bytesBits_append (as bs : List Byte) : bytesBits (as ++ bs) = bytesBits as ++ bytesBits bs := by
  simp [bytesBits]

theorem bytesBits_length (bs : List Byte) : (bytesBits bs).length = 8 * bs.length := by
  induction bs with
  | nil => rfl
  | cons b bs ih => simp [ih]; omega

@[simp] theorem bitsValue_nil : bitsValue [] = 0 := rfl

theorem bitsValue_append_singleton (bs : List Bool) (b : Bool) :
    bitsValue (bs ++ [b]) = 2 * bitsValue bs + b.toNat := by simp [bitsValue]

theorem bitsValue_lt (bs : List Bool) : bitsValue bs < 2 ^ bs.length := by
  induction bs using List.reverseRecOn with
  | nil => simp
  | append_singleton bs b ih =>
    have hb : b.toNat ≤ 1 := Bool.toNat_le b
    simp only [bitsValue_append_singleton, List.length_append, List.length_singleton, pow_succ]
    omega

theorem bitsValue_cons (b : Bool) (bs : List Bool) :
    bitsValue (b :: bs) = b.toNat * 2 ^ bs.length + bitsValue bs := by
  induction bs using List.reverseRecOn with
  | nil => simp [bitsValue]
  | append_singleton bs c ih =>
    rw [← List.cons_append, bitsValue_append_singleton, bitsValue_append_singleton, ih]
    simp [pow_succ]; ring

/-- The value of a bit string, bit by bit: its first bit is the most significant. -/
theorem bitsValue_testBit (bs : List Bool) (i : Nat) :
    (bitsValue bs).testBit i = (bs.reverse[i]?).getD false := by
  induction bs using List.reverseRecOn generalizing i with
  | nil => simp
  | append_singleton bs b ih =>
    rw [bitsValue_append_singleton]
    cases i with
    | zero => cases b <;> simp [Nat.testBit_zero]
    | succ i =>
      have : (2 * bitsValue bs + b.toNat).testBit (i + 1) = (bitsValue bs).testBit i := by
        rw [Nat.testBit_succ]
        congr 1
        cases b
        · simp
        · simp; omega
      rw [this, ih]
      simp

/-- Bit `n - 1 - j` of the word of `n` bits is the bit at place `j`. -/
theorem word_bitsValue_getLsbD {bs : List Bool} {j : Nat} (hl : bs.length ≤ 32) (h : j < bs.length) :
    (word (bitsValue bs)).getLsbD (bs.length - 1 - j) = bs[j] := by
  rw [BitVec.getLsbD_ofNat, bitsValue_testBit, List.getElem?_reverse (by omega)]
  have h1 : bs.length - 1 - j < 32 := by omega
  have h2 : bs.length - 1 - (bs.length - 1 - j) = j := by omega
  simp [h1, h2, h]

@[simp] theorem lowBits_length (n : Nat) (v : Word) : (lowBits n v).length = n := by simp [lowBits]

/-! ### emitByte and emitBytes (R97) -/

/-- Everything emitByte can do: overflow with nothing changed, or one byte at OUT_LEN. -/
theorem emitByte_cases (v : Byte) (s : State) :
    (s.outBudget ≤ s.outLen ∧ emitByte v s = .raised ⟨.streamOverflow, s.outLen⟩ s) ∨
    (s.outLen < s.outBudget ∧ emitByte v s = .ok () (s.pushByte v)) := by
  by_cases h : s.outBudget ≤ s.outLen
  · exact .inl ⟨h, by simp [emitByte, h]⟩
  · exact .inr ⟨by simpa using h, by simp [emitByte, h]⟩

theorem succ_toNat_of_lt {a b : Word} (h : a < b) : (a + 1).toNat = a.toNat + 1 := by
  have ha : a.toNat < b.toNat := h
  have hb := b.isLt
  rw [BitVec.toNat_add]
  simp
  omega

/-- A byte that is emitted. -/
theorem emitByte_ok {v : Byte} {s : State} (h : s.outLen.toNat < s.outBudget.toNat) :
    ∃ t, emitByte v s = .ok () t ∧ EmittedBytes [v] s t := by
  refine ⟨s.pushByte v, ?_, ?_⟩
  · rcases emitByte_cases v s with ⟨h', _⟩ | ⟨_, h'⟩
    · exact absurd (show s.outBudget.toNat ≤ s.outLen.toNat from h') (by omega)
    · exact h'
  · have hs := succ_toNat_of_lt (show s.outLen < s.outBudget from h)
    refine ⟨by simpa using hs, ?_, ?_, rfl⟩
    · intro k hk
      have : k = 0 := by simpa using hk
      subst this
      simpa [State.outAt] using congrArg (fun x => x) (State.outAt_setOut s s.outLen.toNat s.outLen.toNat v)
    · intro a ha
      have hne : a ≠ s.outLen.toNat := by simp at ha; omega
      have := State.outAt_setOut s s.outLen.toNat a v
      simpa [State.outAt, hne] using this

theorem EmittedBytes.refl (s : State) : EmittedBytes [] s s :=
  ⟨by simp, fun k hk => absurd hk (by simp), fun _ _ => rfl, rfl⟩

theorem EmittedBytes.trans {as bs : List Byte} {s t u : State} (h : EmittedBytes as s t) (g : EmittedBytes bs t u) :
    EmittedBytes (as ++ bs) s u := by
  have ht := h.outLen_eq
  have hu := g.outLen_eq
  refine ⟨by rw [hu, ht, List.length_append]; omega, ?_, ?_, ?_⟩
  · intro k hk
    by_cases hka : k < as.length
    · rw [List.getElem_append_left hka, ← h.bytes_at k hka, g.out_frame _ (.inl (by omega))]
    · have hk' : k - as.length < bs.length := by simp at hk; omega
      rw [List.getElem_append_right (by omega), ← g.bytes_at _ hk', ht]
      congr 1
      omega
  · intro a ha
    simp at ha
    rw [g.out_frame a (by omega), h.out_frame a (by omega)]
  · rw [g.frame, h.frame]

theorem EmittedBytes.outBudget {bs : List Byte} {s t : State} (h : EmittedBytes bs s t) : t.outBudget = s.outBudget := by
  rw [h.frame]

theorem EmittedBytes.room {bs : List Byte} {s t : State} (h : EmittedBytes bs s t) : t.room = s.room - bs.length := by
  simp only [State.room, h.outBudget, h.outLen_eq]
  omega

/-- Bytes for which there is room are all emitted. -/
theorem emitBytes_ok {bs : List Byte} {s : State} (h : bs.length ≤ s.room) :
    ∃ t, emitBytes bs s = .ok () t ∧ EmittedBytes bs s t := by
  induction bs generalizing s with
  | nil => exact ⟨s, rfl, .refl s⟩
  | cons v vs ih =>
    simp only [List.length_cons] at h
    obtain ⟨t, ht, e⟩ := emitByte_ok (v := v) (s := s) (by unfold State.room at h; omega)
    have hr := e.room
    simp only [List.length_cons, List.length_nil] at hr
    obtain ⟨u, hu, g⟩ := ih (s := t) (by omega)
    exact ⟨u, by simp [emitBytes, ht, hu], by simpa using e.trans g⟩

/-- Bytes for which there is no room: those that fit are emitted, and the next raises STREAM_OVERFLOW(OUT_LEN). -/
theorem emitBytes_overflow {bs : List Byte} {s : State} (h : s.room < bs.length) :
    ∃ t, emitBytes bs s = .raised ⟨.streamOverflow, t.outLen⟩ t ∧ EmittedBytes (bs.take s.room) s t := by
  induction bs generalizing s with
  | nil => simp at h
  | cons v vs ih =>
    rcases emitByte_cases v s with ⟨hle, hr⟩ | ⟨hlt, -⟩
    · have h0 : s.room = 0 := by
        have hle : s.outBudget.toNat ≤ s.outLen.toNat := hle
        unfold State.room
        omega
      exact ⟨s, by simp [emitBytes, hr], by simpa [h0] using EmittedBytes.refl s⟩
    · obtain ⟨t, ht, e⟩ := emitByte_ok (v := v) (s := s) hlt
      have hpos : 0 < s.room := Nat.sub_pos_of_lt hlt
      have hr := e.room
      simp only [List.length_cons, List.length_nil] at h hr
      obtain ⟨u, hu, g⟩ := ih (s := t) (by omega)
      refine ⟨u, by simp [emitBytes, ht, hu], ?_⟩
      have : s.room = t.room + 1 := by omega
      rw [this, List.take_succ_cons]
      simpa using e.trans g

/-! ### writeBit and writeBits (R98) -/

theorem shiftIn_getLsbD_zero (acc : Byte) (b : Bool) : (shiftIn acc b).getLsbD 0 = b := by
  revert acc b; decide

theorem shiftIn_getLsbD_succ (acc : Byte) (b : Bool) {i : Nat} (h : i < 7) :
    (shiftIn acc b).getLsbD (i + 1) = acc.getLsbD i := by
  have h8 : i + 1 < 8 := by omega
  cases b <;> simp [shiftIn, h8] <;> exact (BitVec.getLsbD_eq_getElem (by omega)).symm

/-- The low `n + 1` bits after a shift are the low `n` bits before it and the new bit. -/
theorem shiftIn_bits (acc : Byte) (b : Bool) {n : Nat} (h : n ≤ 7) :
    ((List.range (n + 1)).map fun j => (shiftIn acc b).getLsbD (n - j)) =
      ((List.range n).map fun j => acc.getLsbD (n - 1 - j)) ++ [b] := by
  rw [List.range_succ, List.map_append]
  congr 1
  · apply List.map_congr_left
    intro j hj
    have hj : j < n := by simpa using hj
    have : n - j = (n - 1 - j) + 1 := by omega
    rw [this, shiftIn_getLsbD_succ acc b (by omega)]
  · simp only [List.map_cons, List.map_nil, Nat.sub_self, shiftIn_getLsbD_zero]

@[simp] theorem outBytes_zero (s : State) (a : Nat) : s.outBytes a 0 = [] := rfl

theorem outBytes_succ (s : State) (a n : Nat) : s.outBytes a (n + 1) = s.outBytes a n ++ [s.outAt (a + n)] := by
  simp [State.outBytes, List.range_succ]

theorem outBytes_add (s : State) (a m n : Nat) : s.outBytes a (m + n) = s.outBytes a m ++ s.outBytes (a + m) n := by
  induction n with
  | zero => simp
  | succ n ih => rw [← Nat.add_assoc, outBytes_succ, ih, outBytes_succ]; simp [Nat.add_assoc]

@[simp] theorem outBytes_length (s : State) (a n : Nat) : (s.outBytes a n).length = n := by simp [State.outBytes]

theorem outBytes_congr {s t : State} {a n : Nat} (h : ∀ k, a ≤ k → k < a + n → t.outAt k = s.outAt k) :
    t.outBytes a n = s.outBytes a n := by
  apply List.map_congr_left
  intro k hk
  have : k < n := by simpa using hk
  exact h _ (by omega) (by omega)

theorem WroteBits.refl (s : State) : WroteBits [] s s := by
  have h := s.bwNbits.isLt
  exact ⟨by simp, by simp; omega, by simp [Nat.div_eq_of_lt h], by simp, fun _ _ => rfl, rfl⟩

theorem WroteBits.outBudget {bits : List Bool} {s t : State} (h : WroteBits bits s t) : t.outBudget = s.outBudget := by
  rw [h.frame]

theorem WroteBits.trans {as bs : List Bool} {s t u : State} (h : WroteBits as s t) (g : WroteBits bs t u) :
    WroteBits (as ++ bs) s u := by
  have h1 := h.outLen_eq
  have h2 := h.nbits_eq
  have g1 := g.outLen_eq
  have g2 := g.nbits_eq
  have hl : (as ++ bs).length = as.length + bs.length := List.length_append
  have hdiv : (s.bwNbits.val + (as ++ bs).length) / 8 =
      (s.bwNbits.val + as.length) / 8 + (t.bwNbits.val + bs.length) / 8 := by rw [hl]; omega
  refine ⟨by rw [g1, h1, hdiv]; omega, by rw [g2, hl]; omega, ?_, by rw [g.bitCount_eq, h.bitCount_eq, hl]; omega,
    ?_, by rw [g.frame, h.frame]⟩
  · rw [hdiv, outBytes_add, bytesBits_append, List.append_assoc, ← h1, g.bits_eq, ← List.append_assoc,
      ← List.append_assoc, ← h.bits_eq]
    congr 3
    exact outBytes_congr fun k _ hk => g.out_frame k (.inl (by omega))
  · intro a ha
    rw [g.out_frame a (by omega), h.out_frame a (by omega)]

theorem pendingBits_setPending (s : State) (acc : Byte) (n : Fin 8) :
    (s.setPending acc n).countBit.pendingBits = (List.range n.val).map fun j => acc.getLsbD (n.val - 1 - j) := rfl

/-- Everything writeBit can do: overflow with nothing of the bit kept, or the bit written. -/
theorem writeBit_cases (b : Bool) (s : State) :
    (s.bwNbits = 7 ∧ s.outBudget ≤ s.outLen ∧ writeBit b s = .raised ⟨.streamOverflow, s.outLen⟩ s) ∨
    ∃ t, writeBit b s = .ok () t ∧ WroteBits [b] s t := by
  by_cases h7 : s.bwNbits = 7
  · rcases Nat.lt_or_ge s.outLen.toNat s.outBudget.toNat with hlt | hge
    · obtain ⟨t, ht, e⟩ := emitByte_ok (v := shiftIn s.bwAcc b) hlt
      refine .inr ⟨(t.setPending 0 0).countBit, by simp [writeBit, h7, ht], ?_⟩
      have hl := e.outLen_eq
      have h7v : s.bwNbits.val = 7 := by rw [h7]; rfl
      have hf := e.frame
      have hc : t.bitCount = s.bitCount := by rw [hf]
      refine ⟨by simpa [h7v] using hl, by simp [h7v], ?_, by simp [hc], ?_, by rw [hf]; rfl⟩
      · have hat : (t.setPending 0 0).countBit.outAt s.outLen.toNat = shiftIn s.bwAcc b := e.bytes_at 0 (by simp)
        have hp : (t.setPending 0 0).countBit.pendingBits = [] := rfl
        have := shiftIn_bits s.bwAcc b (n := 7) (by omega)
        rw [hp, List.length_singleton, h7v, show (7 + 1) / 8 = 0 + 1 from rfl, outBytes_succ, outBytes_zero,
          List.nil_append, Nat.add_zero, hat, List.append_nil, State.pendingBits, h7v]
        simpa [bytesBits, byteBits] using this
      · intro a ha
        have ha' : a < s.outLen.toNat ∨ t.outLen.toNat ≤ a := ha
        exact e.out_frame a (by rw [hl] at ha'; exact ha')
    · have hle : s.outBudget ≤ s.outLen := hge
      exact .inl ⟨h7, hle, by simp [writeBit, h7, emitByte, hle]⟩
  · refine .inr ⟨(s.setPending (shiftIn s.bwAcc b) (s.bwNbits + 1)).countBit, by simp [writeBit, h7], ?_⟩
    have hlt := s.bwNbits.isLt
    have hne : s.bwNbits.val ≠ 7 := fun h => h7 (Fin.ext h)
    have hv : (s.bwNbits + 1).val = s.bwNbits.val + 1 := by
      rw [Fin.val_add]
      have : ((1 : Fin 8)).val = 1 := rfl
      omega
    have hd : (s.bwNbits.val + 1) / 8 = 0 := by omega
    refine ⟨by simp [hd], by simp [hv]; omega, ?_, by simp, fun _ _ => rfl, rfl⟩
    have := shiftIn_bits s.bwAcc b (n := s.bwNbits.val) (by omega)
    rw [List.length_singleton, hd, outBytes_zero, bytesBits_nil, List.nil_append, pendingBits_setPending, hv]
    exact this

theorem WroteBits.room {bits : List Bool} {s t : State} (h : WroteBits bits s t) :
    t.room = s.room - (s.bwNbits.val + bits.length) / 8 := by
  simp only [State.room, h.outBudget, h.outLen_eq]
  omega

/-- Bits for whose full bytes there is room are all written. -/
theorem writeBits_ok {bits : List Bool} {s : State} (h : (s.bwNbits.val + bits.length) / 8 ≤ s.room) :
    ∃ t, writeBits bits s = .ok () t ∧ WroteBits bits s t := by
  induction bits generalizing s with
  | nil => exact ⟨s, rfl, .refl s⟩
  | cons b bs ih =>
    simp only [List.length_cons] at h
    rcases writeBit_cases b s with ⟨h7, hle, _⟩ | ⟨t, ht, w⟩
    · have h7v : s.bwNbits.val = 7 := by rw [h7]; rfl
      have hle : s.outBudget.toNat ≤ s.outLen.toNat := hle
      unfold State.room at h
      omega
    · have h1 := w.room
      have h2 := w.nbits_eq
      simp only [List.length_cons, List.length_nil] at h1 h2
      obtain ⟨u, hu, g⟩ := ih (s := t) (by omega)
      exact ⟨u, by simp [writeBits, ht, hu], by simpa using w.trans g⟩

/-- Bits for whose full bytes there is no room: those before the failing bit are written, and it raises
STREAM_OVERFLOW(OUT_LEN). -/
theorem writeBits_overflow {bits : List Bool} {s : State} (h : s.room < (s.bwNbits.val + bits.length) / 8) :
    ∃ t, writeBits bits s = .raised ⟨.streamOverflow, t.outLen⟩ t ∧
      WroteBits (bits.take (8 * s.room + 7 - s.bwNbits.val)) s t := by
  induction bits generalizing s with
  | nil =>
    have := s.bwNbits.isLt
    simp [Nat.div_eq_of_lt this] at h
  | cons b bs ih =>
    have h8 := s.bwNbits.isLt
    rcases writeBit_cases b s with ⟨h7, hge, hr⟩ | ⟨t, ht, w⟩
    · have h7v : s.bwNbits.val = 7 := by rw [h7]; rfl
      have hge : s.outBudget.toNat ≤ s.outLen.toNat := hge
      refine ⟨s, by simp [writeBits, hr], ?_⟩
      have h0 : 8 * s.room + 7 - s.bwNbits.val = 0 := by unfold State.room; omega
      rw [h0]
      exact .refl s
    · have h1 := w.outLen_eq
      have h2 := w.nbits_eq
      simp only [List.length_cons, List.length_nil] at h1 h2 h
      have hfit : (s.bwNbits.val + 1) / 8 ≤ s.room := by
        rcases Nat.lt_or_ge s.room ((s.bwNbits.val + 1) / 8) with hb | hb
        · -- the byte was emitted although there was no room: impossible
          have h7 : s.bwNbits = 7 := Fin.ext (by show s.bwNbits.val = 7; omega)
          have hle : s.outBudget ≤ s.outLen := by
            show s.outBudget.toNat ≤ s.outLen.toNat
            unfold State.room at hb
            omega
          simp [writeBit, h7, emitByte, hle] at ht
        · exact hb
      have hr := w.room
      simp only [List.length_cons, List.length_nil] at hr
      obtain ⟨u, hu, g⟩ := ih (s := t) (by omega)
      refine ⟨u, by simp [writeBits, ht, hu], ?_⟩
      have : 8 * s.room + 7 - s.bwNbits.val = (8 * t.room + 7 - t.bwNbits.val) + 1 := by omega
      rw [this, List.take_succ_cons]
      simpa using w.trans g

theorem writeBits_append (as bs : List Bool) (s : State) :
    writeBits (as ++ bs) s = (writeBits as s).andThen (writeBits bs) := by
  induction as generalizing s with
  | nil => rfl
  | cons a as ih =>
    simp only [List.cons_append, writeBits]
    cases writeBit a s with
    | ok u t => simp [ih]
    | raised r t => rfl

/-! ### The last data byte (R101) -/

/-- The bits of a byte shifted left by the places that are not pending. -/
theorem partialByte_bits (s : State) :
    byteBits s.partialByte = s.pendingBits ++ List.replicate (8 - s.bwNbits.val) false := by
  have key : ∀ (acc : Byte) (n : Fin 8),
      byteBits (acc <<< (8 - n.val)) =
        ((List.range n.val).map fun j => acc.getLsbD (n.val - 1 - j)) ++ List.replicate (8 - n.val) false := by
    intro acc n
    apply List.ext_getElem
    · simp
    · intro i h1 h2
      simp at h1
      have hn := n.isLt
      by_cases hi : i < n.val
      · rw [List.getElem_append_left (by simpa using hi)]
        simp [byteBits]
        have : 7 - i - (8 - n.val) = n.val - 1 - i := by omega
        rw [this]
        simp
        omega
      · rw [List.getElem_append_right (by simpa using hi)]
        simp [byteBits]
        omega
  exact key s.bwAcc s.bwNbits

/-! ### readBit and readBits (R103) -/

/-- Everything readBit can do. -/
theorem readBit_cases (s : State) :
    (s.brTotal ≤ s.brBitPos ∧ readBit s = raise .truncatedStream s.brBitPos s) ∨
    (s.brBitPos < s.brTotal ∧ readBit s = .ok (s.streamBit s.brBitPos) (s.skipBits 1)) := by
  by_cases h : s.brTotal ≤ s.brBitPos
  · exact .inl ⟨h, by simp [readBit, h]⟩
  · exact .inr ⟨by omega, by simp [readBit, h]⟩

theorem streamBit_skipBits (s : State) (n k : Nat) : (s.skipBits n).streamBit k = s.streamBit k := rfl

theorem skipBits_skipBits (s : State) (m n : Nat) : (s.skipBits m).skipBits n = s.skipBits (m + n) := by
  simp [State.skipBits, Nat.add_assoc]

/-- Bits that remain are all delivered, in order, and only BR_BITPOS moves. -/
theorem readBits_ok {n : Nat} {s : State} (h : s.brBitPos + n ≤ s.brTotal) :
    readBits n s = .ok ((List.range n).map fun j => s.streamBit (s.brBitPos + j)) (s.skipBits n) := by
  induction n generalizing s with
  | zero => rfl
  | succ n ih =>
    rcases readBit_cases s with ⟨h', _⟩ | ⟨_, hr⟩
    · omega
    · simp only [readBits, hr, Ran.bind_ok]
      rw [ih (by simp; omega)]
      simp only [Ran.bind_ok, List.range_succ_eq_map, List.map_cons, List.map_map, Nat.add_zero, skipBits_skipBits,
        streamBit_skipBits, State.skipBits_brBitPos, Nat.add_comm 1 n]
      congr 2
      apply List.map_congr_left
      intro j _
      simp only [Function.comp, Nat.succ_eq_add_one]
      rw [show s.brBitPos + 1 + j = s.brBitPos + (j + 1) by omega]

end Sys2Proof.Machine
end

