-- ==== Sys2Proof/Laws/FrequencyCounter.lean ====
section
/-! SUPPORT. The counting loop of FC_COUNT against the frequency table of a sequence. -/

namespace Sys2Proof.Machine

@[simp] theorem firstSeen_nil : firstSeen [] = [] := rfl

theorem firstSeen_append_singleton (xs : List Word) (x : Word) :
    firstSeen (xs ++ [x]) = if x ∈ xs then firstSeen xs else firstSeen xs ++ [x] := by
  simp only [firstSeen, List.reverse_append, List.reverse_cons, List.reverse_nil, List.nil_append,
    List.singleton_append]
  by_cases h : x ∈ xs <;> simp [h, List.dedup_cons_of_mem, List.dedup_cons_of_notMem]

@[simp] theorem mem_firstSeen {x : Word} {xs : List Word} : x ∈ firstSeen xs ↔ x ∈ xs := by
  simp [firstSeen]

theorem firstSeen_nodup (xs : List Word) : (firstSeen xs).Nodup := by
  simp [firstSeen, List.nodup_dedup]

@[simp] theorem freqTable_length (xs : List Word) : (freqTable xs).length = (firstSeen xs).length := by
  simp [freqTable]

/-- The symbols of a longer sequence start with those of a shorter one. -/
theorem firstSeen_append_length_le (xs ys : List Word) : (firstSeen xs).length ≤ (firstSeen (xs ++ ys)).length := by
  induction ys using List.reverseRecOn with
  | nil => simp
  | append_singleton ys y ih =>
    rw [← List.append_assoc, firstSeen_append_singleton]
    split
    · exact ih
    · simp; omega

/-- The entries of `firstSeen`, with any counts, after one more occurrence. -/
theorem countSymbol_map (x : Word) (f : Word → Word) (l : List Word) (h : l.Nodup) :
    countSymbol x (l.map fun y => ⟨y, f y⟩) =
      if x ∈ l then l.map fun y => ⟨y, if y = x then f y + 1 else f y⟩
      else (l.map fun y => (⟨y, f y⟩ : FtEntry)) ++ [⟨x, 1⟩] := by
  induction l with
  | nil => simp [countSymbol]
  | cons y l ih =>
    obtain ⟨hy, hl⟩ := List.nodup_cons.1 h
    simp only [List.map_cons, countSymbol]
    by_cases hx : y = x
    · subst hx
      simp only [if_true, List.mem_cons, true_or]
      congr 1
      apply List.map_congr_left
      intro z hz
      have : z ≠ y := fun e => hy (e ▸ hz)
      simp [this]
    · rw [if_neg hx, ih hl]
      have hx' : x ≠ y := fun e => hx e.symm
      by_cases hm : x ∈ l <;> simp [hm, hx, hx']

/-- One more symbol, in the table (R86, R87). -/
theorem countSymbol_freqTable (x : Word) (xs : List Word) :
    countSymbol x (freqTable xs) = freqTable (xs ++ [x]) := by
  rw [freqTable, countSymbol_map x (fun y => word (xs.count y)) _ (firstSeen_nodup xs), freqTable,
    firstSeen_append_singleton]
  by_cases h : x ∈ xs
  · simp only [mem_firstSeen, h, if_true]
    apply List.map_congr_left
    intro y _
    congr 1
    by_cases hy : y = x
    · subst hy; simp [BitVec.ofNat_add]
    · have : x ≠ y := fun e => hy e.symm
      simp [hy, List.count_append, this]
  · simp only [mem_firstSeen, h, if_false, List.map_append, List.map_cons, List.map_nil]
    congr 1
    · apply List.map_congr_left
      intro y hy
      have : x ≠ y := fun e => h (by rw [e]; exact mem_firstSeen.1 hy)
      simp [List.count_append, this]
    · simp [List.count_append, List.count_eq_zero_of_not_mem h]

theorem freqTable_any (x : Word) (xs : List Word) :
    ((freqTable xs).any fun e => decide (e.sym = x)) = decide (x ∈ xs) := by
  rw [Bool.eq_iff_iff]
  simp [freqTable]

/-- The symbols from index `i` on. -/
def State.symbolsFrom (s : State) (i left : Nat) : List Word := (List.range left).map fun j => s.symAt (i + j)

theorem symbolsFrom_succ (s : State) (i left : Nat) :
    s.symbolsFrom i (left + 1) = s.symAt i :: s.symbolsFrom (i + 1) left := by
  simp [State.symbolsFrom, List.range_succ_eq_map, Function.comp_def, Nat.add_assoc, Nat.add_comm 1]

@[simp] theorem symbolsFrom_zero (s : State) (i : Nat) : s.symbolsFrom i 0 = [] := rfl

theorem symbols_eq (s : State) : s.symbols = s.symbolsFrom 0 s.symCount.toNat := by
  simp [State.symbols, State.symbolsFrom]

theorem symbols_take (s : State) {i : Nat} (h : i ≤ s.symCount.toNat) : s.symbols.take i = s.symbolsFrom 0 i := by
  simp [State.symbols, State.symbolsFrom, ← List.map_take, List.take_range, Nat.min_eq_left h]

theorem symbolsFrom_append (s : State) (i m n : Nat) :
    s.symbolsFrom i (m + n) = s.symbolsFrom i m ++ s.symbolsFrom (i + m) n := by
  induction m generalizing i with
  | zero => simp
  | succ m ih =>
    rw [show m + 1 + n = (m + n) + 1 by omega, symbolsFrom_succ, ih, symbolsFrom_succ, List.cons_append]
    rw [show i + 1 + m = i + (m + 1) by omega]

/-- The loop runs through symbols that are valid and fit, and goes on with the table of all of them (R86). -/
theorem countLoop_run {s : State} {m n i : Nat} {xs : List Word}
    (hv : ∀ x ∈ s.symbolsFrom i m, validSym x s.variant = true)
    (hd : (firstSeen (xs ++ s.symbolsFrom i m)).length ≤ s.cfg.maxDistinct) :
    countLoop s (m + n) i (freqTable xs) =
      countLoop s n (i + m) (freqTable (xs ++ s.symbolsFrom i m)) := by
  induction m generalizing i xs with
  | zero => simp
  | succ m ih =>
    rw [symbolsFrom_succ] at hv hd ⊢
    rw [show m + 1 + n = (m + n) + 1 by omega, countLoop]
    have h1 : validSym (s.symAt i) s.variant = true := hv _ (by simp)
    have e : xs ++ s.symAt i :: s.symbolsFrom (i + 1) m = (xs ++ [s.symAt i]) ++ s.symbolsFrom (i + 1) m := by simp
    rw [e] at hd ⊢
    have h2 : ¬ ((!decide (s.symAt i ∈ xs)) = true ∧ (firstSeen xs).length = s.cfg.maxDistinct) := by
      rintro ⟨hn, hl⟩
      have := firstSeen_append_length_le (xs ++ [s.symAt i]) (s.symbolsFrom (i + 1) m)
      rw [firstSeen_append_singleton, if_neg (by simpa using hn), List.length_append,
        List.length_singleton] at this
      omega
    simp only [h1, Bool.not_true, Bool.false_eq_true, if_false, freqTable_any, freqTable_length]
    rw [if_neg (by simpa using h2), countSymbol_freqTable, ih (fun x hx => hv x (by simp [hx])) hd]
    rw [show i + 1 + m = i + (m + 1) by omega]

end Sys2Proof.Machine
end

