-- ==== Sys2Proof/Laws/TreeBuilder.lean ====
section
/-! SUPPORT. The merge loop of TB_BUILD: the least element of the collection, and what stays true while pairs are
merged. -/

namespace Sys2Proof.Machine

/-! ### The least element (R89, R90) -/

theorem QItem.before_iff (a b : QItem) :
    a.before b = true ↔ a.freq.toNat < b.freq.toNat ∨ (a.freq.toNat = b.freq.toNat ∧ a.idx < b.idx) := by
  simp only [QItem.before, decide_eq_true_eq, BitVec.lt_def, BitVec.toNat_inj]

/-- takeLeast takes one element out, and none of the others comes before it. -/
theorem takeLeast_spec {q : List QItem} {m : QItem} {rest : List QItem} (h : takeLeast q = some (m, rest)) :
    (m :: rest).Perm q ∧ ∀ x ∈ rest, x.before m = false := by
  induction q generalizing m rest with
  | nil => simp [takeLeast] at h
  | cons y q ih =>
    simp only [takeLeast] at h
    split at h
    · next hn =>
      simp at h
      obtain ⟨rfl, rfl⟩ := h
      have : q = [] := by
        cases q with
        | nil => rfl
        | cons z q =>
          simp only [takeLeast] at hn
          split at hn
          · cases hn
          · split at hn <;> cases hn
      simp [this]
    · next m' others hs =>
      obtain ⟨hp, hb⟩ := ih hs
      split at h
      · next hm =>
        simp at h
        obtain ⟨rfl, rfl⟩ := h
        refine ⟨(List.Perm.swap _ _ _).trans (hp.cons y), ?_⟩
        intro x hx
        rcases List.mem_cons.1 hx with rfl | hx
        · rw [← Bool.not_eq_true, QItem.before_iff]
          rw [QItem.before_iff] at hm
          omega
        · exact hb x hx
      · next hm =>
        simp at h
        obtain ⟨rfl, rfl⟩ := h
        refine ⟨List.Perm.refl _, ?_⟩
        intro x hx
        rcases List.mem_cons.1 (hp.mem_iff.2 hx) with rfl | hx
        · simpa using hm
        · have := hb x hx
          rw [← Bool.not_eq_true, QItem.before_iff] at this ⊢
          rw [QItem.before_iff] at hm
          omega

theorem takeLeast_cons (x : QItem) (q : List QItem) : ∃ m rest, takeLeast (x :: q) = some (m, rest) := by
  simp only [takeLeast]
  split
  · exact ⟨_, _, rfl⟩
  · split <;> exact ⟨_, _, rfl⟩

/-! ### Entries below a length -/

theorem Waiting.append {nodes : List Node} (more : List Node) {j q : Nat} (hj : j ≤ nodes.length) :
    Waiting (nodes ++ more) j q ↔ Waiting nodes j q := by
  unfold Waiting
  have key : ∀ k n, k < j → ((nodes ++ more)[k]? = some n ↔ nodes[k]? = some n) := by
    intro k n hk
    rw [List.getElem?_append_left (by omega)]
  constructor
  · rintro ⟨h1, h2⟩
    exact ⟨h1, fun k n hk hn => h2 k n hk ((key k n hk).2 hn)⟩
  · rintro ⟨h1, h2⟩
    exact ⟨h1, fun k n hk hn => h2 k n hk ((key k n hk).1 hn)⟩

theorem getElem?_append_some {α : Type} {xs : List α} (ys : List α) {i : Nat} {x : α} (h : xs[i]? = some x) :
    (xs ++ ys)[i]? = some x := by
  obtain ⟨hi, rfl⟩ := List.getElem?_eq_some_iff.1 h
  rw [List.getElem?_append_left hi, List.getElem?_eq_getElem hi]

theorem KeyBefore.append {nodes : List Node} (more : List Node) {a b : Nat} (h : KeyBefore nodes a b) :
    KeyBefore (nodes ++ more) a b := by
  obtain ⟨m, n, h1, h2, h3⟩ := h
  exact ⟨m, n, getElem?_append_some _ h1, getElem?_append_some _ h2, h3⟩

theorem MergesLeastTwo.append {nodes : List Node} (more : List Node) {j : Nat} (h : MergesLeastTwo nodes j) :
    MergesLeastTwo (nodes ++ more) j := by
  obtain ⟨a, b, m, n, h1, h2, h3, h4, h5, h6, h7⟩ := h
  have hj : j ≤ nodes.length := by
    obtain ⟨hj, _⟩ := List.getElem?_eq_some_iff.1 h3
    omega
  refine ⟨a, b, m, n, getElem?_append_some _ h1, getElem?_append_some _ h2, getElem?_append_some _ h3,
    (Waiting.append more hj).2 h4, (Waiting.append more hj).2 h5, h6.append more, ?_⟩
  intro q hq
  rcases h7 q ((Waiting.append more hj).1 hq) with h | h | h
  · exact .inl h
  · exact .inr (.inl h)
  · exact .inr (.inr (h.append more))

/-! ### The tree under construction -/

/-- Entries whose children are below them, where each entry waits or is the child of exactly one other. -/
structure Forest (waiting : List Nat) (nodes : List Node) : Prop where
  below : ∀ (i : Nat) (n : Node), nodes[i]? = some n → ∀ c ∈ n.children, c < i
  perm : (waiting ++ nodes.flatMap Node.children).Perm (List.range nodes.length)

theorem Forest.of_perm {w w' : List Nat} {nodes : List Node} (h : Forest w nodes) (hp : w'.Perm w) :
    Forest w' nodes := ⟨h.below, (hp.append_right _).trans h.perm⟩

theorem Forest.nodup {w : List Nat} {nodes : List Node} (h : Forest w nodes) :
    (w ++ nodes.flatMap Node.children).Nodup := h.perm.nodup_iff.2 List.nodup_range

theorem Forest.mem_waiting {w : List Nat} {nodes : List Node} (h : Forest w nodes) (q : Nat) :
    q ∈ w ↔ Waiting nodes nodes.length q := by
  have hm := h.perm.mem_iff (a := q)
  rw [List.mem_append, List.mem_range] at hm
  have hd := (List.nodup_append.1 h.nodup).2.2
  constructor
  · intro hq
    refine ⟨hm.1 (.inl hq), ?_⟩
    intro k n _ hn hc
    exact hd q hq q (List.mem_flatMap.2 ⟨n, List.mem_of_getElem? hn, hc⟩) rfl
  · rintro ⟨h1, h2⟩
    rcases hm.2 h1 with hq | hq
    · exact hq
    · obtain ⟨n, hn, hc⟩ := List.mem_flatMap.1 hq
      obtain ⟨k, hk, rfl⟩ := List.getElem_of_mem hn
      exact absurd hc (h2 k _ hk (List.getElem?_eq_getElem hk))

/-- A new entry whose children all wait: they no longer do, and it does. -/
theorem Forest.push {w : List Nat} {nodes : List Node} {n : Node} (h : Forest (w ++ n.children) nodes) :
    Forest (w ++ [nodes.length]) (nodes ++ [n]) := by
  constructor
  · intro i m hm c hc
    rcases Nat.lt_or_ge i nodes.length with hi | hi
    · rw [List.getElem?_append_left hi] at hm
      exact h.below i m hm c hc
    · have hi' : i = nodes.length := by
        obtain ⟨hl, _⟩ := List.getElem?_eq_some_iff.1 hm
        simp at hl
        omega
      subst hi'
      simp at hm
      subst hm
      exact ((h.mem_waiting c).1 (List.mem_append_right _ hc)).1
  · rw [List.flatMap_append, List.flatMap_singleton, List.length_append, List.length_singleton, List.range_succ]
    have hp := h.perm
    calc (w ++ [nodes.length] ++ (nodes.flatMap Node.children ++ n.children)).Perm
          ((w ++ n.children ++ nodes.flatMap Node.children) ++ [nodes.length]) := by
            rw [← Multiset.coe_eq_coe]
            simp only [← Multiset.coe_add]
            abel
      _ |>.Perm (List.range nodes.length ++ [nodes.length]) := hp.append_right _

/-! ### The merge loop (R91, R92) -/

/-- What stays true while pairs are merged, from `base` leaves on: each element of the collection is an entry with
its frequency, every entry waits or is a child, and every entry from `base` on merged the two least. -/
structure Merging (base : Nat) (q : List QItem) (nodes : List Node) : Prop where
  freq_eq : ∀ x ∈ q, ∃ n, nodes[x.idx]? = some n ∧ n.freq = x.freq
  forest : Forest (q.map QItem.idx) nodes
  merges : ∀ j, base ≤ j → j < nodes.length → MergesLeastTwo nodes j

theorem Merging.keyBefore {base : Nat} {q : List QItem} {nodes : List Node} (h : Merging base q nodes) {x y : QItem}
    (hx : x ∈ q) (hy : y ∈ q) (hne : x.idx ≠ y.idx) (hb : y.before x = false) : KeyBefore nodes x.idx y.idx := by
  obtain ⟨m, hm, fm⟩ := h.freq_eq x hx
  obtain ⟨n, hn, fn⟩ := h.freq_eq y hy
  refine ⟨m, n, hm, hn, ?_⟩
  rw [← Bool.not_eq_true, QItem.before_iff] at hb
  rw [fm, fn, BitVec.lt_def, ← BitVec.toNat_inj]
  omega

/-- One merge. -/
theorem Merging.step {base : Nat} {q q1 q2 : List QItem} {nodes : List Node} {t1 t2 : QItem}
    (h : Merging base q nodes) (h1 : takeLeast q = some (t1, q1)) (h2 : takeLeast q1 = some (t2, q2)) :
    Merging base (⟨t1.freq + t2.freq, nodes.length⟩ :: q2)
      (nodes ++ [.internal (t1.freq + t2.freq) t1.idx (some t2.idx)]) := by
  obtain ⟨p1, b1⟩ := takeLeast_spec h1
  obtain ⟨p2, b2⟩ := takeLeast_spec h2
  have hp : (t1 :: t2 :: q2).Perm q := (p2.cons t1).trans p1
  have hm : ∀ {x}, x ∈ t1 :: t2 :: q2 → x ∈ q := fun hx => hp.mem_iff.1 hx
  have hn : ((t1 :: t2 :: q2).map QItem.idx).Nodup :=
    (hp.map QItem.idx).nodup_iff.2 (List.nodup_append.1 h.forest.nodup).1
  simp only [List.map_cons, List.nodup_cons, List.mem_cons, not_or, List.mem_map, not_exists, not_and] at hn
  obtain ⟨⟨hn12, hn1⟩, hn2, -⟩ := hn
  obtain ⟨n1, e1, f1⟩ := h.freq_eq t1 (hm (by simp))
  obtain ⟨n2, e2, f2⟩ := h.freq_eq t2 (hm (by simp))
  refine ⟨?_, ?_, ?_⟩
  · intro x hx
    rcases List.mem_cons.1 hx with rfl | hx
    · exact ⟨.internal (t1.freq + t2.freq) t1.idx (some t2.idx), by simp, rfl⟩
    · obtain ⟨n, e, f⟩ := h.freq_eq x (hm (by simp [hx]))
      exact ⟨n, getElem?_append_some _ e, f⟩
  · have hf : Forest (q2.map QItem.idx ++ Node.children (.internal (t1.freq + t2.freq) t1.idx (some t2.idx))) nodes := by
      refine h.forest.of_perm ?_
      refine List.Perm.trans ?_ (hp.map QItem.idx)
      simp only [Node.children, List.map_cons]
      exact List.perm_append_comm
    refine hf.push.of_perm ?_
    exact List.perm_append_comm (l₁ := [nodes.length])
  · intro j hj hl
    rcases Nat.lt_or_ge j nodes.length with hlt | hge
    · exact (h.merges j hj hlt).append _
    · have hj' : j = nodes.length := by simp at hl; omega
      subst hj'
      have wt : ∀ x ∈ q, Waiting (nodes ++ [.internal (t1.freq + t2.freq) t1.idx (some t2.idx)]) nodes.length x.idx :=
        fun x hx => (Waiting.append _ (Nat.le_refl _)).2 ((h.forest.mem_waiting _).1 (List.mem_map_of_mem hx))
      refine ⟨t1.idx, t2.idx, n1, n2, getElem?_append_some _ e1, getElem?_append_some _ e2, by simp [f1, f2],
        wt t1 (hm (by simp)), wt t2 (hm (by simp)), ?_, ?_⟩
      · refine (h.keyBefore (hm (by simp)) (hm (by simp)) hn12 (b1 t2 (p2.mem_iff.1 (by simp)))).append _
      · intro i hi
        have := (h.forest.mem_waiting i).2 ((Waiting.append _ (Nat.le_refl _)).1 hi)
        obtain ⟨x, hx, rfl⟩ := List.mem_map.1 this
        rcases List.mem_cons.1 (hp.mem_iff.2 hx) with rfl | hx'
        · exact .inl rfl
        · rcases List.mem_cons.1 hx' with rfl | hx'
          · exact .inr (.inl rfl)
          · refine .inr (.inr ((h.keyBefore (hm (by simp)) hx ?_ (b2 x hx')).append _))
            exact fun e => hn2 x hx' e.symm

/-- The whole loop: it ends with one element, after one merge per element but one. -/
theorem mergeLoop_spec {base k : Nat} {q : List QItem} {nodes : List Node} (h : Merging base q nodes)
    (hq : q.length = k + 1) :
    ∃ x more, mergeLoop k q nodes = ([x], nodes ++ more) ∧ more.length = k ∧ (∀ n ∈ more, n.sym? = none) ∧
      Merging base [x] (nodes ++ more) ∧ (0 < k → x.idx = nodes.length + k - 1) := by
  induction k generalizing q nodes with
  | zero =>
    obtain ⟨x, rfl⟩ := List.length_eq_one_iff.1 hq
    exact ⟨x, [], by simp [mergeLoop], rfl, by simp, by simpa using h, by simp⟩
  | succ k ih =>
    obtain ⟨y, q, rfl⟩ : ∃ y q', q = y :: q' := by cases q with
      | nil => simp at hq
      | cons y q' => exact ⟨y, q', rfl⟩
    obtain ⟨t1, q1, h1⟩ := takeLeast_cons y q
    have l1 := (takeLeast_spec h1).1.length_eq
    obtain ⟨z, q1', rfl⟩ : ∃ z q', q1 = z :: q' := by cases q1 with
      | nil => simp only [List.length_cons, List.length_nil] at l1 hq; omega
      | cons z q' => exact ⟨z, q', rfl⟩
    obtain ⟨t2, q2, h2⟩ := takeLeast_cons z q1'
    have l2 := (takeLeast_spec h2).1.length_eq
    have hs := h.step h1 h2
    obtain ⟨x, more, e, hl, hn, hm, hx⟩ := ih hs (by simp at l1 l2 hq ⊢; omega)
    refine ⟨x, _ :: more, ?_, by simp [hl], ?_, by simpa using hm, ?_⟩
    · simp only [mergeLoop, h1, h2, e, List.append_assoc, List.singleton_append]
    · intro n hn'
      rcases List.mem_cons.1 hn' with rfl | hn'
      · rfl
      · exact hn n hn'
    · intro _
      by_cases hk : 0 < k
      · have := hx hk; simp at this; omega
      · have hk0 : k = 0 := by omega
        subst hk0
        have hm0 : more = [] := by simpa using hl
        subst hm0
        simp only [mergeLoop, Prod.mk.injEq, List.cons.injEq] at e
        rw [← e.1.1]
        simp

/-! ### The tree of a frequency table (R91) -/

theorem ftLeaves_getElem? {ft : List FtEntry} {i : Nat} {e : FtEntry} (h : ft[i]? = some e) :
    (ftLeaves ft)[i]? = some (.leaf e.sym e.count) := by simp [ftLeaves, h]

theorem ftLeaves_children (ft : List FtEntry) : (ftLeaves ft).flatMap Node.children = [] := by
  simp [ftLeaves, List.flatMap_map, Node.children]

theorem ftLeaves_syms (ft : List FtEntry) : (ftLeaves ft).filterMap Node.sym? = ft.map FtEntry.sym := by
  simp [ftLeaves, List.filterMap_map, Function.comp_def, Node.sym?]

/-- The collection of leaves, before the first merge. -/
theorem Merging.leaves (ft : List FtEntry) :
    Merging ft.length (ft.mapIdx fun i e => (⟨e.count, i⟩ : QItem)) (ftLeaves ft) := by
  refine ⟨?_, ⟨?_, ?_⟩, ?_⟩
  · intro x hx
    obtain ⟨i, hi, rfl⟩ := List.mem_mapIdx.1 hx
    exact ⟨_, ftLeaves_getElem? (List.getElem?_eq_getElem hi), rfl⟩
  · intro i n hn c hc
    have : n ∈ ftLeaves ft := List.mem_of_getElem? hn
    simp only [ftLeaves, List.mem_map] at this
    obtain ⟨e, -, rfl⟩ := this
    simp [Node.children] at hc
  · rw [ftLeaves_children, List.append_nil]
    have : (ft.mapIdx fun i e => (⟨e.count, i⟩ : QItem)).map QItem.idx = List.range (ftLeaves ft).length := by
      apply List.ext_getElem
      · simp [ftLeaves]
      · intro i h1 h2
        simp
    rw [this]
  · intro j h1 h2
    simp [ftLeaves] at h2
    omega

/-- The tree of two or more entries: the leaves in order, one merge per entry but one, and the last merge at the
root. -/
theorem buildTree_spec {ft : List FtEntry} (h : 2 ≤ ft.length) :
    ∃ x more, buildTree ft = ⟨ftLeaves ft ++ more, some (2 * ft.length - 2)⟩ ∧ more.length = ft.length - 1 ∧
      (∀ n ∈ more, n.sym? = none) ∧ x.idx = 2 * ft.length - 2 ∧
      Merging ft.length [x] (ftLeaves ft ++ more) := by
  have hq : (ft.mapIdx fun i e => (⟨e.count, i⟩ : QItem)).length = (ft.length - 1) + 1 := by simp; omega
  obtain ⟨x, more, e, hl, hn, hm, hx⟩ := mergeLoop_spec (Merging.leaves ft) hq
  have hxi : x.idx = 2 * ft.length - 2 := by
    have := hx (by omega)
    simp [ftLeaves] at this
    omega
  refine ⟨x, more, ?_, hl, hn, hxi, hm⟩
  match ft, h, e with
  | a :: b :: rest, _, e =>
    simp only [buildTree, e, List.head?_cons, Option.map_some, hxi]

theorem MergesLeastTwo.internal {nodes : List Node} {j : Nat} (h : MergesLeastTwo nodes j) :
    ∃ f l c, nodes[j]? = some (.internal f l c) := by
  obtain ⟨a, b, m, n, -, -, h3, -⟩ := h
  exact ⟨_, _, _, h3⟩

/-- A forest whose one waiting entry is the last is a tree (R42, R43). -/
theorem Tree.Ok.of_forest {nodes : List Node} {r : Nat} (hf : Forest [r] nodes) (hr : r + 1 = nodes.length)
    (hi : ∃ f l c, nodes[r]? = some (.internal f l c)) (hd : (nodes.filterMap Node.sym?).Nodup) :
    Tree.Ok ⟨nodes, some r⟩ := by
  have hne : nodes ≠ [] := by rintro rfl; simp at hr
  refine ⟨?_, ?_, hf.below, ?_, hd⟩
  · simp [hne]; omega
  · rintro r' h
    cases h
    exact hi
  · have hp := hf.perm
    rw [← hr, List.range_succ] at hp
    have h2 : (List.range r ++ [r]).Perm ([r] ++ List.range r) := List.perm_append_comm
    have := (List.perm_append_left_iff [r]).1 (hp.trans h2)
    rw [show nodes.length - 1 = r by omega]
    exact this

theorem Tree.Ok.null : Tree.Ok ⟨[], none⟩ := by
  refine ⟨rfl, ?_, ?_, ?_, ?_⟩ <;> simp

/-- TB_BUILD builds a tree, when no symbol stands twice in the table. -/
theorem buildTree_ok {ft : List FtEntry} (h : (ft.map FtEntry.sym).Nodup) : (buildTree ft).Ok := by
  match ft, h with
  | [], _ => exact Tree.Ok.null
  | [e], _ =>
    refine Tree.Ok.of_forest ⟨?_, ?_⟩ rfl ⟨_, _, _, rfl⟩ (by simp [List.filterMap_cons, Node.sym?])
    · intro i n hn c hc
      match i, hn with
      | 0, hn => simp at hn; subst hn; simp [Node.children] at hc
      | 1, hn => simp at hn; subst hn; simp [Node.children] at hc; omega
    · exact List.Perm.swap 0 1 []
  | a :: b :: rest, h =>
    have h2 : 2 ≤ (a :: b :: rest).length := by simp
    generalize a :: b :: rest = ft at h h2
    obtain ⟨x, more, e, hl, hn, hx, hm⟩ := buildTree_spec h2
    rw [e]
    have hlen : (ftLeaves ft ++ more).length = 2 * ft.length - 1 := by simp [ftLeaves, hl]; omega
    refine Tree.Ok.of_forest (by simpa [hx] using hm.forest) (by omega) ?_ ?_
    · exact (hm.merges _ (by omega) (by omega)).internal
    · rw [List.filterMap_append, ftLeaves_syms]
      have : more.filterMap Node.sym? = [] := by simpa using hn
      rw [this, List.append_nil]
      exact h

theorem buildTree_length (ft : List FtEntry) : (buildTree ft).nodes.length ≤ max 2 (2 * ft.length - 1) := by
  match ft with
  | [] => simp [buildTree]
  | [e] => simp [buildTree]
  | a :: b :: rest =>
    have h2 : 2 ≤ (a :: b :: rest).length := by simp
    generalize a :: b :: rest = ft at h2
    obtain ⟨x, more, e, hl, -⟩ := buildTree_spec h2
    rw [e]
    simp [ftLeaves, hl]
    omega

end Sys2Proof.Machine
end

