-- ==== Sys2Proof/Laws/CodeTable.lean ====
section
/-! SUPPORT. Paths in a tree, the walk of CT_BUILD, and the map it fills. -/

namespace Sys2Proof.Machine

/-! ### Paths by index -/

/-- The index of the entry a path of descents reaches from entry `i` (R44). -/
def Tree.reachIdx (t : Tree) : Nat → Code → Option Nat
  | i, [] => some i
  | i, b :: bs =>
    match (t.nodes[i]?).bind (Node.child b) with
    | none => none
    | some j => t.reachIdx j bs

theorem Tree.reach_eq (t : Tree) (i : Nat) (c : Code) : t.reach i c = (t.reachIdx i c).bind fun j => t.nodes[j]? := by
  induction c generalizing i with
  | nil => rfl
  | cons b bs ih =>
    simp only [Tree.reach, Tree.reachIdx]
    cases t.nodes[i]? with
    | none => rfl
    | some n =>
      simp only [Option.bind_some]
      cases n.child b with
      | none => rfl
      | some j => exact ih j

theorem Tree.reachIdx_append (t : Tree) (i : Nat) (c d : Code) :
    t.reachIdx i (c ++ d) = (t.reachIdx i c).bind fun j => t.reachIdx j d := by
  induction c generalizing i with
  | nil => rfl
  | cons b bs ih =>
    simp only [List.cons_append, Tree.reachIdx]
    cases (t.nodes[i]?).bind (Node.child b) with
    | none => rfl
    | some j => exact ih j

theorem Node.child_mem {n : Node} {b : Bool} {c : Nat} (h : n.child b = some c) : c ∈ n.children := by
  cases n with
  | leaf x f => simp [Node.child] at h
  | internal f l r =>
    cases b with
    | false => simp [Node.child] at h; subst h; cases r <;> simp [Node.children]
    | true => simp [Node.child] at h; subst h; simp [Node.children]

theorem Node.child_inj {n : Node} {a b : Bool} {c : Nat} (hn : n.children.Nodup) (ha : n.child a = some c)
    (hb : n.child b = some c) : a = b := by
  cases n with
  | leaf x f => simp [Node.child] at ha
  | internal f l r =>
    cases a <;> cases b <;> simp [Node.child] at ha hb <;> try rfl
    all_goals subst ha; subst hb; simp [Node.children] at hn

/-! ### Facts of a tree (R42, R43) -/

variable {t : Tree}

theorem Tree.Ok.children_nodup (h : t.Ok) : (t.nodes.flatMap Node.children).Nodup :=
  h.owned.nodup_iff.2 List.nodup_range

theorem Tree.Ok.root_last (h : t.Ok) {r : Nat} (hr : t.root = some r) : r + 1 = t.nodes.length := by
  have := h.root_eq
  rw [hr] at this
  split at this
  · cases this
  · next hne =>
    have hl : t.nodes.length ≠ 0 := by simpa using hne
    have := Option.some.inj this
    omega

theorem Tree.Ok.child_lt_root (h : t.Ok) {i c : Nat} {n : Node} (hn : t.nodes[i]? = some n) (hc : c ∈ n.children) :
    c < t.nodes.length - 1 := by
  have : c ∈ t.nodes.flatMap Node.children := List.mem_flatMap.2 ⟨n, List.mem_of_getElem? hn, hc⟩
  simpa using h.owned.mem_iff.1 this

/-- No entry is the child of two entries, nor twice of one. -/
theorem Tree.Ok.parent_unique (h : t.Ok) {i j c : Nat} {m n : Node} (hi : t.nodes[i]? = some m)
    (hj : t.nodes[j]? = some n) (hm : c ∈ m.children) (hn : c ∈ n.children) : i = j := by
  have hd := (List.nodup_flatMap.1 h.children_nodup).2
  obtain ⟨hil, rfl⟩ := List.getElem?_eq_some_iff.1 hi
  obtain ⟨hjl, rfl⟩ := List.getElem?_eq_some_iff.1 hj
  rw [List.pairwise_iff_getElem] at hd
  by_contra hne
  rcases Nat.lt_or_gt_of_ne hne with hlt | hlt
  · exact List.disjoint_left.1 (hd i j hil hjl hlt) hm hn
  · exact List.disjoint_left.1 (hd j i hjl hil hlt) hn hm

theorem Tree.Ok.node_nodup (h : t.Ok) {i : Nat} {n : Node} (hi : t.nodes[i]? = some n) : n.children.Nodup :=
  (List.nodup_flatMap.1 h.children_nodup).1 n (List.mem_of_getElem? hi)

theorem reachIdx_snoc {i j : Nat} {c : Code} {b : Bool} (h : t.reachIdx i (c ++ [b]) = some j) :
    ∃ k n, t.reachIdx i c = some k ∧ t.nodes[k]? = some n ∧ n.child b = some j := by
  rw [Tree.reachIdx_append] at h
  obtain ⟨k, hk, h⟩ := Option.bind_eq_some_iff.1 h
  simp only [Tree.reachIdx] at h
  cases hn : t.nodes[k]? with
  | none => simp [hn] at h
  | some n =>
    rw [hn] at h
    simp only [Option.bind_some] at h
    cases hc : n.child b with
    | none => simp [hc] at h
    | some j' => simp [hc] at h; subst h; exact ⟨k, n, hk, hn, hc⟩

/-- Two paths from the root to one entry are one path. -/
theorem Tree.Ok.path_unique (h : t.Ok) {r j : Nat} (hr : t.root = some r) {c d : Code}
    (hc : t.reachIdx r c = some j) (hd : t.reachIdx r d = some j) : c = d := by
  have hrl := h.root_last hr
  induction c using List.reverseRecOn generalizing j d with
  | nil =>
    cases hc
    rcases List.eq_nil_or_concat d with rfl | ⟨d, b, rfl⟩
    · rfl
    · rw [List.concat_eq_append] at hd
      obtain ⟨k, n, -, hn, hb⟩ := reachIdx_snoc hd
      have := h.child_lt_root hn (Node.child_mem hb)
      omega
  | append_singleton c b ih =>
    obtain ⟨k, n, hk, hn, hb⟩ := reachIdx_snoc hc
    rcases List.eq_nil_or_concat d with rfl | ⟨d, b', rfl⟩
    · cases hd
      have := h.child_lt_root hn (Node.child_mem hb)
      omega
    · rw [List.concat_eq_append] at hd ⊢
      obtain ⟨k', n', hk', hn', hb'⟩ := reachIdx_snoc hd
      have hkk := h.parent_unique hn hn' (Node.child_mem hb) (Node.child_mem hb')
      subst hkk
      rw [hn] at hn'
      cases hn'
      rw [ih hk hk', Node.child_inj (h.node_nodup hn) hb hb']

/-- A symbol has at most one leaf. -/
theorem Tree.Ok.leaf_unique (h : t.Ok) {i j : Nat} {x f g : Word} (hi : t.nodes[i]? = some (.leaf x f))
    (hj : t.nodes[j]? = some (.leaf x g)) : i = j := by
  have key : ∀ (ns : List Node) (i j : Nat), (ns.filterMap Node.sym?).Nodup → ns[i]? = some (.leaf x f) →
      ns[j]? = some (.leaf x g) → i = j := by
    intro ns
    induction ns with
    | nil => intro i j _ hi; simp at hi
    | cons n ns ih =>
      intro i j hd hi hj
      have out : ∀ {k : Nat} {a b : Word}, (Node.leaf x a :: ns).filterMap Node.sym? |>.Nodup →
          ns[k]? = some (.leaf x b) → False := by
        intro k a b hd hk
        rw [List.filterMap_cons] at hd
        simp only [Node.sym?, List.nodup_cons] at hd
        exact hd.1 (List.mem_filterMap.2 ⟨.leaf x b, List.mem_of_getElem? hk, rfl⟩)
      cases i with
      | zero =>
        have hn : n = .leaf x f := by simpa using hi
        cases j with
        | zero => rfl
        | succ j => rw [hn] at hd; exact (out hd (by simpa using hj)).elim
      | succ i =>
        have hi' : ns[i]? = some (.leaf x f) := by simpa using hi
        cases j with
        | zero =>
          have hn : n = .leaf x g := by simpa using hj
          rw [hn] at hd
          exact (out hd hi').elim
        | succ j =>
          have hd' : (ns.filterMap Node.sym?).Nodup := by
            rw [List.filterMap_cons] at hd
            split at hd
            · exact hd
            · exact (List.nodup_cons.1 hd).2
          rw [ih i j hd' hi' (by simpa using hj)]
  exact key _ i j h.distinct hi hj

theorem Tree.IsCode.iff {x : Word} {c : Code} :
    t.IsCode x c ↔ ∃ r j f, t.root = some r ∧ t.reachIdx r c = some j ∧ t.nodes[j]? = some (.leaf x f) := by
  unfold Tree.IsCode
  constructor
  · rintro ⟨r, f, hr, h⟩
    rw [Tree.reach_eq] at h
    obtain ⟨j, hj, h⟩ := Option.bind_eq_some_iff.1 h
    exact ⟨r, j, f, hr, hj, h⟩
  · rintro ⟨r, j, f, hr, hj, h⟩
    exact ⟨r, f, hr, by rw [Tree.reach_eq, hj]; exact h⟩

/-- A symbol has at most one code. -/
theorem Tree.Ok.code_unique (h : t.Ok) {x : Word} {c d : Code} (hc : t.IsCode x c) (hd : t.IsCode x d) : c = d := by
  obtain ⟨r, j, f, hr, hj, hl⟩ := Tree.IsCode.iff.1 hc
  obtain ⟨r', j', f', hr', hj', hl'⟩ := Tree.IsCode.iff.1 hd
  rw [hr] at hr'
  cases hr'
  have := h.leaf_unique hl hl'
  subst this
  exact h.path_unique hr hj hj'

/-- A code has a bit: the root is no leaf (R43). -/
theorem Tree.Ok.code_ne_nil (h : t.Ok) {x : Word} {c : Code} (hc : t.IsCode x c) : c ≠ [] := by
  rintro rfl
  obtain ⟨r, j, f, hr, hj, hl⟩ := Tree.IsCode.iff.1 hc
  cases hj
  obtain ⟨f', l, c, hi⟩ := h.root_internal r hr
  rw [hl] at hi
  cases hi

/-- A code that starts another is that other: a leaf has no child (R95). -/
theorem Tree.IsCode.eq_of_append {x y : Word} {c d : Code} (hc : t.IsCode x c) (hd : t.IsCode y (c ++ d)) :
    d = [] ∧ x = y := by
  obtain ⟨r, j, f, hr, hj, hl⟩ := Tree.IsCode.iff.1 hc
  obtain ⟨r', j', f', hr', hj', hl'⟩ := Tree.IsCode.iff.1 hd
  rw [hr] at hr'
  cases hr'
  rw [Tree.reachIdx_append, hj, Option.bind_some] at hj'
  cases d with
  | nil =>
    cases hj'
    rw [hl] at hl'
    cases hl'
    exact ⟨rfl, rfl⟩
  | cons b d => simp [Tree.reachIdx, hl, Node.child] at hj'

/-! ### The walk (R94) -/

/-- The walk from entry `i` lists the leaves below it with their paths, when `look` reads the tree's entries. -/
theorem mem_walkCodes (h : t.Ok) {look : Nat → Node} (hl : ∀ (k : Nat) (n : Node), t.nodes[k]? = some n → look k = n)
    {depth i : Nat} (hd : i < depth) (hi : i < t.nodes.length) (path : Code) (x : Word) (c : Code) :
    (x, c) ∈ walkCodes look depth i path ↔
      ∃ d j f, c = path ++ d ∧ t.reachIdx i d = some j ∧ t.nodes[j]? = some (.leaf x f) := by
  induction depth generalizing i path with
  | zero => omega
  | succ depth ih =>
    have hn : t.nodes[i]? = some t.nodes[i] := List.getElem?_eq_getElem hi
    have step : ∀ b (k : Nat), t.nodes[i].child b = some k →
        ((x, c) ∈ walkCodes look depth k (path ++ [b]) ↔
          ∃ d j f, c = path ++ b :: d ∧ t.reachIdx i (b :: d) = some j ∧ t.nodes[j]? = some (.leaf x f)) := by
      intro b k hk
      have h1 := h.below i _ hn k (Node.child_mem hk)
      rw [ih (by omega) (by omega) (path ++ [b])]
      simp only [Tree.reachIdx, hn, Option.bind_some, hk, List.append_assoc, List.singleton_append]
    have split : (∃ d j f, c = path ++ d ∧ t.reachIdx i d = some j ∧ t.nodes[j]? = some (.leaf x f)) ↔
        (c = path ∧ ∃ f, t.nodes[i] = .leaf x f) ∨
        (∃ d j f, c = path ++ false :: d ∧ t.reachIdx i (false :: d) = some j ∧ t.nodes[j]? = some (.leaf x f)) ∨
        (∃ d j f, c = path ++ true :: d ∧ t.reachIdx i (true :: d) = some j ∧ t.nodes[j]? = some (.leaf x f)) := by
      constructor
      · rintro ⟨d, j, f, hc, hj, hx⟩
        cases d with
        | nil =>
          cases hj
          rw [hn] at hx
          exact .inl ⟨by simpa using hc, f, by simpa using hx⟩
        | cons b d =>
          cases b
          · exact .inr (.inl ⟨d, j, f, hc, hj, hx⟩)
          · exact .inr (.inr ⟨d, j, f, hc, hj, hx⟩)
      · rintro (⟨rfl, f, hf⟩ | ⟨d, j, f, hc, hj, hx⟩ | ⟨d, j, f, hc, hj, hx⟩)
        · exact ⟨[], i, f, by simp, rfl, by rw [hn, hf]⟩
        · exact ⟨_, j, f, hc, hj, hx⟩
        · exact ⟨_, j, f, hc, hj, hx⟩
    have none_at : ∀ b, t.nodes[i].child b = none →
        ¬ ∃ d j f, c = path ++ b :: d ∧ t.reachIdx i (b :: d) = some j ∧ t.nodes[j]? = some (.leaf x f) := by
      rintro b hb ⟨d, j, f, -, hj, -⟩
      simp [Tree.reachIdx, hn, hb] at hj
    rw [split]
    simp only [walkCodes, hl i _ hn]
    cases hni : t.nodes[i] with
    | leaf y g =>
      have f1 := none_at false (by rw [hni]; rfl)
      have f2 := none_at true (by rw [hni]; rfl)
      simp only [List.mem_singleton, Prod.mk.injEq, Node.leaf.injEq, f1, f2, or_false]
      constructor
      · rintro ⟨rfl, rfl⟩; exact ⟨rfl, g, rfl, rfl⟩
      · rintro ⟨rfl, f, rfl, rfl⟩; exact ⟨rfl, rfl⟩
    | internal f l r =>
      have s1 := step false l (by rw [hni]; rfl)
      cases r with
      | none =>
        have f2 := none_at true (by rw [hni]; rfl)
        simp only [s1, f2, or_false, reduceCtorEq, exists_false, and_false, false_or]
      | some r =>
        have s2 := step true r (by rw [hni]; rfl)
        simp only [List.mem_append, s1, s2, reduceCtorEq, exists_false, and_false, false_or]

/-! ### The map (R44, R94) -/

theorem codeTableOf_append (codes : List (Word × Code)) (p : Word × Code) :
    codeTableOf (codes ++ [p]) = Assoc.put p.1.toNat p.2 (codeTableOf codes) := by
  simp [codeTableOf]

theorem codeTableOf_wf (codes : List (Word × Code)) : Assoc.wf (codeTableOf codes) = true := by
  induction codes using List.reverseRecOn with
  | nil => rfl
  | append_singleton codes p ih => rw [codeTableOf_append]; exact Assoc.put_wf _ _ ih

theorem mem_codeTableOf {codes : List (Word × Code)} {k : Nat} {c : Code} (h : (k, c) ∈ codeTableOf codes) :
    k < 2 ^ 32 := by
  induction codes using List.reverseRecOn with
  | nil => simp [codeTableOf] at h
  | append_singleton codes p ih =>
    rw [codeTableOf_append] at h
    rcases Assoc.mem_put h with h | h
    · simp at h; rw [h]; exact p.1.isLt
    · exact ih h

/-- When no symbol has two codes in the list, the map is the list. -/
theorem codeTableOf_code? {codes : List (Word × Code)}
    (hu : ∀ x c d, (x, c) ∈ codes → (x, d) ∈ codes → c = d) (x : Word) (c : Code) :
    (codeTableOf codes).code? x = some c ↔ (x, c) ∈ codes := by
  induction codes using List.reverseRecOn with
  | nil => simp [codeTableOf, CodeTable.code?]
  | append_singleton codes p ih =>
    have ih := ih fun x c d h1 h2 => hu x c d (by simp [h1]) (by simp [h2])
    obtain ⟨y, d⟩ := p
    rw [codeTableOf_append, CodeTable.code?, Assoc.get?_put]
    by_cases hx : x = y
    · subst hx
      simp only [if_true, Option.some.injEq]
      constructor
      · rintro rfl; simp
      · intro h; exact hu x d c (by simp) h
    · have : x.toNat ≠ y.toNat := fun e => hx (BitVec.eq_of_toNat_eq e)
      rw [if_neg this]
      have ih' : Assoc.get? x.toNat (codeTableOf codes) = some c ↔ (x, c) ∈ codes := ih
      rw [ih']
      simp [hx]

/-- The walk of a whole tree fills the map with its codes. -/
theorem walk_code? (h : t.Ok) {look : Nat → Node} (hl : ∀ (k : Nat) (n : Node), t.nodes[k]? = some n → look k = n)
    {r : Nat} (hr : t.root = some r) (x : Word) (c : Code) :
    (codeTableOf (walkCodes look t.nodes.length r [])).code? x = some c ↔ t.IsCode x c := by
  have hrl := h.root_last hr
  have hm : ∀ x c, (x, c) ∈ walkCodes look t.nodes.length r [] ↔ t.IsCode x c := by
    intro x c
    rw [mem_walkCodes h hl (by omega) (by omega), Tree.IsCode.iff]
    constructor
    · rintro ⟨d, j, f, hc, hj, hx⟩
      exact ⟨r, j, f, hr, by simpa [hc] using hj, hx⟩
    · rintro ⟨r', j, f, hr', hj, hx⟩
      rw [hr] at hr'
      cases hr'
      exact ⟨c, j, f, rfl, hj, hx⟩
  rw [codeTableOf_code?, hm]
  intro x c d h1 h2
  exact h.code_unique ((hm x c).1 h1) ((hm x d).1 h2)

theorem Tree.look_eq (t : Tree) (k : Nat) (n : Node) (h : t.nodes[k]? = some n) : t.look k = n := by
  simp [Tree.look, h]

theorem State.nodeAt_eq (s : State) (t : Tree) (k : Nat) (n : Node) (h : t.nodes[k]? = some n) :
    s.nodeAt t k = n := by
  simp [State.nodeAt, h]

/-- A walk below the root reads allocated entries only, so it does not matter how others are read. -/
theorem walkCodes_congr (h : t.Ok) {look look' : Nat → Node}
    (hl : ∀ (k : Nat) (n : Node), t.nodes[k]? = some n → look k = n)
    (hl' : ∀ (k : Nat) (n : Node), t.nodes[k]? = some n → look' k = n)
    {depth i : Nat} (hi : i < t.nodes.length) (path : Code) :
    walkCodes look depth i path = walkCodes look' depth i path := by
  induction depth generalizing i path with
  | zero => rfl
  | succ depth ih =>
    have hn : t.nodes[i]? = some t.nodes[i] := List.getElem?_eq_getElem hi
    have hb := fun c hc => Nat.lt_trans (h.below i _ hn c hc) hi
    simp only [walkCodes, hl i _ hn, hl' i _ hn]
    cases hni : t.nodes[i] with
    | leaf y g => rfl
    | internal f l r =>
      rw [hni] at hb
      cases r with
      | none => exact ih (hb l (by simp [Node.children])) _
      | some r =>
        simp only
        rw [ih (hb l (by simp [Node.children])), ih (hb r (by simp [Node.children]))]

/-- The code table CT_BUILD makes of a tree. -/
theorem State.treeCodes_eq {s : State} (hs : s.tree = some t) (h : t.Ok) : s.treeCodes = t.codes := by
  have e : s.treeOrNull = t := by simp [State.treeOrNull, hs]
  simp only [State.treeCodes, Tree.codes, State.nodeCount, e]
  cases hr : t.root with
  | none => rfl
  | some r =>
    have := h.root_last hr
    simp only
    rw [walkCodes_congr h (State.nodeAt_eq s t) (Tree.look_eq t) (by omega)]

/-- The code table of a tree holds exactly its codes. -/
theorem Tree.Ok.codes_code? (h : t.Ok) (x : Word) (c : Code) : t.codes.code? x = some c ↔ t.IsCode x c := by
  unfold Tree.codes
  cases hr : t.root with
  | none =>
    simp only [CodeTable.code?, Assoc.get?_nil, reduceCtorEq, false_iff]
    rintro ⟨r, f, hr', -⟩
    rw [hr] at hr'
    cases hr'
  | some r => exact walk_code? h (Tree.look_eq t) hr x c

/-- Every entry of a tree is reached from the root. -/
theorem Tree.Ok.reach_all (h : t.Ok) {r : Nat} (hr : t.root = some r) {j : Nat} (hj : j < t.nodes.length) :
    ∃ c, t.reachIdx r c = some j := by
  have hrl := h.root_last hr
  induction hd : r - j using Nat.strong_induction_on generalizing j with
  | _ d ih =>
    by_cases hjr : j = r
    · exact ⟨[], by rw [hjr]; rfl⟩
    · have : j ∈ t.nodes.flatMap Node.children := h.owned.mem_iff.2 (by simp; omega)
      obtain ⟨n, hn, hc⟩ := List.mem_flatMap.1 this
      obtain ⟨k, hk, rfl⟩ := List.getElem_of_mem hn
      have hlt := h.below k _ (List.getElem?_eq_getElem hk) j hc
      obtain ⟨c, hcc⟩ := ih (r - k) (by omega) hk rfl
      have hb : ∃ b, t.nodes[k].child b = some j := by
        cases hnk : t.nodes[k] with
        | leaf x f => rw [hnk] at hc; simp [Node.children] at hc
        | internal f l rr =>
          rw [hnk] at hc
          cases rr with
          | none => simp [Node.children] at hc; exact ⟨false, by simp [Node.child, hc]⟩
          | some rr =>
            simp [Node.children] at hc
            rcases hc with rfl | rfl
            · exact ⟨false, rfl⟩
            · exact ⟨true, rfl⟩
      obtain ⟨b, hb⟩ := hb
      refine ⟨c ++ [b], ?_⟩
      rw [Tree.reachIdx_append, hcc]
      simp [Tree.reachIdx, hk, hb]

/-- Every symbol of a tree has a code. -/
theorem Tree.Ok.code_of_sym (h : t.Ok) {x : Word} (hx : x ∈ t.nodes.filterMap Node.sym?) : ∃ c, t.IsCode x c := by
  obtain ⟨n, hn, hs⟩ := List.mem_filterMap.1 hx
  obtain ⟨j, hj, rfl⟩ := List.getElem_of_mem hn
  cases hr : t.root with
  | none =>
    have := h.root_eq
    rw [hr] at this
    split at this
    · next hh => rw [hh] at hj; simp at hj
    · cases this
  | some r =>
    obtain ⟨c, hc⟩ := h.reach_all hr hj
    refine ⟨c, Tree.IsCode.iff.2 ?_⟩
    cases hnj : t.nodes[j] with
    | leaf y f =>
      rw [hnj] at hs
      simp [Node.sym?] at hs
      subst hs
      exact ⟨r, j, f, hr, hc, by rw [List.getElem?_eq_getElem hj, hnj]⟩
    | internal f l rr => rw [hnj] at hs; simp [Node.sym?] at hs

/-! ### The tree of a sequence -/

theorem freqTable_syms (xs : List Word) : (freqTable xs).map FtEntry.sym = firstSeen xs := by
  simp [freqTable, Function.comp_def]

theorem huffTree_ok (xs : List Word) : (huffTree xs).Ok :=
  buildTree_ok (by rw [freqTable_syms]; exact firstSeen_nodup xs)

/-- The leaves of a sequence's tree are its symbols. -/
theorem mem_huffTree_syms {xs : List Word} {x : Word} :
    x ∈ (huffTree xs).nodes.filterMap Node.sym? ↔ x ∈ xs := by
  have hm : x ∈ xs ↔ x ∈ (freqTable xs).map FtEntry.sym := by simp [freqTable_syms]
  rw [hm, huffTree]
  generalize freqTable xs = ft
  match ft with
  | [] => simp [buildTree]
  | [e] => simp [buildTree, List.filterMap_cons, Node.sym?]
  | a :: b :: rest =>
    have h2 : 2 ≤ (a :: b :: rest).length := by simp
    generalize a :: b :: rest = ft at h2
    obtain ⟨x, more, e, hl, hn, -⟩ := buildTree_spec h2
    rw [e, List.filterMap_append, ftLeaves_syms]
    have : more.filterMap Node.sym? = [] := by simpa using hn
    rw [this, List.append_nil]

/-- Every symbol of a sequence has a code in its tree. -/
theorem huffTree_code {xs : List Word} {x : Word} (hx : x ∈ xs) : ∃ c, (huffTree xs).codes.code? x = some c := by
  obtain ⟨c, hc⟩ := (huffTree_ok xs).code_of_sym (mem_huffTree_syms.2 hx)
  exact ⟨c, ((huffTree_ok xs).codes_code? x c).2 hc⟩

end Sys2Proof.Machine
end

