-- ==== Sys2Proof/Laws/Frames.lean ====
section
/-! SUPPORT. What the body of each command may change, whether or not a raise stops it, and that every raise
names an error kind. -/

namespace Sys2Proof.Machine

/-! ### Frames of the shared operations -/

/-- Only OUT_LEN and OUT_MEM changed. -/
def EmitFrame (s t : State) : Prop := t = { s with outLen := t.outLen, outMem := t.outMem }

/-- Only OUT_LEN, OUT_MEM and the writer's bits changed. -/
def WriteFrame (s t : State) : Prop :=
  t = { s with
    outLen := t.outLen, outMem := t.outMem, bwAcc := t.bwAcc, bwNbits := t.bwNbits, bitCount := t.bitCount }

/-- Only SYM_MEM, SYM_COUNT and BR_BITPOS changed. -/
def DecodeFrame (s t : State) : Prop :=
  t = { s with symMem := t.symMem, symCount := t.symCount, brBitPos := t.brBitPos }

theorem EmitFrame.refl (s : State) : EmitFrame s s := rfl
theorem EmitFrame.trans {s t u : State} (h : EmitFrame s t) (g : EmitFrame t u) : EmitFrame s u := by
  unfold EmitFrame at *; rw [g, h]
theorem EmitFrame.write {s t : State} (h : EmitFrame s t) : WriteFrame s t := by
  unfold EmitFrame at h; unfold WriteFrame; rw [h]
theorem WriteFrame.refl (s : State) : WriteFrame s s := rfl
theorem WriteFrame.trans {s t u : State} (h : WriteFrame s t) (g : WriteFrame t u) : WriteFrame s u := by
  unfold WriteFrame at *; rw [g, h]
theorem DecodeFrame.refl (s : State) : DecodeFrame s s := rfl
theorem DecodeFrame.trans {s t u : State} (h : DecodeFrame s t) (g : DecodeFrame t u) : DecodeFrame s u := by
  unfold DecodeFrame at *; rw [g, h]

theorem emitByte_frame (v : Byte) (s : State) : EmitFrame s (emitByte v s).state := by
  rcases emitByte_cases v s with ⟨_, h⟩ | ⟨_, h⟩ <;> rw [h] <;> rfl

theorem emitBytes_frame (bs : List Byte) (s : State) : EmitFrame s (emitBytes bs s).state := by
  induction bs generalizing s with
  | nil => exact .refl s
  | cons v vs ih =>
    exact Ran.andThen_keeps (P := EmitFrame s) (emitByte_frame v s) fun t h => h.trans (ih t)

theorem writeBit_frame (b : Bool) (s : State) : WriteFrame s (writeBit b s).state := by
  unfold writeBit
  split
  · exact Ran.andThen_keeps (P := WriteFrame s) (emitByte_frame _ s).write fun t h => h.trans rfl
  · rfl

theorem writeBits_frame (bs : List Bool) (s : State) : WriteFrame s (writeBits bs s).state := by
  induction bs generalizing s with
  | nil => exact .refl s
  | cons b bs ih =>
    exact Ran.andThen_keeps (P := WriteFrame s) (writeBit_frame b s) fun t h => h.trans (ih t)

theorem readBit_state (s : State) : (readBit s).state = s.skipBits ((readBit s).state.brBitPos - s.brBitPos) := by
  rcases readBit_cases s with ⟨_, h⟩ | ⟨_, h⟩ <;> rw [h] <;> simp [raise, State.skipBits]

theorem readBit_frame (s : State) : DecodeFrame s (readBit s).state := by
  rcases readBit_cases s with ⟨_, h⟩ | ⟨_, h⟩ <;> rw [h] <;> rfl

/-! ### Every raise names a kind -/

/-- A raise of `x` has a kind other than NONE (R122). -/
def Ran.Kinded {α : Type} (x : Ran α) : Prop := ∀ r s, x = .raised r s → r.kind ≠ .none

section
variable {α β : Type}

theorem Ran.kinded_ok (a : α) (s : State) : (Ran.ok a s).Kinded := by intro r t h; cases h

theorem Ran.kinded_raised {r : Raise} (h : r.kind ≠ .none) (s : State) : (Ran.raised r s : Ran α).Kinded := by
  intro r' t h'; cases h'; exact h

theorem Ran.kinded_raise {k : ErrKind} (h : k ≠ .none) (n : Nat) (s : State) : (raise k n s : Ran α).Kinded :=
  Ran.kinded_raised h s

theorem Ran.Kinded.bind {x : Ran α} {f : α → State → Ran β} (hx : x.Kinded) (hf : ∀ a s, (f a s).Kinded) :
    (x.bind f).Kinded := by
  cases x with
  | ok a s => exact hf a s
  | raised r s => exact Ran.kinded_raised (hx r s rfl) s

theorem Ran.Kinded.andThen {x : Ran α} {f : State → Ran β} (hx : x.Kinded) (hf : ∀ s, (f s).Kinded) :
    (x.andThen f).Kinded := hx.bind fun _ s => hf s

/-- An exception of `x` has a kind other than NONE. -/
def ExceptKinded (x : Except Raise α) : Prop := ∀ r, x = .error r → r.kind ≠ .none

theorem Ran.kinded_ofExcept {x : Except Raise α} (h : ExceptKinded x) (s : State) : (Ran.ofExcept x s).Kinded := by
  cases x with
  | ok a => exact Ran.kinded_ok a s
  | error r => exact Ran.kinded_raised (h r rfl) s

theorem exceptKinded_ok (a : α) : ExceptKinded (.ok a) := by intro r h; cases h

theorem exceptKinded_fail {k : ErrKind} (h : k ≠ .none) (q : Nat) : ExceptKinded (parseFail k q : Except Raise α) := by
  intro r h'; cases h'; exact h

theorem ExceptKinded.bind {x : Except Raise α} {f : α → Except Raise β} (hx : ExceptKinded x)
    (hf : ∀ a, ExceptKinded (f a)) : ExceptKinded (x >>= f) := by
  cases x with
  | ok a => exact hf a
  | error r => intro r' h'; cases h'; exact hx r rfl

end

theorem emitByte_kinded (v : Byte) (s : State) : (emitByte v s).Kinded := by
  rcases emitByte_cases v s with ⟨_, h⟩ | ⟨_, h⟩ <;> rw [h]
  · exact Ran.kinded_raised (by simp) s
  · exact Ran.kinded_ok _ _

theorem emitBytes_kinded (bs : List Byte) (s : State) : (emitBytes bs s).Kinded := by
  induction bs generalizing s with
  | nil => exact Ran.kinded_ok _ _
  | cons v vs ih => exact (emitByte_kinded v s).andThen ih

theorem writeBit_kinded (b : Bool) (s : State) : (writeBit b s).Kinded := by
  unfold writeBit
  split
  · exact (emitByte_kinded _ s).andThen fun t => Ran.kinded_ok _ _
  · exact Ran.kinded_ok _ _

theorem writeBits_kinded (bs : List Bool) (s : State) : (writeBits bs s).Kinded := by
  induction bs generalizing s with
  | nil => exact Ran.kinded_ok _ _
  | cons b bs ih => exact (writeBit_kinded b s).andThen ih

theorem readBit_kinded (s : State) : (readBit s).Kinded := by
  rcases readBit_cases s with ⟨_, h⟩ | ⟨_, h⟩ <;> rw [h]
  · exact Ran.kinded_raise (by simp) _ _
  · exact Ran.kinded_ok _ _

theorem readBits_kinded (n : Nat) (s : State) : (readBits n s).Kinded := by
  induction n generalizing s with
  | zero => exact Ran.kinded_ok _ _
  | succ n ih => exact (readBit_kinded s).bind fun b t => (ih t).bind fun bs u => Ran.kinded_ok _ _

/-! ### The parser and the counter raise kinds -/

theorem countLoop_kinded (s : State) (left i : Nat) (ft : List FtEntry) : ExceptKinded (countLoop s left i ft) := by
  induction left generalizing i ft with
  | zero => exact exceptKinded_ok ft
  | succ left ih =>
    simp only [countLoop]
    split
    · intro r h; cases h; simp
    · split
      · intro r h; cases h; simp
      · exact ih _ _

theorem byteIn_kinded (s : State) (q : Nat) : ExceptKinded (byteIn s q) := by
  unfold byteIn
  split
  · exact exceptKinded_fail (by simp) q
  · exact exceptKinded_ok _

theorem expectByte_kinded (s : State) (q : Nat) (c : Byte) : ExceptKinded (expectByte s q c) := by
  unfold expectByte
  have h := byteIn_kinded s q
  split
  · next r hr => intro r' h'; cases h'; exact h _ hr
  · split
    · exact exceptKinded_fail (by simp) q
    · exact exceptKinded_ok _

theorem parseDigits_kinded (s : State) (left v q : Nat) : ExceptKinded (parseDigits s left v q) := by
  induction left generalizing v q with
  | zero => exact exceptKinded_ok _
  | succ left ih =>
    simp only [parseDigits]
    split
    · exact exceptKinded_ok _
    · split
      · exact exceptKinded_fail (by simp) q
      · exact ih _ _

theorem parseDec_kinded (s : State) (p : Nat) : ExceptKinded (parseDec s p) := by
  unfold parseDec
  refine (byteIn_kinded s p).bind fun c => ?_
  split
  · exact exceptKinded_fail (by simp) p
  · exact (parseDigits_kinded s _ _ _).bind fun _ => exceptKinded_ok _

theorem allocNode_kinded (s : State) (nodes : List Node) (e : Node) (q : Nat) : ExceptKinded (allocNode s nodes e q) := by
  unfold allocNode
  split
  · exact exceptKinded_fail (by simp) q
  · exact exceptKinded_ok _

theorem parseSym_kinded (s : State) (pixel : Bool) (p : Nat) (c : Byte) : ExceptKinded (parseSym s pixel p c) := by
  unfold parseSym
  split
  · split
    · exact exceptKinded_fail (by simp) p
    · exact parseDec_kinded s p
  · split
    · exact exceptKinded_fail (by simp) p
    · exact exceptKinded_ok _

theorem parseLeaf_kinded (s : State) (pixel : Bool) (p : Nat) (c : Byte) (nodes : List Node) :
    ExceptKinded (parseLeaf s pixel p c nodes) := by
  unfold parseLeaf
  refine (parseSym_kinded s pixel p c).bind fun x => (expectByte_kinded s _ _).bind fun q =>
    (parseDec_kinded s q).bind fun y => ?_
  dsimp only
  split
  · exact exceptKinded_fail (by simp) p
  · exact (allocNode_kinded s _ _ _).bind fun _ => exceptKinded_ok _

theorem parseNode_kinded (s : State) (pixel : Bool) (levels p : Nat) (nodes : List Node) :
    ExceptKinded (parseNode s pixel levels p nodes) := by
  induction levels generalizing p nodes with
  | zero =>
    unfold parseNode
    refine (byteIn_kinded s p).bind fun c => ?_
    split
    · exact exceptKinded_fail (by simp) p
    · exact parseLeaf_kinded s pixel p c nodes
  | succ levels ih =>
    unfold parseNode
    refine (byteIn_kinded s p).bind fun c => ?_
    split
    · unfold parseInternal
      refine (ih _ _).bind fun x => (expectByte_kinded s _ _).bind fun q => ExceptKinded.bind ?_ fun y =>
        (expectByte_kinded s _ _).bind fun q => (expectByte_kinded s _ _).bind fun q =>
        (parseDec_kinded s _).bind fun z => (allocNode_kinded s _ _ _).bind fun _ => exceptKinded_ok _
      unfold parseRight
      refine (byteIn_kinded s _).bind fun b => ?_
      split
      · exact exceptKinded_ok _
      · exact (ih _ _).bind fun _ => exceptKinded_ok _
    · exact parseLeaf_kinded s pixel p c nodes

theorem parseHeader_kinded (s : State) : ExceptKinded (parseHeader s) := by
  have hd : ∀ p, ExceptKinded (parsePixelSize s p) := fun p => by
    unfold parsePixelSize
    exact (parseDec_kinded s _).bind fun _ => (expectByte_kinded s _ _).bind fun _ =>
      (parseDec_kinded s _).bind fun _ => (expectByte_kinded s _ _).bind fun _ => exceptKinded_ok _
  have hr : ∀ px p, ExceptKinded (parseTree s px p) := fun px p => by
    unfold parseTree
    refine (byteIn_kinded s _).bind fun b => ?_
    split
    · exact (expectByte_kinded s _ _).bind fun _ => exceptKinded_ok _
    · exact (parseNode_kinded s _ _ _ _).bind fun _ => exceptKinded_ok _
  have ht : ∀ px p, ExceptKinded (parseTop s px p) := fun px p => by
    unfold parseTop
    refine (byteIn_kinded s p).bind fun c => ?_
    split
    · exact exceptKinded_fail (by simp) p
    · exact (hr px p).bind fun _ => (expectByte_kinded s _ _).bind fun _ => exceptKinded_ok _
  unfold parseHeader
  refine (byteIn_kinded s _).bind fun c => ?_
  split
  · exact (ht _ _).bind fun _ => exceptKinded_ok _
  · split
    · exact (hd _).bind fun _ => (ht _ _).bind fun _ => exceptKinded_ok _
    · exact exceptKinded_fail (by simp) _

/-! ### Frames and kinds of the commands' bodies -/

theorem fcCountBody_frame (s : State) :
    (fcCountBody s).state = { s with ft := (fcCountBody s).state.ft, tree := none, ct := none } := by
  unfold fcCountBody
  dsimp only
  split
  · rfl
  · cases countLoop s.invalidateAll s.invalidateAll.symCount.toNat 0 [] <;> rfl

theorem fcCountBody_kinded (s : State) : (fcCountBody s).Kinded := by
  unfold fcCountBody
  dsimp only
  split
  · exact Ran.kinded_raise (by simp) _ _
  · exact (Ran.kinded_ofExcept (countLoop_kinded _ _ _ _) _).bind fun _ _ => Ran.kinded_ok _ _

theorem qFreqBody_frame (s : State) :
    (qFreqBody s).state = { s with
      res0 := (qFreqBody s).state.res0, res1 := (qFreqBody s).state.res1
      res2 := (qFreqBody s).state.res2, res3 := (qFreqBody s).state.res3 } := by
  unfold qFreqBody
  split
  · rfl
  · split <;> rfl

theorem qFreqBody_kinded (s : State) : (qFreqBody s).Kinded := by
  unfold qFreqBody
  split
  · exact Ran.kinded_raise (by simp) _ _
  · split
    · exact Ran.kinded_raise (by simp) _ _
    · exact Ran.kinded_ok _ _

theorem setNodeRes_frame (s : State) (n : Node) :
    s.setNodeRes n = { s with
      res0 := (s.setNodeRes n).res0, res1 := (s.setNodeRes n).res1
      res2 := (s.setNodeRes n).res2, res3 := (s.setNodeRes n).res3 } := by
  cases n <;> rfl

theorem qNodeBody_frame (s : State) :
    (qNodeBody s).state = { s with
      res0 := (qNodeBody s).state.res0, res1 := (qNodeBody s).state.res1
      res2 := (qNodeBody s).state.res2, res3 := (qNodeBody s).state.res3 } := by
  unfold qNodeBody
  split
  · rfl
  · split
    · rfl
    · exact setNodeRes_frame s _

theorem qNodeBody_kinded (s : State) : (qNodeBody s).Kinded := by
  unfold qNodeBody
  split
  · exact Ran.kinded_raise (by simp) _ _
  · split
    · exact Ran.kinded_raise (by simp) _ _
    · exact Ran.kinded_ok _ _

theorem qCodeBody_frame (s : State) :
    (qCodeBody s).state = { s with
      res0 := (qCodeBody s).state.res0, res1 := (qCodeBody s).state.res1
      res2 := (qCodeBody s).state.res2, res3 := (qCodeBody s).state.res3 } := by
  unfold qCodeBody
  split
  · rfl
  · split <;> rfl

theorem qCodeBody_kinded (s : State) : (qCodeBody s).Kinded := by
  unfold qCodeBody
  split
  · exact Ran.kinded_raise (by simp) _ _
  · split <;> exact Ran.kinded_ok _ _

theorem bwCloseBody_frame (s : State) :
    (bwCloseBody s).state = { s with
      outLen := (bwCloseBody s).state.outLen, outMem := (bwCloseBody s).state.outMem
      bwOpen := (bwCloseBody s).state.bwOpen, bwAcc := (bwCloseBody s).state.bwAcc
      bwNbits := (bwCloseBody s).state.bwNbits } := by
  unfold bwCloseBody
  split
  · rfl
  · refine Ran.andThen_keeps (P := fun t => t = { s with
      outLen := t.outLen, outMem := t.outMem, bwOpen := t.bwOpen, bwAcc := t.bwAcc, bwNbits := t.bwNbits }) ?_ ?_
    · have h := emitBytes_frame [s.partialByte, s.trailerByte] s
      unfold EmitFrame at h
      rw [h]
    · intro t h
      rw [h]
      rfl

theorem bwCloseBody_kinded (s : State) : (bwCloseBody s).Kinded := by
  unfold bwCloseBody
  split
  · exact Ran.kinded_raise (by simp) _ _
  · exact (emitBytes_kinded _ _).andThen fun _ => Ran.kinded_ok _ _

theorem brOpenBody_frame (s : State) :
    (brOpenBody s).state = { s with
      brOpen := (brOpenBody s).state.brOpen, brBase := (brOpenBody s).state.brBase
      brTotal := (brOpenBody s).state.brTotal, brBitPos := (brOpenBody s).state.brBitPos } := by
  unfold brOpenBody
  dsimp only
  split
  · rfl
  · split
    · rfl
    · split <;> rfl

theorem brOpenBody_kinded (s : State) : (brOpenBody s).Kinded := by
  unfold brOpenBody
  dsimp only
  split
  · exact Ran.kinded_raise (by simp) _ _
  · split
    · exact Ran.kinded_raise (by simp) _ _
    · split
      · exact Ran.kinded_raise (by simp) _ _
      · exact Ran.kinded_ok _ _

theorem readBits_frame (n : Nat) (s : State) :
    (readBits n s).state = { s with brBitPos := (readBits n s).state.brBitPos } := by
  induction n generalizing s with
  | zero => rfl
  | succ n ih =>
    refine Ran.bind_keeps (P := fun t => t = { s with brBitPos := t.brBitPos }) ?_ ?_
    · rcases readBit_cases s with ⟨_, h⟩ | ⟨_, h⟩ <;> rw [h] <;> rfl
    · intro b t h
      refine Ran.bind_keeps (P := fun t => t = { s with brBitPos := t.brBitPos }) ?_ fun _ _ h => h
      have g := ih t
      rw [g, h]

theorem brReadBody_frame (n : Nat) (s : State) :
    (brReadBody n s).state = { s with
      brBitPos := (brReadBody n s).state.brBitPos
      res0 := (brReadBody n s).state.res0, res1 := (brReadBody n s).state.res1
      res2 := (brReadBody n s).state.res2, res3 := (brReadBody n s).state.res3 } := by
  unfold brReadBody
  split
  · rfl
  · split
    · rfl
    · refine Ran.bind_keeps (P := fun t => t = { s with
        brBitPos := t.brBitPos, res0 := t.res0, res1 := t.res1, res2 := t.res2, res3 := t.res3 }) ?_ ?_
      · have h := readBits_frame n s
        rw [h]
      · intro bs t h
        rw [h]
        rfl

theorem brReadBody_kinded (n : Nat) (s : State) : (brReadBody n s).Kinded := by
  unfold brReadBody
  split
  · exact Ran.kinded_raise (by simp) _ _
  · split
    · exact Ran.kinded_raise (by simp) _ _
    · exact (readBits_kinded n s).bind fun _ _ => Ran.kinded_ok _ _

theorem tcSerializeBody_frame (s : State) : EmitFrame s (tcSerializeBody s).state := by
  unfold tcSerializeBody
  split
  · rfl
  · exact emitBytes_frame _ s

theorem tcSerializeBody_kinded (s : State) : (tcSerializeBody s).Kinded := by
  unfold tcSerializeBody
  split
  · exact Ran.kinded_raise (by simp) _ _
  · exact emitBytes_kinded _ s

theorem tcParseBody_frame (s : State) :
    (tcParseBody s).state = { s with
      tree := (tcParseBody s).state.tree, ct := none, hdrVariant := (tcParseBody s).state.hdrVariant
      inPos := (tcParseBody s).state.inPos, imgW := (tcParseBody s).state.imgW, imgH := (tcParseBody s).state.imgH } := by
  unfold tcParseBody
  dsimp only
  split
  · rfl
  · cases parseHeader s.invalidateTreeCodes <;> rfl

theorem tcParseBody_kinded (s : State) : (tcParseBody s).Kinded := by
  unfold tcParseBody
  dsimp only
  split
  · exact Ran.kinded_raise (by simp) _ _
  · exact (Ran.kinded_ofExcept (parseHeader_kinded _) _).bind fun _ _ => Ran.kinded_ok _ _

theorem encodeLoop_frame (left i : Nat) (s : State) : WriteFrame s (encodeLoop left i s).state := by
  induction left generalizing i s with
  | zero => exact .refl s
  | succ left ih =>
    simp only [encodeLoop]
    split
    · rfl
    · exact Ran.andThen_keeps (P := WriteFrame s) (writeBits_frame _ s) fun t h => h.trans (ih _ t)

theorem encodeLoop_kinded (left i : Nat) (s : State) : (encodeLoop left i s).Kinded := by
  induction left generalizing i s with
  | zero => exact Ran.kinded_ok _ _
  | succ left ih =>
    simp only [encodeLoop]
    split
    · exact Ran.kinded_raise (by simp) _ _
    · exact (writeBits_kinded _ s).andThen (ih _)

theorem encodeBody_frame (s : State) : WriteFrame s (encodeBody s).state := by
  unfold encodeBody
  split
  · rfl
  · exact encodeLoop_frame _ _ s

theorem encodeBody_kinded (s : State) : (encodeBody s).Kinded := by
  unfold encodeBody
  split
  · exact Ran.kinded_raise (by simp) _ _
  · exact encodeLoop_kinded _ _ s

/-- Only what COMPRESS may write changed. -/
def CompressFrame (s t : State) : Prop :=
  t = { s with
    ft := t.ft, tree := t.tree, ct := t.ct, outLen := t.outLen, outMem := t.outMem
    bwOpen := t.bwOpen, bwAcc := t.bwAcc, bwNbits := t.bwNbits, bitCount := t.bitCount }

theorem CompressFrame.refl (s : State) : CompressFrame s s := rfl
theorem CompressFrame.trans {s t u : State} (h : CompressFrame s t) (g : CompressFrame t u) : CompressFrame s u := by
  unfold CompressFrame at *; rw [g, h]
theorem WriteFrame.compress {s t : State} (h : WriteFrame s t) : CompressFrame s t := by
  unfold WriteFrame at h; unfold CompressFrame; rw [h]
theorem bwCloseBody_compress (s : State) : CompressFrame s (bwCloseBody s).state := by
  unfold CompressFrame; rw [bwCloseBody_frame s]
theorem fcCountBody_compress (s : State) : CompressFrame s (fcCountBody s).state := by
  unfold CompressFrame; rw [fcCountBody_frame s]

theorem compressEmit_frame (s : State) : CompressFrame s (compressEmit s).state := by
  unfold compressEmit
  split
  · exact Ran.andThen_keeps (P := CompressFrame s) rfl fun t h => h.trans (bwCloseBody_compress t)
  · refine Ran.andThen_keeps (P := CompressFrame s) ?_ fun t h => h.trans (bwCloseBody_compress t)
    refine Ran.andThen_keeps (P := CompressFrame s) ?_ fun t h => h.trans (encodeBody_frame t).compress
    exact Ran.andThen_keeps (P := CompressFrame s) (tcSerializeBody_frame s).write.compress fun t h => h.trans rfl

theorem compressBody_frame (s : State) : CompressFrame s (compressBody s).state := by
  unfold compressBody
  refine Ran.andThen_keeps (P := CompressFrame s) ?_ fun t h => h.trans (compressEmit_frame t)
  refine Ran.andThen_keeps (P := CompressFrame s) ?_ fun t h => h.trans rfl
  refine Ran.andThen_keeps (P := CompressFrame s) ?_ fun t h => h.trans rfl
  exact CompressFrame.trans (t := compressStart s) rfl (fcCountBody_compress _)

theorem compressBody_kinded (s : State) : (compressBody s).Kinded := by
  unfold compressBody
  refine (((fcCountBody_kinded _).andThen fun _ => Ran.kinded_ok _ _).andThen fun _ => Ran.kinded_ok _ _).andThen
    fun t => ?_
  unfold compressEmit
  split
  · exact (Ran.kinded_ok _ _ : (bwOpenBody t).Kinded).andThen bwCloseBody_kinded
  · exact (((tcSerializeBody_kinded t).andThen fun _ => Ran.kinded_ok _ _).andThen encodeBody_kinded).andThen
      bwCloseBody_kinded

theorem decodeLoop_frame (t : Tree) (root left cur k : Nat) (s : State) :
    DecodeFrame s (decodeLoop t root left cur k s).state := by
  induction left generalizing cur k s with
  | zero => exact .refl s
  | succ left ih =>
    simp only [decodeLoop]
    refine Ran.bind_keeps (P := DecodeFrame s) (readBit_frame s) ?_
    intro b u h
    split
    · exact h
    · split
      · exact h.trans (ih _ _ u)
      · split
        · exact h
        · exact h.trans (DecodeFrame.trans (t := (u.setSym k _).setSymCount (k + 1)) rfl (ih _ _ _))

theorem decodeLoop_kinded (t : Tree) (root left cur k : Nat) (s : State) : (decodeLoop t root left cur k s).Kinded := by
  induction left generalizing cur k s with
  | zero => exact Ran.kinded_ok _ _
  | succ left ih =>
    simp only [decodeLoop]
    refine (readBit_kinded s).bind fun b u => ?_
    split
    · exact Ran.kinded_raise (by simp) _ _
    · split
      · exact ih _ _ u
      · split
        · exact Ran.kinded_raise (by simp) _ _
        · exact ih _ _ _

theorem decodeBody_frame (s : State) : DecodeFrame s (decodeBody s).state := by
  unfold decodeBody
  dsimp only
  split
  · split <;> rfl
  · refine Ran.bind_keeps (P := DecodeFrame s) ?_ ?_
    · exact DecodeFrame.trans (t := s.setSymCount 0) rfl (decodeLoop_frame _ _ _ _ _ _)
    · rintro ⟨cur, k⟩ u h
      dsimp only
      split <;> exact h

theorem decodeBody_kinded (s : State) : (decodeBody s).Kinded := by
  unfold decodeBody
  dsimp only
  split
  · split
    · exact Ran.kinded_raise (by simp) _ _
    · exact Ran.kinded_ok _ _
  · refine (decodeLoop_kinded _ _ _ _ _ _).bind fun x u => ?_
    split
    · exact Ran.kinded_raise (by simp) _ _
    · exact Ran.kinded_ok _ _

/-- Only what DECOMPRESS may write changed. -/
def DecompressFrame (s t : State) : Prop :=
  t = { s with
    ft := t.ft, tree := t.tree, ct := t.ct, hdrVariant := t.hdrVariant, inPos := t.inPos, imgW := t.imgW
    imgH := t.imgH, brOpen := t.brOpen, brBase := t.brBase, brTotal := t.brTotal, brBitPos := t.brBitPos
    symMem := t.symMem, symCount := t.symCount }

theorem DecompressFrame.trans {s t u : State} (h : DecompressFrame s t) (g : DecompressFrame t u) :
    DecompressFrame s u := by
  unfold DecompressFrame at *; rw [g, h]
theorem DecodeFrame.decompress {s t : State} (h : DecodeFrame s t) : DecompressFrame s t := by
  unfold DecodeFrame at h; unfold DecompressFrame; rw [h]
theorem tcParseBody_decompress (s : State) : DecompressFrame s (tcParseBody s).state := by
  unfold DecompressFrame; rw [tcParseBody_frame s]
theorem brOpenBody_decompress (s : State) : DecompressFrame s (brOpenBody s).state := by
  unfold DecompressFrame; rw [brOpenBody_frame s]

theorem decompressBody_frame (s : State) : DecompressFrame s (decompressBody s).state := by
  unfold decompressBody
  dsimp only
  split
  · rfl
  · split
    · rfl
    · split
      · split
        · rfl
        · split <;> rfl
      · refine Ran.andThen_keeps (P := DecompressFrame s) ?_ fun t h => h.trans (decodeBody_frame t).decompress
        refine Ran.andThen_keeps (P := DecompressFrame s) ?_ fun t h => h.trans (brOpenBody_decompress t)
        exact DecompressFrame.trans (t := decompressStart s) rfl (tcParseBody_decompress _)

theorem decompressBody_kinded (s : State) : (decompressBody s).Kinded := by
  unfold decompressBody
  dsimp only
  split
  · exact Ran.kinded_raise (by simp) _ _
  · split
    · exact Ran.kinded_raise (by simp) _ _
    · split
      · split
        · exact Ran.kinded_raise (by simp) _ _
        · split
          · exact Ran.kinded_raise (by simp) _ _
          · exact Ran.kinded_ok _ _
      · exact ((tcParseBody_kinded _).andThen brOpenBody_kinded).andThen decodeBody_kinded

end Sys2Proof.Machine
end

