-- ==== Sys2Proof/Laws/Commands.lean ====
section
/-! SUPPORT. Each command as the end of one piece of pseudocode: what it may change, and that each raise names an
error kind. -/

namespace Sys2Proof.Machine

/-- The pseudocode of a command, its state checks included. -/
def commandBody (i : Instr) (s : State) : Ran Unit :=
  match i with
  | .nop => .ok () s
  | .clear => .ok () (clearBody s)
  | .fcCount => fcCountBody s
  | .qFreq => qFreqBody s
  | .tbBuild => if !s.ftValid then raise .badState 0 s else tbBuildBody s
  | .qNode => qNodeBody s
  | .ctBuild => if !s.treeValid then raise .badState 0 s else ctBuildBody s
  | .qCode => qCodeBody s
  | .bwOpen => bwOpenBody s
  | .bwWrite n => if !s.bwOpen then raise .badState 0 s else writeBits (lowBits n s.arg0) s
  | .bwClose => if !s.bwOpen then raise .badState 0 s else bwCloseBody s
  | .brOpen => brOpenBody s
  | .brRead n => brReadBody n s
  | .tcSerialize => if !s.treeValid then raise .badState 0 s else tcSerializeBody s
  | .tcParse => tcParseBody s
  | .encodeSyms => if !s.ctValid then raise .badState 0 s else if !s.bwOpen then raise .badState 0 s else encodeBody s
  | .compress => compressBody s
  | .decodeSyms => if !s.treeValid then raise .badState 0 s else if !s.brOpen then raise .badState 0 s else decodeBody s
  | .decompress => decompressBody s

/-- Every command is the end of its pseudocode by R81. -/
theorem exec_eq (i : Instr) (s : State) : exec i s = .next (commandBody i s).finish := by
  cases i <;> rfl

/-- A statement guarded by a state check raises only what it raises, or BAD_STATE. -/
theorem Ran.Kinded.guard {c : Prop} [Decidable c] {x : Ran Unit} {s : State} (h : x.Kinded) :
    (if c then raise .badState 0 s else x).Kinded := by
  split
  · exact Ran.kinded_raise (by simp) _ _
  · exact h

/-- A statement guarded by a state check keeps what it keeps. -/
theorem Ran.guard_keeps {P : State → Prop} {c : Prop} [Decidable c] {x : Ran Unit} {s : State} (hs : P s)
    (h : P x.state) : P (if c then raise .badState 0 s else x : Ran Unit).state := by
  split
  · exact hs
  · exact h

theorem commandBody_kinded (i : Instr) (s : State) : (commandBody i s).Kinded := by
  cases i <;> simp only [commandBody]
  · exact Ran.kinded_ok _ _
  · exact Ran.kinded_ok _ _
  · exact fcCountBody_kinded s
  · exact qFreqBody_kinded s
  · exact (Ran.kinded_ok _ _ : (tbBuildBody s).Kinded).guard
  · exact qNodeBody_kinded s
  · exact (Ran.kinded_ok _ _ : (ctBuildBody s).Kinded).guard
  · exact qCodeBody_kinded s
  · exact Ran.kinded_ok _ _
  · exact (writeBits_kinded _ s).guard
  · exact (bwCloseBody_kinded s).guard
  · exact brOpenBody_kinded s
  · exact brReadBody_kinded _ s
  · exact (tcSerializeBody_kinded s).guard
  · exact tcParseBody_kinded s
  · exact (encodeBody_kinded s).guard.guard
  · exact compressBody_kinded s
  · exact (decodeBody_kinded s).guard.guard
  · exact decompressBody_kinded s

/-- Only what some command may write changed: not the configuration, CTRL, IRQ_EN, CMD, ARG0, ARG1, IN_LEN,
OUT_BUDGET, IN_MEM, the completion registers, the latch or the host port. -/
def BodyFrame (s t : State) : Prop :=
  t = { s with
    hdrVariant := t.hdrVariant, res0 := t.res0, res1 := t.res1, res2 := t.res2, res3 := t.res3
    symCount := t.symCount, inPos := t.inPos, outLen := t.outLen, imgW := t.imgW, imgH := t.imgH
    bitCount := t.bitCount, ft := t.ft, tree := t.tree, ct := t.ct, bwOpen := t.bwOpen, bwAcc := t.bwAcc
    bwNbits := t.bwNbits, brOpen := t.brOpen, brBase := t.brBase, brTotal := t.brTotal, brBitPos := t.brBitPos
    symMem := t.symMem, outMem := t.outMem }

theorem WriteFrame.body {s t : State} (h : WriteFrame s t) : BodyFrame s t := by
  unfold WriteFrame at h; unfold BodyFrame; rw [h]
theorem CompressFrame.body {s t : State} (h : CompressFrame s t) : BodyFrame s t := by
  unfold CompressFrame at h; unfold BodyFrame; rw [h]
theorem DecompressFrame.body {s t : State} (h : DecompressFrame s t) : BodyFrame s t := by
  unfold DecompressFrame at h; unfold BodyFrame; rw [h]

/-- CLEAR as one record (R84). -/
theorem clearBody_eq (s : State) : clearBody s = { s with
    ft := none, tree := none, ct := none
    bwOpen := false, bwAcc := 0, bwNbits := 0, bitCount := 0
    brOpen := false, brBase := 0, brTotal := 0, brBitPos := 0
    hdrVariant := false, res0 := 0, res1 := 0, res2 := 0, res3 := 0 } := by
  simp only [clearBody, State.invalidateAll, State.invalidateFt, State.invalidateTreeCodes, State.invalidateTree,
    State.invalidateCodes, State.freshWriter, State.clearReader, State.setRes]

theorem commandBody_frame (i : Instr) (s : State) : BodyFrame s (commandBody i s).state := by
  have hs : BodyFrame s s := rfl
  cases i <;> simp only [commandBody]
  · exact hs
  · rw [clearBody_eq]; rfl
  · exact (fcCountBody_compress s).body
  · unfold BodyFrame; rw [qFreqBody_frame s]
  · exact Ran.guard_keeps (P := BodyFrame s) hs rfl
  · unfold BodyFrame; rw [qNodeBody_frame s]
  · exact Ran.guard_keeps (P := BodyFrame s) hs rfl
  · unfold BodyFrame; rw [qCodeBody_frame s]
  · rfl
  · exact Ran.guard_keeps (P := BodyFrame s) hs (writeBits_frame _ s).body
  · exact Ran.guard_keeps (P := BodyFrame s) hs (bwCloseBody_compress s).body
  · exact (brOpenBody_decompress s).body
  · unfold BodyFrame; rw [brReadBody_frame _ s]
  · exact Ran.guard_keeps (P := BodyFrame s) hs (tcSerializeBody_frame s).write.body
  · exact (tcParseBody_decompress s).body
  · exact Ran.guard_keeps (P := BodyFrame s) hs (Ran.guard_keeps (P := BodyFrame s) hs (encodeBody_frame s).body)
  · exact (compressBody_frame s).body
  · exact Ran.guard_keeps (P := BodyFrame s) hs
      (Ran.guard_keeps (P := BodyFrame s) hs (decodeBody_frame s).decompress.body)
  · exact (decompressBody_frame s).body

end Sys2Proof.Machine
end

