-- ==== Sys2Proof/Laws/TreeCodec.lean ====
section
/-! SUPPORT. Numbers as text, the serialization of a tree by its shape, and what the parser builds: a tree when it
succeeds, and the tree that was serialized when it reads its header. -/

namespace Sys2Proof.Machine

/-! ### Decimal text (R70) -/

/-- The value of digit bytes. -/
def digitsValue (v : Nat) (bs : List Byte) : Nat := bs.foldl (fun n c => 10 * n + digitValue c) v

@[simp] theorem digitsValue_nil (v : Nat) : digitsValue v [] = v := rfl
@[simp] theorem digitsValue_cons (v : Nat) (b : Byte) (bs : List Byte) :
    digitsValue v (b :: bs) = digitsValue (10 * v + digitValue b) bs := by
  unfold digitsValue; rw [List.foldl_cons]

theorem digitByte_facts {d : Nat} (h : d < 10) : isDigit (digitByte d) = true ∧ digitValue (digitByte d) = d ∧
    (d ≠ 0 → digitByte d ≠ 0x30) := by
  interval_cases d <;> decide

/-- The digits of a number, before `later`: digits only, the number as value, and no leading zero but for 0. -/
theorem decDigitsAux_spec {room v : Nat} (h : v < 10 ^ room) (hr : 0 < room) (later : List Byte) :
    ∃ ds : List Byte, decDigitsAux room v later = ds ++ later ∧ ds ≠ [] ∧ (∀ b ∈ ds, isDigit b = true) ∧
      (∀ w, digitsValue w ds = w * 10 ^ ds.length + v) ∧ (v ≠ 0 → ds.head? ≠ some 0x30) ∧ (v = 0 → ds = [0x30]) := by
  induction room generalizing v later with
  | zero => omega
  | succ room ih =>
    simp only [decDigitsAux]
    by_cases hv : v < 10
    · obtain ⟨h1, h2, h3⟩ := digitByte_facts hv
      refine ⟨[digitByte v], by simp [hv], by simp, by simpa using h1, ?_, ?_, ?_⟩
      · intro w; simp [h2]; omega
      · intro hv0; simpa using h3 hv0
      · rintro rfl; rfl
    · have hd : v % 10 < 10 := Nat.mod_lt _ (by omega)
      obtain ⟨h1, h2, -⟩ := digitByte_facts hd
      have hroom : 0 < room := by
        rcases Nat.eq_zero_or_pos room with rfl | h0
        · simp at h; omega
        · exact h0
      have hq : v / 10 < 10 ^ room := by
        rw [pow_succ] at h
        exact Nat.div_lt_of_lt_mul (by omega)
      obtain ⟨ds, e, hne, hdig, hval, hhead, -⟩ := ih hq hroom (digitByte (v % 10) :: later)
      refine ⟨ds ++ [digitByte (v % 10)], by simp [hv, e], by simp, ?_, ?_, ?_, by omega⟩
      · intro b hb
        rcases List.mem_append.1 hb with hb | hb
        · exact hdig b hb
        · simp at hb; subst hb; exact h1
      · intro w
        have := hval w
        unfold digitsValue at this ⊢
        rw [List.foldl_append, this]
        simp [h2, pow_succ]
        have : v = 10 * (v / 10) + v % 10 := by omega
        generalize v / 10 = a at *
        generalize v % 10 = b at *
        subst this
        ring
      · intro _
        rw [List.head?_append_of_ne_nil _ hne]
        exact hhead (by omega)

/-- The decimal spelling of a word. -/
theorem decText_spec (v : Word) : decText v ≠ [] ∧ (∀ b ∈ decText v, isDigit b = true) ∧
    digitsValue 0 (decText v) = v.toNat ∧ (v ≠ 0 → (decText v).head? ≠ some 0x30) ∧ (v = 0 → decText v = [0x30]) := by
  have hv : v.toNat < 10 ^ 10 := by have := v.isLt; omega
  obtain ⟨ds, e, h1, h2, h3, h4, h5⟩ := decDigitsAux_spec hv (by omega) []
  have e' : decText v = ds := by unfold decText; simpa using e
  rw [e']
  refine ⟨h1, h2, by simpa using h3 0, ?_, ?_⟩
  · intro hv0
    exact h4 fun h => hv0 (BitVec.eq_of_toNat_eq (by simpa using h))
  · rintro rfl; exact h5 rfl

theorem digitsValue_mono (v : Nat) (bs : List Byte) : v ≤ digitsValue v bs := by
  induction bs generalizing v with
  | nil => exact Nat.le_refl v
  | cons b bs ih =>
    have := ih (10 * v + digitValue b)
    simp only [digitsValue_cons]
    omega

/-! ### Text in IN_MEM -/

/-- `text` stands at index `p`, before IN_LEN. -/
def TextAt (s : State) (p : Nat) (text : List Byte) : Prop :=
  BytesAt s.inAt p text ∧ p + text.length ≤ s.inLen.toNat

theorem TextAt.left {s : State} {p : Nat} {a b : List Byte} (h : TextAt s p (a ++ b)) : TextAt s p a := by
  obtain ⟨h1, h2⟩ := h
  refine ⟨fun k hk => ?_, by simp at h2; omega⟩
  rw [h1 k (by simp; omega), List.getElem_append_left hk]

theorem TextAt.right {s : State} {p : Nat} {a b : List Byte} (h : TextAt s p (a ++ b)) : TextAt s (p + a.length) b := by
  obtain ⟨h1, h2⟩ := h
  refine ⟨fun k hk => ?_, by simp at h2; omega⟩
  rw [Nat.add_assoc, h1 (a.length + k) (by simp; omega), List.getElem_append_right (by omega)]
  simp

theorem TextAt.byteIn {s : State} {p : Nat} {b : Byte} {bs : List Byte} (h : TextAt s p (b :: bs)) :
    byteIn s p = .ok b := by
  obtain ⟨h1, h2⟩ := h
  simp at h2
  have := h1 0 (by simp)
  simp at this
  simp only [Machine.byteIn]
  rw [if_neg (by omega), this]

theorem TextAt.tail {s : State} {p : Nat} {b : Byte} {bs : List Byte} (h : TextAt s p (b :: bs)) :
    TextAt s (p + 1) bs := by
  have : TextAt s p ([b] ++ bs) := h
  exact this.right

theorem TextAt.expect {s : State} {p : Nat} {b : Byte} {bs : List Byte} (h : TextAt s p (b :: bs)) :
    expectByte s p b = .ok (p + 1) := by
  simp [expectByte, h.byteIn]

/-- No digit stands at index `q` before the end of the input. -/
def NoDigitAt (s : State) (q : Nat) : Prop := s.inLen.toNat ≤ q ∨ isDigit (s.inAt q) = false

theorem TextAt.noDigit {s : State} {p : Nat} {a : List Byte} {b : Byte} {bs : List Byte}
    (h : TextAt s p (a ++ b :: bs)) (hb : isDigit b = false) : NoDigitAt s (p + a.length) := by
  have := h.right.1 0 (by simp)
  simp only [Nat.add_zero, List.getElem_cons_zero] at this
  exact .inr (by rw [this, hb])

theorem byteIn_end {s : State} {q : Nat} (h : s.inLen.toNat ≤ q) : byteIn s q = .error ⟨.truncatedStream, word q⟩ := by
  simp [byteIn, h, parseFail]

theorem byteIn_inside {s : State} {q : Nat} (h : q < s.inLen.toNat) : byteIn s q = .ok (s.inAt q) := by
  simp [byteIn, Nat.not_le.2 h]

/-- The digit loop along digits: it goes on with their value. -/
theorem parseDigits_along {s : State} {ds : List Byte} {v p : Nat} (hd : ∀ b ∈ ds, isDigit b = true)
    (h : TextAt s p ds) (hv : digitsValue v ds ≤ 0xFFFFFFFF) :
    parseDigits s (s.inLen.toNat - p) v p =
      parseDigits s (s.inLen.toNat - (p + ds.length)) (digitsValue v ds) (p + ds.length) := by
  induction ds generalizing v p with
  | nil => rfl
  | cons b ds ih =>
    have hlen := h.2
    simp only [List.length_cons] at hlen
    have h0 := h.1 0 (by simp)
    rw [Nat.add_zero, List.getElem_cons_zero] at h0
    have hbd : isDigit b = true := hd b (by simp)
    have hle := digitsValue_mono (10 * v + digitValue b) ds
    simp only [digitsValue_cons] at hv ⊢
    rw [show s.inLen.toNat - p = (s.inLen.toNat - (p + 1)) + 1 by omega]
    simp only [parseDigits, h0, hbd, Bool.not_true, Bool.false_eq_true, if_false]
    rw [if_neg (by omega), ih (fun x hx => hd x (by simp [hx])) h.tail hv]
    simp only [List.length_cons, Nat.add_assoc, Nat.add_comm 1]

/-- The digit loop stops where no digit stands. -/
theorem parseDigits_stop {s : State} {v q : Nat} (h : NoDigitAt s q) :
    parseDigits s (s.inLen.toNat - q) v q = .ok (v, q) := by
  rcases h with h | h
  · rw [Nat.sub_eq_zero_of_le h]; rfl
  · cases s.inLen.toNat - q with
    | zero => rfl
    | succ n => simp [parseDigits, h]

/-- The first digit of a numeral. -/
theorem Numeral.head {ds : List Byte} {v : Word} (h : Numeral ds v) : ∃ d tl, ds = d :: tl ∧ isDigit d = true := by
  cases ds with
  | nil => exact absurd rfl h.ne_nil
  | cons d tl => exact ⟨d, tl, rfl, h.digits d (by simp)⟩

/-- parseDec along a numeral (R109). -/
theorem parseDec_along {s : State} {p : Nat} {ds : List Byte} {v : Word} (h : TextAt s p ds) (hn : Numeral ds v) :
    parseDec s p =
      (parseDigits s (s.inLen.toNat - (p + ds.length)) v.toNat (p + ds.length)).map fun r => (word r.1, r.2) := by
  obtain ⟨d, tl, e, hd⟩ := hn.head
  have hb : byteIn s p = .ok d := by subst e; exact h.byteIn
  have hv : digitsValue 0 ds = v.toNat := hn.value
  have hp := parseDigits_along hn.digits h (v := 0) (by rw [hv]; have := v.isLt; omega)
  rw [hv] at hp
  simp only [parseDec, hb, bind, Except.bind, hd, Bool.not_true, Bool.false_eq_true, if_false, hp]
  cases parseDigits s (s.inLen.toNat - (p + ds.length)) v.toNat (p + ds.length) <;> rfl

/-- parseDec reads a numeral up to a place where no digit stands (R70, R109). -/
theorem parseDec_text {s : State} {p : Nat} {ds : List Byte} {v : Word} (h : TextAt s p ds) (hn : Numeral ds v)
    (he : NoDigitAt s (p + ds.length)) : parseDec s p = .ok (v, p + ds.length) := by
  rw [parseDec_along h hn, parseDigits_stop he]
  simp [Except.map]

/-- The canonical spelling is a numeral (R70). -/
theorem decText_numeral (v : Word) : Numeral (decText v) v := by
  obtain ⟨h1, h2, h3, -⟩ := decText_spec v
  exact ⟨h1, h2, h3⟩

/-! ### Shapes and their text (R73) -/

theorem Tree.HasShape.append {nodes : List Node} {r r' : Option Nat} (more : List Node) {sh : Shape} {i : Nat}
    (h : Tree.HasShape ⟨nodes, r⟩ sh i) : Tree.HasShape ⟨nodes ++ more, r'⟩ sh i := by
  induction sh generalizing i with
  | leaf x f => exact getElem?_append_some _ h
  | one f a ih =>
    obtain ⟨l, hl, ha⟩ := h
    exact ⟨l, getElem?_append_some _ hl, ih ha⟩
  | two f a b iha ihb =>
    obtain ⟨l, k, hl, ha, hb⟩ := h
    exact ⟨l, k, getElem?_append_some _ hl, iha ha, ihb hb⟩

/-- The serialization of a subtree depends on its shape only. -/
theorem serNode_text {t : Tree} (h : t.Ok) {look : Nat → Node}
    (hl : ∀ (k : Nat) (n : Node), t.nodes[k]? = some n → look k = n) (pixel : Bool) {sh : Shape} {depth i : Nat}
    (hs : t.HasShape sh i) (hd : i < depth) : serNode look pixel depth i = sh.text pixel := by
  induction sh generalizing depth i with
  | leaf x f =>
    obtain ⟨depth, rfl⟩ : ∃ k, depth = k + 1 := ⟨depth - 1, by omega⟩
    simp [serNode, hl i _ hs, Shape.text]
  | one f a ih =>
    obtain ⟨depth, rfl⟩ : ∃ k, depth = k + 1 := ⟨depth - 1, by omega⟩
    obtain ⟨l, hn, ha⟩ := hs
    have := h.below i _ hn l (by simp [Node.children])
    simp [serNode, hl i _ hn, Shape.text, ih ha (depth := depth) (by omega)]
  | two f a b iha ihb =>
    obtain ⟨depth, rfl⟩ : ∃ k, depth = k + 1 := ⟨depth - 1, by omega⟩
    obtain ⟨l, r, hn, ha, hb⟩ := hs
    have h1 := h.below i _ hn l (by simp [Node.children])
    have h2 := h.below i _ hn r (by simp [Node.children])
    simp [serNode, hl i _ hn, Shape.text, iha ha (depth := depth) (by omega), ihb hb (depth := depth) (by omega)]

/-- A serialization below the root reads allocated entries only, so it does not matter how others are read. -/
theorem serNode_congr {t : Tree} (h : t.Ok) {look look' : Nat → Node}
    (hl : ∀ (k : Nat) (n : Node), t.nodes[k]? = some n → look k = n)
    (hl' : ∀ (k : Nat) (n : Node), t.nodes[k]? = some n → look' k = n) (pixel : Bool)
    {depth i : Nat} (hi : i < t.nodes.length) : serNode look pixel depth i = serNode look' pixel depth i := by
  induction depth generalizing i with
  | zero => rfl
  | succ depth ih =>
    have hn : t.nodes[i]? = some t.nodes[i] := List.getElem?_eq_getElem hi
    have hb := fun c hc => Nat.lt_trans (h.below i _ hn c hc) hi
    simp only [serNode, hl i _ hn, hl' i _ hn]
    cases hni : t.nodes[i] with
    | leaf y g => rfl
    | internal f l r =>
      rw [hni] at hb
      cases r with
      | none => simp only; rw [ih (hb l (by simp [Node.children]))]
      | some r =>
        simp only
        rw [ih (hb l (by simp [Node.children])), ih (hb r (by simp [Node.children]))]

/-- The text TC_SERIALIZE writes for a tree. -/
theorem State.treeText_eq {s : State} {t : Tree} (hs : s.tree = some t) (h : t.Ok) : s.treeText = t.text s.variant := by
  have e : s.treeOrNull = t := by simp [State.treeOrNull, hs]
  simp only [State.treeText, Tree.text, State.nodeCount, e]
  cases hr : t.root with
  | none => rfl
  | some r =>
    have := h.root_last hr
    exact serNode_congr h (State.nodeAt_eq s t) (Tree.look_eq t) _ (by omega)

/-- No leaf is unspellable when every symbol is valid (R110). -/
theorem no_unspellable {ns : List Node} {pixel : Bool} (h : ∀ x ∈ ns.filterMap Node.sym?, validSym x pixel = true) :
    ns.findIdx? (Node.unspellable pixel) = none := by
  rw [List.findIdx?_eq_none_iff]
  intro n hn
  cases n with
  | leaf x f => simp [Node.unspellable, h x (List.mem_filterMap.2 ⟨_, hn, rfl⟩)]
  | internal f l r => rfl

/-- A valid character symbol is its byte, and no control byte (R71). -/
theorem validSym_char {x : Word} (h : validSym x false = true) :
    (x.setWidth 8).setWidth 32 = x ∧ x.setWidth 8 ≠ byteOpen ∧ x.setWidth 8 ≠ byteSep ∧ x.setWidth 8 ≠ byteClose ∧
      x.setWidth 8 ≠ byteEnd := by
  simp only [validSym, Bool.false_or, decide_eq_true_eq] at h
  obtain ⟨hle, h1, h2, h3, h4⟩ := h
  have hle : x.toNat ≤ 255 := hle
  have e : (x.setWidth 8).setWidth 32 = x := by
    apply BitVec.eq_of_toNat_eq
    simp
    omega
  refine ⟨e, ?_, ?_, ?_, ?_⟩ <;> intro hb <;> rw [hb] at e
  · exact h1 e.symm
  · exact h2 e.symm
  · exact h3 e.symm
  · exact h4 e.symm

theorem isDigit_ne {d : Byte} (h : isDigit d = true) : d ≠ byteOpen ∧ d ≠ byteSep ∧ d ≠ byteClose ∧ d ≠ byteEnd := by
  refine ⟨?_, ?_, ?_, ?_⟩ <;> rintro rfl <;> exact absurd h (by decide)

/-- The symbol the Engine emits spells the symbol (R71). -/
theorem symText_spells {x : Word} {pixel : Bool} (h : validSym x pixel = true) : SymText pixel (symText x pixel) x := by
  cases pixel with
  | false => exact ⟨rfl, h⟩
  | true => exact decText_numeral x

/-- The first byte of a leaf's text: it opens no node, closes none and separates nothing. -/
theorem SymText.head {a : List Byte} {x : Word} {pixel : Bool} (h : SymText pixel a x) :
    ∃ c tl, a = c :: tl ∧ c ≠ byteOpen ∧ c ≠ byteSep ∧ c ≠ byteClose ∧ c ≠ byteEnd ∧ (pixel = true → isDigit c = true) := by
  cases pixel with
  | false =>
    obtain ⟨rfl, hv⟩ := h
    obtain ⟨-, h1, h2, h3, h4⟩ := validSym_char hv
    exact ⟨x.setWidth 8, [], rfl, h1, h2, h3, h4, by simp⟩
  | true =>
    obtain ⟨d, tl, e, hd⟩ := Numeral.head (v := x) h
    obtain ⟨h1, h2, h3, h4⟩ := isDigit_ne hd
    exact ⟨d, tl, e, h1, h2, h3, h4, fun _ => hd⟩

theorem NodeText.head {pixel : Bool} {a : List Byte} {sh : Shape} (h : NodeText pixel a sh) :
    ∃ c tl, a = c :: tl ∧ c ≠ byteSep ∧ c ≠ byteClose ∧ (c = byteOpen ↔ sh.isInternal = true) := by
  cases h with
  | leaf hx hf =>
    obtain ⟨c, tl, e, h1, h2, h3, -⟩ := hx.head
    exact ⟨c, tl ++ [byteColon] ++ _, by rw [e]; simp; rfl, h2, h3, by simp [Shape.isInternal, h1]⟩
  | one ha hf => exact ⟨byteOpen, _, by simp; rfl, by decide, by decide, by simp [Shape.isInternal]⟩
  | two ha hb hf => exact ⟨byteOpen, _, by simp; rfl, by decide, by decide, by simp [Shape.isInternal]⟩

/-- The serialization of a shape is a node of that shape (R73). -/
theorem Shape.text_nodeText {sh : Shape} {pixel : Bool} (h : ∀ x ∈ sh.syms, validSym x pixel = true) :
    NodeText pixel (sh.text pixel) sh := by
  induction sh with
  | leaf x f => exact .leaf (symText_spells (h x (by simp [Shape.syms]))) (decText_numeral f)
  | one f a ih => exact .one (ih h) (decText_numeral f)
  | two f a b iha ihb =>
    exact .two (iha fun x hx => h x (by simp [Shape.syms, hx])) (ihb fun x hx => h x (by simp [Shape.syms, hx]))
      (decText_numeral f)

/-! ### The parser on the text of a shape (R111, R113) -/

theorem allocNode_room {s : State} {nodes : List Node} (e : Node) (q : Nat) (h : nodes.length < s.cfg.nodeCap) :
    allocNode s nodes e q = .ok (nodes.length, nodes ++ [e]) := by
  simp only [allocNode]
  rw [if_neg (by omega)]

/-- parseSym reads a symbol (R71). -/
theorem parseSym_text {s : State} {pixel : Bool} {p : Nat} {a : List Byte} {x : Word} {c : Byte} {tl : List Byte}
    (hx : SymText pixel a x) (h : TextAt s p a) (he : pixel = true → NoDigitAt s (p + a.length)) (hc : a = c :: tl) :
    parseSym s pixel p c = .ok (x, p + a.length) := by
  obtain ⟨c', tl', e, h1, h2, h3, h4, h5⟩ := hx.head
  rw [hc] at e
  cases e
  cases pixel with
  | false =>
    obtain ⟨ha, hv⟩ := hx
    rw [hc] at ha
    cases ha
    simp [parseSym, h2, h3, h4, (validSym_char hv).1, hc]
  | true => simp [parseSym, h5 rfl, parseDec_text h hx (he rfl)]

/-- The leaf branch reads a leaf. -/
theorem parseLeaf_text {s : State} {pixel : Bool} {p : Nat} {a b : List Byte} {x f : Word} {c : Byte} {tl : List Byte}
    {nodes : List Node} (hx : SymText pixel a x) (hf : Numeral b f) (h : TextAt s p (a ++ [byteColon] ++ b))
    (he : NoDigitAt s (p + (a ++ [byteColon] ++ b).length)) (hc : a = c :: tl) :
    parseLeaf s pixel p c nodes =
      if nodes.any (Node.isLeafOf x) then parseFail .malformedHeader p
      else (allocNode s nodes (.leaf x f) p).map fun r => (r.1, p + (a ++ [byteColon] ++ b).length, r.2) := by
  have h' : TextAt s p (a ++ byteColon :: b) := by simpa using h
  have h1 := parseSym_text hx h'.left (fun _ => h'.noDigit (by decide)) hc
  have h2 := h'.right.expect
  have h3 := parseDec_text h'.right.tail hf (by
    have e : p + a.length + 1 + b.length = p + (a ++ [byteColon] ++ b).length := by simp; omega
    rw [e]; exact he)
  simp only [parseLeaf, h1, h2, h3, bind, Except.bind]
  split
  · rfl
  · cases allocNode s nodes (.leaf x f) p with
    | error r => rfl
    | ok r =>
      simp only [Except.map, pure, Except.pure]
      congr 3
      simp
      omega

theorem not_any_isLeafOf {nodes : List Node} {x : Word} (h : x ∉ nodes.filterMap Node.sym?) :
    nodes.any (Node.isLeafOf x) = false := by
  rw [List.any_eq_false]
  intro n hmem hl
  cases n with
  | leaf y g =>
    simp [Node.isLeafOf] at hl
    subst hl
    exact h (List.mem_filterMap.2 ⟨_, hmem, rfl⟩)
  | internal g l r => simp [Node.isLeafOf] at hl

theorem Shape.size_pos (sh : Shape) : 1 ≤ sh.size := by cases sh <;> simp [Shape.size]

@[simp] theorem Shape.entries_length (sh : Shape) (base : Nat) : (sh.entries base).length = sh.size := by
  induction sh generalizing base with
  | leaf x f => rfl
  | one f a ih => simp [Shape.entries, Shape.size, ih]
  | two f a b iha ihb => simp [Shape.entries, Shape.size, iha, ihb, Nat.add_assoc]

@[simp] theorem Shape.entries_syms (sh : Shape) (base : Nat) : (sh.entries base).filterMap Node.sym? = sh.syms := by
  induction sh generalizing base with
  | leaf x f => rfl
  | one f a ih => simp [Shape.entries, Shape.syms, ih, List.filterMap_cons, Node.sym?]
  | two f a b iha ihb => simp [Shape.entries, Shape.syms, iha, ihb, List.filterMap_cons, Node.sym?]

/-- The entries of a shape are a tree of that shape, with the root last (R112, R113). -/
theorem Shape.entries_shape (sh : Shape) (nodes : List Node) (r : Option Nat) :
    Tree.HasShape ⟨nodes ++ sh.entries nodes.length, r⟩ sh (nodes.length + sh.size - 1) := by
  induction sh generalizing nodes with
  | leaf x f => simp [Tree.HasShape, Shape.entries, Shape.size]
  | one f a ih =>
    have ha := a.size_pos
    refine ⟨nodes.length + a.size - 1, ?_, ?_⟩
    · show (nodes ++ (a.entries nodes.length ++ _))[_]? = _
      rw [← List.append_assoc, List.getElem?_append_right (by simp [Shape.size])]
      simp [Shape.size]
    · have := (ih nodes).append (r' := r) [Node.internal f (nodes.length + a.size - 1) none]
      simpa [Shape.entries] using this
  | two f a b iha ihb =>
    have ha := a.size_pos
    have hb := b.size_pos
    refine ⟨nodes.length + a.size - 1, nodes.length + a.size + b.size - 1, ?_, ?_, ?_⟩
    · show (nodes ++ (a.entries nodes.length ++ b.entries (nodes.length + a.size) ++ _))[_]? = _
      rw [← List.append_assoc, List.getElem?_append_right (by simp [Shape.size])]
      simp [Shape.size, Nat.add_assoc]
    · have := (iha nodes).append (r' := r) (b.entries (nodes.length + a.size) ++ [Node.internal f (nodes.length + a.size - 1)
        (some (nodes.length + a.size + b.size - 1))])
      simpa [Shape.entries] using this
    · have := (ihb (nodes ++ a.entries nodes.length)).append (r' := r) [Node.internal f (nodes.length + a.size - 1)
        (some (nodes.length + a.size + b.size - 1))]
      simpa [Shape.entries] using this

theorem Shape.height_lt_size (sh : Shape) : sh.height < sh.size := by
  induction sh with
  | leaf x f => simp [Shape.height, Shape.size]
  | one f a ih => simp only [Shape.height, Shape.size]; omega
  | two f a b iha ihb => simp only [Shape.height, Shape.size]; omega

/-- parseNode reads the text of a node: its entries are allocated in post-order, with the root last (R111, R112). -/
theorem parseNode_text {s : State} {pixel : Bool} {a : List Byte} {sh : Shape} (ht : NodeText pixel a sh)
    {levels p : Nat} {nodes : List Node} (h : TextAt s p a) (he : NoDigitAt s (p + a.length))
    (hn : (nodes.filterMap Node.sym? ++ sh.syms).Nodup) (hr : nodes.length + sh.size ≤ s.cfg.nodeCap)
    (hl : sh.height ≤ levels) :
    parseNode s pixel levels p nodes =
      .ok (nodes.length + sh.size - 1, p + a.length, nodes ++ sh.entries nodes.length) := by
  induction ht generalizing levels p nodes with
  | @leaf a b x f hx hf =>
    obtain ⟨c, tl, e, h1, -⟩ := hx.head
    have hx' : x ∉ nodes.filterMap Node.sym? := by
      intro hx
      exact (List.nodup_append.1 hn).2.2 x hx x (by simp [Shape.syms]) rfl
    have hp := parseLeaf_text (nodes := nodes) hx hf h he e
    rw [not_any_isLeafOf hx', allocNode_room _ _ (by simp [Shape.size] at hr; omega)] at hp
    have hb : byteIn s p = .ok c := by
      rw [e] at h
      exact (h.left.left : TextAt s p (c :: tl)).byteIn
    cases levels <;> simp [parseNode, hb, h1, hp, bind, Except.bind, Shape.size, Shape.entries, Except.map]
  | @one a b l f ha hf ih =>
    obtain ⟨levels, rfl⟩ : ∃ k, levels = k + 1 := ⟨levels - 1, by simp [Shape.height] at hl; omega⟩
    simp only [Shape.size, Shape.height] at hr hl
    have e : [byteOpen] ++ a ++ [byteSep, byteClose, byteColon] ++ b =
        byteOpen :: (a ++ byteSep :: byteClose :: byteColon :: b) := by simp
    rw [e] at h he ⊢
    have hp := ih h.tail.left (h.tail.noDigit (by decide)) hn (by omega) (levels := levels) (by omega)
    have h2 := h.tail.right
    have hcl : byteIn s (p + 1 + a.length + 1) = .ok byteClose := h2.tail.byteIn
    have hf := parseDec_text h2.tail.tail.tail hf (by
      simp only [List.length_cons, List.length_append] at he
      exact (show p + 1 + a.length + 1 + 1 + 1 + b.length = p + (a.length + (b.length + 1 + 1 + 1) + 1) by omega) ▸ he)
    have hroom : (nodes ++ l.entries nodes.length).length < s.cfg.nodeCap := by simp; omega
    have hs := l.size_pos
    simp only [parseNode, h.byteIn, bind, Except.bind, if_true, parseInternal, hp, h2.expect, parseRight, hcl, pure,
      Except.pure, h2.tail.expect, h2.tail.tail.expect, hf, allocNode_room _ _ hroom]
    simp [Shape.size, Shape.entries]
    omega
  | @two a b c l r f ha hb hf iha ihb =>
    obtain ⟨levels, rfl⟩ : ∃ k, levels = k + 1 := ⟨levels - 1, by simp [Shape.height] at hl; omega⟩
    simp only [Shape.size, Shape.height] at hr hl
    have e : [byteOpen] ++ a ++ [byteSep] ++ b ++ [byteClose, byteColon] ++ c =
        byteOpen :: (a ++ byteSep :: (b ++ byteClose :: byteColon :: c)) := by simp
    rw [e] at h he ⊢
    simp only [Shape.syms, ← List.append_assoc] at hn
    have hpa := iha h.tail.left (h.tail.noDigit (by decide)) (List.nodup_append.1 hn).1 (by omega) (levels := levels)
      (by omega)
    have h2 := h.tail.right
    have h3 := h2.tail
    have hna : ((nodes ++ l.entries nodes.length).filterMap Node.sym? ++ r.syms).Nodup := by
      rw [List.filterMap_append, Shape.entries_syms]; exact hn
    have hpb := ihb h3.left (h3.noDigit (by decide)) hna (by simp; omega) (levels := levels) (by omega)
    have h4 := h3.right
    have hf := parseDec_text h4.tail.tail hf (by
      simp only [List.length_cons, List.length_append] at he
      exact (show p + 1 + a.length + 1 + b.length + 1 + 1 + c.length =
        p + (a.length + (b.length + (c.length + 1 + 1) + 1) + 1) by omega) ▸ he)
    have hroom : (nodes ++ l.entries nodes.length ++ r.entries (nodes ++ l.entries nodes.length).length).length <
        s.cfg.nodeCap := by simp; omega
    have hsl := l.size_pos
    have hsr := r.size_pos
    obtain ⟨d, tl, ed, hd1, hd2, -⟩ := hb.head
    have hcb : byteIn s (p + 1 + a.length + 1) = .ok d := by
      rw [ed] at h3
      exact h3.byteIn
    simp only [parseNode, h.byteIn, bind, Except.bind, if_true, parseInternal, hpa, h2.expect, parseRight, hcb, hd2,
      if_false, hpb, pure, Except.pure, h4.expect, h4.tail.expect, hf, allocNode_room _ _ hroom]
    simp [Shape.size, Shape.entries]
    omega

/-! ### What a successful parse builds -/

theorem Except.bind_eq_ok {α β : Type} {x : Except Raise α} {f : α → Except Raise β} {b : β} :
    (x >>= f) = .ok b ↔ ∃ a, x = .ok a ∧ f a = .ok b := by
  cases x <;> simp [bind, Except.bind]

theorem parseFail_ne_ok {α : Type} {k : ErrKind} {q : Nat} {a : α} : parseFail k q ≠ .ok a := by simp [parseFail]

theorem pure_eq_ok {α : Type} {a b : α} : (pure a : Except Raise α) = .ok b ↔ a = b := by simp [pure, Except.pure]

/-- The entries while a header is parsed: a forest that names no symbol twice and fits. -/
structure ParsedForest (s : State) (w : List Nat) (nodes : List Node) : Prop where
  forest : Forest w nodes
  distinct : (nodes.filterMap Node.sym?).Nodup
  fits : nodes.length ≤ s.cfg.nodeCap

theorem allocNode_eq_ok {s : State} {nodes nodes' : List Node} {e : Node} {q i : Nat}
    (h : allocNode s nodes e q = .ok (i, nodes')) :
    nodes.length ≠ s.cfg.nodeCap ∧ i = nodes.length ∧ nodes' = nodes ++ [e] := by
  unfold allocNode at h
  split at h
  · exact absurd h parseFail_ne_ok
  · next hn => cases h; exact ⟨hn, rfl, rfl⟩

/-- Allocating an entry whose children wait. -/
theorem ParsedForest.alloc {s : State} {w : List Nat} {nodes nodes' : List Node} {e : Node} {q i : Nat}
    (h : ParsedForest s (w ++ e.children) nodes) (ha : allocNode s nodes e q = .ok (i, nodes'))
    (hd : ∀ x, e.sym? = some x → x ∉ nodes.filterMap Node.sym?) :
    ParsedForest s (w ++ [i]) nodes' ∧ i + 1 = nodes'.length ∧ nodes'[i]? = some e := by
  obtain ⟨hn, rfl, rfl⟩ := allocNode_eq_ok ha
  refine ⟨⟨h.forest.push, ?_, ?_⟩, by simp, by simp⟩
  · rw [List.filterMap_append]
    cases hs : e.sym? with
    | none => simpa [List.filterMap_cons, hs] using h.distinct
    | some x =>
      have hx := hd x hs
      simp only [List.filterMap_cons, hs, List.filterMap_nil]
      rw [List.nodup_append]
      refine ⟨h.distinct, by simp, ?_⟩
      rintro a ha b hb rfl
      simp at hb
      exact hx (hb ▸ ha)
  · have := h.fits
    simp
    omega

theorem parseLeaf_sound {s : State} {pixel : Bool} {p i q : Nat} {c : Byte} {w : List Nat} {nodes nodes' : List Node}
    (h : parseLeaf s pixel p c nodes = .ok (i, q, nodes')) (hf : ParsedForest s w nodes) :
    ParsedForest s (w ++ [i]) nodes' ∧ i + 1 = nodes'.length := by
  unfold parseLeaf at h
  obtain ⟨⟨x, q1⟩, -, h⟩ := Except.bind_eq_ok.1 h
  obtain ⟨q2, -, h⟩ := Except.bind_eq_ok.1 h
  obtain ⟨⟨f, q3⟩, -, h⟩ := Except.bind_eq_ok.1 h
  dsimp only at h
  split at h
  · exact absurd h parseFail_ne_ok
  · next hany =>
    obtain ⟨⟨k, ns⟩, ha, h⟩ := Except.bind_eq_ok.1 h
    have := pure_eq_ok.1 h
    cases this
    have hf' : ParsedForest s (w ++ Node.children (.leaf x f)) nodes := by simpa [Node.children] using hf
    obtain ⟨h1, h2, -⟩ := hf'.alloc ha (by
      intro y hy hm
      cases hy
      obtain ⟨n, hn, hs⟩ := List.mem_filterMap.1 hm
      apply hany
      rw [List.any_eq_true]
      refine ⟨n, hn, ?_⟩
      cases n with
      | leaf y g => simp [Node.sym?] at hs; simp [Node.isLeafOf, hs]
      | internal g l r => simp [Node.sym?] at hs)
    exact ⟨h1, h2⟩

/-- A node that is parsed adds to the forest one entry that waits, the last. -/
theorem parseNode_sound {s : State} {pixel : Bool} {levels p i q : Nat} {w : List Nat} {nodes nodes' : List Node}
    (h : parseNode s pixel levels p nodes = .ok (i, q, nodes')) (hf : ParsedForest s w nodes) :
    ParsedForest s (w ++ [i]) nodes' ∧ i + 1 = nodes'.length ∧
      (byteIn s p = .ok byteOpen → ∃ f l c, nodes'[i]? = some (.internal f l c)) := by
  induction levels generalizing p i q w nodes nodes' with
  | zero =>
    unfold parseNode at h
    obtain ⟨c, hc, h⟩ := Except.bind_eq_ok.1 h
    split at h
    · exact absurd h parseFail_ne_ok
    · next hne =>
      obtain ⟨h1, h2⟩ := parseLeaf_sound h hf
      refine ⟨h1, h2, fun ho => ?_⟩
      rw [hc] at ho
      cases ho
      exact absurd rfl hne
  | succ levels ih =>
    unfold parseNode at h
    obtain ⟨c, hc, h⟩ := Except.bind_eq_ok.1 h
    split at h
    · unfold parseInternal at h
      obtain ⟨⟨l, q1, n1⟩, hl, h⟩ := Except.bind_eq_ok.1 h
      obtain ⟨q2, -, h⟩ := Except.bind_eq_ok.1 h
      obtain ⟨⟨r, q3, n2⟩, hr, h⟩ := Except.bind_eq_ok.1 h
      obtain ⟨q4, -, h⟩ := Except.bind_eq_ok.1 h
      obtain ⟨q5, -, h⟩ := Except.bind_eq_ok.1 h
      obtain ⟨⟨f, q6⟩, -, h⟩ := Except.bind_eq_ok.1 h
      obtain ⟨⟨k, ns⟩, ha, h⟩ := Except.bind_eq_ok.1 h
      have := pure_eq_ok.1 h
      cases this
      obtain ⟨f1, -, -⟩ := ih hl hf
      have f2 : ParsedForest s (w ++ Node.children (.internal f l r)) n2 := by
        unfold parseRight at hr
        obtain ⟨b, -, hr⟩ := Except.bind_eq_ok.1 hr
        split at hr
        · have := pure_eq_ok.1 hr
          cases this
          exact f1
        · obtain ⟨⟨k', q', n'⟩, hr', hr⟩ := Except.bind_eq_ok.1 hr
          have := pure_eq_ok.1 hr
          cases this
          have := (ih hr' f1).1
          simpa [Node.children] using this
      obtain ⟨g1, g2, g3⟩ := f2.alloc ha (by simp [Node.sym?])
      exact ⟨g1, g2, fun _ => ⟨f, l, r, g3⟩⟩
    · next hne =>
      obtain ⟨h1, h2⟩ := parseLeaf_sound h hf
      refine ⟨h1, h2, fun ho => ?_⟩
      rw [hc] at ho
      cases ho
      exact absurd rfl hne

/-- A header's tree is a tree, and fits (R111). -/
theorem parseTop_sound {s : State} {pixel : Bool} {p q : Nat} {t : Tree} (h : parseTop s pixel p = .ok (t, q)) :
    t.Ok ∧ t.nodes.length ≤ s.cfg.nodeCap := by
  unfold parseTop at h
  obtain ⟨c, hc, h⟩ := Except.bind_eq_ok.1 h
  split at h
  · exact absurd h parseFail_ne_ok
  · next hop =>
    have hop : c = byteOpen := by simpa using hop
    subst hop
    obtain ⟨⟨t', q1⟩, ht, h⟩ := Except.bind_eq_ok.1 h
    obtain ⟨q2, -, h⟩ := Except.bind_eq_ok.1 h
    have := pure_eq_ok.1 h
    cases this
    unfold parseTree at ht
    obtain ⟨b, -, ht⟩ := Except.bind_eq_ok.1 ht
    split at ht
    · obtain ⟨q3, -, ht⟩ := Except.bind_eq_ok.1 ht
      have := pure_eq_ok.1 ht
      cases this
      exact ⟨Tree.Ok.null, by simp⟩
    · obtain ⟨⟨i, q3, ns⟩, hn, ht⟩ := Except.bind_eq_ok.1 ht
      have := pure_eq_ok.1 ht
      cases this
      have h0 : ParsedForest s [] [] := ⟨⟨by simp, by simp⟩, by simp, by simp⟩
      obtain ⟨h1, h2, h3⟩ := parseNode_sound hn h0
      exact ⟨Tree.Ok.of_forest h1.forest h2 (h3 hc) h1.distinct, h1.fits⟩

theorem parseHeader_sound {s : State} {h : Header} (hp : parseHeader s = .ok h) :
    h.tree.Ok ∧ h.tree.nodes.length ≤ s.cfg.nodeCap := by
  unfold parseHeader at hp
  obtain ⟨c, -, hp⟩ := Except.bind_eq_ok.1 hp
  split at hp
  · obtain ⟨⟨t, q⟩, ht, hp⟩ := Except.bind_eq_ok.1 hp
    have := pure_eq_ok.1 hp
    cases this
    exact parseTop_sound ht
  · split at hp
    · obtain ⟨⟨w, h, p⟩, -, hp⟩ := Except.bind_eq_ok.1 hp
      obtain ⟨⟨t, q⟩, ht, hp⟩ := Except.bind_eq_ok.1 hp
      have := pure_eq_ok.1 hp
      cases this
      exact parseTop_sound ht
    · exact absurd hp parseFail_ne_ok

/-! ### The parser on a header (R111, R113) -/

/-- What TC_PARSE asks of a header's tree beyond its text: distinct symbols, and room (R111). -/
structure Shape.Writable (sh : Shape) (cap : Nat) : Prop where
  distinct : sh.syms.Nodup
  fits : sh.size ≤ cap

theorem treeOfShape_shape (shape : Option Shape) : (treeOfShape shape).HasWholeShape shape := by
  cases shape with
  | none => rfl
  | some sh =>
    have := sh.entries_shape [] (some (sh.size - 1))
    exact ⟨sh.size - 1, rfl, by simpa [treeOfShape] using this⟩

/-- The second byte of an internal node's text is no SEP. -/
theorem NodeText.second {pixel : Bool} {a : List Byte} {sh : Shape} (h : NodeText pixel a sh)
    (hi : sh.isInternal = true) : ∃ d tl, a = byteOpen :: d :: tl ∧ d ≠ byteSep := by
  cases h with
  | leaf hx hf => simp [Shape.isInternal] at hi
  | one ha hf =>
    obtain ⟨d, tl, e, hd, -⟩ := ha.head
    exact ⟨d, _, by rw [e]; simp; rfl, hd⟩
  | two ha hb hf =>
    obtain ⟨d, tl, e, hd, -⟩ := ha.head
    exact ⟨d, _, by rw [e]; simp; rfl, hd⟩

theorem parseTop_text {s : State} {pixel : Bool} {p : Nat} {a : List Byte} {shape : Option Shape}
    (ht : TopText pixel a shape) (h : TextAt s p (a ++ [byteEnd]))
    (hv : ∀ sh, shape = some sh → sh.Writable s.cfg.nodeCap) :
    parseTop s pixel p = .ok (treeOfShape shape, p + a.length + 1) := by
  cases shape with
  | none =>
    have ht : a = [byteOpen, byteSep, byteClose] := ht
    subst ht
    simp only [List.cons_append, List.nil_append] at h
    simp only [parseTop, h.byteIn, bind, Except.bind, ne_eq, not_true, if_false, parseTree, h.tail.byteIn, if_true,
      h.tail.tail.expect, pure, Except.pure, h.tail.tail.tail.expect]
    simp [treeOfShape]
  | some sh =>
    obtain ⟨hi, ht⟩ := ht
    obtain ⟨h1, h2⟩ := hv sh rfl
    have hh := sh.height_lt_size
    have hp := parseNode_text ht (nodes := []) (levels := s.cfg.nodeCap - 1) h.left (h.noDigit (by decide))
      (by simpa using h1) (by simpa using h2) (by omega)
    obtain ⟨d, tl, e, hd⟩ := ht.second hi
    have ho : TextAt s p (byteOpen :: d :: tl) := e ▸ h.left
    simp only [List.length_nil, Nat.zero_add, List.nil_append] at hp
    simp only [parseTop, ho.byteIn, bind, Except.bind, ne_eq, not_true, if_false, parseTree, ho.tail.byteIn, hd, hp,
      pure, Except.pure, h.right.expect, treeOfShape]

/-- The header a tree is serialized to is a header of the grammar (R73). -/
theorem headerOf_text {pixel : Bool} {w h : Word} {shape : Option Shape}
    (hv : ∀ sh, shape = some sh → sh.isInternal = true ∧ ∀ x ∈ sh.syms, validSym x pixel = true) :
    HeaderText pixel w h shape (headerOf pixel w h shape) := by
  refine ⟨_, _, rfl, ?_, ?_⟩
  · cases pixel with
    | false => rfl
    | true => exact ⟨_, _, rfl, decText_numeral w, decText_numeral h⟩
  · cases shape with
    | none => rfl
    | some sh => exact ⟨(hv sh rfl).1, Shape.text_nodeText (hv sh rfl).2⟩

theorem TopText.head {pixel : Bool} {a : List Byte} {shape : Option Shape} (h : TopText pixel a shape) :
    ∃ tl, a = byteOpen :: tl := by
  cases shape with
  | none => exact ⟨_, h⟩
  | some sh =>
    obtain ⟨d, tl, e, -⟩ := h.2.second h.1
    exact ⟨_, e⟩

/-- The pixel prefix is read up to the byte after it. -/
theorem parsePixelSize_text {s : State} {p : Nat} {a : List Byte} {w h : Word} (hp : PrefixText true w h a)
    (ht : TextAt s p a) : parsePixelSize s p = .ok (w, h, p + a.length) := by
  obtain ⟨b, c, rfl, hb, hc⟩ := hp
  have e : b ++ [byteLetterX] ++ c ++ [byteSep] = b ++ byteLetterX :: (c ++ [byteSep]) := by simp
  rw [e] at ht ⊢
  have h1 := parseDec_text ht.left hb (ht.noDigit (by decide))
  have h2 := ht.right
  have h3 := parseDec_text h2.tail.left hc (h2.tail.noDigit (by decide))
  have h4 := h2.tail.right
  simp only [parsePixelSize, bind, Except.bind, h1, h2.expect, h3, h4.expect, pure, Except.pure]
  simp
  omega

/-- parseHeader after a prefix: the tree and END remain (R111). -/
theorem parseHeader_prefix {s : State} {pixel : Bool} {w h : Word} {a : List Byte} (hp : PrefixText pixel w h a)
    (ht : TextAt s s.inPos.toNat a) (hne : a = [] → byteIn s s.inPos.toNat = .ok byteOpen) :
    parseHeader s = (parseTop s pixel (s.inPos.toNat + a.length)).map fun r =>
      ⟨r.1, pixel, r.2, if pixel then some (w, h) else none⟩ := by
  cases pixel with
  | false =>
    have ha : a = [] := hp
    subst ha
    simp only [parseHeader, hne rfl, bind, Except.bind, if_true, List.length_nil, Nat.add_zero]
    cases parseTop s false s.inPos.toNat <;> rfl
  | true =>
    have hps := parsePixelSize_text hp ht
    obtain ⟨b, c, rfl, hb, hc⟩ := hp
    obtain ⟨d, tl, e, hd⟩ := hb.head
    have hby : byteIn s s.inPos.toNat = .ok d := by
      rw [e] at ht
      simp only [List.cons_append] at ht
      exact ht.byteIn
    simp only [parseHeader, hby, bind, Except.bind, (isDigit_ne hd).1, if_false, hd, if_true, hps]
    cases parseTop s true (s.inPos.toNat + (b ++ [byteLetterX] ++ c ++ [byteSep]).length) <;> rfl

/-- The parser reads a header of the grammar, whatever follows it (R111, R112). -/
theorem parseHeader_text {s : State} {pixel : Bool} {w h : Word} {shape : Option Shape} {text : List Byte}
    (ht : HeaderText pixel w h shape text) (hs : TextAt s s.inPos.toNat text)
    (hv : ∀ sh, shape = some sh → sh.Writable s.cfg.nodeCap) :
    parseHeader s =
      .ok ⟨treeOfShape shape, pixel, s.inPos.toNat + text.length, if pixel then some (w, h) else none⟩ := by
  obtain ⟨a, b, rfl, ha, hb⟩ := ht
  rw [List.append_assoc] at hs
  have htop := parseTop_text hb hs.right hv
  rw [parseHeader_prefix ha hs.left ?_, htop]
  · simp [Except.map, Nat.add_assoc]
  · rintro rfl
    obtain ⟨tl, rfl⟩ := hb.head
    exact TextAt.byteIn (by simpa using hs)

end Sys2Proof.Machine
end

