-- ==== Sys2Proof/Laws/Compressor.lean ====
section
/-! SUPPORT. The loop of ENCODE as one write of code bits, the closing of the writer, and the bytes of a closed
stream. -/

namespace Sys2Proof.Machine

@[simp] theorem codeBits_nil (m : CodeTable) : codeBits m [] = [] := rfl
theorem codeBits_cons {m : CodeTable} {x : Word} {c : Code} (h : m.code? x = some c) (xs : List Word) :
    codeBits m (x :: xs) = c ++ codeBits m xs := by simp [codeBits, h]
theorem codeBits_append (m : CodeTable) (xs ys : List Word) :
    codeBits m (xs ++ ys) = codeBits m xs ++ codeBits m ys := by simp [codeBits]

/-- A write of bits changes neither the symbols nor the codes. -/
theorem WriteFrame.symbolsFrom {s t : State} (h : WriteFrame s t) (i n : Nat) : t.symbolsFrom i n = s.symbolsFrom i n := by
  unfold WriteFrame at h; rw [h]; rfl
theorem WriteFrame.ctOrEmpty {s t : State} (h : WriteFrame s t) : t.ctOrEmpty = s.ctOrEmpty := by
  unfold WriteFrame at h; rw [h]; rfl
theorem WriteFrame.symAt {s t : State} (h : WriteFrame s t) (i : Nat) : t.symAt i = s.symAt i := by
  unfold WriteFrame at h; rw [h]; rfl

/-- While every symbol has a code, the loop of ENCODE writes the codes one after another and goes on (R115). -/
theorem encodeLoop_codes {m n i : Nat} {s : State}
    (h : ∀ x ∈ s.symbolsFrom i m, (s.ctOrEmpty.code? x).isSome = true) :
    encodeLoop (m + n) i s =
      (writeBits (codeBits s.ctOrEmpty (s.symbolsFrom i m)) s).andThen (encodeLoop n (i + m)) := by
  induction m generalizing i s with
  | zero => simp [writeBits]
  | succ m ih =>
    rw [symbolsFrom_succ] at h ⊢
    obtain ⟨c, hc⟩ := Option.isSome_iff_exists.1 (h _ (List.mem_cons_self ..))
    rw [show m + 1 + n = (m + n) + 1 by omega, encodeLoop, hc, codeBits_cons hc, writeBits_append]
    simp only
    have hf := writeBits_frame c s
    cases hw : writeBits c s with
    | raised r t => rfl
    | ok a t =>
      rw [hw] at hf
      have hf : WriteFrame s t := hf
      simp only [Ran.andThen_ok]
      rw [ih (i := i + 1) (s := t) (by
        intro x hx
        rw [hf.symbolsFrom] at hx
        rw [hf.ctOrEmpty]
        exact h x (List.mem_cons_of_mem _ hx)), hf.symbolsFrom, hf.ctOrEmpty, show i + 1 + m = i + (m + 1) by omega]

/-- Both bytes of BW_CLOSE fit: the last data byte and the trailer stand at OUT_LEN (R101). -/
theorem bwCloseBody_ok {s : State} (h : s.outLen.toNat + 2 ≤ s.outBudget.toNat) :
    ∃ t, bwCloseBody s = .ok () t.closeWriter ∧ EmittedBytes [s.partialByte, s.trailerByte] s t := by
  obtain ⟨t, ht, e⟩ := emitBytes_ok (bs := [s.partialByte, s.trailerByte]) (s := s)
    (by simp only [State.room, List.length_cons, List.length_nil]; omega)
  refine ⟨t, ?_, e⟩
  have hn : ¬ s.outBudget.toNat < s.outLen.toNat + 2 := by omega
  simp [bwCloseBody, hn, ht]

/-- What COMPRESS clears before its first stage (R116). -/
theorem compressStart_eq (s : State) : compressStart s = { s with
    outLen := 0, ft := none, tree := none, ct := none, bwOpen := false, bwAcc := 0, bwNbits := 0, bitCount := 0 } := by
  simp only [compressStart, State.invalidateAll, State.invalidateFt, State.invalidateTreeCodes, State.invalidateTree,
    State.invalidateCodes, State.freshWriter]

/-! ### Bytes of a closed stream (R76) -/

theorem byteBits_bitsValue {bs : List Bool} (h : bs.length = 8) : byteBits (BitVec.ofNat 8 (bitsValue bs)) = bs := by
  apply List.ext_getElem
  · simp [h]
  · intro i h1 h2
    simp only [byteBits, List.getElem_map, List.getElem_range, BitVec.getLsbD_ofNat, bitsValue_testBit]
    have h3 : i < 8 := by simpa using h1
    rw [List.getElem?_reverse (by omega)]
    have h4 : bs.length - 1 - (7 - i) = i := by omega
    have h5 : 7 - i < 8 := by omega
    simp [h4, h5, h2]

theorem byteBits_inj {a b : Byte} (h : byteBits a = byteBits b) : a = b := by
  apply BitVec.eq_of_getLsbD_eq
  intro i hi
  have h1 : (byteBits a)[7 - i]'(by simp; omega) = (byteBits b)[7 - i]'(by simp; omega) := by simp [h]
  simp only [byteBits, List.getElem_map, List.getElem_range] at h1
  rwa [show 7 - (7 - i) = i by omega] at h1

theorem bytesBits_inj {as bs : List Byte} (h : bytesBits as = bytesBits bs) : as = bs := by
  induction as generalizing bs with
  | nil =>
    cases bs with
    | nil => rfl
    | cons b bs => have := congrArg List.length h; simp at this; omega
  | cons a as ih =>
    cases bs with
    | nil => have := congrArg List.length h; simp at this
    | cons b bs =>
      rw [bytesBits_cons, bytesBits_cons] at h
      obtain ⟨h1, h2⟩ := List.append_inj h (by simp)
      rw [byteBits_inj h1, ih h2]

/-- The bits of the packed bytes: the bits, and zeros up to the end of the last byte (R52). -/
theorem packBytes_bits (bits : List Bool) :
    bytesBits (packBytes bits) = bits ++ List.replicate (8 - bits.length % 8) false ∧
      (packBytes bits).length = bits.length / 8 + 1 := by
  match bits with
  | b7 :: b6 :: b5 :: b4 :: b3 :: b2 :: b1 :: b0 :: rest =>
    obtain ⟨h1, h2⟩ := packBytes_bits rest
    rw [packBytes, bytesBits_cons, byteBits_bitsValue rfl, h1]
    have e : (b7 :: b6 :: b5 :: b4 :: b3 :: b2 :: b1 :: b0 :: rest).length = rest.length + 8 := by simp
    rw [e, List.length_cons, h2]
    refine ⟨by simp, by omega⟩
  | [] => exact ⟨by decide, by decide⟩
  | [a] => exact ⟨by rw [packBytes, bytesBits_cons, byteBits_bitsValue] <;> simp, by simp [packBytes]⟩
  | [a, b] => exact ⟨by rw [packBytes, bytesBits_cons, byteBits_bitsValue] <;> simp, by simp [packBytes]⟩
  | [a, b, c] => exact ⟨by rw [packBytes, bytesBits_cons, byteBits_bitsValue] <;> simp, by simp [packBytes]⟩
  | [a, b, c, d] => exact ⟨by rw [packBytes, bytesBits_cons, byteBits_bitsValue] <;> simp, by simp [packBytes]⟩
  | [a, b, c, d, e] => exact ⟨by rw [packBytes, bytesBits_cons, byteBits_bitsValue] <;> simp, by simp [packBytes]⟩
  | [a, b, c, d, e, f] =>
    exact ⟨by rw [packBytes, bytesBits_cons, byteBits_bitsValue] <;> simp, by simp [packBytes]⟩
  | [a, b, c, d, e, f, g] =>
    exact ⟨by rw [packBytes, bytesBits_cons, byteBits_bitsValue] <;> simp, by simp [packBytes]⟩

theorem streamOf_length (bits : List Bool) : (streamOf bits).length = bits.length / 8 + 2 := by
  simp [streamOf, (packBytes_bits bits).2]

/-- From a writer with no pending bits, writing bits and closing leaves their stream (R102, R76). -/
theorem write_close {s t : State} {bits : List Bool} (h0 : s.bwNbits = 0) (w : WroteBits bits s t)
    (hb : t.outLen.toNat + 2 ≤ t.outBudget.toNat) :
    ∃ v : State, bwCloseBody t = .ok () v.closeWriter ∧ v.bitCount = s.bitCount + bits.length ∧
      v.outLen.toNat = s.outLen.toNat + (streamOf bits).length ∧ BytesAt v.outAt s.outLen.toNat (streamOf bits) ∧
      ∀ a, a < s.outLen.toNat ∨ v.outLen.toNat ≤ a → v.outAt a = s.outAt a := by
  obtain ⟨v, hv, e⟩ := bwCloseBody_ok hb
  have hz : s.bwNbits.val = 0 := by rw [h0]; rfl
  have l1 := w.outLen_eq
  have l2 := w.nbits_eq
  have l3 := e.outLen_eq
  have l4 := w.bits_eq
  have hp : s.pendingBits = [] := by simp [State.pendingBits, hz]
  rw [hz] at l1 l2 l4
  rw [hp] at l4
  simp only [Nat.zero_add, List.nil_append, List.length_cons, List.length_nil] at l1 l2 l3 l4
  have hlen := streamOf_length bits
  have hs : t.outBytes s.outLen.toNat (bits.length / 8) ++ [t.partialByte] = packBytes bits := by
    apply bytesBits_inj
    rw [bytesBits_append, (packBytes_bits bits).1, bytesBits_cons, bytesBits_nil, List.append_nil, partialByte_bits,
      ← List.append_assoc, l4, l2]
  have hget : streamOf bits =
      t.outBytes s.outLen.toNat (bits.length / 8) ++ [t.partialByte, t.trailerByte] := by
    rw [streamOf, ← hs, List.append_assoc]
    simp [State.trailerByte, l2]
  refine ⟨v, hv, by rw [e.frame, ← w.bitCount_eq], by omega, ?_, ?_⟩
  · intro k hk
    rw [hlen] at hk
    simp only [hget]
    by_cases hk1 : k < bits.length / 8
    · rw [List.getElem_append_left (by simpa using hk1), e.out_frame _ (.inl (by omega))]
      simp [State.outBytes]
    · rw [List.getElem_append_right (by simpa using hk1)]
      simp only [outBytes_length]
      have := e.bytes_at (k - bits.length / 8) (by simp; omega)
      rw [← this, l1]
      congr 1
      omega
  · intro a ha
    rw [e.out_frame a (by simp; omega), w.out_frame a (by omega)]

end Sys2Proof.Machine
end

