-- ==== Sys2Proof/Laws/Decompressor.lean ====
section
/-! SUPPORT. The shape of a tree and the codes it fixes, the decode walk over a code, and the opening of a stream that
carries given bits. -/

namespace Sys2Proof.Machine

variable {t : Tree}

/-! ### Shapes and codes (R113) -/

/-- Every entry of a tree has a shape. -/
theorem Tree.Ok.exists_shape (h : t.Ok) {i : Nat} (hi : i < t.nodes.length) : ∃ sh, t.HasShape sh i := by
  induction i using Nat.strong_induction_on with
  | _ i ih =>
    have hn : t.nodes[i]? = some t.nodes[i] := List.getElem?_eq_getElem hi
    have hb := h.below i _ hn
    cases hni : t.nodes[i] with
    | leaf x f => exact ⟨.leaf x f, by rw [Tree.HasShape, hn, hni]⟩
    | internal f l r =>
      rw [hni] at hb hn
      have hl := hb l (by cases r <;> simp [Node.children])
      obtain ⟨a, ha⟩ := ih l hl (by omega)
      cases r with
      | none => exact ⟨.one f a, l, hn, ha⟩
      | some r =>
        have hr := hb r (by simp [Node.children])
        obtain ⟨b, hb⟩ := ih r hr (by omega)
        exact ⟨.two f a b, l, r, hn, ha, hb⟩

/-- The symbol at the end of a path in a shape. -/
def Shape.leafAt : Shape → Code → Option Word
  | .leaf x _, [] => some x
  | .leaf _ _, _ :: _ => none
  | .one _ _, [] => none
  | .one _ a, b :: bs => if b then none else a.leafAt bs
  | .two _ _ _, [] => none
  | .two _ a c, b :: bs => if b then c.leafAt bs else a.leafAt bs

/-- The shape fixes which leaf a path reaches. -/
theorem Tree.HasShape.reach {sh : Shape} {i : Nat} (h : t.HasShape sh i) (c : Code) (x : Word) :
    (∃ f, t.reach i c = some (.leaf x f)) ↔ sh.leafAt c = some x := by
  induction sh generalizing i c with
  | leaf y g =>
    have h : t.nodes[i]? = some (.leaf y g) := h
    cases c with
    | nil =>
      simp only [Tree.reach, h, Option.some.injEq, Node.leaf.injEq, Shape.leafAt]
      constructor
      · rintro ⟨f, h1, -⟩; exact h1
      · intro h1; exact ⟨g, h1, rfl⟩
    | cons b bs => simp [Tree.reach, h, Node.child, Shape.leafAt]
  | one g a ih =>
    obtain ⟨l, hn, ha⟩ := h
    cases c with
    | nil => simp [Tree.reach, hn, Shape.leafAt]
    | cons b bs => cases b <;> simp [Tree.reach, hn, Node.child, Shape.leafAt, ih ha]
  | two g a b iha ihb =>
    obtain ⟨l, r, hn, ha, hb⟩ := h
    cases c with
    | nil => simp [Tree.reach, hn, Shape.leafAt]
    | cons d bs => cases d <;> simp [Tree.reach, hn, Node.child, Shape.leafAt, iha ha, ihb hb]

/-- Trees of one shape have the same codes. -/
theorem Tree.HasWholeShape.isCode {sh : Shape} (h : t.HasWholeShape (some sh)) (x : Word) (c : Code) :
    t.IsCode x c ↔ sh.leafAt c = some x := by
  obtain ⟨r, hr, hs⟩ := h
  rw [← hs.reach]
  unfold Tree.IsCode
  constructor
  · rintro ⟨r', f, hr', h⟩
    rw [hr] at hr'
    cases hr'
    exact ⟨f, h⟩
  · rintro ⟨f, h⟩
    exact ⟨r, f, hr, h⟩

/-- The entries and the symbols of a subtree are distinct, and each is reached below it. -/
theorem Tree.Ok.shape_spec (h : t.Ok) {r : Nat} (hr : t.root = some r) {sh : Shape} {p : Code} {i : Nat}
    (hp : t.reachIdx r p = some i) (hs : t.HasShape sh i) :
    (∃ L : List Nat, L.Nodup ∧ L.length = sh.size ∧ ∀ j ∈ L, j < t.nodes.length ∧ ∃ d, t.reachIdx r (p ++ d) = some j) ∧
      sh.syms.Nodup ∧ ∀ x ∈ sh.syms, ∃ d, t.IsCode x (p ++ d) := by
  induction sh generalizing p i with
  | leaf x f =>
    have hn : t.nodes[i]? = some (.leaf x f) := hs
    obtain ⟨hi, -⟩ := List.getElem?_eq_some_iff.1 hn
    refine ⟨⟨[i], by simp, rfl, ?_⟩, by simp [Shape.syms], ?_⟩
    · intro j hj
      have : j = i := by simpa using hj
      subst this
      exact ⟨hi, [], by simpa using hp⟩
    · intro y hy
      have : y = x := by simpa [Shape.syms] using hy
      subst this
      exact ⟨[], Tree.IsCode.iff.2 ⟨r, i, f, hr, by simpa using hp, hn⟩⟩
  | one f a ih =>
    obtain ⟨l, hn, ha⟩ := hs
    obtain ⟨hi, -⟩ := List.getElem?_eq_some_iff.1 hn
    have hl : t.reachIdx r (p ++ [false]) = some l := by
      rw [Tree.reachIdx_append, hp]
      simp [Tree.reachIdx, hn, Node.child]
    obtain ⟨⟨L, h1, h2, h3⟩, h4, h5⟩ := ih hl ha
    refine ⟨⟨i :: L, ?_, by simp [h2, Shape.size], ?_⟩, h4, ?_⟩
    · refine List.nodup_cons.2 ⟨?_, h1⟩
      intro hm
      obtain ⟨-, d, hd⟩ := h3 i hm
      have := h.path_unique hr hp hd
      simp at this
    · intro j hj
      rcases List.mem_cons.1 hj with rfl | hj
      · exact ⟨hi, [], by simpa using hp⟩
      · obtain ⟨hj1, d, hd⟩ := h3 j hj
        exact ⟨hj1, [false] ++ d, by simpa using hd⟩
    · intro x hx
      obtain ⟨d, hd⟩ := h5 x hx
      exact ⟨[false] ++ d, by simpa using hd⟩
  | two f a b iha ihb =>
    obtain ⟨l, k, hn, ha, hb⟩ := hs
    obtain ⟨hi, -⟩ := List.getElem?_eq_some_iff.1 hn
    have hl : t.reachIdx r (p ++ [false]) = some l := by
      rw [Tree.reachIdx_append, hp]
      simp [Tree.reachIdx, hn, Node.child]
    have hk : t.reachIdx r (p ++ [true]) = some k := by
      rw [Tree.reachIdx_append, hp]
      simp [Tree.reachIdx, hn, Node.child]
    obtain ⟨⟨L, h1, h2, h3⟩, h4, h5⟩ := iha hl ha
    obtain ⟨⟨M, g1, g2, g3⟩, g4, g5⟩ := ihb hk hb
    refine ⟨⟨i :: (L ++ M), ?_, by simp [h2, g2, Shape.size], ?_⟩, ?_, ?_⟩
    · refine List.nodup_cons.2 ⟨?_, List.nodup_append.2 ⟨h1, g1, ?_⟩⟩
      · intro hm
        rcases List.mem_append.1 hm with hm | hm
        · obtain ⟨-, d, hd⟩ := h3 i hm
          have := h.path_unique hr hp hd
          simp at this
        · obtain ⟨-, d, hd⟩ := g3 i hm
          have := h.path_unique hr hp hd
          simp at this
      · rintro j hj j' hj' rfl
        obtain ⟨-, d, hd⟩ := h3 j hj
        obtain ⟨-, d', hd'⟩ := g3 j hj'
        have := h.path_unique hr hd hd'
        simp at this
    · intro j hj
      rcases List.mem_cons.1 hj with rfl | hj
      · exact ⟨hi, [], by simpa using hp⟩
      · rcases List.mem_append.1 hj with hj | hj
        · obtain ⟨hj1, d, hd⟩ := h3 j hj
          exact ⟨hj1, [false] ++ d, by simpa using hd⟩
        · obtain ⟨hj1, d, hd⟩ := g3 j hj
          exact ⟨hj1, [true] ++ d, by simpa using hd⟩
    · refine List.nodup_append.2 ⟨h4, g4, ?_⟩
      rintro x hx x' hx' rfl
      obtain ⟨d, hd⟩ := h5 x hx
      obtain ⟨d', hd'⟩ := g5 x hx'
      have := h.code_unique hd hd'
      simp at this
    · intro x hx
      rcases List.mem_append.1 hx with hx | hx
      · obtain ⟨d, hd⟩ := h5 x hx
        exact ⟨[false] ++ d, by simpa using hd⟩
      · obtain ⟨d, hd⟩ := g5 x hx
        exact ⟨[true] ++ d, by simpa using hd⟩

/-- The shape of a tree: its root is internal, its symbols are distinct and are leaves, and it needs no more entries
than the tree has. -/
theorem Tree.Ok.whole_shape (h : t.Ok) {r : Nat} (hr : t.root = some r) :
    ∃ sh, t.HasWholeShape (some sh) ∧ sh.isInternal = true ∧ sh.syms.Nodup ∧ sh.size ≤ t.nodes.length ∧
      ∀ x ∈ sh.syms, x ∈ t.nodes.filterMap Node.sym? := by
  have hrl := h.root_last hr
  obtain ⟨sh, hs⟩ := h.exists_shape (i := r) (by omega)
  obtain ⟨⟨L, h1, h2, h3⟩, h4, h5⟩ := h.shape_spec hr (p := []) rfl hs
  refine ⟨sh, ⟨r, hr, hs⟩, ?_, h4, ?_, ?_⟩
  · obtain ⟨f, l, c, hi⟩ := h.root_internal r hr
    cases sh with
    | leaf x g => rw [Tree.HasShape, hi] at hs; cases hs
    | one f a => rfl
    | two f a b => rfl
  · rw [← h2]
    have : L.Subperm (List.range t.nodes.length) :=
      h1.subperm fun j hj => List.mem_range.2 (h3 j hj).1
    simpa using this.length_le
  · intro x hx
    obtain ⟨d, hd⟩ := h5 x hx
    obtain ⟨r', j, f, -, -, hj⟩ := Tree.IsCode.iff.1 hd
    exact List.mem_filterMap.2 ⟨_, List.mem_of_getElem? hj, rfl⟩

/-! ### The decode walk (R118) -/

/-- The valid bits from BR_BITPOS on, as a list. -/
def State.bitsAhead (s : State) (n : Nat) : List Bool := (List.range n).map fun j => s.streamBit (s.brBitPos + j)

theorem bitsAhead_succ (s : State) (n : Nat) :
    s.bitsAhead (n + 1) = s.streamBit s.brBitPos :: (s.skipBits 1).bitsAhead n := by
  simp only [State.bitsAhead, List.range_succ_eq_map, List.map_cons, List.map_map, Nat.add_zero]
  congr 1
  apply List.map_congr_left
  intro j _
  simp only [Function.comp, Nat.succ_eq_add_one, State.skipBits_brBitPos, streamBit_skipBits]
  congr 1
  omega

theorem DecodeFrame.streamBit {s u : State} (h : DecodeFrame s u) (k : Nat) : u.streamBit k = s.streamBit k := by
  unfold DecodeFrame at h; rw [h]; rfl

/-- One bit of the walk, to an internal entry (R118). -/
theorem decodeLoop_internal {root left cur nxt k l : Nat} {n : Node} {f : Word} {c : Option Nat} {s : State}
    (hb : s.brBitPos < s.brTotal) (hn : t.nodes[cur]? = some n)
    (hc : n.child (s.streamBit s.brBitPos) = some nxt) (hm : t.nodes[nxt]? = some (.internal f l c)) :
    decodeLoop t root (left + 1) cur k s = decodeLoop t root left nxt k (s.skipBits 1) := by
  rcases readBit_cases s with ⟨h, -⟩ | ⟨-, hr⟩
  · omega
  · simp only [decodeLoop, hr, Ran.bind_ok, State.nodeAt_eq _ t cur n hn, hc, State.nodeAt_eq _ t nxt _ hm]

/-- One bit of the walk, to a leaf (R118). -/
theorem decodeLoop_leaf {root left cur nxt k : Nat} {n : Node} {x f : Word} {s : State}
    (hb : s.brBitPos < s.brTotal) (hn : t.nodes[cur]? = some n)
    (hc : n.child (s.streamBit s.brBitPos) = some nxt) (hm : t.nodes[nxt]? = some (.leaf x f)) :
    decodeLoop t root (left + 1) cur k s =
      if k = s.cfg.symCap then raise .capacityExceeded k (s.skipBits 1)
      else decodeLoop t root left root (k + 1) (((s.skipBits 1).setSym k x).setSymCount (k + 1)) := by
  rcases readBit_cases s with ⟨h, -⟩ | ⟨-, hr⟩
  · omega
  · simp only [decodeLoop, hr, Ran.bind_ok, State.nodeAt_eq _ t cur n hn, hc, State.nodeAt_eq _ t nxt _ hm]
    rfl

/-- The walk along a path that ends at an internal entry: only BR_BITPOS moves. -/
theorem decodeLoop_path (h : t.Ok) {root left cur j k : Nat} {path rest : List Bool} {s : State} {f : Word}
    {l : Nat} {c : Option Nat} (hs : s.bitsAhead (path.length + left) = path ++ rest)
    (hb : s.brBitPos + path.length + left ≤ s.brTotal) (hp : t.reachIdx cur path = some j)
    (hj : t.nodes[j]? = some (.internal f l c)) :
    decodeLoop t root (path.length + left) cur k s = decodeLoop t root left j k (s.skipBits path.length) := by
  induction path generalizing cur s with
  | nil =>
    cases hp
    simp [State.skipBits]
  | cons b bs ih =>
    rw [List.length_cons, show bs.length + 1 + left = (bs.length + left) + 1 by omega] at hs ⊢
    rw [bitsAhead_succ, List.cons_append, List.cons.injEq] at hs
    obtain ⟨hbit, hs⟩ := hs
    simp only [Tree.reachIdx] at hp
    cases hn : t.nodes[cur]? with
    | none => simp [hn] at hp
    | some n =>
      rw [hn] at hp
      simp only [Option.bind_some] at hp
      cases hc : n.child b with
      | none => simp [hc] at hp
      | some nxt =>
        simp only [hc] at hp
        have hlt := h.child_lt_root hn (Node.child_mem hc)
        have hm : t.nodes[nxt]? = some t.nodes[nxt] := List.getElem?_eq_getElem (by omega)
        have hmi : ∃ f' l' c', t.nodes[nxt] = .internal f' l' c' := by
          cases bs with
          | nil =>
            simp only [Tree.reachIdx, Option.some.injEq] at hp
            subst hp
            rw [hm] at hj
            exact ⟨f, l, c, by simpa using hj⟩
          | cons b' bs' =>
            cases hnn : t.nodes[nxt] with
            | leaf x g => simp [Tree.reachIdx, hm, hnn, Node.child] at hp
            | internal f' l' c' => exact ⟨f', l', c', rfl⟩
        obtain ⟨f', l', c', hmi⟩ := hmi
        rw [hmi] at hm
        rw [decodeLoop_internal (by simp at hb; omega) hn (by rw [hbit]; exact hc) hm, ih hs (by simp at hb ⊢; omega) hp, skipBits_skipBits, Nat.add_comm 1]

/-- The walk along a code from the root: it writes the symbol and is back at the root (R118). -/
theorem decodeLoop_code (h : t.Ok) {root left k : Nat} {code rest : List Bool} {x : Word} {s : State}
    (hr : t.root = some root) (hc : t.IsCode x code) (hs : s.bitsAhead (code.length + left) = code ++ rest)
    (hb : s.brBitPos + code.length + left ≤ s.brTotal) (hk : k < s.cfg.symCap) :
    decodeLoop t root (code.length + left) root k s =
      decodeLoop t root left root (k + 1) (((s.skipBits code.length).setSym k x).setSymCount (k + 1)) := by
  obtain ⟨r, j, f, hr', hj, hl⟩ := Tree.IsCode.iff.1 hc
  rw [hr] at hr'
  cases hr'
  rcases List.eq_nil_or_concat code with rfl | ⟨path, b, rfl⟩
  · exact absurd rfl (h.code_ne_nil hc)
  · rw [List.concat_eq_append] at hs hj hb ⊢
    obtain ⟨i, n, hi, hn, hcb⟩ := reachIdx_snoc hj
    have hni : ∃ f l c, n = .internal f l c := by
      cases n with
      | leaf y g => simp [Node.child] at hcb
      | internal f l c => exact ⟨f, l, c, rfl⟩
    obtain ⟨f', l', c', rfl⟩ := hni
    have e : (path ++ [b]).length + left = path.length + (left + 1) := by simp; omega
    rw [e] at hs ⊢
    have hs' : s.bitsAhead (path.length + (left + 1)) = path ++ ([b] ++ rest) := by rw [hs]; simp
    rw [decodeLoop_path h hs' (by simp at hb; omega) hi hn]
    have hbit : (s.skipBits path.length).streamBit (s.skipBits path.length).brBitPos = b := by
      have h1 : (s.bitsAhead (path.length + (left + 1)))[path.length]? = some b := by
        rw [hs', List.getElem?_append_right (by omega)]
        simp
      rw [streamBit_skipBits]
      simpa [State.bitsAhead] using h1
    rw [decodeLoop_leaf (by simp at hb ⊢; omega) hn (by rw [hbit]; exact hcb) hl, if_neg (by simp; omega), skipBits_skipBits]
    simp

/-- SYM_MEM after the symbols of codes were written from index `k` on, with SYM_COUNT and BR_BITPOS (R118). -/
def State.decoded (s : State) (k : Nat) : List (Word × Code) → State
  | [] => s
  | (x, c) :: codes => (((s.skipBits c.length).setSym k x).setSymCount (k + 1)).decoded (k + 1) codes

/-- The walk along codes from the root (R118). -/
theorem decodeLoop_codes (h : t.Ok) {root left k : Nat} {codes : List (Word × Code)} {rest : List Bool} {s : State}
    (hr : t.root = some root) (hc : ∀ p ∈ codes, t.IsCode p.1 p.2)
    (hs : s.bitsAhead ((codes.flatMap Prod.snd).length + left) = codes.flatMap Prod.snd ++ rest)
    (hb : s.brBitPos + (codes.flatMap Prod.snd).length + left ≤ s.brTotal) (hk : k + codes.length ≤ s.cfg.symCap) :
    decodeLoop t root ((codes.flatMap Prod.snd).length + left) root k s =
      decodeLoop t root left root (k + codes.length) (s.decoded k codes) := by
  induction codes generalizing k s with
  | nil => simp [State.decoded]
  | cons p codes ih =>
    obtain ⟨x, c⟩ := p
    simp only [List.flatMap_cons, List.length_append, List.length_cons, List.append_assoc] at hs hb hk ⊢
    rw [Nat.add_assoc] at hs ⊢
    rw [decodeLoop_code (x := x) (code := c) h hr (hc (x, c) List.mem_cons_self) hs (by omega) (by omega)]
    have hs' : (((s.skipBits c.length).setSym k x).setSymCount (k + 1)).bitsAhead
        ((codes.flatMap Prod.snd).length + left) = codes.flatMap Prod.snd ++ rest := by
      have h1 := congrArg (List.drop c.length) hs
      rw [List.drop_left] at h1
      rw [← h1]
      apply List.ext_getElem
      · simp [State.bitsAhead]
      · intro i hi1 hi2
        simp only [State.bitsAhead, List.getElem_map, List.getElem_range, List.getElem_drop]
        show s.streamBit (s.brBitPos + c.length + i) = _
        congr 1
        omega
    rw [ih (fun p hp => hc p (List.mem_cons_of_mem _ hp)) hs' ?_ ?_]
    rotate_left
    · show s.brBitPos + c.length + _ + _ ≤ s.brTotal
      omega
    · show k + 1 + codes.length ≤ s.cfg.symCap
      omega
    simp only [State.decoded]
    congr 1
    omega

theorem decoded_spec (s : State) (k : Nat) (codes : List (Word × Code)) :
    DecodeFrame s (s.decoded k codes) ∧
      (s.decoded k codes).brBitPos = s.brBitPos + (codes.flatMap Prod.snd).length ∧
      (s.decoded k codes).symCount = (if codes = [] then s.symCount else word (k + codes.length)) ∧
      ∀ i, (s.decoded k codes).symAt i =
        if k ≤ i then ((codes[i - k]?).map Prod.fst).getD (s.symAt i) else s.symAt i := by
  induction codes generalizing s k with
  | nil => exact ⟨.refl s, by simp [State.decoded], by simp [State.decoded], fun i => by simp [State.decoded]⟩
  | cons p codes ih =>
    obtain ⟨x, c⟩ := p
    obtain ⟨h1, h2, h3, h4⟩ := ih (((s.skipBits c.length).setSym k x).setSymCount (k + 1)) (k + 1)
    refine ⟨DecodeFrame.trans (t := ((s.skipBits c.length).setSym k x).setSymCount (k + 1)) rfl h1, ?_, ?_, ?_⟩
    · simp only [State.decoded, h2]
      simp
      omega
    · simp only [State.decoded, h3]
      cases codes with
      | nil => simp
      | cons q codes =>
        simp only [reduceCtorEq, if_false, List.length_cons]
        congr 1
        omega
    · intro i
      simp only [State.decoded, h4]
      have hsym : (((s.skipBits c.length).setSym k x).setSymCount (k + 1)).symAt i = if i = k then x else s.symAt i :=
        State.symAt_setSym (s.skipBits c.length) k i x
      rw [hsym]
      by_cases hki : k ≤ i
      · by_cases hik : i = k
        · subst hik; simp
        · have : k + 1 ≤ i := by omega
          have e : i - k = (i - (k + 1)) + 1 := by omega
          simp [hki, hik, this, e]
      · have h5 : ¬ k + 1 ≤ i := by omega
        have h6 : i ≠ k := by omega
        simp [hki, h5, h6]

/-- The walk of DECODE along codes and `n` bits more leaves what `DecodedTo` says (R118). -/
theorem decoded_to (codes : List (Word × Code)) (n : Nat) (s : State) :
    DecodedTo codes ((codes.flatMap Prod.snd).length + n) s (((s.setSymCount 0).decoded 0 codes).skipBits n) := by
  obtain ⟨h1, h2, h3, h4⟩ := decoded_spec (s.setSymCount 0) 0 codes
  have hc : ((s.setSymCount 0).decoded 0 codes).symCount = word codes.length := by
    rw [h3]
    split
    · next h => subst h; rfl
    · simp
  constructor
  · intro k
    show ((s.setSymCount 0).decoded 0 codes).symAt k = _
    rw [h4]
    simp
    rfl
  · unfold DecodeFrame at h1
    rw [h2, hc] at h1
    generalize (s.setSymCount 0).decoded 0 codes = u at *
    rw [h1]
    simp only [State.skipBits, State.setSymCount]
    congr 1
    omega

/-! ### Opening a stream, and the start of DECOMPRESS (R104, R119) -/

/-- BR_OPEN of a stream that stands in IN_MEM from IN_POS to IN_LEN latches its valid bits (R104, R107). -/
theorem brOpenBody_carries {s : State} {bytes : List Byte} {bits : List Bool} (h : CarriesBits bytes bits)
    (hb : BytesAt s.inAt s.inPos.toNat bytes) (hl : s.inLen.toNat = s.inPos.toNat + bytes.length)
    (hc : s.inLen.toNat ≤ s.cfg.inCap) :
    brOpenBody s = .ok () (s.clearReader.openReader s.inPos.toNat bits.length) ∧
      ∀ k b, bits[k]? = some b → (s.inAt (s.inPos.toNat + k / 8)).getLsbD (7 - k % 8) = b := by
  obtain ⟨h1, ⟨v, h2, h3, h4⟩, h5⟩ := h
  constructor
  · have hv : s.clearReader.inAt (s.inLen.toNat - 1) = v := by
      show s.inAt _ = v
      rw [List.getLast?_eq_getElem?, List.getElem?_eq_getElem (by omega)] at h2
      rw [show s.inLen.toNat - 1 = s.inPos.toNat + (bytes.length - 1) by omega, hb _ (by omega)]
      simpa using h2
    have hn : s.clearReader.streamBytes = bytes.length := by
      show s.streamBytes = _
      unfold State.streamBytes
      split <;> omega
    have e1 : s.clearReader.inLen = s.inLen := rfl
    have e2 : s.clearReader.cfg = s.cfg := rfl
    have e3 : s.clearReader.inPos = s.inPos := rfl
    simp only [brOpenBody, e1, e2, e3, hn, hv]
    rw [if_neg (by omega), if_neg (by omega), if_neg (by omega), h4]
  · intro k b hk
    obtain ⟨x, hx, hxb⟩ := h5 k b hk
    obtain ⟨hlt, hxe⟩ := List.getElem?_eq_some_iff.1 hx
    rw [hb (k / 8) hlt, hxe, hxb]

/-- What DECOMPRESS clears before its first stage (R119). -/
theorem decompressStart_eq (s : State) : decompressStart s = { s with
    inPos := 0, ft := none, tree := none, ct := none, brOpen := false, brBase := 0, brTotal := 0, brBitPos := 0 } := by
  simp only [decompressStart, State.invalidateAll, State.invalidateFt, State.invalidateTreeCodes, State.invalidateTree,
    State.invalidateCodes, State.clearReader]

end Sys2Proof.Machine
end

