-- ==== Sys2Proof/Laws/HeaderErrors.lean ====
section
/-! SUPPORT. Where the parser of a header stops: at the first byte that does not fit, at the end of the input, at a
symbol that comes twice, and at the capacity. -/

namespace Sys2Proof.Machine

variable {s : State} {pixel : Bool}

/-! ### The byte that is read next -/

/-- What reading index `q` reports when only the bytes of `ok` fit there: the input ends, or the byte does not fit
(R111). -/
def StopsAt (s : State) (q : Nat) (ok : Byte → Prop) (r : Raise) : Prop :=
  (s.inLen.toNat ≤ q ∧ r = ⟨.truncatedStream, word q⟩) ∨
  (q < s.inLen.toNat ∧ ¬ ok (s.inAt q) ∧ r = ⟨.malformedHeader, word q⟩)

theorem StopsAt.mono {q : Nat} {ok ok' : Byte → Prop} {r : Raise} (h : StopsAt s q ok r) (hi : ∀ b, ok' b → ok b) :
    StopsAt s q ok' r := by
  rcases h with h | ⟨h1, h2, h3⟩
  · exact .inl h
  · exact .inr ⟨h1, fun hb => h2 (hi _ hb), h3⟩

/-- Where the byte is not to be `c`, what is read there is not `c`. -/
theorem StopsAt.byteIn_ne {q : Nat} {ok : Byte → Prop} {r : Raise} {c : Byte} (h : StopsAt s q ok r) (hc : ok c) :
    byteIn s q ≠ .ok c := by
  rcases h with ⟨h, -⟩ | ⟨h1, h2, -⟩
  · rw [byteIn_end h]; simp
  · rw [byteIn_inside h1]
    intro e
    cases e
    exact h2 hc

theorem expectByte_stops {q : Nat} {c : Byte} {r : Raise} (h : StopsAt s q (fun b => b = c) r) :
    expectByte s q c = .error r := by
  rcases h with ⟨h, rfl⟩ | ⟨h1, h2, rfl⟩
  · simp [expectByte, byteIn_end h]
  · simp [expectByte, byteIn_inside h1, h2, parseFail]

theorem parseDec_stops {q : Nat} {r : Raise} (h : StopsAt s q (fun b => isDigit b = true) r) :
    parseDec s q = .error r := by
  rcases h with ⟨h, rfl⟩ | ⟨h1, h2, rfl⟩
  · simp [parseDec, byteIn_end h, bind, Except.bind]
  · simp [parseDec, byteIn_inside h1, h2, parseFail, bind, Except.bind]

/-- A digit that takes a number above 2^32 - 1 stops it (R109). -/
def Overflows (s : State) (q : Nat) (v : Word) (r : Raise) : Prop :=
  q < s.inLen.toNat ∧ isDigit (s.inAt q) = true ∧ 0xFFFFFFFF < 10 * v.toNat + digitValue (s.inAt q) ∧
    r = ⟨.malformedHeader, word q⟩

theorem parseDec_overflows {p : Nat} {ds : List Byte} {v : Word} {r : Raise} (h : TextAt s p ds) (hn : Numeral ds v)
    (ho : Overflows s (p + ds.length) v r) : parseDec s p = .error r := by
  obtain ⟨h1, h2, h3, rfl⟩ := ho
  rw [parseDec_along h hn, show s.inLen.toNat - (p + ds.length) = (s.inLen.toNat - (p + ds.length) - 1) + 1 by omega]
  simp [parseDigits, h2, h3, parseFail, Except.map]

/-- After a number: one more digit overflows it, or it ends there and what must follow does not. -/
theorem StopsAt.after_number {q : Nat} {v : Word} {ok : Byte → Prop} {r : Raise}
    (h : StopsAt s q (fun b => ok b ∨ MoreDigits v b) r) :
    Overflows s q v r ∨ (NoDigitAt s q ∧ StopsAt s q ok r) := by
  rcases h with ⟨h, hr⟩ | ⟨h1, h2, hr⟩
  · exact .inr ⟨.inl h, .inl ⟨h, hr⟩⟩
  · cases hd : isDigit (s.inAt q) with
    | false => exact .inr ⟨.inr hd, .inr ⟨h1, fun hb => h2 (.inl hb), hr⟩⟩
    | true =>
      refine .inl ⟨h1, hd, ?_, hr⟩
      by_contra hle
      exact h2 (.inr ⟨hd, by omega⟩)

/-! ### A number that overflows inside a node -/

/-- One more digit after the text of a node whose children are taken overflows its last number, whether or not the
node itself would be taken. -/
theorem parseNode_overflows {a : List Byte} {sh : Shape} (ht : NodeText pixel a sh) {levels p : Nat} {nodes : List Node}
    {r : Raise} (h : TextAt s p a) (hn : sh.isInternal = true → (nodes.filterMap Node.sym? ++ sh.syms).Nodup)
    (hr : nodes.length + sh.size ≤ s.cfg.nodeCap + 1) (hl : sh.height ≤ levels)
    (ho : Overflows s (p + a.length) sh.freq r) : parseNode s pixel levels p nodes = .error r := by
  cases ht with
  | @leaf a b x f hx hf =>
    obtain ⟨c, tl, e, h1, -⟩ := hx.head
    have h' : TextAt s p (a ++ byteColon :: b) := by simpa using h
    have hb : byteIn s p = .ok c := by
      rw [e] at h
      exact (h.left.left : TextAt s p (c :: tl)).byteIn
    have hsym := parseSym_text hx h'.left (fun _ => h'.noDigit (by decide)) e
    have hd := parseDec_overflows h'.right.tail hf (r := r) (by
      have e : p + a.length + 1 + b.length = p + (a ++ [byteColon] ++ b).length := by simp; omega
      rw [e]; exact ho)
    have hleaf : parseLeaf s pixel p c nodes = .error r := by
      simp only [parseLeaf, hsym, h'.right.expect, hd, bind, Except.bind]
    cases levels <;> simp [parseNode, hb, h1, hleaf, bind, Except.bind]
  | @one a b l f ha hf =>
    obtain ⟨levels, rfl⟩ : ∃ k, levels = k + 1 := ⟨levels - 1, by simp [Shape.height] at hl; omega⟩
    simp only [Shape.size, Shape.height] at hr hl
    have e : [byteOpen] ++ a ++ [byteSep, byteClose, byteColon] ++ b =
        byteOpen :: (a ++ byteSep :: byteClose :: byteColon :: b) := by simp
    rw [e] at h ho
    have hp := parseNode_text ha h.tail.left (h.tail.noDigit (by decide)) (hn rfl) (by omega) (levels := levels) (by omega)
    have h2 := h.tail.right
    have hd := parseDec_overflows h2.tail.tail.tail hf (r := r) (by
      simp only [List.length_cons, List.length_append] at ho
      exact (show p + 1 + a.length + 1 + 1 + 1 + b.length = p + (a.length + (b.length + 1 + 1 + 1) + 1) by omega) ▸ ho)
    simp only [parseNode, h.byteIn, bind, Except.bind, if_true, parseInternal, hp, h2.expect, parseRight,
      h2.tail.byteIn, pure, Except.pure, h2.tail.expect, h2.tail.tail.expect, hd]
  | @two a b c l r' f ha hb hf =>
    obtain ⟨levels, rfl⟩ : ∃ k, levels = k + 1 := ⟨levels - 1, by simp [Shape.height] at hl; omega⟩
    simp only [Shape.size, Shape.height] at hr hl
    have e : [byteOpen] ++ a ++ [byteSep] ++ b ++ [byteClose, byteColon] ++ c =
        byteOpen :: (a ++ byteSep :: (b ++ byteClose :: byteColon :: c)) := by simp
    rw [e] at h ho
    have hn := hn rfl
    simp only [Shape.syms, ← List.append_assoc] at hn
    have hpa := parseNode_text ha h.tail.left (h.tail.noDigit (by decide)) (List.nodup_append.1 hn).1 (by omega)
      (levels := levels) (by omega)
    have h2 := h.tail.right
    have h3 := h2.tail
    have hna : ((nodes ++ l.entries nodes.length).filterMap Node.sym? ++ r'.syms).Nodup := by
      rw [List.filterMap_append, Shape.entries_syms]; exact hn
    have hpb := parseNode_text hb h3.left (h3.noDigit (by decide)) hna (by simp; omega) (levels := levels) (by omega)
    have h4 := h3.right
    have hd := parseDec_overflows h4.tail.tail hf (r := r) (by
      simp only [List.length_cons, List.length_append] at ho
      exact (show p + 1 + a.length + 1 + b.length + 1 + 1 + c.length =
        p + (a.length + (b.length + (c.length + 1 + 1) + 1) + 1) by omega) ▸ ho)
    obtain ⟨d, tl, ed, hd1, hd2, -⟩ := hb.head
    have hcb : byteIn s (p + 1 + a.length + 1) = .ok d := by
      rw [ed] at h3
      exact h3.byteIn
    simp only [parseNode, h.byteIn, bind, Except.bind, if_true, parseInternal, hpa, h2.expect, parseRight, hcb, hd2,
      if_false, hpb, pure, Except.pure, h4.expect, h4.tail.expect, hd]

/-! ### An error inside a node is the error of the whole tree -/

/-- The parse of the tree at `p` ends in the error `r`. -/
def TreeStops (s : State) (pixel : Bool) (p : Nat) (r : Raise) : Prop :=
  parseNode s pixel (s.cfg.nodeCap - 1) p [] = .error r

/-- The place where a node starts: its error is the tree's, and so is an error of the open node it is the left
child of. -/
theorem NodeStarts.lift {slot : Bool} {t : List Byte} {d : Nat} {nodes : List Node} {p : Nat} {r : Raise}
    (h : NodeStarts pixel s.cfg.nodeCap slot t d nodes) (ht : TextAt s p t) :
    (parseNode s pixel (s.cfg.nodeCap - (d + 1)) (p + t.length) nodes = .error r →
      (slot = true → byteIn s (p + t.length) ≠ .ok byteClose) → TreeStops s pixel p r) ∧
    (slot = false → 0 < d →
      parseInternal s (parseNode s pixel (s.cfg.nodeCap - (d + 1))) (p + t.length - 1) nodes = .error r →
      TreeStops s pixel p r) := by
  induction h with
  | root => exact ⟨fun he _ => he, fun _ h => absurd h (by omega)⟩
  | @left slot t d nodes h hd ih =>
    obtain ⟨ih, -⟩ := ih ht.left
    have hb : byteIn s (p + t.length) = .ok byteOpen := ht.right.byteIn
    have key : parseInternal s (parseNode s pixel (s.cfg.nodeCap - (d + 1 + 1))) (p + t.length) nodes = .error r →
        TreeStops s pixel p r := by
      intro he
      apply ih
      · rw [show s.cfg.nodeCap - (d + 1) = (s.cfg.nodeCap - (d + 1 + 1)) + 1 by omega]
        simp only [parseNode, hb, bind, Except.bind, if_true]
        exact he
      · intro _
        rw [hb]
        decide
    have e : p + (t ++ [byteOpen]).length = p + t.length + 1 := by simp; omega
    refine ⟨fun he _ => key ?_, fun _ _ he => key ?_⟩
    · rw [e] at he
      simp only [parseInternal, he, bind, Except.bind]
    · rw [e] at he
      exact he
  | @right t a l d nodes h hd hl htk ih =>
    have ht' : TextAt s p (t ++ (a ++ [byteSep])) := by simpa using ht
    obtain ⟨-, ih⟩ := ih ht'.left
    refine ⟨fun he hs => ih rfl hd ?_, fun h => absurd h (by simp)⟩
    obtain ⟨v, tv⟩ : ∃ v, t.length = v + 1 := ⟨t.length - 1, by
      cases h with
      | root => omega
      | left _ _ => simp⟩
    have h2 := ht'.right
    have hp := parseNode_text hl h2.left (h2.noDigit (by decide)) htk.distinct htk.fits
      (levels := s.cfg.nodeCap - (d + 1)) (by have := htk.levels; omega)
    have e : p + (t ++ a ++ [byteSep]).length = p + t.length + a.length + 1 := by simp; omega
    rw [e] at he hs
    have e1 : p + t.length - 1 + 1 = p + t.length := by omega
    have hr : parseRight s (parseNode s pixel (s.cfg.nodeCap - (d + 1))) (p + t.length + a.length + 1)
        (nodes ++ l.entries nodes.length) = .error r := by
      unfold parseRight
      cases hb : byteIn s (p + t.length + a.length + 1) with
      | error r' =>
        have : parseNode s pixel (s.cfg.nodeCap - (d + 1)) (p + t.length + a.length + 1)
            (nodes ++ l.entries nodes.length) = .error r' := by
          cases s.cfg.nodeCap - (d + 1) <;> simp [parseNode, hb, bind, Except.bind]
        rw [this] at he
        cases he
        rfl
      | ok b =>
        have hbc : b ≠ byteClose := by
          rintro rfl
          exact hs rfl hb
        simp only [bind, Except.bind, hbc, if_false, he]
    simp only [parseInternal, e1, hp, bind, Except.bind, h2.right.expect, hr]

/-- The same, for an error of the node at the place. -/
theorem NodeStarts.node_stops {slot : Bool} {t : List Byte} {d : Nat} {nodes : List Node} {p : Nat} {r : Raise}
    (h : NodeStarts pixel s.cfg.nodeCap slot t d nodes) (ht : TextAt s p t)
    (he : parseNode s pixel (s.cfg.nodeCap - (d + 1)) (p + t.length) nodes = .error r)
    (hs : slot = true → byteIn s (p + t.length) ≠ .ok byteClose) : TreeStops s pixel p r :=
  (h.lift ht).1 he hs

/-- parseInternal from its right slot on. -/
def parseFromSlot (s : State) (parse : Nat → List Node → Except Raise (Nat × Nat × List Node)) (p l q : Nat)
    (nodes : List Node) : Except Raise (Nat × Nat × List Node) := do
  let (r, q, nodes) ← parseRight s parse q nodes
  let q ← expectByte s q byteClose
  let q ← expectByte s q byteColon
  let (f, q) ← parseDec s q
  let (i, nodes) ← allocNode s nodes (.internal f l r) p
  return (i, q, nodes)

/-- The open node a right slot belongs to: its left child is read, and what comes from the slot on decides. -/
theorem NodeStarts.slot_stops {t : List Byte} {d : Nat} {nodes : List Node} {p : Nat} {r : Raise}
    (h : NodeStarts pixel s.cfg.nodeCap true t d nodes) (ht : TextAt s p t)
    (he : ∀ p' l, parseFromSlot s (parseNode s pixel (s.cfg.nodeCap - (d + 1))) p' l (p + t.length) nodes = .error r) :
    TreeStops s pixel p r := by
  cases h with
  | @right t a l d nodes h hd hl htk =>
    have ht' : TextAt s p (t ++ (a ++ [byteSep])) := by simpa using ht
    refine (h.lift ht'.left).2 rfl hd ?_
    have hpos : 0 < t.length := by
      cases h with
      | root => omega
      | left _ _ => simp
    have h2 := ht'.right
    have hp := parseNode_text hl h2.left (h2.noDigit (by decide)) htk.distinct htk.fits
      (levels := s.cfg.nodeCap - (d + 1)) (by have := htk.levels; omega)
    have e : p + (t ++ a ++ [byteSep]).length = p + t.length + a.length + 1 := by simp; omega
    rw [e] at he
    have e1 : p + t.length - 1 + 1 = p + t.length := by omega
    simp only [parseInternal, e1, hp, bind, Except.bind, h2.right.expect]
    exact he _ _

/-- parseRight reads a right slot (R72). -/
theorem parseRight_text {d p : Nat} {nodes : List Node} {a : List Byte} (h : SlotText pixel s.cfg.nodeCap d nodes a)
    (ht : TextAt s p (a ++ [byteClose])) :
    ∃ r nodes', parseRight s (parseNode s pixel (s.cfg.nodeCap - (d + 1))) p nodes = .ok (r, p + a.length, nodes') := by
  cases h with
  | empty =>
    have hb : byteIn s p = .ok byteClose := TextAt.byteIn ht
    exact ⟨none, nodes, by simp [parseRight, hb, bind, Except.bind, pure, Except.pure]⟩
  | @node a r hr htk =>
    obtain ⟨c, tl, e, -, hc, -⟩ := hr.head
    have hb : byteIn s p = .ok c := by
      rw [e] at ht
      exact TextAt.byteIn ht
    have hp := parseNode_text hr ht.left (ht.noDigit (by decide)) htk.distinct htk.fits
      (levels := s.cfg.nodeCap - (d + 1)) (by have := htk.levels; omega)
    exact ⟨some (nodes.length + r.size - 1), nodes ++ r.entries nodes.length, by
      simp only [parseRight, hb, bind, Except.bind, hc, if_false, hp, pure, Except.pure]⟩

/-- No node starts here. -/
theorem parseNode_start_stops {levels q : Nat} {nodes : List Node} {r : Raise} (h : StopsAt s q (StartsNode pixel) r) :
    parseNode s pixel levels q nodes = .error r := by
  rcases h with ⟨h, rfl⟩ | ⟨h1, h2, rfl⟩
  · cases levels <;> simp [parseNode, byteIn_end h, bind, Except.bind]
  · unfold StartsNode at h2
    rw [not_or] at h2
    obtain ⟨ho, h2⟩ := h2
    have hs : parseSym s pixel q (s.inAt q) = .error ⟨.malformedHeader, word q⟩ := by
      cases pixel with
      | false =>
        have h2 : ¬ (s.inAt q ≠ byteSep ∧ s.inAt q ≠ byteClose ∧ s.inAt q ≠ byteEnd) := h2
        have : s.inAt q = byteSep ∨ s.inAt q = byteClose ∨ s.inAt q = byteEnd := by
          by_contra hn
          simp only [not_or] at hn
          exact h2 hn
        simp [parseSym, this, parseFail]
      | true =>
        have h2 : ¬ isDigit (s.inAt q) = true := h2
        simp [parseSym, h2, parseFail]
    have hl : parseLeaf s pixel q (s.inAt q) nodes = .error ⟨.malformedHeader, word q⟩ := by
      simp only [parseLeaf, hs, bind, Except.bind]
    cases levels <;> simp [parseNode, byteIn_inside h1, ho, hl, bind, Except.bind]

/-- A leaf whose symbol is read: the rest decides. -/
theorem parseNode_leaf_stops {levels p : Nat} {nodes : List Node} {a : List Byte} {x : Word} {r : Raise}
    (hx : SymText pixel a x) (ht : TextAt s p a) (he : ∀ c tl, a = c :: tl → parseLeaf s pixel p c nodes = .error r) :
    parseNode s pixel levels p nodes = .error r := by
  obtain ⟨c, tl, e, h1, -⟩ := hx.head
  have hb : byteIn s p = .ok c := by rw [e] at ht; exact ht.byteIn
  cases levels <;> simp [parseNode, hb, h1, he c tl e, bind, Except.bind]

/-! ### The top of a header -/

/-- Only the root starts outside every node. -/
theorem NodeStarts.root_text {cap : Nat} {slot : Bool} {t : List Byte} {nodes : List Node}
    (h : NodeStarts pixel cap slot t 0 nodes) : t = [] := by
  generalize hd : (0 : Nat) = d at h
  cases h with
  | root => rfl
  | left _ _ => omega
  | right _ hp _ _ => omega

theorem NodeStarts.second {cap : Nat} {slot : Bool} {t : List Byte} {d : Nat} {nodes : List Node}
    (h : NodeStarts pixel cap slot t d nodes) (hd : 0 < d) :
    1 < cap ∧ ((t = [byteOpen] ∧ d = 1 ∧ slot = false) ∨ ∃ b tl, t = byteOpen :: b :: tl ∧ b ≠ byteSep) := by
  induction h with
  | root => omega
  | @left slot t d nodes h hc ih =>
    refine ⟨by omega, ?_⟩
    rcases Nat.eq_zero_or_pos d with h0 | hpos
    · subst h0
      obtain rfl := h.root_text
      exact .inl ⟨rfl, rfl, rfl⟩
    · rcases (ih hpos).2 with ⟨rfl, -⟩ | ⟨b, tl, rfl, hb⟩
      · exact .inr ⟨byteOpen, [], rfl, by decide⟩
      · exact .inr ⟨b, tl ++ [byteOpen], by simp, hb⟩
  | @right t a l d nodes h hp hl htk ih =>
    refine ⟨(ih hp).1, .inr ?_⟩
    rcases (ih hp).2 with ⟨rfl, -⟩ | ⟨b, tl, rfl, hb⟩
    · obtain ⟨c, tl, rfl, hc, -⟩ := hl.head
      exact ⟨c, tl ++ [byteSep], by simp, hc⟩
    · exact ⟨b, tl ++ a ++ [byteSep], by simp, hb⟩

/-- The top-level tree stops where its root node does, when it is not the null tree. -/
theorem parseTop_stops {p : Nat} {r : Raise} (h : TreeStops s pixel p r) (hc : 1 < s.cfg.nodeCap)
    (h1 : byteIn s p = .ok byteOpen) (h2 : byteIn s (p + 1) ≠ .ok byteSep) : parseTop s pixel p = .error r := by
  unfold TreeStops at h
  simp only [parseTop, h1, bind, Except.bind, ne_eq, not_true, if_false, parseTree]
  cases hb : byteIn s (p + 1) with
  | ok b =>
    have : b ≠ byteSep := by
      rintro rfl
      exact h2 hb
    simp only [this, if_false, h]
  | error r' =>
    have hn : ∀ levels nodes, parseNode s pixel levels (p + 1) nodes = .error r' := by
      intro levels nodes
      cases levels <;> simp [parseNode, hb, bind, Except.bind]
    rw [show s.cfg.nodeCap - 1 = (s.cfg.nodeCap - 2) + 1 by omega] at h
    simp only [parseNode, h1, bind, Except.bind, if_true, parseInternal, hn] at h
    cases h
    rfl

/-- The same, for an error found from a place on where a node starts. -/
theorem NodeStarts.top_stops {slot : Bool} {t a : List Byte} {d : Nat} {nodes : List Node} {p : Nat} {r : Raise}
    (h : NodeStarts pixel s.cfg.nodeCap slot t d nodes) (hd : 0 < d) (ht : TextAt s p (t ++ a))
    (ha : 1 < d ∨ slot = true ∨ ∃ c tl, a = c :: tl ∧ c ≠ byteSep) (hr : TreeStops s pixel p r) :
    parseTop s pixel p = .error r := by
  obtain ⟨hc, h2⟩ := h.second hd
  rcases h2 with ⟨rfl, rfl, rfl⟩ | ⟨b, tl, rfl, hb⟩
  · rcases ha with ha | ha | ⟨c, tl, rfl, hcs⟩
    · omega
    · simp at ha
    · have ht : TextAt s p (byteOpen :: c :: tl) := ht
      refine parseTop_stops hr hc ht.byteIn ?_
      rw [ht.tail.byteIn]
      simpa using hcs
  · have ht : TextAt s p (byteOpen :: b :: (tl ++ a)) := by simpa using ht
    refine parseTop_stops hr hc ht.byteIn ?_
    rw [ht.tail.byteIn]
    simpa using hb

/-- A top-level tree that is cut short or goes wrong after `t` (R111). -/
theorem TopNext.stops {t : List Byte} {ok : Byte → Prop} {p : Nat} {r : Raise}
    (h : TopNext pixel s.cfg.nodeCap t ok) (hc : 1 < s.cfg.nodeCap) (ht : TextAt s p t) (hs : StopsAt s (p + t.length) ok r) :
    parseTop s pixel p = .error r := by
  cases h with
  | first =>
    simp only [List.length_nil, Nat.add_zero] at hs
    rcases hs with ⟨h, rfl⟩ | ⟨h1, h2, rfl⟩
    · simp [parseTop, byteIn_end h, bind, Except.bind]
    · simp [parseTop, byteIn_inside h1, h2, parseFail, bind, Except.bind]
  | second =>
    have h : NodeStarts pixel s.cfg.nodeCap false [byteOpen] 1 [] := NodeStarts.root.left hc
    refine parseTop_stops (h.node_stops ht (parseNode_start_stops (hs.mono fun b hb => .inl hb)) (by simp)) hc ht.byteIn
      (hs.byteIn_ne (.inr rfl))
  | nullSep =>
    have := expectByte_stops hs
    simp only [List.length_cons, List.length_nil] at this
    simp [parseTop, ht.byteIn, ht.tail.byteIn, bind, Except.bind, parseTree, this]
  | nullClose =>
    have := expectByte_stops hs
    simp only [List.length_cons, List.length_nil] at this
    simp [parseTop, ht.byteIn, ht.tail.byteIn, bind, Except.bind, parseTree, ht.tail.tail.expect, pure, Except.pure,
      this]
  | @left _ d nodes h hd =>
    refine h.top_stops (a := []) (by omega) (by simpa using ht) (.inl hd) (h.node_stops ht (parseNode_start_stops hs) ?_)
    simp
  | @right _ d nodes h =>
    have hd : 0 < d := by cases h; assumption
    exact h.top_stops (a := []) hd (by simpa using ht) (.inr (.inl rfl)) (h.node_stops ht
      (parseNode_start_stops (hs.mono fun b hb => .inl hb)) fun _ => hs.byteIn_ne (.inr rfl))
  | @symbol slot t d nodes a x h hd hx =>
    obtain ⟨c, tl, e, h1, h2, h3, -⟩ := hx.head
    rw [List.length_append, ← Nat.add_assoc] at hs
    refine h.top_stops hd ht (.inr (.inr ⟨c, tl, e, h2⟩)) (h.node_stops ht.left
      (parseNode_leaf_stops hx ht.right fun c' tl' e' => ?_) fun _ => ?_)
    · cases pixel with
      | false =>
        have := parseSym_text hx ht.right (by simp) e'
        simp only [parseLeaf, this, bind, Except.bind, expectByte_stops (hs.mono fun b hb => .inl hb)]
      | true =>
        have hs' : StopsAt s (p + t.length + a.length) (fun b => b = byteColon ∨ MoreDigits x b) r :=
          hs.mono fun b hb => hb.imp id fun h => ⟨rfl, h⟩
        rcases hs'.after_number with ho | ⟨hnd, he⟩
        · have := parseDec_overflows ht.right hx ho
          obtain ⟨d', tl'', e'', hd'⟩ := Numeral.head (v := x) hx
          rw [e'] at e''
          cases e''
          simp [parseLeaf, parseSym, hd', this, bind, Except.bind]
        · have := parseSym_text hx ht.right (fun _ => hnd) e'
          simp only [parseLeaf, this, bind, Except.bind, expectByte_stops he]
    · have hb : byteIn s (p + t.length) = .ok c := by
        have := ht.right
        rw [e] at this
        exact this.byteIn
      rw [hb]
      simpa using h3
  | @label slot t d nodes a x h hd hx =>
    obtain ⟨c, tl, e, h1, h2, h3, -⟩ := hx.head
    rw [List.append_assoc] at ht
    refine h.top_stops hd ht (.inr (.inr ⟨c, tl ++ [byteColon], by simp [e], h2⟩)) (h.node_stops ht.left
      (parseNode_leaf_stops hx ht.right.left fun c' tl' e' => ?_) fun _ => ?_)
    · have hsym := parseSym_text hx ht.right.left (fun _ => ht.right.noDigit (by decide)) e'
      have hq : p + (t ++ a ++ [byteColon]).length = p + t.length + a.length + 1 := by simp; omega
      rw [hq] at hs
      simp only [parseLeaf, hsym, bind, Except.bind, ht.right.right.expect, parseDec_stops hs]
    · have hb : byteIn s (p + t.length) = .ok c := by
        have := ht.right
        rw [e] at this
        exact this.byteIn
      rw [hb]
      simpa using h3
  | @leftDone t d nodes a l h hd hl htk =>
    obtain ⟨c, tl, e, h2, -⟩ := hl.head
    rw [List.length_append, ← Nat.add_assoc] at hs
    refine h.top_stops hd ht (.inr (.inr ⟨c, tl, e, h2⟩)) ((h.lift ht.left).2 rfl hd ?_)
    have hpos : 0 < t.length := by
      cases h with
      | root => omega
      | left _ _ => simp
    have e1 : p + t.length - 1 + 1 = p + t.length := by omega
    have hlev : l.height ≤ s.cfg.nodeCap - (d + 1) := by have := htk.levels; omega
    rcases hs.after_number with ho | ⟨hnd, he⟩
    · have := parseNode_overflows hl ht.right (fun _ => htk.distinct) (Nat.le_succ_of_le htk.fits) hlev ho
      simp only [parseInternal, e1, this, bind, Except.bind]
    · have := parseNode_text hl ht.right hnd htk.distinct htk.fits hlev
      simp only [parseInternal, e1, this, bind, Except.bind, expectByte_stops he]
  | @rightDone t d nodes a l h hl htk =>
    have hd : 0 < d := by cases h; assumption
    obtain ⟨c, tl, e, -, hc, -⟩ := hl.head
    rw [List.length_append, ← Nat.add_assoc] at hs
    refine h.top_stops hd ht (.inr (.inl rfl)) (h.slot_stops ht.left fun p' l' => ?_)
    have hb : byteIn s (p + t.length) = .ok c := by
      have := ht.right
      rw [e] at this
      exact this.byteIn
    have hlev : l.height ≤ s.cfg.nodeCap - (d + 1) := by have := htk.levels; omega
    rcases hs.after_number with ho | ⟨hnd, he⟩
    · have := parseNode_overflows hl ht.right (fun _ => htk.distinct) (Nat.le_succ_of_le htk.fits) hlev ho
      simp only [parseFromSlot, parseRight, hb, hc, if_false, this, bind, Except.bind]
    · have := parseNode_text hl ht.right hnd htk.distinct htk.fits hlev
      simp only [parseFromSlot, parseRight, hb, hc, if_false, this, bind, Except.bind, pure, Except.pure,
        expectByte_stops he]
  | @closed t d nodes a h ha =>
    have hd : 0 < d := by cases h; assumption
    rw [List.append_assoc] at ht
    refine h.top_stops hd ht (.inr (.inl rfl)) (h.slot_stops ht.left fun p' l' => ?_)
    obtain ⟨r', nodes', hp⟩ := parseRight_text ha ht.right
    have hq : p + (t ++ a ++ [byteClose]).length = p + t.length + a.length + 1 := by simp; omega
    rw [hq] at hs
    simp only [parseFromSlot, hp, bind, Except.bind, ht.right.right.expect, expectByte_stops hs]
  | @closedColon t d nodes a h ha =>
    have hd : 0 < d := by cases h; assumption
    have ht : TextAt s p (t ++ (a ++ [byteClose] ++ [byteColon])) := by simpa using ht
    refine h.top_stops hd ht (.inr (.inl rfl)) (h.slot_stops ht.left fun p' l' => ?_)
    obtain ⟨r', nodes', hp⟩ := parseRight_text ha ht.right.left
    have hq : p + (t ++ a ++ [byteClose, byteColon]).length = p + t.length + a.length + 1 + 1 := by simp; omega
    rw [hq] at hs
    have h3 : TextAt s (p + t.length + a.length) [byteClose, byteColon] := by
      have : TextAt s (p + t.length) (a ++ [byteClose, byteColon]) := by simpa using ht.right
      exact this.right
    simp only [parseFromSlot, hp, bind, Except.bind, h3.expect, h3.tail.expect, parseDec_stops hs]
  | @done _ sh hi hn htk =>
    obtain ⟨d, tl, e, hd⟩ := hn.second hi
    have ho : TextAt s p (byteOpen :: d :: tl) := e ▸ ht
    have hlev : sh.height ≤ s.cfg.nodeCap - 1 := by have := htk.levels; omega
    simp only [parseTop, ho.byteIn, bind, Except.bind, ne_eq, not_true, if_false, parseTree, ho.tail.byteIn, hd]
    rcases hs.after_number with hov | ⟨hnd, he⟩
    · simp only [parseNode_overflows hn ht (fun _ => htk.distinct) (Nat.le_succ_of_le htk.fits) hlev hov]
    · simp only [parseNode_text hn ht hnd htk.distinct htk.fits hlev, pure, Except.pure, expectByte_stops he]

/-! ### The header -/

theorem NodeStarts.head {cap : Nat} {slot : Bool} {t : List Byte} {d : Nat} {nodes : List Node}
    (h : NodeStarts pixel cap slot t d nodes) (hne : t ≠ []) : ∃ tl, t = byteOpen :: tl := by
  induction h with
  | root => exact absurd rfl hne
  | @left slot t d nodes h hc ih =>
    cases t with
    | nil => exact ⟨[], rfl⟩
    | cons b t =>
      obtain ⟨tl, e⟩ := ih (by simp)
      exact ⟨tl ++ [byteOpen], by rw [e]; simp⟩
  | @right t a l d nodes h hp hl htk ih =>
    obtain ⟨tl, rfl⟩ := ih (by
      rintro rfl
      rcases (h.second hp).2 with ⟨e, -⟩ | ⟨b, tl, e, -⟩ <;> simp at e)
    exact ⟨tl ++ a ++ [byteSep], by simp⟩

theorem NodeStarts.head_pos {cap : Nat} {slot : Bool} {t : List Byte} {d : Nat} {nodes : List Node}
    (h : NodeStarts pixel cap slot t d nodes) (hd : 0 < d) : ∃ tl, t = byteOpen :: tl := by
  rcases (h.second hd).2 with ⟨e, -⟩ | ⟨b, tl, e, -⟩ <;> exact ⟨_, e⟩

theorem TopNext.head {cap : Nat} {t : List Byte} {ok : Byte → Prop} (h : TopNext pixel cap t ok) (hne : t ≠ []) :
    ∃ tl, t = byteOpen :: tl := by
  cases h with
  | first => exact absurd rfl hne
  | second => exact ⟨_, rfl⟩
  | nullSep => exact ⟨_, rfl⟩
  | nullClose => exact ⟨_, rfl⟩
  | left h hd => exact h.head_pos (by omega)
  | right h => exact h.head hne
  | symbol h hd hx => obtain ⟨tl, rfl⟩ := h.head_pos hd; exact ⟨_, rfl⟩
  | label h hd hx => obtain ⟨tl, rfl⟩ := h.head_pos hd; exact ⟨_, rfl⟩
  | leftDone h hd hl htk => obtain ⟨tl, rfl⟩ := h.head_pos hd; exact ⟨_, rfl⟩
  | rightDone h hl htk => obtain ⟨tl, rfl⟩ := h.head_pos (by cases h; assumption); exact ⟨_, rfl⟩
  | closed h ha => obtain ⟨tl, rfl⟩ := h.head_pos (by cases h; assumption); exact ⟨_, rfl⟩
  | closedColon h ha => obtain ⟨tl, rfl⟩ := h.head_pos (by cases h; assumption); exact ⟨_, rfl⟩
  | done hi hn htk =>
    obtain ⟨d, tl, e, -⟩ := hn.second hi
    exact ⟨_, e⟩

/-- A header that is cut short or goes wrong after `t` (R111). -/
theorem HeaderNext.stops {t : List Byte} {ok : Byte → Prop} {r : Raise} (h : HeaderNext s.cfg.nodeCap t ok)
    (hc : 1 < s.cfg.nodeCap) (ht : TextAt s s.inPos.toNat t) (hs : StopsAt s (s.inPos.toNat + t.length) ok r) :
    parseHeader s = .error r := by
  cases h with
  | first =>
    simp only [List.length_nil, Nat.add_zero] at hs
    rcases hs with ⟨h, rfl⟩ | ⟨h1, h2, rfl⟩
    · simp [parseHeader, byteIn_end h, bind, Except.bind]
    · rw [not_or] at h2
      simp [parseHeader, byteIn_inside h1, h2.1, h2.2, parseFail, bind, Except.bind]
  | @width _ w hn =>
    obtain ⟨d, tl, e, hd⟩ := hn.head
    have hb : byteIn s s.inPos.toNat = .ok d := by rw [e] at ht; exact ht.byteIn
    simp only [parseHeader, hb, bind, Except.bind, (isDigit_ne hd).1, if_false, hd, if_true, parsePixelSize]
    rcases hs.after_number with ho | ⟨hnd, he⟩
    · simp only [parseDec_overflows ht hn ho]
    · simp only [parseDec_text ht hn hnd, expectByte_stops he]
  | @letterX a w hn =>
    obtain ⟨d, tl, e, hd⟩ := hn.head
    have hb : byteIn s s.inPos.toNat = .ok d := by rw [e] at ht; exact ht.byteIn
    rw [List.length_append, ← Nat.add_assoc, List.length_singleton] at hs
    simp only [parseHeader, hb, bind, Except.bind, (isDigit_ne hd).1, if_false, hd, if_true, parsePixelSize,
      parseDec_text ht.left hn (ht.noDigit (by decide)), ht.right.expect, parseDec_stops hs]
  | @height a b w h hn hm =>
    obtain ⟨d, tl, e, hd⟩ := hn.head
    rw [List.append_assoc] at ht
    have hb : byteIn s s.inPos.toNat = .ok d := by rw [e] at ht; exact ht.byteIn
    have hq : s.inPos.toNat + (a ++ [byteLetterX] ++ b).length = s.inPos.toNat + a.length + 1 + b.length := by
      simp; omega
    rw [hq] at hs
    have h2 : TextAt s (s.inPos.toNat + a.length) (byteLetterX :: b) := ht.right
    simp only [parseHeader, hb, bind, Except.bind, (isDigit_ne hd).1, if_false, hd, if_true, parsePixelSize,
      parseDec_text ht.left hn (TextAt.noDigit (bs := b) ht (by decide)), h2.expect]
    rcases hs.after_number with ho | ⟨hnd, he⟩
    · simp only [parseDec_overflows h2.tail hm ho]
    · simp only [parseDec_text h2.tail hm hnd, expectByte_stops he]
  | @top pixel w h a t _ hp hn hne =>
    rw [List.length_append, ← Nat.add_assoc] at hs
    rw [parseHeader_prefix hp ht.left ?_, hn.stops hc ht.right hs]
    · rfl
    · rintro rfl
      obtain ⟨tl, rfl⟩ := hn.head (by simpa using hne)
      exact TextAt.byteIn (by simpa using ht)

/-- A node of a header that the parser does not take stops it, with the node's own error (R111). -/
theorem NodeStarts.header_stops {slot : Bool} {w h : Word} {pre t a : List Byte} {d : Nat} {nodes : List Node} {r : Raise}
    (hp : PrefixText pixel w h pre) (hn : NodeStarts pixel s.cfg.nodeCap slot t d nodes) (hc : 1 < s.cfg.nodeCap)
    (ht : TextAt s s.inPos.toNat (pre ++ (t ++ a)))
    (ha : ∃ c tl, a = c :: tl ∧ c ≠ byteSep ∧ c ≠ byteClose)
    (h0 : d = 0 → ∃ c tl, a = byteOpen :: c :: tl ∧ c ≠ byteSep)
    (hr : parseNode s pixel (s.cfg.nodeCap - (d + 1)) (s.inPos.toNat + pre.length + t.length) nodes = .error r) :
    parseHeader s = .error r := by
  obtain ⟨c, tl, e, hc1, hc2⟩ := ha
  have hb : byteIn s (s.inPos.toNat + pre.length + t.length) = .ok c := by
    have := ht.right.right
    rw [e] at this
    exact this.byteIn
  have hts := hn.node_stops ht.right.left hr (fun _ => by rw [hb]; simpa using hc2)
  have htop : parseTop s pixel (s.inPos.toNat + pre.length) = .error r := by
    rcases Nat.eq_zero_or_pos d with rfl | hd
    · obtain ⟨c', tl', rfl, hcs⟩ := h0 rfl
      obtain rfl := hn.root_text
      have ht' : TextAt s (s.inPos.toNat + pre.length) (byteOpen :: c' :: tl') := ht.right
      exact parseTop_stops hts hc ht'.byteIn (by rw [ht'.tail.byteIn]; simpa using hcs)
    · exact hn.top_stops hd ht.right (.inr (.inr ⟨c, tl, e, hc1⟩)) hts
  rw [parseHeader_prefix hp ht.left ?_, htop]
  · rfl
  · rintro rfl
    rcases Nat.eq_zero_or_pos d with rfl | hd
    · obtain ⟨c', tl', rfl, -⟩ := h0 rfl
      obtain rfl := hn.root_text
      exact TextAt.byteIn (by simpa using ht)
    · obtain ⟨tl', rfl⟩ := hn.head_pos hd
      exact TextAt.byteIn (by simpa using ht)

/-! ### Symbols that come twice, and the capacity -/

/-- A leaf whose symbol an earlier leaf has (R111). -/
theorem parseNode_twice {levels p : Nat} {nodes : List Node} {a b : List Byte} {x f : Word} (hx : SymText pixel a x)
    (hf : Numeral b f) (h : TextAt s p (a ++ [byteColon] ++ b)) (he : NoDigitAt s (p + (a ++ [byteColon] ++ b).length))
    (hm : x ∈ nodes.filterMap Node.sym?) :
    parseNode s pixel levels p nodes = .error ⟨.malformedHeader, word p⟩ := by
  refine parseNode_leaf_stops hx (h.left.left) fun c tl e => ?_
  have hany : nodes.any (Node.isLeafOf x) = true := by
    obtain ⟨n, hn, hs⟩ := List.mem_filterMap.1 hm
    rw [List.any_eq_true]
    refine ⟨n, hn, ?_⟩
    cases n with
    | leaf y g => simp [Node.sym?] at hs; simp [Node.isLeafOf, hs]
    | internal g l r => simp [Node.sym?] at hs
  rw [parseLeaf_text hx hf h he e, if_pos hany]
  rfl

theorem allocNode_full {nodes : List Node} (e : Node) (q : Nat) (h : nodes.length = s.cfg.nodeCap) :
    allocNode s nodes e q = .error ⟨.capacityExceeded, word q⟩ := by
  simp [allocNode, h, parseFail]

/-- A node whose own entry is the first that does not fit (R111). -/
theorem parseNode_full {a : List Byte} {sh : Shape} (ht : NodeText pixel a sh) {levels p : Nat} {nodes : List Node}
    (h : TextAt s p a) (he : NoDigitAt s (p + a.length)) (hn : (nodes.filterMap Node.sym? ++ sh.syms).Nodup)
    (hr : nodes.length + sh.size = s.cfg.nodeCap + 1) (hl : sh.height ≤ levels) :
    parseNode s pixel levels p nodes = .error ⟨.capacityExceeded, word p⟩ := by
  cases ht with
  | @leaf a b x f hx hf =>
    refine parseNode_leaf_stops hx (h.left.left) fun c tl e => ?_
    have hx' : x ∉ nodes.filterMap Node.sym? := by
      intro hx
      exact (List.nodup_append.1 hn).2.2 x hx x (by simp [Shape.syms]) rfl
    rw [parseLeaf_text hx hf h he e, not_any_isLeafOf hx', allocNode_full _ _ (by simp [Shape.size] at hr; omega)]
    rfl
  | @one a b l f ha hf =>
    obtain ⟨levels, rfl⟩ : ∃ k, levels = k + 1 := ⟨levels - 1, by simp [Shape.height] at hl; omega⟩
    simp only [Shape.size, Shape.height] at hr hl
    have e : [byteOpen] ++ a ++ [byteSep, byteClose, byteColon] ++ b =
        byteOpen :: (a ++ byteSep :: byteClose :: byteColon :: b) := by simp
    rw [e] at h he
    have hp := parseNode_text ha h.tail.left (h.tail.noDigit (by decide)) hn (by omega) (levels := levels) (by omega)
    have h2 := h.tail.right
    have hd := parseDec_text h2.tail.tail.tail hf (by
      simp only [List.length_cons, List.length_append] at he
      exact (show p + 1 + a.length + 1 + 1 + 1 + b.length = p + (a.length + (b.length + 1 + 1 + 1) + 1) by omega) ▸ he)
    have hfull : (nodes ++ l.entries nodes.length).length = s.cfg.nodeCap := by simp; omega
    simp only [parseNode, h.byteIn, bind, Except.bind, if_true, parseInternal, hp, h2.expect, parseRight,
      h2.tail.byteIn, pure, Except.pure, h2.tail.expect, h2.tail.tail.expect, hd, allocNode_full _ _ hfull]
  | @two a b c l r f ha hb hf =>
    obtain ⟨levels, rfl⟩ : ∃ k, levels = k + 1 := ⟨levels - 1, by simp [Shape.height] at hl; omega⟩
    simp only [Shape.size, Shape.height] at hr hl
    have e : [byteOpen] ++ a ++ [byteSep] ++ b ++ [byteClose, byteColon] ++ c =
        byteOpen :: (a ++ byteSep :: (b ++ byteClose :: byteColon :: c)) := by simp
    rw [e] at h he
    simp only [Shape.syms, ← List.append_assoc] at hn
    have hpa := parseNode_text ha h.tail.left (h.tail.noDigit (by decide)) (List.nodup_append.1 hn).1 (by omega)
      (levels := levels) (by omega)
    have h2 := h.tail.right
    have h3 := h2.tail
    have hna : ((nodes ++ l.entries nodes.length).filterMap Node.sym? ++ r.syms).Nodup := by
      rw [List.filterMap_append, Shape.entries_syms]; exact hn
    have hpb := parseNode_text hb h3.left (h3.noDigit (by decide)) hna (by simp; omega) (levels := levels) (by omega)
    have h4 := h3.right
    have hd := parseDec_text h4.tail.tail hf (by
      simp only [List.length_cons, List.length_append] at he
      exact (show p + 1 + a.length + 1 + b.length + 1 + 1 + c.length =
        p + (a.length + (b.length + (c.length + 1 + 1) + 1) + 1) by omega) ▸ he)
    obtain ⟨d, tl, ed, hd1, hd2, -⟩ := hb.head
    have hcb : byteIn s (p + 1 + a.length + 1) = .ok d := by
      rw [ed] at h3
      exact h3.byteIn
    have hfull : (nodes ++ l.entries nodes.length ++ r.entries (nodes ++ l.entries nodes.length).length).length =
        s.cfg.nodeCap := by simp; omega
    simp only [parseNode, h.byteIn, bind, Except.bind, if_true, parseInternal, hpa, h2.expect, parseRight, hcb, hd2,
      if_false, hpb, pure, Except.pure, h4.expect, h4.tail.expect, hd, allocNode_full _ _ hfull]

/-- An internal node at depth NODE_CAP (R111). -/
theorem parseNode_deep {p : Nat} {nodes : List Node} (h : byteIn s p = .ok byteOpen) :
    parseNode s pixel 0 p nodes = .error ⟨.capacityExceeded, word p⟩ := by
  simp [parseNode, h, parseFail, bind, Except.bind]

end Sys2Proof.Machine
end

