-- ==== Sys2Proof/Laws/HostPort.lean ====
section
/-! SUPPORT. Host events as steps: which event a step performs, the place of an offset, and the lanes of a word. -/

namespace Sys2Proof.Machine

/-- When the Host moves, a step is the host event. -/
theorem step_host {s : State} {e : HostEvent} {rest : List HostInput} (h : s.HostMoves e rest) :
    step s = hostEvent e { s with inbox := rest } := by
  obtain ⟨hl, early, hi, h⟩ := h
  rcases h with h | h
  · simp [step, hl, agentStep, h, hostStep, hi]
  · cases hw : s.latch <;> simp [step, hl, agentStep, hw, hostStep, State.hostFirst, hi, h]

/-- A host write of one aligned word. -/
theorem hostEvent_write {off : Offset} (h : off.toNat % 4 = 0) (v : Word) (s : State) :
    hostEvent (.write 4 off v) s = .next (s.hostWrite off v) := by
  simp [hostEvent, accessOk, h]

/-- A host read of one aligned word. -/
theorem hostEvent_read {off : Offset} (h : off.toNat % 4 = 0) (s : State) :
    hostEvent (.read 4 off) s = .next (s.hostRead off) := by
  simp [hostEvent, accessOk, h]

/-- The offset of word `k` of the SYM window (R49). -/
theorem placeAt_sym {k : Nat} (h : k < 0x40000) :
    (BitVec.ofNat 22 (0x100000 + 4 * k)).toNat % 4 = 0 ∧ placeAt (BitVec.ofNat 22 (0x100000 + 4 * k)) = .sym k := by
  have hn : (BitVec.ofNat 22 (0x100000 + 4 * k)).toNat = 0x100000 + 4 * k := by
    rw [BitVec.toNat_ofNat]; omega
  refine ⟨by omega, ?_⟩
  unfold placeAt
  rw [hn]
  dsimp only
  rw [if_neg (by omega), if_pos (by omega)]
  congr 1
  omega

/-- The offset of word `k` of the IN window (R49). -/
theorem placeAt_in {k : Nat} (h : k < 0x40000) :
    (BitVec.ofNat 22 (0x200000 + 4 * k)).toNat % 4 = 0 ∧ placeAt (BitVec.ofNat 22 (0x200000 + 4 * k)) = .inWord k := by
  have hn : (BitVec.ofNat 22 (0x200000 + 4 * k)).toNat = 0x200000 + 4 * k := by
    rw [BitVec.toNat_ofNat]; omega
  refine ⟨by omega, ?_⟩
  unfold placeAt
  rw [hn]
  dsimp only
  rw [if_neg (by omega), if_neg (by omega), if_pos (by omega)]
  congr 1
  omega

/-- The offset of word `k` of the OUT window (R49). -/
theorem placeAt_out {k : Nat} (h : k < 0x40000) :
    (BitVec.ofNat 22 (0x300000 + 4 * k)).toNat % 4 = 0 ∧ placeAt (BitVec.ofNat 22 (0x300000 + 4 * k)) = .outWord k := by
  have hn : (BitVec.ofNat 22 (0x300000 + 4 * k)).toNat = 0x300000 + 4 * k := by
    rw [BitVec.toNat_ofNat]; omega
  refine ⟨by omega, ?_⟩
  unfold placeAt
  rw [hn]
  dsimp only
  rw [if_neg (by omega), if_neg (by omega), if_neg (by omega)]
  congr 1
  omega

/-- The IN window: a write of word `k` sets its four bytes that exist, and no other (R51). -/
theorem writeLanes_in (cap k : Nat) (v : Word) (s : State) :
    writeLanes cap State.setIn s k v = { s with inMem := (writeLanes cap State.setIn s k v).inMem } ∧
    ∀ a, (writeLanes cap State.setIn s k v).inAt a =
      if a / 4 = k ∧ a < cap then v.extractLsb' (8 * (a % 4)) 8 else s.inAt a := by
  have fr : ∀ (c : Prop) [Decidable c] (t : State) (a : Nat) (b : Byte), t = { s with inMem := t.inMem } →
      (if c then t.setIn a b else t) = { s with inMem := (if c then t.setIn a b else t).inMem } := by
    intro c _ t a b ht
    split
    · rw [ht]; rfl
    · exact ht
  have rd : ∀ (c : Prop) [Decidable c] (t : State) (a b : Nat) (x : Byte),
      (if c then t.setIn b x else t).inAt a = if c ∧ a = b then x else t.inAt a := by
    intro c _ t a b x
    by_cases hc : c <;> simp [hc, State.inAt_setIn]
  simp only [writeLanes, List.foldl]
  refine ⟨fr _ _ _ _ (fr _ _ _ _ (fr _ _ _ _ (fr _ _ _ _ rfl))), ?_⟩
  intro a
  simp only [rd, laneOf]
  have h4 : a % 4 < 4 := Nat.mod_lt _ (by omega)
  by_cases hk : a / 4 = k
  · have ha : a = 4 * k + a % 4 := by omega
    have e : ∀ i, (a = 4 * k + i) ↔ a % 4 = i := by omega
    simp only [e, hk, true_and]
    generalize a % 4 = j at *
    subst ha
    interval_cases j <;> simp
  · rw [if_neg (by omega), if_neg (by omega), if_neg (by omega), if_neg (by omega), if_neg (by simp [hk])]

/-- The OUT window: a write of word `k` sets its four bytes that exist, and no other (R51). -/
theorem writeLanes_out (cap k : Nat) (v : Word) (s : State) :
    writeLanes cap State.setOut s k v = { s with outMem := (writeLanes cap State.setOut s k v).outMem } ∧
    ∀ a, (writeLanes cap State.setOut s k v).outAt a =
      if a / 4 = k ∧ a < cap then v.extractLsb' (8 * (a % 4)) 8 else s.outAt a := by
  have fr : ∀ (c : Prop) [Decidable c] (t : State) (a : Nat) (b : Byte), t = { s with outMem := t.outMem } →
      (if c then t.setOut a b else t) = { s with outMem := (if c then t.setOut a b else t).outMem } := by
    intro c _ t a b ht
    split
    · rw [ht]; rfl
    · exact ht
  have rd : ∀ (c : Prop) [Decidable c] (t : State) (a b : Nat) (x : Byte),
      (if c then t.setOut b x else t).outAt a = if c ∧ a = b then x else t.outAt a := by
    intro c _ t a b x
    by_cases hc : c <;> simp [hc, State.outAt_setOut]
  simp only [writeLanes, List.foldl]
  refine ⟨fr _ _ _ _ (fr _ _ _ _ (fr _ _ _ _ (fr _ _ _ _ rfl))), ?_⟩
  intro a
  simp only [rd, laneOf]
  have h4 : a % 4 < 4 := Nat.mod_lt _ (by omega)
  by_cases hk : a / 4 = k
  · have ha : a = 4 * k + a % 4 := by omega
    have e : ∀ i, (a = 4 * k + i) ↔ a % 4 = i := by omega
    simp only [e, hk, true_and]
    generalize a % 4 = j at *
    subst ha
    interval_cases j <;> simp
  · rw [if_neg (by omega), if_neg (by omega), if_neg (by omega), if_neg (by omega), if_neg (by simp [hk])]

/-- Byte lane `j` of a window word: the byte of the buffer, or 0 at or beyond the capacity (R51). -/
theorem lanesWord_lane (cap : Nat) (byteAt : Nat → Byte) (k : Nat) {j : Nat} (h : j < 4) :
    (lanesWord cap byteAt k).extractLsb' (8 * j) 8 = if 4 * k + j < cap then byteAt (4 * k + j) else 0 := by
  have key : ∀ b0 b1 b2 b3 : Byte, (b3 ++ b2 ++ b1 ++ b0).extractLsb' (8 * j) 8 = [b0, b1, b2, b3].getD j 0 := by
    intro b0 b1 b2 b3
    apply BitVec.eq_of_getLsbD_eq
    intro i hi
    simp only [BitVec.getLsbD_extractLsb', hi, decide_true, Bool.true_and, BitVec.getLsbD_append]
    interval_cases j
    · simp [hi]
    · have h1 : ¬ 8 + i < 8 := by omega
      simp [h1, hi]
    · have h1 : ¬ 16 + i < 8 := by omega
      have h2 : ¬ 16 + i - 8 < 8 := by omega
      have h3 : 16 + i - 8 - 8 = i := by omega
      simp [h1, h2, h3, hi]
    · have h1 : ¬ 24 + i < 8 := by omega
      have h2 : ¬ 24 + i - 8 < 8 := by omega
      have h3 : ¬ 24 + i - 8 - 8 < 8 := by omega
      have h4 : 24 + i - 8 - 8 - 8 = i := by omega
      simp [h1, h2, h3, h4]
  simp only [lanesWord]
  rw [key]
  interval_cases j <;> rfl

end Sys2Proof.Machine
end

