-- ==== Sys2Proof/Laws/PerInstr.lean ====
section
/-! SUPPORT. A statement about every command as syntax, one lemma per constructor: the value of its word
(30_encoding.md rules R63, R65). -/

/-- The word of a well-formed command is OP + 256 N: OP stands in bits 7:0, N in bits 13:8, and every other bit
is 0. -/
def Sys2Proof.Laws.EncodedWord.Statement (i : Sys2Proof.Instr) : Prop :=
  i.wellFormed = true →
    (Sys2Proof.encode i).toNat = Sys2Proof.opcodeOf i + 256 * Sys2Proof.countOf i ∧ Sys2Proof.countOf i ≤ 32

theorem Sys2Proof.Laws.EncodedWord.nop : Sys2Proof.Laws.EncodedWord.Statement .nop := fun _ => by decide

theorem Sys2Proof.Laws.EncodedWord.clear : Sys2Proof.Laws.EncodedWord.Statement .clear := fun _ => by decide

theorem Sys2Proof.Laws.EncodedWord.fcCount : Sys2Proof.Laws.EncodedWord.Statement .fcCount := fun _ => by decide

theorem Sys2Proof.Laws.EncodedWord.qFreq : Sys2Proof.Laws.EncodedWord.Statement .qFreq := fun _ => by decide

theorem Sys2Proof.Laws.EncodedWord.tbBuild : Sys2Proof.Laws.EncodedWord.Statement .tbBuild := fun _ => by decide

theorem Sys2Proof.Laws.EncodedWord.qNode : Sys2Proof.Laws.EncodedWord.Statement .qNode := fun _ => by decide

theorem Sys2Proof.Laws.EncodedWord.ctBuild : Sys2Proof.Laws.EncodedWord.Statement .ctBuild := fun _ => by decide

theorem Sys2Proof.Laws.EncodedWord.qCode : Sys2Proof.Laws.EncodedWord.Statement .qCode := fun _ => by decide

theorem Sys2Proof.Laws.EncodedWord.bwOpen : Sys2Proof.Laws.EncodedWord.Statement .bwOpen := fun _ => by decide

theorem Sys2Proof.Laws.EncodedWord.bwWrite (n : Nat) : Sys2Proof.Laws.EncodedWord.Statement (.bwWrite n) := by
  intro h
  simp only [Sys2Proof.Instr.wellFormed, Sys2Proof.countOk, decide_eq_true_eq] at h
  obtain ⟨h1, h2⟩ := h
  refine ⟨?_, h2⟩
  interval_cases n <;> rfl

theorem Sys2Proof.Laws.EncodedWord.bwClose : Sys2Proof.Laws.EncodedWord.Statement .bwClose := fun _ => by decide

theorem Sys2Proof.Laws.EncodedWord.brOpen : Sys2Proof.Laws.EncodedWord.Statement .brOpen := fun _ => by decide

theorem Sys2Proof.Laws.EncodedWord.brRead (n : Nat) : Sys2Proof.Laws.EncodedWord.Statement (.brRead n) := by
  intro h
  simp only [Sys2Proof.Instr.wellFormed, Sys2Proof.countOk, decide_eq_true_eq] at h
  obtain ⟨h1, h2⟩ := h
  refine ⟨?_, h2⟩
  interval_cases n <;> rfl

theorem Sys2Proof.Laws.EncodedWord.tcSerialize : Sys2Proof.Laws.EncodedWord.Statement .tcSerialize := fun _ => by decide

theorem Sys2Proof.Laws.EncodedWord.tcParse : Sys2Proof.Laws.EncodedWord.Statement .tcParse := fun _ => by decide

theorem Sys2Proof.Laws.EncodedWord.encodeSyms : Sys2Proof.Laws.EncodedWord.Statement .encodeSyms := fun _ => by decide

theorem Sys2Proof.Laws.EncodedWord.compress : Sys2Proof.Laws.EncodedWord.Statement .compress := fun _ => by decide

theorem Sys2Proof.Laws.EncodedWord.decodeSyms : Sys2Proof.Laws.EncodedWord.Statement .decodeSyms := fun _ => by decide

theorem Sys2Proof.Laws.EncodedWord.decompress : Sys2Proof.Laws.EncodedWord.Statement .decompress := fun _ => by decide
end

