-- ==== Sys2Proof/Laws/Step.lean ====
section
/-! SUPPORT. Everything a step can do: an idle step, a host event, a command, or the end of an illegal word. -/

namespace Sys2Proof.Machine

/-- A host event that goes on is a read, a write or a reset (R49, R50, R135). -/
theorem hostEvent_cases {e : HostEvent} {s t : State} (h : hostEvent e s = .next t) :
    (∃ off, e = .read 4 off ∧ off.toNat % 4 = 0 ∧ t = s.hostRead off) ∨
    (∃ off v, e = .write 4 off v ∧ off.toNat % 4 = 0 ∧ t = s.hostWrite off v) ∨
    (e = .reset ∧ t = s.platformReset) := by
  cases e with
  | read bytes off =>
    by_cases hc : accessOk bytes off = true
    · rw [hostEvent, if_pos hc] at h
      obtain ⟨rfl, hm⟩ := of_decide_eq_true hc
      exact .inl ⟨off, rfl, hm, by injection h with h; exact h.symm⟩
    · rw [hostEvent, if_neg hc] at h
      exact absurd h (by simp)
  | write bytes off v =>
    by_cases hc : accessOk bytes off = true
    · rw [hostEvent, if_pos hc] at h
      obtain ⟨rfl, hm⟩ := of_decide_eq_true hc
      exact .inr (.inl ⟨off, v, rfl, hm, by injection h with h; exact h.symm⟩)
    · rw [hostEvent, if_neg hc] at h
      exact absurd h (by simp)
  | reset => exact .inr (.inr ⟨rfl, by injection h with h; exact h.symm⟩)

/-- The ways a step can go on. -/
theorem step_cases {s t : State} (h : step s = .next t) :
    s.cfg.legal = true ∧
    ((s.latch = none ∧ s.inbox = [] ∧ t = s) ∨
      (∃ e rest, s.HostMoves e rest ∧ hostEvent e { s with inbox := rest } = .next t) ∨
      (∃ w i, s.latch = some w ∧ decode w = .ok i ∧ t = (commandBody i s).finish) ∨
      (∃ w r, s.latch = some w ∧ decode w = .error r ∧ t = s.errorEntry ⟨.illegalCommand, w⟩)) := by
  by_cases hl : s.cfg.legal = true
  · rw [step, if_pos hl] at h
    refine ⟨hl, ?_⟩
    have host : ∀ hm : s.latch = none ∨ s.hostFirst = true, hostStep s = .next t →
        (s.latch = none ∧ s.inbox = [] ∧ t = s) ∨
          ∃ e rest, s.HostMoves e rest ∧ hostEvent e { s with inbox := rest } = .next t := by
      intro hm h
      cases hi : s.inbox with
      | nil =>
        refine .inl ⟨?_, rfl, ?_⟩
        · rcases hm with hm | hm
          · exact hm
          · simp [State.hostFirst, hi] at hm
        · simp only [hostStep, hi] at h
          injection h with h
          exact h.symm
      | cons x rest =>
        obtain ⟨early, e⟩ := x
        refine .inr ⟨e, rest, ⟨hl, early, hi, ?_⟩, ?_⟩
        · simpa [State.hostFirst, hi] using hm
        · simpa only [hostStep, hi] using h
    simp only [agentStep] at h
    obtain hw | ⟨w, hw⟩ : s.latch = none ∨ ∃ w, s.latch = some w := by cases s.latch <;> simp
    · simp only [hw] at h
      rcases host (.inl hw) h with h | h
      · exact .inl h
      · exact .inr (.inl h)
    · simp only [hw] at h
      by_cases hf : s.hostFirst = true
      · rw [if_pos hf] at h
        rcases host (.inr hf) h with h | h
        · exact absurd h.1 (by simp [hw])
        · exact .inr (.inl h)
      · rw [if_neg hf, engineStep] at h
        cases hd : decode w with
        | ok i =>
          simp only [hd, exec_eq] at h
          injection h with h
          exact .inr (.inr (.inl ⟨w, i, hw, hd, h.symm⟩))
        | error r =>
          simp only [hd, complete, raise, Ran.finish] at h
          injection h with h
          refine .inr (.inr (.inr ⟨w, r, hw, hd, ?_⟩))
          rw [← h, word, BitVec.ofNat_toNat, BitVec.setWidth_eq]
  · rw [step, if_neg hl] at h
    exact absurd h (by simp)

/-- What every primitive host effect keeps, a host event keeps. -/
theorem hostEvent_keeps {P : State → Prop} {s t : State} {e : HostEvent} {rest : List HostInput}
    (hm : s.HostMoves e rest) (h : hostEvent e { s with inbox := rest } = .next t)
    (inbox : ∀ (s : State) r, P s → P { s with inbox := r })
    (read : ∀ (s : State) d n, P s → P { s with readData := d, drawn := n })
    (dropped : ∀ (s : State) b n, P s → P { s with busyWr := b, drawn := n })
    (idleReg : ∀ (s : State) r v, P s → s.busy = false → P (s.writeReg r v))
    (busyReg : ∀ (s : State) v, P s → P (s.writeReg .irqEn v) ∧ P (s.writeReg .status v))
    (sym : ∀ (s : State) i v, P s → P (s.setSym i v))
    (inp : ∀ (s : State) i v, P s → P (s.setIn i v))
    (out : ∀ (s : State) i v, P s → P (s.setOut i v))
    (reset : ∀ s : State, s.cfg.legal = true → P s → P s.platformReset)
    (hs : P s) : P t := by
  have lanes : ∀ (cap : Nat) (set : State → Nat → Byte → State), (∀ s i v, P s → P (set s i v)) →
      ∀ k v (s : State), P s → P (writeLanes cap set s k v) := by
    intro cap set hset k v s h
    have one : ∀ (c : Prop) [Decidable c] (t : State) i b, P t → P (if c then set t i b else t) := by
      intro c _ t i b ht
      split
      · exact hset _ _ _ ht
      · exact ht
    simp only [writeLanes, List.foldl]
    exact one _ _ _ _ (one _ _ _ _ (one _ _ _ _ (one _ _ _ _ h)))
  rcases hostEvent_cases h with ⟨off, -, -, rfl⟩ | ⟨off, v, -, -, rfl⟩ | ⟨-, rfl⟩
  · unfold State.hostRead
    split <;> exact read _ _ _ (inbox _ _ hs)
  · have hs' := inbox s rest hs
    generalize ({ s with inbox := rest } : State) = s' at *
    unfold State.hostWrite
    split
    · unfold State.busyWrite
      split
      · exact hs'
      · exact (busyReg _ _ hs').1
      · exact (busyReg _ _ hs').2
      · split
        · exact dropped _ _ _ hs'
        · exact hs'
      all_goals split <;> exact dropped _ _ _ hs'
    · next hb =>
      unfold State.writePlace
      split
      · exact idleReg _ _ _ hs' (by simpa using hb)
      · exact hs'
      · split
        · exact sym _ _ _ hs'
        · exact hs'
      · exact lanes _ _ inp _ _ _ hs'
      · exact lanes _ _ out _ _ _ hs'
  · exact reset _ hm.1 (inbox _ _ hs)

end Sys2Proof.Machine
end

