-- ==== Sys2Proof/Tests/Slice0.lean ====
section
/-! SUPPORT. Tests of the model, with expected results from spec/95_test_vectors.md (the vector is named) or
from the encoding rules, and for each statement with hypotheses a theorem that shows a state and operands that
meet them, at the boundary values of their ranges. -/

namespace Sys2Proof.Tests

open Sys2Proof Sys2Proof.Machine

/-! ### Small states -/

/-- A block with small buffers, right after reset. -/
def small : State := State.resetOf ⟨8, 64, 64, 4, 8⟩

/-- SYM_MEM and SYM_COUNT as LOADS leaves them. -/
def withSyms (xs : List Word) (s : State) : State :=
  { s with symMem := xs.mapIdx fun i x => (i, x), symCount := word xs.length }

/-- IN_MEM and IN_LEN as LOADB leaves them. -/
def withBytes (bs : List Byte) (s : State) : State :=
  { s with inMem := bs.mapIdx fun i b => (i, b), inLen := word bs.length }

/-- The state a step ends in. -/
def ended (o : Host.Outcome State Fault Refusal) : Option State :=
  match o with
  | .next t => some t
  | .fault _ => none
  | .refused _ => none

/-- OUT_MEM as a list of bytes, when it was written from index 0 on. -/
def outList (s : State) : List Byte := s.outMem.map Prod.snd

/-- The completion registers: ERR_KIND, ERR_INFO and STATUS. -/
def completion (s : State) : Word × Word × Word := (s.readReg .errKind, s.errInfo, s.status)

def syms : State := withSyms [0x61, 0x62, 0x62] small
def ftAbb : List FtEntry := [⟨0x61, 1⟩, ⟨0x62, 2⟩]
def treeAbb : Tree := ⟨[.leaf 0x61 1, .leaf 0x62 2, .internal 3 0 (some 1)], some 2⟩
def treeAaa : Tree := ⟨[.leaf 0x61 3, .internal 3 0 none], some 1⟩
def codesAbb : CodeTable := [(0x61, [false]), (0x62, [true])]
def headerAbb : List Byte := [0x01, 0x61, 0x3A, 0x31, 0x02, 0x62, 0x3A, 0x32, 0x03, 0x3A, 0x33, 0x04]
def fileAbb : List Byte := headerAbb ++ [0x60, 0x03]

/-- The block with the tables of "abb". -/
def tables : State := { syms with ft := some ftAbb, tree := some treeAbb, ct := some codesAbb }

/-- The block with an open, empty writer. -/
def writer : State := { tables with bwOpen := true }

/-- The block with the reader open on the stream 60 03 (V45.1). -/
def reader : State :=
  { withBytes [0x60, 0x03] tables with brOpen := true, brBase := 0, brTotal := 3, brBitPos := 0 }

/-- The block with one host event that has not taken effect. -/
def hosted (e : HostEvent) : State := { tables with inbox := [⟨false, e⟩] }

/-- The same while a command is in progress. -/
def hostedBusy (e : HostEvent) : State :=
  { tables with latch := some 0x10, cmd := 0x10, inbox := [⟨true, e⟩] }

/-! ### Well-formedness -/

theorem test_wf_bwWrite_zero_refused : (Instr.bwWrite 0).wellFormed = false := by decide
theorem test_wf_bwWrite_33_refused : (Instr.bwWrite 33).wellFormed = false := by decide
theorem test_wf_brRead_zero_refused : (Instr.brRead 0).wellFormed = false := by decide
theorem test_wf_brRead_33_refused : (Instr.brRead 33).wellFormed = false := by decide
theorem test_wf_config_refused : Config.legal ⟨8, 64, 64, 4, 6⟩ = false := by decide

/-! ### Decoding: words written out from R65 -/

theorem test_decode_nop : decode 0b00000000000000000000000000000000#32 = .ok .nop := by decide
theorem test_decode_clear : decode 0b00000000000000000000000000000001#32 = .ok .clear := by decide
theorem test_decode_fcCount : decode 0b00000000000000000000000000010000#32 = .ok .fcCount := by decide
theorem test_decode_qFreq : decode 0b00000000000000000000000000010001#32 = .ok .qFreq := by decide
theorem test_decode_tbBuild : decode 0b00000000000000000000000000010010#32 = .ok .tbBuild := by decide
theorem test_decode_qNode : decode 0b00000000000000000000000000010011#32 = .ok .qNode := by decide
theorem test_decode_ctBuild : decode 0b00000000000000000000000000010100#32 = .ok .ctBuild := by decide
theorem test_decode_qCode : decode 0b00000000000000000000000000010101#32 = .ok .qCode := by decide
theorem test_decode_bwOpen : decode 0b00000000000000000000000000100000#32 = .ok .bwOpen := by decide
theorem test_decode_bwWrite : decode 0b00000000000000000000001100100001#32 = .ok (.bwWrite 3) := by decide
theorem test_decode_bwWrite_32 : decode 0b00000000000000000010000000100001#32 = .ok (.bwWrite 32) := by decide
theorem test_decode_bwClose : decode 0b00000000000000000000000000100010#32 = .ok .bwClose := by decide
theorem test_decode_brOpen : decode 0b00000000000000000000000000101000#32 = .ok .brOpen := by decide
theorem test_decode_brRead : decode 0b00000000000000000000000100101001#32 = .ok (.brRead 1) := by decide
theorem test_decode_tcSerialize : decode 0b00000000000000000000000000110000#32 = .ok .tcSerialize := by decide
theorem test_decode_tcParse : decode 0b00000000000000000000000000110001#32 = .ok .tcParse := by decide
theorem test_decode_encode : decode 0b00000000000000000000000000111000#32 = .ok .encodeSyms := by decide
theorem test_decode_compress : decode 0b00000000000000000000000000111001#32 = .ok .compress := by decide
theorem test_decode_decode : decode 0b00000000000000000000000000111100#32 = .ok .decodeSyms := by decide
theorem test_decode_decompress : decode 0b00000000000000000000000000111101#32 = .ok .decompress := by decide

/-- V40.2 to V40.6. -/
theorem test_decode_illegal :
    decode 0x00000002 = .error .unassignedOpcode ∧ decode 0x00004010 = .error .reservedBitsSet ∧
    decode 0x00000110 = .error .countNotZero ∧ decode 0x00000021 = .error .countOutOfRange ∧
    decode 0x00002121 = .error .countOutOfRange := by decide

/-! ### Commands, one step each -/

/-- V40.1. -/
theorem test_nop : (ended (exec .nop { small with ft := some [] })).map completion = some (0, 0, 0x012) := by decide

/-- V40.8. -/
theorem test_clear : (ended (exec .clear { writer with outLen := 14, bitCount := 3 })).map
    (fun t => (completion t, t.nDistinct, t.nodeCount, t.rootWord, t.bitCountWord, t.outLen)) =
    some ((0, 0, 0x002), 0, 0, 0xFFFFFFFF, 0, 14) := by decide

/-- V41.1. -/
theorem test_fcCount : (ended (exec .fcCount syms)).map (fun t => (t.ft, completion t)) =
    some (some ftAbb, (0, 0, 0x012)) := by decide

/-- V41.4. -/
theorem test_fcCount_invalid_symbol : (ended (exec .fcCount (withSyms [0x61, 0x02] tables))).map
    (fun t => (completion t, t.nDistinct)) = some ((6, 1, 0x006), 0) := by decide

/-- V41.10, at the entry of "abb". -/
theorem test_qFreq : (ended (exec .qFreq { tables with arg0 := 1 })).map
    (fun t => (t.res0, t.res1, t.res2, t.res3)) = some (0x62, 2, 0, 0) := by decide

/-- V41.11. -/
theorem test_qFreq_bad_argument : (ended (exec .qFreq { tables with arg0 := 2, res0 := 7 })).map
    (fun t => (completion t, t.res0)) = some ((10, 2, 0x0B6), 7) := by decide

/-- V42.3. -/
theorem test_tbBuild_ties : (ended (exec .tbBuild
    { small with ft := some [⟨0x61, 1⟩, ⟨0x62, 1⟩, ⟨0x63, 1⟩, ⟨0x64, 1⟩] })).map State.tree =
    some (some ⟨[.leaf 0x61 1, .leaf 0x62 1, .leaf 0x63 1, .leaf 0x64 1, .internal 2 0 (some 1),
      .internal 2 2 (some 3), .internal 4 4 (some 5)], some 6⟩) := by decide

/-- V42.4. -/
theorem test_tbBuild_merged_entry_first : (ended (exec .tbBuild
    { small with ft := some [⟨0x61, 2⟩, ⟨0x62, 3⟩, ⟨0x63, 4⟩] })).map State.tree =
    some (some ⟨[.leaf 0x61 2, .leaf 0x62 3, .leaf 0x63 4, .internal 5 0 (some 1), .internal 9 2 (some 3)],
      some 4⟩) := by decide

/-- V42.10. -/
theorem test_qNode_no_right_child : (ended (exec .qNode { small with tree := some treeAaa, arg0 := 1 })).map
    (fun t => (t.res0, t.res1, t.res2, t.res3)) = some (1, 3, 0, 0xFFFFFFFF) := by decide

/-- V42.9, at a leaf of "abb". -/
theorem test_qNode_leaf : (ended (exec .qNode { tables with arg0 := 1 })).map
    (fun t => (t.res0, t.res1, t.res2, t.res3)) = some (0, 2, 0x62, 0xFFFFFFFF) := by decide

/-- V43.3. -/
theorem test_ctBuild : (ended (exec .ctBuild { small with
      tree := some ⟨[.leaf 0x61 2, .leaf 0x62 3, .leaf 0x63 4, .internal 5 0 (some 1), .internal 9 2 (some 3)], some 4⟩ })).map
    State.ct = some (some [(0x61, [true, false]), (0x62, [true, true]), (0x63, [false])]) := by decide

/-- V43.7. -/
theorem test_qCode_window : (ended (exec .qCode
    { small with ct := some [(0x62, [true, true, false])], arg0 := 0x62, arg1 := 1 })).map
    (fun t => (t.res0, t.res1)) = some (3, 0x80000000) := by decide

/-- V43.10. -/
theorem test_qCode_absent : (ended (exec .qCode { tables with arg0 := 0x7A, res0 := 9 })).map
    (fun t => (completion t, t.res0, t.res1)) = some ((0, 0, 0x0B2), 0, 0) := by decide

/-- V44.13. -/
theorem test_bwOpen : (ended (exec .bwOpen { writer with bwAcc := 0x15, bwNbits := 5, bitCount := 5 })).map
    (fun t => (t.bwNbits.val, t.bitCountWord, t.outLen, t.bwOpen)) = some (0, 0, 0, true) := by decide

/-- V44.8. -/
theorem test_bwWrite_32 : (ended (exec (.bwWrite 32) { writer with arg0 := 0x80000001 })).map
    (fun t => (outList t, t.outLen, t.bitCountWord)) = some ([0x80, 0x00, 0x00, 0x01], 4, 32) := by decide

/-- V44.10. -/
theorem test_bwWrite_overflow : (ended (exec (.bwWrite 8) { writer with arg0 := 0xA5, outBudget := 0 })).map
    (fun t => (t.errKind, t.errInfo, t.outLen, t.bitCountWord, t.bwNbits.val)) =
    some (.streamOverflow, 0, 0, 7, 7) := by decide

/-- V44.4. -/
theorem test_bwClose : (ended (exec .bwClose { writer with bwAcc := 0x03, bwNbits := 3, bitCount := 3 })).map
    (fun t => (outList t, t.bwOpen, t.bitCountWord)) = some ([0x60, 0x03], false, 3) := by decide

/-- V44.9. -/
theorem test_bwClose_overflow : (ended (exec .bwClose { writer with outBudget := 1, outLen := 1 })).map
    (fun t => (t.errKind, t.errInfo, outList t, t.bwOpen)) = some (.streamOverflow, 1, [], true) := by decide

/-- V45.8. -/
theorem test_brOpen_unused_byte : (ended (exec .brOpen (withBytes [0x12, 0x34, 0x00] small))).map
    (fun t => (t.brOpen, t.brRemain)) = some (true, 8) := by decide

/-- V45.9. -/
theorem test_brOpen_bad_trailer : (ended (exec .brOpen (withBytes [0x60, 0x09] small))).map
    (fun t => (completion t, t.brOpen)) = some ((5, 1, 0x006), false) := by decide

/-- V45.2. -/
theorem test_brRead : (ended (exec (.brRead 3) reader)).map (fun t => (t.res0, t.brRemain, t.brHasNext)) =
    some (3, 0, false) := by decide

/-- V45.5. -/
theorem test_brRead_truncated : (ended (exec (.brRead 4) reader)).map
    (fun t => (t.errKind, t.errInfo, t.brRemain)) = some (.truncatedStream, 3, 3) := by decide

/-- V46.1. -/
theorem test_tcSerialize : (ended (exec .tcSerialize tables)).map (fun t => (outList t, t.outLen)) =
    some (headerAbb, 12) := by decide

/-- V46.5. -/
theorem test_tcSerialize_pixel : (ended (exec .tcSerialize { small with
    tree := some ⟨[.leaf 16711680 1, .leaf 255 1, .internal 2 0 (some 1)], some 2⟩
    variant := true, imgW := 2, imgH := 1 })).map outList =
    some [0x32, 0x78, 0x31, 0x02, 0x01, 0x31, 0x36, 0x37, 0x31, 0x31, 0x36, 0x38, 0x30, 0x3A, 0x31, 0x02, 0x32, 0x35,
      0x35, 0x3A, 0x31, 0x03, 0x3A, 0x32, 0x04] := by decide

/-- V46.9. -/
theorem test_tcParse : (ended (exec .tcParse (withBytes fileAbb small))).map
    (fun t => (t.tree, t.inPos, t.hdrVariant)) = some (some treeAbb, 12, false) := by decide

/-- V46.18. -/
theorem test_tcParse_duplicate : (ended (exec .tcParse (withBytes
    [0x01, 0x61, 0x3A, 0x31, 0x02, 0x61, 0x3A, 0x32, 0x03, 0x3A, 0x33, 0x04, 0x60, 0x03] small))).map completion =
    some (4, 5, 0x006) := by decide

/-- V47.14, with the codes of "abb". -/
theorem test_encode_invalid_symbol : (ended (exec .encodeSyms (withSyms [0x61, 0x7A] writer))).map
    (fun t => (t.errKind, t.errInfo, t.bitCountWord)) = some (.invalidSymbol, 1, 1) := by decide

/-- W2: the bits of "abb" are 0 1 1. -/
theorem test_encode : (ended (exec .encodeSyms writer)).map (fun t => (t.errKind, t.bwAcc, t.bwNbits.val)) =
    some (.none, 0x03, 3) := by decide

/-- V47.1. -/
theorem test_compress : (ended (exec .compress syms)).map
    (fun t => (outList t, t.outLen, t.bitCountWord, completion t)) = some (fileAbb, 14, 3, (0, 0, 0x0B2)) := by decide

/-- V47.10. -/
theorem test_compress_overflow : (ended (exec .compress { syms with outBudget := 12 })).map
    (fun t => (completion t, t.outLen, t.bitCountWord)) = some ((2, 12, 0x1B6), 12, 3) := by decide

/-- V48.22. -/
theorem test_decode_after_read : (ended (exec .decodeSyms { reader with symMem := [], brBitPos := 1 })).map
    (fun t => (t.symMem, t.symCount)) = some ([(0, 0x62), (1, 0x62)], 2) := by decide

/-- V48.21. -/
theorem test_decode_reader_closed : (ended (exec .decodeSyms tables)).map completion = some (8, 0, 0x0B6) := by decide

/-- V48.1. -/
theorem test_decompress : (ended (exec .decompress (withBytes fileAbb small))).map
    (fun t => (t.symMem, t.symCount, t.inPos, t.status)) =
    some ([(0, 0x61), (1, 0x62), (2, 0x62)], 3, 12, 0x222) := by decide

/-- V48.14: W1's file with data byte 20. -/
theorem test_decompress_malformed : (ended (exec .decompress (withBytes
    [0x01, 0x61, 0x3A, 0x33, 0x02, 0x03, 0x3A, 0x33, 0x04, 0x20, 0x03] small))).map
    (fun t => (t.errKind, t.errInfo, t.symCount, t.symMem)) =
    some (.malformedStream, 2, 2, [(0, 0x61), (1, 0x61)]) := by decide

/-! ### The machine -/

/-- V70.1. -/
theorem test_reset : (State.reset.readReg .id, State.reset.readReg .capIn, State.reset.readReg .root,
    State.reset.readReg .outBudget, State.reset.status) = (0x48554646, 262144, 0xFFFFFFFF, 262144, 0) := by decide

/-- V70.3: the word of BW_WRITE 1 runs as the first command after reset and fails with BAD_STATE. -/
theorem test_step_first_command : (ended (step (State.reset.withFetchWord 32 0x00000121))).map
    (fun t => (completion t, t.cmd)) = some ((8, 0, 0x006), 0x121) := by decide

/-- V40.3. -/
theorem test_step_illegal : (ended (step (tables.withFetchWord 32 0x00004010))).map
    (fun t => (completion t, t.ft)) = some ((9, 0x4010, 0x0B6), some ftAbb) := by decide

/-- V40.9. -/
theorem test_step_busy_cmd_write : (ended (step (hostedBusy (.write 4 0x00002C 0)))).map
    (fun t => (t.cmd, t.latch, t.status)) = some (0x10, some 0x10, 0x0B9) := by decide

/-- P1: the read of OUT[0] after W2's COMPRESS. -/
theorem test_step_window_read : (ended (step { small with
    outMem := fileAbb.mapIdx (fun i b => (i, b)), inbox := [⟨false, .read 4 0x300000⟩] })).map State.readData =
    some (some 0x313A6101) := by decide

/-- V60.4. -/
theorem test_irq : (ended (exec .nop { small with doneIe := true })).map (fun t => (t.irq, t.status)) =
    some (true, 0x1002) := by decide

/-- P4: LOADB's words, and the word of RUN. -/
theorem test_expand : (HostPseudo.run .decompress 1).expand =
    [.issue .decompress, .label 1, .rd .status, .bnz .status 1 1] ∧
    packWords fileAbb = [0x313A6101, 0x323A6202, 0x04333A03, 0x00000360] := by decide

/-! ### Witnesses: encoding and steps -/

/-- What holds of every entry of a list, by evaluating it. -/
theorem ofAll {α : Type} {p : α → Bool} {l : List α} (h : l.all p = true) : ∀ x ∈ l, p x = true := List.all_eq_true.mp h

theorem witness_DecodeInvertsEncode : (Instr.bwWrite 1).wellFormed = true ∧ (Instr.bwWrite 32).wellFormed = true ∧
    (Instr.brRead 1).wellFormed = true ∧ (Instr.brRead 32).wellFormed = true ∧ Instr.nop.wellFormed = true := by decide +kernel

theorem witness_EncodeInvertsDecode : decode 0x2021 = .ok (.bwWrite 32) ∧ decode 0x0129 = .ok (.brRead 1) := by decide +kernel

theorem witness_StepPerformsLatchedCommand : (tables.withFetchWord 32 0x10).cfg.legal = true ∧
    (tables.withFetchWord 32 0x10).latch = some 0x10 ∧ (tables.withFetchWord 32 0x10).hostFirst = false ∧
    decode 0x10 = .ok .fcCount := by decide +kernel

theorem witness_IllegalWordEndsAtOnce : (tables.withFetchWord 32 0x4010).cfg.legal = true ∧
    (tables.withFetchWord 32 0x4010).latch = some 0x4010 ∧ (tables.withFetchWord 32 0x4010).hostFirst = false ∧
    decode 0x4010 = .error .reservedBitsSet := by decide +kernel

/-- The state a command ends in; every command ends (R9). -/
def after (i : Instr) (s : State) : State := (ended (exec i s)).getD s

theorem exec_after (i : Instr) (s : State) : exec i s = .next (after i s) := by cases i <;> rfl

theorem witness_CommandsLeaveHostOwnedState : ∃ t, exec .compress tables = .next t := ⟨_, exec_after _ _⟩

theorem witness_BuffersWrittenOnlyByTheirCommands : (∃ t, exec .tbBuild tables = .next t) ∧
    (∃ t, exec .decodeSyms reader = .next t) ∧ ∃ t, exec (.bwWrite 3) writer = .next t :=
  ⟨⟨_, exec_after _ _⟩, ⟨_, exec_after _ _⟩, ⟨_, exec_after _ _⟩⟩

theorem witness_BadStateChangesNothing : small.ftValid = false ∧ small.treeValid = false ∧ small.ctValid = false ∧
    small.bwOpen = false ∧ small.brOpen = false := by decide +kernel

/-! ### Witnesses: the host port -/

/-- Any host event can be the next step of a block with no command in progress. -/
theorem hosted_moves (e : HostEvent) : (hosted e).HostMoves e [] ∧ (hosted e).busy = false :=
  ⟨⟨(by decide : Config.legal ⟨8, 64, 64, 4, 8⟩ = true), false, rfl, .inl rfl⟩, rfl⟩

/-- Any host event can be the next step of a block with a command in progress. -/
theorem hostedBusy_moves (e : HostEvent) : (hostedBusy e).HostMoves e [] ∧ (hostedBusy e).busy = true :=
  ⟨⟨(by decide : Config.legal ⟨8, 64, 64, 4, 8⟩ = true), true, rfl, .inr rfl⟩, rfl⟩

theorem witness_UnsupportedAccessRefused :
    ((hosted (.read 2 0)).HostMoves (.read 2 0) [] ∧ (2 ≠ 4 ∨ (0 : Offset).toNat % 4 ≠ 0)) ∧
    ((hosted (.write 4 0x100002 5)).HostMoves (.write 4 0x100002 5) [] ∧
      (4 ≠ 4 ∨ (0x100002 : Offset).toNat % 4 ≠ 0)) :=
  ⟨⟨(hosted_moves _).1, by decide +kernel⟩, ⟨(hosted_moves _).1, by decide +kernel⟩⟩

theorem witness_IllegalConfigurationRefused :
    ¬ (1 ≤ (State.resetOf ⟨8, 64, 64, 4, 6⟩).cfg.symCap ∧ (State.resetOf ⟨8, 64, 64, 4, 6⟩).cfg.symCap ≤ 262144 ∧
      2 ≤ (State.resetOf ⟨8, 64, 64, 4, 6⟩).cfg.inCap ∧ (State.resetOf ⟨8, 64, 64, 4, 6⟩).cfg.inCap ≤ 1048576 ∧
      2 ≤ (State.resetOf ⟨8, 64, 64, 4, 6⟩).cfg.outCap ∧ (State.resetOf ⟨8, 64, 64, 4, 6⟩).cfg.outCap ≤ 1048576 ∧
      1 ≤ (State.resetOf ⟨8, 64, 64, 4, 6⟩).cfg.maxDistinct ∧
      (State.resetOf ⟨8, 64, 64, 4, 6⟩).cfg.maxDistinct ≤ 65536 ∧
      2 ≤ (State.resetOf ⟨8, 64, 64, 4, 6⟩).cfg.nodeCap ∧
      2 * (State.resetOf ⟨8, 64, 64, 4, 6⟩).cfg.maxDistinct - 1 ≤ (State.resetOf ⟨8, 64, 64, 4, 6⟩).cfg.nodeCap ∧
      (State.resetOf ⟨8, 64, 64, 4, 6⟩).cfg.nodeCap ≤ 131072) := by decide +kernel

theorem witness_CmdWriteAcceptedOrRejected :
    ((hosted (.write 4 0x00002C 1)).HostMoves (.write 4 0x00002C 1) [] ∧
      (hosted (.write 4 0x00002C 1)).busy = false) ∧
    ((hostedBusy (.write 4 0x00002C 1)).HostMoves (.write 4 0x00002C 1) [] ∧
      (hostedBusy (.write 4 0x00002C 1)).busy = true) :=
  ⟨hosted_moves _, hostedBusy_moves _⟩

theorem witness_StatusAndIrqEnWrites :
    (hosted (.write 4 0x000028 0xE)).HostMoves (.write 4 0x000028 0xE) [] ∧
    (hostedBusy (.write 4 0x000024 3)).HostMoves (.write 4 0x000024 3) [] :=
  ⟨(hosted_moves _).1, (hostedBusy_moves _).1⟩

/-- Every operand register, and the first and the last of the read-only registers and reserved offsets. -/
theorem witness_OperandRegisterWrites :
    (∀ off ∈ ([0x020, 0x030, 0x034, 0x050, 0x054, 0x058, 0x05C, 0x060, 0x064, 0x068] : List Offset),
      (hosted (.write 4 off 0xFFFFFFFF)).HostMoves (.write 4 off 0xFFFFFFFF) [] ∧
      (hosted (.write 4 off 0xFFFFFFFF)).busy = false) ∧
    ∀ a ∈ [0x000, 0x07C, 0x080, 0x0FFFFC],
      (hosted (.write 4 (BitVec.ofNat 22 a) 5)).HostMoves (.write 4 (BitVec.ofNat 22 a) 5) [] ∧
      (BitVec.ofNat 22 a).toNat = a ∧ a % 4 = 0 ∧ (a ∈ [0x000, 0x07C] ∨ (0x080 ≤ a ∧ a < 0x100000)) ∧
      (hosted (.write 4 (BitVec.ofNat 22 a) 5)).busy = false := by
  refine ⟨fun _ _ => hosted_moves _, fun a h => ⟨(hosted_moves _).1, ?_, ?_, ?_, rfl⟩⟩ <;> revert a h <;> decide +kernel

/-- The first and the last offset of each range, with the read-only registers, the reserved offsets and the windows
beyond the capacities beside. -/
theorem witness_BusyWritesDropped :
    ∀ a ∈ [0x020, 0x068, 0x100000, 0x10001C, 0x200000, 0x20003C, 0x300000, 0x30003C, 0x000000, 0x00007C, 0x000080,
        0x0FFFFC, 0x100020, 0x1FFFFC, 0x200040, 0x2FFFFC, 0x300040, 0x3FFFFC],
      (hostedBusy (.write 4 (BitVec.ofNat 22 a) 5)).HostMoves (.write 4 (BitVec.ofNat 22 a) 5) [] ∧
      (BitVec.ofNat 22 a).toNat = a ∧ a % 4 = 0 ∧
      (hostedBusy (.write 4 (BitVec.ofNat 22 a) 5)).busy = true ∧
      ((a ∈ [0x020, 0x030, 0x034, 0x050, 0x054, 0x058, 0x05C, 0x060, 0x064, 0x068] ∨
          (0x100000 ≤ a ∧ a < 0x100000 + 4 * 8) ∨
          (0x200000 ≤ a ∧ a < 0x200000 + 64) ∨ (0x300000 ≤ a ∧ a < 0x300000 + 64)) ∨
        a ∈ [0x000, 0x07C] ∨ (0x080 ≤ a ∧ a < 0x100000) ∨
        (0x100000 + 4 * 8 ≤ a ∧ a < 0x200000) ∨ (0x200000 + 64 ≤ a ∧ a < 0x300000) ∨ 0x300000 + 64 ≤ a) := by
  intro a h
  refine ⟨(hostedBusy_moves _).1, ?_, ?_, rfl, ?_⟩ <;> revert a h <;> decide +kernel

/-- The first word, the last within the capacity of 64 bytes, the first beyond it, and the last of the window. -/
theorem witness_ByteWindowAccess :
    ∀ k ∈ [0, 15, 16, 0x3FFFF], k < 0x40000 ∧
      (∀ base ∈ [0x200000, 0x300000],
        (hosted (.write 4 (BitVec.ofNat 22 (base + 4 * k)) 0x04030201)).HostMoves
          (.write 4 (BitVec.ofNat 22 (base + 4 * k)) 0x04030201) [] ∧
        (hosted (.read 4 (BitVec.ofNat 22 (base + 4 * k)))).HostMoves (.read 4 (BitVec.ofNat 22 (base + 4 * k))) [] ∧
        (hosted (.write 4 (BitVec.ofNat 22 (base + 4 * k)) 0x04030201)).busy = false ∧
        (hosted (.read 4 (BitVec.ofNat 22 (base + 4 * k)))).busy = false) ∧
      0 < tables.cfg.inCap ∧ 63 < tables.cfg.inCap ∧ ¬ 64 < tables.cfg.inCap := by
  intro k h
  exact ⟨by revert k h; decide +kernel, fun _ _ => ⟨(hosted_moves _).1, (hosted_moves _).1, rfl, rfl⟩, by decide +kernel⟩

theorem witness_SymbolWindowAccess :
    ∀ i ∈ [0, 7, 8, 0x3FFFF], i < 0x40000 ∧
      (hosted (.write 4 (BitVec.ofNat 22 (0x100000 + 4 * i)) 9)).HostMoves
        (.write 4 (BitVec.ofNat 22 (0x100000 + 4 * i)) 9) [] ∧
      (hosted (.read 4 (BitVec.ofNat 22 (0x100000 + 4 * i)))).HostMoves
        (.read 4 (BitVec.ofNat 22 (0x100000 + 4 * i))) [] ∧
      (hosted (.write 4 (BitVec.ofNat 22 (0x100000 + 4 * i)) 9)).busy = false := by
  intro i h
  exact ⟨by revert i h; decide +kernel, (hosted_moves _).1, (hosted_moves _).1, rfl⟩

theorem witness_HostReadsHaveNoSideEffect :
    ((hosted (.read 4 0x000000)).HostMoves (.read 4 0x000000) [] ∧ (0x000000 : Offset).toNat % 4 = 0) ∧
    ((hostedBusy (.read 4 0x3FFFFC)).HostMoves (.read 4 0x3FFFFC) [] ∧ (0x3FFFFC : Offset).toNat % 4 = 0) :=
  ⟨⟨(hosted_moves _).1, by decide +kernel⟩, ⟨(hostedBusy_moves _).1, by decide +kernel⟩⟩

theorem witness_StatusReadShowsFlags :
    (hosted (.read 4 0x000028)).HostMoves (.read 4 0x000028) [] ∧
    (hostedBusy (.read 4 0x000028)).HostMoves (.read 4 0x000028) [] :=
  ⟨(hosted_moves _).1, (hostedBusy_moves _).1⟩

/-- A host event on any state of a legal configuration. -/
theorem moves (s : State) (e : HostEvent) (h : s.cfg.legal = true) :
    ({ s with inbox := [⟨true, e⟩] } : State).HostMoves e [] := ⟨h, true, rfl, .inr rfl⟩

/-- Every offset, with the tables, the reader and the count valid and not, busy where that does not matter. -/
theorem witness_RegisterReads :
    (∀ off : Offset, (hostedBusy (.read 4 off)).HostMoves (.read 4 off) []) ∧
    ((0x01C : Offset).toNat % 4 = 0 ∧ (0x0FFFFC : Offset).toNat % 4 = 0 ∧ 0x080 ≤ (0x0FFFFC : Offset).toNat ∧
      (0x0FFFFC : Offset).toNat < 0x100000) ∧
    (∀ off : Offset, ∀ s ∈ [small, tables, reader, { small with tree := some ⟨[], none⟩ }],
      ({ s with inbox := [⟨true, .read 4 off⟩] } : State).HostMoves (.read 4 off) []) ∧
    (small.busy = false ∧ small.errKind = .none ∧ small.ft = none ∧ small.tree = none ∧ small.bitCount < 2 ^ 32 ∧
      small.brOpen = false) ∧
    (tables.busy = false ∧ tables.ft = some ftAbb ∧ tables.tree = some treeAbb ∧ treeAbb.root = some 2 ∧
      (⟨[], none⟩ : Tree).root = none ∧ reader.busy = false ∧ reader.brOpen = true) := by
  refine ⟨fun _ => (hostedBusy_moves _).1, by decide +kernel, fun off s h => moves s _ ?_, by decide +kernel, by decide +kernel⟩
  simp only [List.mem_cons, List.not_mem_nil, or_false] at h
  rcases h with rfl | rfl | rfl | rfl <;> decide +kernel

theorem witness_WrbChangesOneByte : tables.cfg.legal = true ∧ tables.busy = false ∧ 0 < tables.cfg.inCap ∧
    63 < tables.cfg.inCap ∧ 0 < tables.cfg.outCap ∧ 63 < tables.cfg.outCap := by decide +kernel

theorem witness_IdleChangesNothing : tables.cfg.legal = true ∧ tables.latch = none ∧ tables.inbox = [] := by decide +kernel

theorem witness_ResetValues : (hosted .reset).HostMoves .reset [] ∧ (hostedBusy .reset).HostMoves .reset [] :=
  ⟨(hosted_moves _).1, (hostedBusy_moves _).1⟩

/-! ### Witnesses: trees, codes and streams of "abb" -/

theorem treeAbb_ok : treeAbb.Ok where
  root_eq := by decide +kernel
  root_internal := by
    rintro r ⟨⟩
    exact ⟨3, 0, some 1, rfl⟩
  below := by
    intro i n h c hc
    rcases i with _ | _ | _ | i <;> simp [treeAbb] at h <;> subst h <;> simp [Node.children] at hc; all_goals omega
  owned := by decide +kernel
  distinct := by decide +kernel

theorem treeAaa_ok : treeAaa.Ok where
  root_eq := by decide +kernel
  root_internal := by
    rintro r ⟨⟩
    exact ⟨3, 0, none, rfl⟩
  below := by
    intro i n h c hc
    rcases i with _ | _ | i <;> simp [treeAaa] at h <;> subst h <;> simp [Node.children] at hc; all_goals omega
  owned := by decide +kernel
  distinct := by decide +kernel

theorem nullTree_ok : (⟨[], none⟩ : Tree).Ok where
  root_eq := rfl
  root_internal := by rintro r ⟨⟩
  below := by simp
  owned := by decide +kernel
  distinct := by decide +kernel

def shapeAbb : Shape := .two 3 (.leaf 0x61 1) (.leaf 0x62 2)

theorem treeAbb_shape : treeAbb.HasWholeShape (some shapeAbb) := ⟨2, rfl, 0, 1, rfl, rfl, rfl⟩

theorem isCode_a : treeAbb.IsCode 0x61 [false] := ⟨2, 1, rfl, rfl⟩
theorem isCode_b : treeAbb.IsCode 0x62 [true] := ⟨2, 2, rfl, rfl⟩

theorem isStream_abb : IsStream [0x60, 0x03] [false, true, true] where
  length_eq := by decide +kernel
  data_eq := by decide +kernel
  trailer_eq := by decide +kernel

/-- The invariants hold of a block that has made tables and has a stream open. -/
theorem reader_invariants : reader.Canonical ∧ reader.StreamsOk ∧ reader.ProtocolOk ∧ reader.TablesOk where
  left := ⟨by decide +kernel, by decide +kernel, by decide +kernel, by rintro m ⟨⟩; decide +kernel⟩
  right := ⟨⟨by decide +kernel, by decide +kernel, by decide +kernel, by decide +kernel, by decide +kernel, by decide +kernel, by decide +kernel, by decide +kernel, by decide +kernel⟩,
    ⟨by rintro w ⟨⟩, by decide +kernel⟩,
    ⟨by decide +kernel, by rintro _ ⟨⟩; decide +kernel, by rintro _ ⟨⟩; decide +kernel, by rintro _ ⟨⟩; decide +kernel,
      by rintro _ ⟨⟩; exact treeAbb_ok, by rintro _ ⟨⟩; decide +kernel, by rintro _ ⟨⟩; exact ⟨treeAbb, rfl, by decide +kernel⟩⟩⟩

/-- The same block with DECODE latched, which takes a step. -/
def decoding : State := reader.withFetchWord 32 0x3C

theorem decoding_steps : ∃ t, step decoding = .next t := ⟨_, rfl⟩

theorem decoding_invariants :
    decoding.Canonical ∧ decoding.StreamsOk ∧ decoding.ProtocolOk ∧ decoding.TablesOk where
  left := ⟨reader_invariants.1.1, reader_invariants.1.2, reader_invariants.1.3, reader_invariants.1.4⟩
  right := ⟨⟨by decide +kernel, by decide +kernel, by decide +kernel, by decide +kernel, by decide +kernel, by decide +kernel, by decide +kernel, by decide +kernel, by decide +kernel⟩,
    ⟨by rintro w ⟨⟩; decide +kernel, by decide +kernel⟩,
    ⟨by decide +kernel, by rintro _ ⟨⟩; decide +kernel, by rintro _ ⟨⟩; decide +kernel, by rintro _ ⟨⟩; decide +kernel,
      by rintro _ ⟨⟩; exact treeAbb_ok, by rintro _ ⟨⟩; decide +kernel, by rintro _ ⟨⟩; exact ⟨treeAbb, rfl, by decide +kernel⟩⟩⟩

theorem witness_CanonicalFormStays : decoding.Canonical ∧ ∃ t, step decoding = .next t :=
  ⟨decoding_invariants.1, decoding_steps⟩

theorem witness_StreamsStayConsistent : decoding.StreamsOk ∧ ∃ t, step decoding = .next t :=
  ⟨decoding_invariants.2.1, decoding_steps⟩

theorem witness_ProtocolStays : decoding.ProtocolOk ∧ ∃ t, step decoding = .next t :=
  ⟨decoding_invariants.2.2.1, decoding_steps⟩

theorem witness_TablesStayConsistent : decoding.TablesOk ∧ ∃ t, step decoding = .next t :=
  ⟨decoding_invariants.2.2.2, decoding_steps⟩

theorem witness_ResetMeetsInvariants : Config.reference.legal = true ∧ Config.legal ⟨1, 2, 2, 1, 2⟩ = true := by decide +kernel

/-! ### Witnesses: FrequencyCounter, TreeBuilder, CodeTable -/

theorem witness_FcCountBuildsFrequencyTable : Encodable syms.cfg syms.variant syms.symbols ∧
    Encodable small.cfg small.variant small.symbols :=
  ⟨⟨ofAll (by decide +kernel), by decide +kernel, by decide +kernel⟩,
    ⟨ofAll (by decide +kernel), by decide +kernel, by decide +kernel⟩⟩

/-- V41.9, V41.4 and V41.8 on the small block. -/
theorem witness_FcCountErrors :
    small.cfg.symCap < ({ small with symCount := 9 } : State).symCount.toNat ∧
    ((withSyms [0x61, 0x02] small).symCount.toNat ≤ small.cfg.symCap ∧
      1 < (withSyms [0x61, 0x02] small).symCount.toNat ∧
      (∀ x ∈ (withSyms [0x61, 0x02] small).symbols.take 1, validSym x false = true) ∧
      (firstSeen ((withSyms [0x61, 0x02] small).symbols.take 1)).length ≤ small.cfg.maxDistinct ∧
      validSym ((withSyms [0x61, 0x02] small).symAt 1) false = false) ∧
    ((withSyms [5, 6, 7, 8, 9] small).symCount.toNat ≤ small.cfg.symCap ∧
      4 < (withSyms [5, 6, 7, 8, 9] small).symCount.toNat ∧
      (∀ x ∈ (withSyms [5, 6, 7, 8, 9] small).symbols.take 4, validSym x false = true) ∧
      validSym ((withSyms [5, 6, 7, 8, 9] small).symAt 4) false = true ∧
      (withSyms [5, 6, 7, 8, 9] small).symAt 4 ∉ (withSyms [5, 6, 7, 8, 9] small).symbols.take 4 ∧
      (firstSeen ((withSyms [5, 6, 7, 8, 9] small).symbols.take 4)).length = small.cfg.maxDistinct) :=
  ⟨by decide +kernel,
    ⟨by decide +kernel, by decide +kernel, ofAll (by decide +kernel), by decide +kernel, by decide +kernel⟩,
    ⟨by decide +kernel, by decide +kernel, ofAll (by decide +kernel), by decide +kernel, by decide +kernel,
      by decide +kernel⟩⟩

theorem witness_QFreqReadsEntry : small.ft = none ∧ tables.ft = some ftAbb ∧
    ftAbb[({ tables with arg0 := 1 } : State).arg0.toNat]? = some ⟨0x62, 2⟩ ∧
    ftAbb.length ≤ ({ tables with arg0 := 2 } : State).arg0.toNat := by decide +kernel

theorem witness_TbBuildMergesLeastPairs : small.ft = none ∧ tables.ft = some ftAbb ∧ 2 ≤ ftAbb.length ∧ ftAbb.length ≤ 2 ∧
    2 < 2 * ftAbb.length - 1 ∧ ({ tables with ft := some [] } : State).ft = some [] ∧
    ({ tables with ft := some [⟨0x61, 3⟩] } : State).ft = some [⟨0x61, 3⟩] := by decide +kernel

theorem witness_QNodeReadsEntry : small.tree = none ∧ tables.tree = some treeAbb ∧ treeAbb.nodes[0]? = some (.leaf 0x61 1) ∧
    treeAbb.nodes[2]? = some (.internal 3 0 (some 1)) ∧ treeAaa.nodes[1]? = some (.internal 3 0 none) ∧
    treeAbb.nodes.length ≤ ({ tables with arg0 := 3 } : State).arg0.toNat := by decide +kernel

theorem witness_CtBuildMapsLeavesToPaths : small.tree = none ∧ tables.tree = some treeAbb ∧ treeAbb.Ok ∧ treeAaa.Ok ∧
    (⟨[], none⟩ : Tree).Ok := ⟨rfl, rfl, treeAbb_ok, treeAaa_ok, nullTree_ok⟩

/-- The codes of "abb", and the commands that make them, one after another, up to ENCODE. -/
theorem witness_CodesArePrefixFree :
    (tables.tree = some treeAbb ∧ treeAbb.Ok ∧ codesAbb.code? 0x61 = some [false] ∧ codesAbb.code? 0x62 = some [true] ∧
      [false] <+: [false] ∧ treeAbb.root = some 2 ∧ treeAbb.reach 2 [true] = some (.leaf 0x62 2)) ∧
    ∃ s1 s2 s3 s4 s5, exec .fcCount syms = .next s1 ∧ s1.ft = some ftAbb ∧ exec .tbBuild s1 = .next s2 ∧
      exec .ctBuild s2 = .next s3 ∧ s3.ct = some codesAbb ∧ exec .bwOpen s3 = .next s4 ∧
      exec .encodeSyms s4 = .next s5 ∧ s5.errKind = .none :=
  ⟨⟨rfl, treeAbb_ok, by decide +kernel, by decide +kernel, List.prefix_rfl, rfl, rfl⟩,
    ⟨_, _, _, _, _, exec_after _ _, by decide +kernel, exec_after _ _, exec_after _ _, by decide +kernel, exec_after _ _,
      exec_after _ _, by decide +kernel⟩⟩

theorem witness_QCodeReadsCodeBits : small.ct = none ∧ tables.ct = some codesAbb ∧
    codesAbb.code? ({ tables with arg0 := 0x62 } : State).arg0 = some [true] ∧
    codesAbb.code? ({ tables with arg0 := 0x7A } : State).arg0 = none := by decide +kernel

/-! ### Witnesses: BitWriter and BitReader -/

/-- One bit, 32 bits that fill the budget exactly, 32 bits one byte too many, V44.10, and OUT_LEN above OUT_BUDGET with
a bit that fills no byte and with bits that fill one. -/
theorem witness_BwWriteWritesLowBits : small.bwOpen = false ∧ writer.bwOpen = true ∧
    (writer.bwNbits.val + 1) / 8 ≤ writer.room ∧
    (writer.bwNbits.val + 32) / 8 ≤ ({ writer with outBudget := 4 } : State).room ∧
    ({ writer with outBudget := 3 } : State).room < (writer.bwNbits.val + 32) / 8 ∧
    ({ writer with outBudget := 0 } : State).room < (writer.bwNbits.val + 8) / 8 ∧
    (writer.bwNbits.val + 7) / 8 ≤ ({ writer with outBudget := 1, outLen := 2 } : State).room ∧
    ({ writer with outBudget := 1, outLen := 2 } : State).room < (writer.bwNbits.val + 8) / 8 := by decide +kernel

theorem witness_BwCloseFlushesAndAppendsTrailer : small.bwOpen = false ∧ writer.bwOpen = true ∧
    ({ writer with outBudget := 2 } : State).outLen.toNat + 2 ≤ ({ writer with outBudget := 2 } : State).outBudget.toNat ∧
    ({ writer with outBudget := 1 } : State).outBudget.toNat < writer.outLen.toNat + 2 := by decide +kernel

/-- The writer after the bits 0 1 1 (V44.4). -/
def writer3 : State := { writer with bwAcc := 3, bwNbits := 3, bitCount := 3 }

theorem writer3_wrote : WroteBits [false, true, true] writer writer3 where
  outLen_eq := by decide +kernel
  nbits_eq := by decide +kernel
  bits_eq := by decide +kernel
  bitCount_eq := by decide +kernel
  out_frame _ _ := rfl
  frame := rfl

theorem witness_ClosedWriterLeavesStream : writer.bwOpen = true ∧ writer.bwNbits = 0 ∧
    WroteBits [false, true, true] writer writer3 ∧ writer3.outLen.toNat + 2 ≤ writer3.outBudget.toNat ∧
    ∃ u, exec .bwClose writer3 = .next u :=
  ⟨by decide +kernel, by decide +kernel, writer3_wrote, by decide +kernel, _, exec_after _ _⟩

/-- V45.12, V45.10, V45.9, V45.1, with a trailer of 8 and of 9 at the edge. -/
theorem witness_BrOpenLatchesStream :
    small.cfg.inCap < ({ small with inLen := 65 } : State).inLen.toNat ∧
    (withBytes [0x05] small).inLen.toNat - (withBytes [0x05] small).inPos.toNat < 2 ∧
    8 < ((withBytes [0x60, 0x09] small).inAt 1).toNat ∧ ((withBytes [0xFF, 0x08] small).inAt 1).toNat ≤ 8 ∧
    2 ≤ (withBytes [0xFF, 0x08] small).inLen.toNat - (withBytes [0xFF, 0x08] small).inPos.toNat := by decide +kernel

theorem witness_BrReadReturnsNextBits : small.brOpen = false ∧ reader.brOpen = true ∧ reader.brBitPos + 1 ≤ reader.brTotal ∧
    reader.brBitPos + 3 ≤ reader.brTotal ∧ reader.brTotal - reader.brBitPos < 4 ∧
    ({ reader with brTotal := 32 } : State).brBitPos + 32 ≤ ({ reader with brTotal := 32 } : State).brTotal := by decide +kernel

/-- A full last data byte with trailer 8, and padding bits that are not 0. -/
theorem carries_eight : CarriesBits [0xFF, 0x08] [true, true, true, true, true, true, true, true] where
  length_ge := by decide +kernel
  trailer := ⟨8, by decide +kernel⟩
  bit := by
    intro k b h
    have hk : k < 8 := (List.getElem?_eq_some_iff.1 h).1
    interval_cases k <;> cases h <;> exact ⟨0xFF, rfl, by decide +kernel⟩

theorem carries_padded : CarriesBits [0x7F, 0x03] [false, true, true] where
  length_ge := by decide +kernel
  trailer := ⟨3, by decide +kernel⟩
  bit := by
    intro k b h
    have hk : k < 3 := (List.getElem?_eq_some_iff.1 h).1
    interval_cases k <;> cases h <;> exact ⟨0x7F, rfl, by decide +kernel⟩

theorem witness_ReaderDeliversStreamBits :
    (CarriesBits [0xFF, 0x08] [true, true, true, true, true, true, true, true] ∧
      BytesAt (withBytes [0xFF, 0x08] small).inAt (withBytes [0xFF, 0x08] small).inPos.toNat [0xFF, 0x08] ∧
      (withBytes [0xFF, 0x08] small).inLen.toNat = (withBytes [0xFF, 0x08] small).inPos.toNat + 2 ∧
      (withBytes [0xFF, 0x08] small).inLen.toNat ≤ small.cfg.inCap) ∧
    CarriesBits [0x7F, 0x03] [false, true, true] ∧
    BytesAt (withBytes [0x7F, 0x03] small).inAt (withBytes [0x7F, 0x03] small).inPos.toNat [0x7F, 0x03] ∧
    IsStream [0x60, 0x03] [false, true, true] :=
  ⟨⟨carries_eight, by unfold BytesAt; decide +kernel, by decide +kernel, by decide +kernel⟩, carries_padded,
    by unfold BytesAt; decide +kernel, isStream_abb⟩

/-! ### Witnesses: TreeCodec -/

theorem witness_EmittedDecimalIsCanonical : (0xFFFFFFFF : Word) ≠ 0 ∧ (0 : Word) = 0 := by decide +kernel

/-- V46.6 at the first leaf, a budget of exactly the header, V46.7, and OUT_LEN above OUT_BUDGET. -/
theorem witness_TcSerializeWritesHeader : small.tree = none ∧
    (∃ t : Tree, ({ tables with tree := some t } : State).tree = some t ∧ t.nodes[0]? = some (.leaf 16711680 1) ∧
      validSym 16711680 tables.variant = false) ∧
    tables.tree = some treeAbb ∧ treeAbb.Ok ∧ treeAbb.HasWholeShape (some shapeAbb) ∧
    (∀ x ∈ treeAbb.nodes.filterMap Node.sym?, validSym x tables.variant = true) ∧
    (headerOf tables.variant tables.imgW tables.imgH (some shapeAbb)).length ≤
      ({ tables with outBudget := 12 } : State).room ∧
    ({ tables with outBudget := 11 } : State).room <
      (headerOf tables.variant tables.imgW tables.imgH (some shapeAbb)).length ∧
    ({ tables with outBudget := 1, outLen := 2 } : State).room <
      (headerOf tables.variant tables.imgW tables.imgH (some shapeAbb)).length :=
  ⟨rfl, ⟨⟨[.leaf 16711680 1, .leaf 255 1, .internal 2 0 (some 1)], some 2⟩, rfl, rfl, by decide +kernel⟩, rfl,
    treeAbb_ok, treeAbb_shape, ofAll (by decide +kernel), by decide +kernel, by decide +kernel, by decide +kernel⟩

/-- Digits as a number; leading zeros are allowed. -/
theorem numeral {text : List Byte} {v : Word} (h : text ≠ [] ∧ text.all isDigit = true ∧
    text.foldl (fun n c => 10 * n + digitValue c) 0 = v.toNat) : Numeral text v :=
  ⟨h.1, List.all_eq_true.1 h.2.1, h.2.2⟩

/-- The leaf a:1. -/
theorem nodeText_a : NodeText false [0x61, 0x3A, 0x31] (.leaf 0x61 1) :=
  .leaf (a := [0x61]) (b := [0x31]) ⟨by decide +kernel, by decide +kernel⟩ (numeral (by decide +kernel))

/-- The leaf b:002. -/
theorem nodeText_b : NodeText false [0x62, 0x3A, 0x30, 0x30, 0x32] (.leaf 0x62 2) :=
  .leaf (a := [0x62]) (b := [0x30, 0x30, 0x32]) ⟨by decide +kernel, by decide +kernel⟩ (numeral (by decide +kernel))

/-- The header of "abb" with leading zeros in one of its numbers. -/
def headerZeros : List Byte :=
  [0x01, 0x61, 0x3A, 0x31, 0x02, 0x62, 0x3A, 0x30, 0x30, 0x32, 0x03, 0x3A, 0x33, 0x04]

theorem headerZeros_text : HeaderText false 0 0 (some shapeAbb) headerZeros :=
  ⟨[], _, rfl, rfl, rfl, .two (c := [0x33]) nodeText_a nodeText_b (numeral (by decide +kernel))⟩

/-- The header of "abb". -/
theorem headerAbb_text : HeaderText false 0 0 (some shapeAbb) headerAbb :=
  ⟨[], _, rfl, rfl, rfl, .two (b := [0x62, 0x3A, 0x32]) (c := [0x33]) nodeText_a
    (.leaf (a := [0x62]) (b := [0x32]) ⟨by decide +kernel, by decide +kernel⟩ (numeral (by decide +kernel)))
    (numeral (by decide +kernel))⟩

/-- The header of the null tree in the pixel variant, 2 x 1. -/
def headerNull : List Byte := [0x32, 0x78, 0x31, 0x02, 0x01, 0x02, 0x03, 0x04]

theorem prefixText_pixel : PrefixText true 2 1 [0x32, 0x78, 0x31, 0x02] :=
  ⟨[0x32], [0x31], by decide +kernel, numeral (by decide +kernel), numeral (by decide +kernel)⟩

theorem headerNull_text : HeaderText true 2 1 none headerNull := ⟨_, _, rfl, prefixText_pixel, rfl⟩

theorem witness_TcParseInvertsSerialize :
    (HeaderText false 0 0 (some shapeAbb) headerZeros ∧ shapeAbb.syms.Nodup ∧ shapeAbb.size ≤ small.cfg.nodeCap ∧
      BytesAt (withBytes headerZeros small).inAt (withBytes headerZeros small).inPos.toNat headerZeros ∧
      (withBytes headerZeros small).inPos.toNat + headerZeros.length ≤ (withBytes headerZeros small).inLen.toNat ∧
      (withBytes headerZeros small).inLen.toNat ≤ small.cfg.inCap) ∧
    (HeaderText true 2 1 none headerNull ∧ BytesAt (withBytes headerNull small).inAt 0 headerNull) ∧
    (shapeAbb.isInternal = true ∧ ∀ x ∈ shapeAbb.syms, validSym x false = true) :=
  ⟨⟨headerZeros_text, by decide +kernel, by decide +kernel, by unfold BytesAt; decide +kernel, by decide +kernel,
    by decide +kernel⟩, ⟨headerNull_text, by unfold BytesAt; decide +kernel⟩, by decide +kernel, ofAll (by decide +kernel)⟩

/-- A block whose tree memory holds two, or three, entries. -/
def small2 : State := State.resetOf ⟨8, 64, 64, 1, 2⟩
def small3 : State := State.resetOf ⟨8, 64, 64, 2, 3⟩

/-- The text stands at IN_POS. -/
def Stands (s : State) (text : List Byte) : Prop :=
  BytesAt s.inAt s.inPos.toNat text ∧ s.inPos.toNat + text.length ≤ s.inLen.toNat

/-- After the first OPEN, and after the left child a:1 and its SEP. -/
theorem starts_left {cap : Nat} (h : 1 < cap) : NodeStarts false cap false [0x01] 1 [] := .left .root h

theorem starts_right {cap : Nat} (h : 2 ≤ cap) :
    NodeStarts false cap true [0x01, 0x61, 0x3A, 0x31, 0x02] 1 [.leaf 0x61 1] :=
  .right (starts_left (by omega)) (by decide) nodeText_a ⟨by decide +kernel, by simp [Shape.size]; omega, by simpa [Shape.height] using h⟩

/-- Inside a header: the input ends after a COLON, and no digit follows it; a null tree that is no root; a lone leaf
after a pixel prefix; a width above 2^32 - 1; and a first byte that starts no header. -/
theorem witness_TcParseErrors_tokens :
    (HeaderNext 8 [0x01, 0x61, 0x3A] (fun b => isDigit b = true) ∧
      Stands (withBytes [0x01, 0x61, 0x3A] small) [0x01, 0x61, 0x3A] ∧
      (withBytes [0x01, 0x61, 0x3A] small).inLen.toNat = 0 + 3 ∧
      Stands (withBytes [0x01, 0x61, 0x3A, 0x41] small) [0x01, 0x61, 0x3A] ∧ isDigit 0x41 ≠ true) ∧
    (HeaderNext 8 [0x01, 0x01] (StartsNode false) ∧
      Stands (withBytes [0x01, 0x01, 0x02] small) [0x01, 0x01] ∧ ¬ StartsNode false 0x02) ∧
    (HeaderNext 8 [0x32, 0x78, 0x31, 0x02] (fun b => b = byteOpen) ∧
      Stands (withBytes [0x32, 0x78, 0x31, 0x02, 0x35] small) [0x32, 0x78, 0x31, 0x02] ∧ (0x35 : Byte) ≠ byteOpen) ∧
    (HeaderNext 8 [0x34, 0x32, 0x39, 0x34, 0x39, 0x36, 0x37, 0x32, 0x39, 0x35]
        (fun b => b = byteLetterX ∨ MoreDigits 0xFFFFFFFF b) ∧
      Stands (withBytes [0x34, 0x32, 0x39, 0x34, 0x39, 0x36, 0x37, 0x32, 0x39, 0x35, 0x30] small)
        [0x34, 0x32, 0x39, 0x34, 0x39, 0x36, 0x37, 0x32, 0x39, 0x35] ∧
      ¬ ((0x30 : Byte) = byteLetterX ∨ MoreDigits 0xFFFFFFFF 0x30)) ∧
    (HeaderNext 8 [] (fun b => b = byteOpen ∨ isDigit b = true) ∧ Stands (withBytes [0x41] small) [] ∧
      ¬ ((0x41 : Byte) = byteOpen ∨ isDigit 0x41 = true)) := by
  unfold Stands BytesAt
  refine ⟨⟨?_, by decide +kernel, by decide +kernel, by decide +kernel, by decide +kernel⟩,
    ⟨?_, by decide +kernel, ?_⟩, ⟨?_, by decide +kernel, by decide +kernel⟩,
    ⟨.width (numeral (by decide +kernel)), by decide +kernel, ?_⟩, ⟨.first, by decide +kernel, by decide +kernel⟩⟩
  · exact .top (pixel := false) (w := 0) (h := 0) (a := []) rfl
      (.label (a := [0x61]) (x := 0x61) (starts_left (by decide)) (by decide) ⟨by decide +kernel, by decide +kernel⟩) (by simp)
  · exact .top (pixel := false) (w := 0) (h := 0) (a := []) rfl
      (.left (.left (starts_left (by decide)) (by decide)) (by decide)) (by simp)
  · unfold StartsNode
    decide +kernel
  · exact .top (t := []) prefixText_pixel .first (by simp)
  · unfold MoreDigits
    decide +kernel

/-- A leaf of a symbol that came before (V46.18), an internal node at depth NODE_CAP, and nodes whose entry is the
first without room: the root, and a right child. -/
theorem witness_TcParseErrors_nodes :
    (NodeStarts false 8 true [0x01, 0x61, 0x3A, 0x31, 0x02] 1 [.leaf 0x61 1] ∧ SymText false [0x61] 0x61 ∧
      Numeral [0x32] 2 ∧
      Stands (withBytes [0x01, 0x61, 0x3A, 0x31, 0x02, 0x61, 0x3A, 0x32, 0x03] small)
        ([] ++ [0x01, 0x61, 0x3A, 0x31, 0x02] ++ [0x61] ++ [byteColon] ++ [0x32]) ∧
      isDigit ((withBytes [0x01, 0x61, 0x3A, 0x31, 0x02, 0x61, 0x3A, 0x32, 0x03] small).inAt 8) = false ∧
      0x61 ∈ [Node.leaf 0x61 1].filterMap Node.sym?) ∧
    (NodeStarts false small2.cfg.nodeCap false [0x01] 1 [] ∧ 1 + 1 = small2.cfg.nodeCap ∧
      Stands (withBytes [0x01, 0x01] small2) ([] ++ [0x01] ++ [byteOpen])) ∧
    (NodeStarts false small2.cfg.nodeCap false [] 0 [] ∧
      NodeText false [0x01, 0x61, 0x3A, 0x31, 0x02, 0x62, 0x3A, 0x30, 0x30, 0x32, 0x03, 0x3A, 0x33] shapeAbb ∧
      shapeAbb.isInternal = true ∧ shapeAbb.syms.Nodup ∧ 0 + shapeAbb.size = small2.cfg.nodeCap + 1 ∧
      0 + 1 + shapeAbb.height ≤ small2.cfg.nodeCap ∧
      Stands (withBytes headerZeros small2)
        ([] ++ [] ++ [0x01, 0x61, 0x3A, 0x31, 0x02, 0x62, 0x3A, 0x30, 0x30, 0x32, 0x03, 0x3A, 0x33]) ∧
      isDigit ((withBytes headerZeros small2).inAt 13) = false) ∧
    (NodeStarts false small3.cfg.nodeCap true [0x01, 0x61, 0x3A, 0x31, 0x02] 1 [.leaf 0x61 1] ∧
      NodeText false ([0x01] ++ [0x62, 0x3A, 0x30, 0x30, 0x32] ++ [0x02, 0x03, 0x3A] ++ [0x32]) (.one 2 (.leaf 0x62 2)) ∧
      1 + (Shape.one 2 (.leaf 0x62 2)).size = small3.cfg.nodeCap ∧
      1 + 1 + (Shape.one 2 (.leaf 0x62 2)).height ≤ small3.cfg.nodeCap) := by
  unfold Stands BytesAt
  exact ⟨⟨starts_right (by decide), ⟨by decide +kernel, by decide +kernel⟩, numeral (by decide +kernel), by decide +kernel,
      by decide +kernel, by decide +kernel⟩,
    ⟨starts_left (by decide), by decide +kernel, by decide +kernel⟩,
    ⟨.root, .two (c := [0x33]) nodeText_a nodeText_b (numeral (by decide +kernel)), by decide +kernel, by decide +kernel,
      by decide +kernel, by decide +kernel, by decide +kernel, by decide +kernel⟩,
    ⟨starts_right (by decide), .one nodeText_b (numeral (by decide +kernel)), by decide +kernel, by decide +kernel⟩⟩

/-- The label 4294967299 of a leaf a that came before, and of a right child without room: its last digit is the error. -/
theorem witness_TcParseErrors_labels :
    (NodeStarts false 8 true [0x01, 0x61, 0x3A, 0x31, 0x02] 1 [.leaf 0x61 1] ∧
      NodeText false [0x61, 0x3A, 0x34, 0x32, 0x39, 0x34, 0x39, 0x36, 0x37, 0x32, 0x39] (.leaf 0x61 429496729) ∧
      (Shape.leaf 0x61 429496729).LabelRead 8 2 [.leaf 0x61 1] ∧
      Stands (withBytes [0x01, 0x61, 0x3A, 0x31, 0x02, 0x61, 0x3A, 0x34, 0x32, 0x39, 0x34, 0x39, 0x36, 0x37, 0x32, 0x39,
          0x39, 0x03] small)
        ([] ++ [0x01, 0x61, 0x3A, 0x31, 0x02] ++ [0x61, 0x3A, 0x34, 0x32, 0x39, 0x34, 0x39, 0x36, 0x37, 0x32, 0x39]) ∧
      isDigit 0x39 = true ∧ 0xFFFFFFFF < 10 * (Shape.leaf 0x61 429496729).freq.toNat + digitValue 0x39) ∧
    (NodeStarts false small3.cfg.nodeCap true [0x01, 0x61, 0x3A, 0x31, 0x02] 1 [.leaf 0x61 1] ∧
      NodeText false ([0x01] ++ [0x62, 0x3A, 0x30, 0x30, 0x32] ++ [0x02, 0x03, 0x3A] ++
        [0x34, 0x32, 0x39, 0x34, 0x39, 0x36, 0x37, 0x32, 0x39]) (.one 429496729 (.leaf 0x62 2)) ∧
      (Shape.one 429496729 (.leaf 0x62 2)).LabelRead small3.cfg.nodeCap 2 [.leaf 0x61 1] ∧
      1 + (Shape.one 429496729 (.leaf 0x62 2)).size = small3.cfg.nodeCap) := by
  unfold Stands BytesAt
  exact ⟨⟨starts_right (by decide), .leaf (a := [0x61]) (b := [0x34, 0x32, 0x39, 0x34, 0x39, 0x36, 0x37, 0x32, 0x39])
        ⟨by decide +kernel, by decide +kernel⟩ (numeral (by decide +kernel)),
      ⟨by decide +kernel, by decide +kernel, by decide +kernel⟩, by decide +kernel, by decide +kernel, by decide +kernel⟩,
    ⟨starts_right (by decide), .one nodeText_b (numeral (by decide +kernel)),
      ⟨by decide +kernel, by decide +kernel, by decide +kernel⟩, by decide +kernel⟩⟩

/-- V46.21, too long an input, a start beyond its end, and the end of the input; and the two witnesses above. -/
theorem witness_TcParseErrors :
    (∃ t, exec .tcParse (withBytes [0x41, 0x00, 0x00] small) = .next t ∧ t.errKind ≠ .none) ∧
    small.cfg.inCap < ({ small with inLen := 65 } : State).inLen.toNat ∧
    (2 ≤ small.cfg.nodeCap ∧ 2 ≤ small2.cfg.nodeCap ∧ 2 ≤ small3.cfg.nodeCap ∧
      (withBytes [0x41] small).inLen.toNat ≤ small.cfg.inCap) ∧
    (withBytes [0x41] small).inLen.toNat < ({ withBytes [0x41] small with inPos := 2 } : State).inPos.toNat ∧
    small.inLen.toNat = small.inPos.toNat + ([] : List Byte).length :=
  ⟨⟨_, exec_after _ _, by decide +kernel⟩, by decide +kernel, by decide +kernel, by decide +kernel, by decide +kernel⟩

/-! ### Witnesses: Compressor -/

/-- Eight symbols of "abb", whose codes fill a byte. -/
def writer8 : State := withSyms [0x61, 0x62, 0x62, 0x62, 0x62, 0x62, 0x62, 0x62] writer

/-- V47.14 with the codes of "abb", a byte that fits exactly, one that does not, and OUT_LEN above OUT_BUDGET with no
byte to fill. -/
theorem witness_EncodeWritesCodes : small.ct = none ∧ small.bwOpen = false ∧ writer.ct = some codesAbb ∧
    writer.bwOpen = true ∧ writer.cfg.symCap < ({ writer with symCount := 9 } : State).symCount.toNat ∧
    (writer8.symCount.toNat ≤ writer8.cfg.symCap ∧ (∀ x ∈ writer8.symbols, (codesAbb.code? x).isSome = true) ∧
      (writer8.bwNbits.val + (codeBits codesAbb writer8.symbols).length) / 8 ≤
        ({ writer8 with outBudget := 1 } : State).room ∧
      ({ writer8 with outBudget := 0 } : State).room <
        (writer8.bwNbits.val + (codeBits codesAbb (writer8.symbols.take 8)).length) / 8) ∧
    (writer.bwNbits.val + (codeBits codesAbb writer.symbols).length) / 8 ≤
      ({ writer with outBudget := 1, outLen := 2 } : State).room ∧
    (1 < (withSyms [0x61, 0x7A] writer).symCount.toNat ∧ codesAbb.code? ((withSyms [0x61, 0x7A] writer).symAt 1) = none ∧
      (∀ x ∈ (withSyms [0x61, 0x7A] writer).symbols.take 1, (codesAbb.code? x).isSome = true) ∧
      (writer.bwNbits.val + (codeBits codesAbb ((withSyms [0x61, 0x7A] writer).symbols.take 1)).length) / 8 ≤
        writer.room) :=
  ⟨rfl, rfl, rfl, rfl, by decide +kernel, ⟨by decide +kernel, ofAll (by decide +kernel), by decide +kernel, by decide +kernel⟩,
    by decide +kernel, by decide +kernel, by decide +kernel, ofAll (by decide +kernel), by decide +kernel⟩

/-- W2 with a budget of exactly the file, and W3. -/
theorem witness_CompressWritesFile :
    (Encodable syms.cfg syms.variant syms.symbols ∧
      (huffFile syms.variant syms.imgW syms.imgH syms.symbols).length ≤
        ({ syms with outBudget := 14 } : State).outBudget.toNat) ∧
    (Encodable small.cfg small.variant small.symbols ∧
      (huffFile small.variant small.imgW small.imgH small.symbols).length ≤
        ({ small with outBudget := 2 } : State).outBudget.toNat) :=
  ⟨⟨⟨ofAll (by decide +kernel), by decide +kernel, by decide +kernel⟩, by decide +kernel⟩,
    ⟨⟨ofAll (by decide +kernel), by decide +kernel, by decide +kernel⟩, by decide +kernel⟩⟩

/-- V41.9, V41.4 and V41.8 on the small block. -/
theorem witness_CompressErrors_symbols :
    small.cfg.symCap < ({ small with symCount := 9 } : State).symCount.toNat ∧
    (1 < (withSyms [0x61, 0x02] small).symCount.toNat ∧
      (∀ x ∈ (withSyms [0x61, 0x02] small).symbols.take 1, validSym x false = true) ∧
      (firstSeen ((withSyms [0x61, 0x02] small).symbols.take 1)).length ≤ small.cfg.maxDistinct ∧
      validSym ((withSyms [0x61, 0x02] small).symAt 1) false = false) ∧
    (4 < (withSyms [5, 6, 7, 8, 9] small).symCount.toNat ∧
      (∀ x ∈ (withSyms [5, 6, 7, 8, 9] small).symbols.take 4, validSym x false = true) ∧
      validSym ((withSyms [5, 6, 7, 8, 9] small).symAt 4) false = true ∧
      (withSyms [5, 6, 7, 8, 9] small).symAt 4 ∉ (withSyms [5, 6, 7, 8, 9] small).symbols.take 4 ∧
      (firstSeen ((withSyms [5, 6, 7, 8, 9] small).symbols.take 4)).length = small.cfg.maxDistinct) :=
  ⟨by decide +kernel, ⟨by decide +kernel, ofAll (by decide +kernel), by decide +kernel, by decide +kernel⟩,
    ⟨by decide +kernel, ofAll (by decide +kernel), by decide +kernel, by decide +kernel, by decide +kernel⟩⟩

/-- Budgets at both ends of each range: the empty file, the header of 12 bytes, a byte of code bits, and the two bytes of
BW_CLOSE. -/
theorem witness_CompressErrors :
    (Encodable small.cfg small.variant small.symbols ∧ small.symbols = [] ∧
      ({ small with outBudget := 1 } : State).outBudget.toNat < 2) ∧
    (Encodable writer8.cfg writer8.variant writer8.symbols ∧ writer8.symbols ≠ [] ∧
      (huffHeader writer8.variant writer8.imgW writer8.imgH writer8.symbols).length = 12 ∧
      (huffBits writer8.symbols).length = 8 ∧
      (huffFile writer8.variant writer8.imgW writer8.imgH writer8.symbols).length = 15 ∧
      ({ writer8 with outBudget := 11 } : State).outBudget.toNat < 12 ∧
      12 ≤ ({ writer8 with outBudget := 12 } : State).outBudget.toNat ∧
      ({ writer8 with outBudget := 12 } : State).outBudget.toNat < 12 + 8 / 8 ∧
      12 + 8 / 8 ≤ ({ writer8 with outBudget := 13 } : State).outBudget.toNat ∧
      ({ writer8 with outBudget := 14 } : State).outBudget.toNat < 15) :=
  ⟨⟨⟨ofAll (by decide +kernel), by decide +kernel, by decide +kernel⟩, by decide +kernel, by decide +kernel⟩,
    ⟨ofAll (by decide +kernel), by decide +kernel, by decide +kernel⟩, by decide +kernel, by decide +kernel,
    by decide +kernel, by decide +kernel, by decide +kernel, by decide +kernel, by decide +kernel, by decide +kernel,
    by decide +kernel⟩

/-- The stages succeed one after another on "abb" and on the empty sequence. -/
theorem witness_CompressMatchesStages :
    (∃ s1 s2 s3 s4 s5 s6 s7, exec .fcCount { syms with outLen := 0 } = .next s1 ∧ s1.errKind = .none ∧
      exec .tbBuild s1 = .next s2 ∧ s2.errKind = .none ∧ exec .ctBuild s2 = .next s3 ∧ s3.errKind = .none ∧
      syms.symCount ≠ 0 ∧ exec .tcSerialize s3 = .next s4 ∧ s4.errKind = .none ∧ exec .bwOpen s4 = .next s5 ∧
      exec .encodeSyms s5 = .next s6 ∧ s6.errKind = .none ∧ exec .bwClose s6 = .next s7 ∧ s7.errKind = .none) ∧
    (∃ s1 s2 s3 s4 s5, exec .fcCount { small with outLen := 0 } = .next s1 ∧ s1.errKind = .none ∧
      exec .tbBuild s1 = .next s2 ∧ s2.errKind = .none ∧ exec .ctBuild s2 = .next s3 ∧ s3.errKind = .none ∧
      small.symCount = 0 ∧ exec .bwOpen s3 = .next s4 ∧ exec .bwClose s4 = .next s5 ∧ s5.errKind = .none) :=
  ⟨⟨_, _, _, _, _, _, _, exec_after _ _, by decide +kernel, exec_after _ _, by decide +kernel, exec_after _ _,
    by decide +kernel, by decide +kernel, exec_after _ _, by decide +kernel, exec_after _ _,
    exec_after _ _, by decide +kernel, exec_after _ _, by decide +kernel⟩,
    ⟨_, _, _, _, _, exec_after _ _, by decide +kernel, exec_after _ _, by decide +kernel, exec_after _ _, by decide +kernel,
    by decide +kernel, exec_after _ _, exec_after _ _, by decide +kernel⟩⟩

/-! ### Witnesses: Decompressor -/

theorem witness_DecodeFollowsCodes : reader.tree = some treeAbb ∧ treeAbb.Ok ∧ reader.brOpen = true ∧
    reader.brBitPos ≤ reader.brTotal ∧
    (∀ p ∈ [((0x61 : Word), [false]), (0x62, [true]), (0x62, [true])], treeAbb.IsCode p.1 p.2) ∧
    3 ≤ reader.cfg.symCap ∧ reader.cfg.symCap < 2 ^ 32 ∧
    ((List.range (reader.brTotal - reader.brBitPos)).map fun j => reader.streamBit (reader.brBitPos + j)) =
      [((0x61 : Word), [false]), (0x62, [true]), (0x62, [true])].flatMap Prod.snd :=
  ⟨rfl, treeAbb_ok, rfl, by decide +kernel,
    by
      intro p hp
      simp only [List.mem_cons, List.not_mem_nil, or_false] at hp
      rcases hp with rfl | rfl | rfl
      exacts [isCode_a, isCode_b, isCode_b],
    by decide +kernel, by decide +kernel, by decide +kernel⟩

/-- The reader on the stream 20 03 under the tree of "aaa" (W5): the third bit has no child. -/
def reader5 : State :=
  { withBytes [0x20, 0x03] small with tree := some treeAaa, brOpen := true, brBase := 0, brTotal := 3, brBitPos := 0 }

/-- A tree with an internal left child, and a stream that ends below it. -/
def treeDeep : Tree := ⟨[.leaf 0x61 1, .internal 1 0 none, .internal 1 1 none], some 2⟩

theorem treeDeep_ok : treeDeep.Ok where
  root_eq := by decide +kernel
  root_internal := by
    rintro r ⟨⟩
    exact ⟨1, 1, none, rfl⟩
  below := by
    intro i n h c hc
    rcases i with _ | _ | _ | i <;> simp [treeDeep] at h <;> subst h <;> simp [Node.children] at hc; all_goals omega
  owned := by decide +kernel
  distinct := by decide +kernel

def readerDeep : State := { reader5 with tree := some treeDeep, brTotal := 1 }

/-- The reader of "abb" on a block whose SYM_MEM has two entries: the third code is one too many. -/
def readerFull : State := { reader with cfg := ⟨2, 64, 64, 4, 8⟩ }

theorem witness_DecodeErrors :
    (({ reader with tree := some ⟨[], none⟩ } : State).tree = some ⟨[], none⟩ ∧ reader.brBitPos < reader.brTotal) ∧
    (reader5.tree = some treeAaa ∧ treeAaa.Ok ∧ treeAaa.root = some 1 ∧ treeAaa.IsCode 0x61 [false] ∧
      ((List.range (reader5.brTotal - reader5.brBitPos)).map fun j => reader5.streamBit (reader5.brBitPos + j)) =
        [((0x61 : Word), [false]), (0x61, [false])].flatMap Prod.snd ++ [] ++ true :: [] ∧
      treeAaa.reach 1 [] = some (.internal 3 0 none) ∧ 2 ≤ reader5.cfg.symCap ∧ reader5.cfg.symCap < 2 ^ 32) ∧
    (readerDeep.tree = some treeDeep ∧ treeDeep.Ok ∧ treeDeep.root = some 2 ∧
      ((List.range (readerDeep.brTotal - readerDeep.brBitPos)).map fun j =>
        readerDeep.streamBit (readerDeep.brBitPos + j)) = ([] : List (Word × Code)).flatMap Prod.snd ++ [false] ∧
      [false] ≠ [] ∧ treeDeep.reach 2 [false] = some (.internal 1 0 none)) ∧
    (readerFull.tree = some treeAbb ∧ treeAbb.root = some 2 ∧ treeAbb.IsCode 0x61 [false] ∧ treeAbb.IsCode 0x62 [true] ∧
      ((List.range (readerFull.brTotal - readerFull.brBitPos)).map fun j =>
        readerFull.streamBit (readerFull.brBitPos + j)) =
        [((0x61 : Word), [false]), (0x62, [true])].flatMap Prod.snd ++ [true] ++ [] ∧ 2 = readerFull.cfg.symCap) :=
  ⟨⟨rfl, by decide +kernel⟩,
    ⟨rfl, treeAaa_ok, rfl, ⟨1, 3, rfl, rfl⟩, by decide +kernel, rfl, by decide +kernel, by decide +kernel⟩,
    ⟨rfl, treeDeep_ok, rfl, by decide +kernel, by decide +kernel, rfl⟩,
    ⟨rfl, rfl, isCode_a, isCode_b, by decide +kernel, by decide +kernel⟩⟩

/-- V60.3, V48.7, V48.5, V48.6 and V48.4. -/
theorem witness_DecompressOfShortFiles :
    small.cfg.inCap < ({ small with inLen := 65 } : State).inLen.toNat ∧
    (withBytes [0x01] small).inLen.toNat < 2 ∧
    ((withBytes [0x00, 0x01] small).inAt 0 = 0 ∧ (withBytes [0x00, 0x01] small).inAt 1 ≠ 0) ∧
    (2 < (withBytes [0x00, 0x00, 0x00] small).inLen.toNat ∧ (withBytes [0x00, 0x00, 0x00] small).inAt 0 = 0 ∧
      (withBytes [0x00, 0x00, 0x00] small).inAt 1 = 0) ∧
    ((withBytes [0x00, 0x00] small).inLen.toNat = 2 ∧ (withBytes [0x00, 0x00] small).inAt 0 = 0 ∧
      (withBytes [0x00, 0x00] small).inAt 1 = 0) := by decide +kernel

/-- The stages succeed on the file of "abb"; each of them fails on a file of its own. -/
theorem witness_DecompressMatchesStages :
    (2 ≤ (withBytes fileAbb small).inLen.toNat ∧ (withBytes fileAbb small).inAt 0 ≠ 0 ∧
      ∃ s1 s2 s3, exec .tcParse { withBytes fileAbb small with inPos := 0 } = .next s1 ∧ s1.errKind = .none ∧
        exec .brOpen s1 = .next s2 ∧ s2.errKind = .none ∧ exec .decodeSyms s2 = .next s3) ∧
    (∃ s1, exec .tcParse { withBytes [0x41, 0x00] small with inPos := 0 } = .next s1 ∧ s1.errKind ≠ .none) ∧
    (∃ s1 s2, exec .tcParse { withBytes (headerAbb ++ [0x60]) small with inPos := 0 } = .next s1 ∧ s1.errKind = .none ∧
      exec .brOpen s1 = .next s2 ∧ s2.errKind ≠ .none) ∧
    ∃ s1 s2 s3, exec .tcParse { withBytes fileAbb { small with cfg := ⟨2, 64, 64, 4, 8⟩ } with inPos := 0 } = .next s1 ∧
      s1.errKind = .none ∧ exec .brOpen s1 = .next s2 ∧ s2.errKind = .none ∧ exec .decodeSyms s2 = .next s3 ∧
      s3.errKind ≠ .none :=
  ⟨⟨by decide +kernel, by decide +kernel, _, _, _, exec_after _ _, by decide +kernel, exec_after _ _, by decide +kernel,
      exec_after _ _⟩,
    ⟨_, exec_after _ _, by decide +kernel⟩,
    ⟨_, _, exec_after _ _, by decide +kernel, exec_after _ _, by decide +kernel⟩,
    ⟨_, _, _, exec_after _ _, by decide +kernel, exec_after _ _, by decide +kernel, exec_after _ _, by decide +kernel⟩⟩

theorem carries_abb : CarriesBits [0x60, 0x03] [false, true, true] where
  length_ge := by decide +kernel
  trailer := ⟨3, by decide +kernel⟩
  bit := by
    intro k b h
    have hk : k < 3 := (List.getElem?_eq_some_iff.1 h).1
    interval_cases k <;> cases h <;> exact ⟨0x60, rfl, by decide +kernel⟩

/-- The file of "abb", with as many symbols as SYM_MEM has entries. -/
theorem witness_DecompressDecodesFile :
    HeaderText false 0 0 (some shapeAbb) headerAbb ∧ (shapeAbb.syms.Nodup ∧ shapeAbb.size ≤ small.cfg.nodeCap) ∧
    (∀ p ∈ [((0x61 : Word), [false]), (0x62, [true]), (0x62, [true])],
      (treeOfShape (some shapeAbb)).IsCode p.1 p.2) ∧
    CarriesBits [0x60, 0x03] ([((0x61 : Word), [false]), (0x62, [true]), (0x62, [true])].flatMap Prod.snd) ∧
    BytesAt (withBytes fileAbb small).inAt 0 (headerAbb ++ [0x60, 0x03]) ∧
    (withBytes fileAbb small).inLen.toNat = (headerAbb ++ [0x60, 0x03]).length ∧
    (withBytes fileAbb small).inLen.toNat ≤ small.cfg.inCap ∧
    3 ≤ ({ small with cfg := ⟨3, 64, 64, 4, 8⟩ } : State).cfg.symCap ∧ 3 < 2 ^ 32 ∧
    HeaderText true 2 1 none headerNull :=
  ⟨headerAbb_text, by decide +kernel,
    by
      intro p hp
      simp only [List.mem_cons, List.not_mem_nil, or_false] at hp
      rcases hp with rfl | rfl | rfl
      exacts [isCode_a, isCode_b, isCode_b],
    carries_abb, by unfold BytesAt; decide +kernel, by decide +kernel, by decide +kernel, by decide +kernel, by decide +kernel,
    headerNull_text⟩

theorem witness_DecompressInvertsCompress :
    (withBytes fileAbb small).cfg = syms.cfg ∧ (withBytes fileAbb small).cfg.legal = true ∧
    Encodable syms.cfg syms.variant syms.symbols ∧
    (huffFile syms.variant syms.imgW syms.imgH syms.symbols).length ≤ syms.outBudget.toNat ∧
    syms.outBudget.toNat ≤ syms.cfg.inCap ∧ exec .compress syms = .next (after .compress syms) ∧
    (∀ k, k < (after .compress syms).outLen.toNat →
      (withBytes fileAbb small).inAt k = (after .compress syms).outAt k) ∧
    (withBytes fileAbb small).inLen = (after .compress syms).outLen :=
  ⟨by decide +kernel, by decide +kernel, ⟨ofAll (by decide +kernel), by decide +kernel, by decide +kernel⟩,
    by decide +kernel, by decide +kernel, exec_after _ _, by decide +kernel, by decide +kernel⟩

end Sys2Proof.Tests
end

section
/-! Control: a host write of one word as a step, the CMD register on the host port (R78), and the commands NOP and
CLEAR (R83, R84). -/

namespace Sys2Proof.Machine

/-! ### A host write as a step (R49, R58) -/

theorem hostWrite_idle {s : State} (h : s.busy = false) (off : Offset) (v : Word) :
    s.hostWrite off v = s.writePlace v (placeAt off) := by
  simp [State.hostWrite, h]

theorem hostWrite_busy {s : State} (h : s.busy = true) (off : Offset) (v : Word) :
    s.hostWrite off v = s.busyWrite (placeAt off) v := by
  simp [State.hostWrite, h]

section
variable {s : State} {off : Offset} {v : Word} {rest : List HostInput}

/-- When the Host writes an aligned word, the step is that write. -/
theorem step_hostWrite (ha : off.toNat % 4 = 0) (h : s.HostMoves (.write 4 off v) rest) :
    step s = .next ({ s with inbox := rest }.hostWrite off v) :=
  (step_host h).trans (hostEvent_write ha v _)

/-- While BUSY = 0, the step is the write of the place at the offset (R49). -/
theorem step_hostWrite_idle (ha : off.toNat % 4 = 0) (h : s.HostMoves (.write 4 off v) rest) (hb : s.busy = false) :
    step s = .next ({ s with inbox := rest }.writePlace v (placeAt off)) :=
  (step_hostWrite ha h).trans (congrArg _ (hostWrite_idle (s := { s with inbox := rest }) hb off v))

/-- While BUSY = 1, the step is what R58 leaves of that write. -/
theorem step_hostWrite_busy (ha : off.toNat % 4 = 0) (h : s.HostMoves (.write 4 off v) rest) (hb : s.busy = true) :
    step s = .next ({ s with inbox := rest }.busyWrite (placeAt off) v) :=
  (step_hostWrite ha h).trans (congrArg _ (hostWrite_busy (s := { s with inbox := rest }) hb off v))

end

/-! ### The CMD register (R78) -/

theorem placeAt_cmd : placeAt 0x00002C = .reg .cmd := rfl

@[simp] theorem writePlace_cmd (s : State) (w : Word) : s.writePlace w (.reg .cmd) = s.accept w := rfl

@[simp] theorem busyWrite_cmd (s : State) (w : Word) : s.busyWrite (.reg .cmd) w = s.noteDropped := rfl

/-- Settles O13: a host write of CMD is the acceptance of its word while idle, and only noted while busy. -/
theorem cmdWriteAcceptedOrRejected : Obligations.CmdWriteAcceptedOrRejected := by
  intro s rest w hm
  constructor
  · intro hidle
    rw [step_hostWrite_idle rfl hm hidle, placeAt_cmd, writePlace_cmd, State.accept]
  · intro hbusy
    rw [step_hostWrite_busy rfl hm hbusy, placeAt_cmd, busyWrite_cmd, State.noteDropped]

/-! ### NOP and CLEAR (R83, R84) -/

/-- Settles O30: NOP's pseudocode is empty, so only the completion of R81 is left. -/
theorem nopCompletes : Obligations.NopCompletes := by
  intro s
  rw [exec_eq, commandBody, Ran.finish_ok, State.finishOk]

/-- Settles O31: CLEAR's pseudocode as one record, and then the completion of R81. -/
theorem clearDiscardsDerivedState : Obligations.ClearDiscardsDerivedState := by
  intro s
  rw [exec_eq, commandBody, Ran.finish_ok, clearBody_eq, State.finishOk]

end Sys2Proof.Machine
end

section
/-! FrequencyCounter: what Q_FREQ gives in each of its cases (R88). -/

namespace Sys2Proof.Machine

/-- A `raise` whose info value is a word reports that word. -/
theorem raise_toNat {α : Type} (k : ErrKind) (w : Word) (s : State) :
    (raise k w.toNat s : Ran α) = .raised ⟨k, w⟩ s := by
  rw [raise, word, BitVec.ofNat_toNat, BitVec.setWidth_eq]

/-! ### Q_FREQ (R88) -/

section
variable {s : State} {ft : List FtEntry} {e : FtEntry}

theorem qFreqBody_ft_none (h : s.ft = none) : qFreqBody s = .raised ⟨.badState, 0⟩ s := by
  rw [qFreqBody, h]
  rfl

theorem qFreqBody_entry (h : s.ft = some ft) (he : ft[s.arg0.toNat]? = some e) :
    qFreqBody s = .ok () (s.setRes e.sym e.count 0 0) := by
  simp only [qFreqBody, h, he]

theorem qFreqBody_beyond (h : s.ft = some ft) (hn : ft.length ≤ s.arg0.toNat) :
    qFreqBody s = .raised ⟨.badArgument, s.arg0⟩ s := by
  simp only [qFreqBody, h, List.getElem?_eq_none hn, raise_toNat]

end

/-- Settles O34: in each case Q_FREQ's pseudocode has one end, and R81 completes it. -/
theorem qFreqReadsEntry : Obligations.QFreqReadsEntry := by
  intro s
  refine ⟨fun hnone => ?_, fun ft hft => ⟨fun e he => ?_, fun hn => ?_⟩⟩
  · rw [exec_eq, commandBody, qFreqBody_ft_none hnone, Ran.finish_raised]
  · rw [exec_eq, commandBody, qFreqBody_entry hft he, Ran.finish_ok, State.setRes]
  · rw [exec_eq, commandBody, qFreqBody_beyond hft hn, Ran.finish_raised]

end Sys2Proof.Machine
end

section
/-! TreeBuilder: what Q_NODE gives in each of its cases (R93). -/

namespace Sys2Proof.Machine

/-! ### The results for one entry (R93) -/

theorem setNodeRes_leaf (s : State) (sym f : Word) :
    s.setNodeRes (.leaf sym f) = { s with res0 := 0, res1 := f, res2 := sym, res3 := 0xFFFFFFFF } := rfl

theorem setNodeRes_internal_none (s : State) (f : Word) (l : Nat) :
    s.setNodeRes (.internal f l none) = { s with res0 := 1, res1 := f, res2 := word l, res3 := 0xFFFFFFFF } := rfl

theorem setNodeRes_internal_some (s : State) (f : Word) (l r : Nat) :
    s.setNodeRes (.internal f l (some r)) = { s with res0 := 3, res1 := f, res2 := word l, res3 := word r } := rfl

/-! ### Q_NODE (R93) -/

section
variable {s : State} {t : Tree} {n : Node}

theorem exec_qNode_tree_none (h : s.tree = none) : exec .qNode s = .next (s.errorEntry ⟨.badState, 0⟩) := by
  have hbody : qNodeBody s = .raised ⟨.badState, 0⟩ s := by
    rw [qNodeBody, h]
    rfl
  rw [exec_eq, commandBody, hbody, Ran.finish_raised]

theorem exec_qNode_entry (h : s.tree = some t) (hn : t.nodes[s.arg0.toNat]? = some n) :
    exec .qNode s = .next (s.setNodeRes n).finishOk := by
  have hbody : qNodeBody s = .ok () (s.setNodeRes n) := by
    simp only [qNodeBody, h, hn]
  rw [exec_eq, commandBody, hbody, Ran.finish_ok]

theorem exec_qNode_beyond (h : s.tree = some t) (hlen : t.nodes.length ≤ s.arg0.toNat) :
    exec .qNode s = .next (s.errorEntry ⟨.badArgument, s.arg0⟩) := by
  have hbody : qNodeBody s = .raised ⟨.badArgument, s.arg0⟩ s := by
    simp only [qNodeBody, h, List.getElem?_eq_none hlen, raise_toNat]
  rw [exec_eq, commandBody, hbody, Ran.finish_raised]

end

/-- Settles O36: an entry found completes with its results, which its form then spells out; the two errors raise
before any of them is written. -/
theorem qNodeReadsEntry : Obligations.QNodeReadsEntry := by
  intro s
  refine ⟨exec_qNode_tree_none, fun t ht => ⟨fun sym f hn => ?_, fun f l hn => ?_, fun f l r hn => ?_,
    exec_qNode_beyond ht⟩⟩
  · rw [exec_qNode_entry ht hn, setNodeRes_leaf]
  · rw [exec_qNode_entry ht hn, setNodeRes_internal_none]
  · rw [exec_qNode_entry ht hn, setNodeRes_internal_some]

end Sys2Proof.Machine
end

section
/-! CodeTable: what CT_BUILD makes of a tree (R94) and what Q_CODE reads of a code table (R96). -/

namespace Sys2Proof.Machine

/-! ### The code table of a tree (R44) -/

section
variable {t : Tree}

/-- The codes of a tree are the map filled from one list, empty for the null tree. -/
theorem Tree.codes_eq_codeTableOf (t : Tree) : ∃ codes, t.codes = codeTableOf codes := by
  unfold Tree.codes
  cases t.root with
  | none => exact ⟨[], rfl⟩
  | some r => exact ⟨walkCodes t.look t.nodes.length r [], rfl⟩

theorem Tree.codes_wf (t : Tree) : Assoc.wf t.codes = true := by
  obtain ⟨codes, h⟩ := t.codes_eq_codeTableOf
  rw [h]
  exact codeTableOf_wf codes

theorem Tree.mem_codes_lt {k : Nat} {c : Code} (h : (k, c) ∈ t.codes) : k < 2 ^ 32 := by
  obtain ⟨codes, hc⟩ := t.codes_eq_codeTableOf
  rw [hc] at h
  exact mem_codeTableOf h

end

/-! ### CT_BUILD (R94) -/

section
variable {s : State} {t : Tree}

theorem State.invalidateCodes_storeCodes (s : State) (m : CodeTable) :
    s.invalidateCodes.storeCodes m = { s with ct := some m } := rfl

theorem exec_ctBuild_tree_none (h : s.tree = none) : exec .ctBuild s = .next (s.errorEntry ⟨.badState, 0⟩) := by
  have hbody : commandBody .ctBuild s = .raised ⟨.badState, 0⟩ s := by
    simp only [commandBody, State.treeValid, h]
    rfl
  rw [exec_eq, hbody, Ran.finish_raised]

theorem exec_ctBuild_tree (h : s.tree = some t) (ht : t.Ok) :
    exec .ctBuild s = .next { s with ct := some t.codes }.finishOk := by
  have hbody : commandBody .ctBuild s = ctBuildBody s := by
    simp [commandBody, State.treeValid, h]
  rw [exec_eq, hbody, ctBuildBody, State.treeCodes_eq h ht, State.invalidateCodes_storeCodes, Ran.finish_ok]

end

/-- Settles O37: CT_BUILD stores the code table of the tree, which holds exactly its codes. -/
theorem ctBuildMapsLeavesToPaths : Obligations.CtBuildMapsLeavesToPaths := by
  intro s
  exact ⟨exec_ctBuild_tree_none, fun t hs ht =>
    ⟨t.codes, exec_ctBuild_tree hs ht, t.codes_wf, ht.codes_code?, fun _ _ => Tree.mem_codes_lt⟩⟩

/-! ### The window of a code (R96) -/

@[simp] theorem codeWindow_length (c : Code) (k : Nat) : (codeWindow c k).length = 32 := by simp [codeWindow]

theorem codeWindow_getElem (c : Code) (k : Nat) {j : Nat} (h : j < (codeWindow c k).length) :
    (codeWindow c k)[j] = c.getD (k + j) false := by simp [codeWindow]

/-- The word of a window is left-aligned: its bit 31 - j is the bit at place j of the window. -/
theorem word_codeWindow_getLsbD (c : Code) (k : Nat) {j : Nat} (h : j < 32) :
    (word (bitsValue (codeWindow c k))).getLsbD (31 - j) = c.getD (k + j) false := by
  have hl : (codeWindow c k).length = 32 := codeWindow_length c k
  have hbit := word_bitsValue_getLsbD hl.le (hl.symm ▸ h)
  rwa [codeWindow_getElem, hl] at hbit

/-! ### Q_CODE (R96) -/

section
variable {s : State} {m : CodeTable} {c : Code}

theorem qCodeBody_ct_none (h : s.ct = none) : qCodeBody s = .raised ⟨.badState, 0⟩ s := by
  rw [qCodeBody, h]
  rfl

theorem qCodeBody_absent (h : s.ct = some m) (hm : m.code? s.arg0 = none) :
    qCodeBody s = .ok () (s.setRes 0 0 0 0) := by
  simp only [qCodeBody, h, hm]

theorem qCodeBody_code (h : s.ct = some m) (hm : m.code? s.arg0 = some c) :
    qCodeBody s = .ok () (s.setRes (word c.length) (word (bitsValue (codeWindow c s.arg1.toNat))) 0 0) := by
  simp only [qCodeBody, h, hm]

end

/-- Settles O39: in each case Q_CODE's pseudocode has one end, and the word of a window gives the code's bits. -/
theorem qCodeReadsCodeBits : Obligations.QCodeReadsCodeBits := by
  intro s
  refine ⟨fun hnone => ?_, fun m hct => ⟨fun habsent => ?_, fun c hc =>
    ⟨word (bitsValue (codeWindow c s.arg1.toNat)), ?_, fun j hj => word_codeWindow_getLsbD c _ hj⟩⟩⟩
  · rw [exec_eq, commandBody, qCodeBody_ct_none hnone, Ran.finish_raised]
  · rw [exec_eq, commandBody, qCodeBody_absent hct habsent, Ran.finish_ok, State.setRes]
  · rw [exec_eq, commandBody, qCodeBody_code hct hc, Ran.finish_ok, State.setRes]

end Sys2Proof.Machine
end

section
/-! BitWriter: how BW_OPEN, BW_WRITE and BW_CLOSE end in each of their cases (R99, R100, R101). -/

namespace Sys2Proof.Machine

/-! ### BW_OPEN (R99) -/

/-- Settles O40: the pseudocode of BW_OPEN is one fresh writer, and then the completion of R81. -/
theorem bwOpenStartsStream : Obligations.BwOpenStartsStream := by
  intro s
  rw [exec_eq, commandBody, bwOpenBody, Ran.finish_ok, State.freshWriter]

/-! ### The state check of BW_WRITE and BW_CLOSE (R100, R101) -/

section
variable {s : State} {n : Nat}

theorem writerCheck_closed (h : s.bwOpen = false) (x : Ran Unit) :
    (if !s.bwOpen then raise .badState 0 s else x) = .raised ⟨.badState, 0⟩ s := by
  rw [h]
  rfl

theorem writerCheck_open (h : s.bwOpen = true) (x : Ran Unit) :
    (if !s.bwOpen then raise .badState 0 s else x) = x := by
  rw [h]
  rfl

theorem exec_bwWrite_closed (h : s.bwOpen = false) : exec (.bwWrite n) s = .next (s.errorEntry ⟨.badState, 0⟩) := by
  rw [exec_eq, commandBody, writerCheck_closed h, Ran.finish_raised]

theorem exec_bwWrite_open (h : s.bwOpen = true) :
    exec (.bwWrite n) s = .next (writeBits (lowBits n s.arg0) s).finish := by
  rw [exec_eq, commandBody, writerCheck_open h]

theorem exec_bwClose_closed (h : s.bwOpen = false) : exec .bwClose s = .next (s.errorEntry ⟨.badState, 0⟩) := by
  rw [exec_eq, commandBody, writerCheck_closed h, Ran.finish_raised]

theorem exec_bwClose_open (h : s.bwOpen = true) : exec .bwClose s = .next (bwCloseBody s).finish := by
  rw [exec_eq, commandBody, writerCheck_open h]

/-! ### BW_WRITE (R100) -/

theorem exec_bwWrite_room (ho : s.bwOpen = true) (hr : (s.bwNbits.val + n) / 8 ≤ s.room) :
    ∃ t, exec (.bwWrite n) s = .next t.finishOk ∧ WroteBits (lowBits n s.arg0) s t := by
  obtain ⟨t, ht, hw⟩ := writeBits_ok (bits := lowBits n s.arg0) (s := s) (by rwa [lowBits_length])
  exact ⟨t, by rw [exec_bwWrite_open ho, ht, Ran.finish_ok], hw⟩

theorem exec_bwWrite_overflow (ho : s.bwOpen = true) (hr : s.room < (s.bwNbits.val + n) / 8) :
    ∃ t, exec (.bwWrite n) s = .next (t.errorEntry ⟨.streamOverflow, t.outLen⟩) ∧
      WroteBits ((lowBits n s.arg0).take (8 * s.room + 7 - s.bwNbits.val)) s t := by
  obtain ⟨t, ht, hw⟩ := writeBits_overflow (bits := lowBits n s.arg0) (s := s) (by rwa [lowBits_length])
  exact ⟨t, by rw [exec_bwWrite_open ho, ht, Ran.finish_raised], hw⟩

/-! ### BW_CLOSE (R101) -/

theorem bwCloseBody_overflow (h : s.outBudget.toNat < s.outLen.toNat + 2) :
    bwCloseBody s = .raised ⟨.streamOverflow, s.outLen⟩ s := by
  rw [bwCloseBody, if_pos h, raise_toNat]

theorem exec_bwClose_room (ho : s.bwOpen = true) (hr : s.outLen.toNat + 2 ≤ s.outBudget.toNat) :
    ∃ t, exec .bwClose s = .next t.closeWriter.finishOk ∧ EmittedBytes [s.partialByte, s.trailerByte] s t := by
  obtain ⟨t, ht, he⟩ := bwCloseBody_ok hr
  exact ⟨t, by rw [exec_bwClose_open ho, ht, Ran.finish_ok], he⟩

theorem exec_bwClose_overflow (ho : s.bwOpen = true) (h : s.outBudget.toNat < s.outLen.toNat + 2) :
    exec .bwClose s = .next (s.errorEntry ⟨.streamOverflow, s.outLen⟩) := by
  rw [exec_bwClose_open ho, bwCloseBody_overflow h, Ran.finish_raised]

end

/-- Settles O41: with the writer open BW_WRITE is one write of the low bits of ARG0, which either fits or stops before
the bit whose byte has no room. -/
theorem bwWriteWritesLowBits : Obligations.BwWriteWritesLowBits := by
  intro s n _ _
  exact ⟨exec_bwWrite_closed, fun ho => ⟨exec_bwWrite_room ho, exec_bwWrite_overflow ho⟩⟩

/-- Settles O42: with the writer open BW_CLOSE emits the partial byte, whose bits are the pending ones and zeros, and
the trailer, or raises before either byte. -/
theorem bwCloseFlushesAndAppendsTrailer : Obligations.BwCloseFlushesAndAppendsTrailer := by
  intro s
  refine ⟨exec_bwClose_closed, fun ho => ⟨fun hr => ?_, exec_bwClose_overflow ho⟩⟩
  obtain ⟨t, ht, he⟩ := exec_bwClose_room ho hr
  exact ⟨t, s.partialByte, ht, he, partialByte_bits s⟩

end Sys2Proof.Machine
end

section
/-! BitReader: how BR_OPEN and BR_READ end in each of their cases (R104, R105). -/

namespace Sys2Proof.Machine

/-! ### The stream BR_OPEN looks at (R104) -/

theorem streamBytes_eq (s : State) : s.streamBytes = s.inLen.toNat - s.inPos.toNat := by
  unfold State.streamBytes
  split <;> omega

/-- `raise` with the index before a word reports the word less one, unless the word is 0. -/
theorem raise_toNat_sub_one {α : Type} (k : ErrKind) {w : Word} (h : 1 ≤ w.toNat) (s : State) :
    (raise k (w.toNat - 1) s : Ran α) = .raised ⟨k, w - 1⟩ s := by
  have hw : (w - 1).toNat = w.toNat - 1 := BitVec.toNat_sub_of_le (y := 1) h
  rw [← hw, raise_toNat]

/-! ### BR_OPEN (R104) -/

/-- BR_OPEN with its checks read from the state before: to clear the reader changes nothing they look at. -/
theorem brOpenBody_eq (s : State) :
    brOpenBody s =
      if s.cfg.inCap < s.inLen.toNat then raise .sourceUnavailable s.inLen.toNat s.clearReader
      else if s.streamBytes < 2 then raise .truncatedStream s.streamBytes s.clearReader
      else if 8 < (s.inAt (s.inLen.toNat - 1)).toNat then raise .malformedStream (s.inLen.toNat - 1) s.clearReader
      else .ok () (s.openReader s.inPos.toNat
        (8 * (s.streamBytes - 2) + (s.inAt (s.inLen.toNat - 1)).toNat)) := rfl

section
variable {s : State}

theorem brOpenBody_unavailable (h : s.cfg.inCap < s.inLen.toNat) :
    brOpenBody s = .raised ⟨.sourceUnavailable, s.inLen⟩ s.clearReader := by
  rw [brOpenBody_eq, if_pos h, raise_toNat]

theorem brOpenBody_short (hc : s.inLen.toNat ≤ s.cfg.inCap) (hn : s.streamBytes < 2) :
    brOpenBody s = .raised ⟨.truncatedStream, word s.streamBytes⟩ s.clearReader := by
  rw [brOpenBody_eq, if_neg hc.not_gt, if_pos hn, raise]

theorem brOpenBody_badTrailer (hc : s.inLen.toNat ≤ s.cfg.inCap) (hn : 2 ≤ s.streamBytes)
    (ht : 8 < (s.inAt (s.inLen.toNat - 1)).toNat) :
    brOpenBody s = .raised ⟨.malformedStream, s.inLen - 1⟩ s.clearReader := by
  have hlen : 1 ≤ s.inLen.toNat := by
    rw [streamBytes_eq] at hn
    omega
  rw [brOpenBody_eq, if_neg hc.not_gt, if_neg hn.not_gt, if_pos ht, raise_toNat_sub_one _ hlen]

theorem brOpenBody_stream (hc : s.inLen.toNat ≤ s.cfg.inCap) (hn : 2 ≤ s.streamBytes)
    (ht : (s.inAt (s.inLen.toNat - 1)).toNat ≤ 8) :
    brOpenBody s = .ok () (s.openReader s.inPos.toNat
      (8 * (s.streamBytes - 2) + (s.inAt (s.inLen.toNat - 1)).toNat)) := by
  rw [brOpenBody_eq, if_neg hc.not_gt, if_neg hn.not_gt, if_neg ht.not_gt]

end

/-- Settles O44: BR_OPEN closes the reader and zeroes it, and then opens it only past the checks of the length, of
the number of bytes and of the trailer. -/
theorem brOpenLatchesStream : Obligations.BrOpenLatchesStream := by
  intro s
  refine ⟨fun hcap => ?_, fun hcap hn => ?_, fun hcap hn ht => ?_, fun hcap hn ht => ?_⟩
  · rw [exec_eq, commandBody, brOpenBody_unavailable hcap, Ran.finish_raised, State.clearReader]
  · rw [← streamBytes_eq] at hn ⊢
    rw [exec_eq, commandBody, brOpenBody_short hcap hn, Ran.finish_raised, State.clearReader]
  · rw [← streamBytes_eq] at hn
    rw [exec_eq, commandBody, brOpenBody_badTrailer hcap hn ht, Ran.finish_raised, State.clearReader]
  · rw [← streamBytes_eq] at hn ⊢
    rw [exec_eq, commandBody, brOpenBody_stream hcap hn ht, Ran.finish_ok, State.openReader]

/-! ### The next N bits (R103, R105) -/

@[simp] theorem State.bitsAhead_length (s : State) (n : Nat) : (s.bitsAhead n).length = n := by simp [State.bitsAhead]

theorem State.bitsAhead_getElem (s : State) (n : Nat) {j : Nat} (h : j < (s.bitsAhead n).length) :
    (s.bitsAhead n)[j] = s.streamBit (s.brBitPos + j) := by simp [State.bitsAhead]

/-- The word BR_READ leaves in RES0. -/
def State.nextWord (s : State) (n : Nat) : Word := word (bitsValue (s.bitsAhead n))

theorem State.nextWord_lt (s : State) (n : Nat) : (s.nextWord n).toNat < 2 ^ n := by
  rw [State.nextWord, word, BitVec.toNat_ofNat]
  calc bitsValue (s.bitsAhead n) % 2 ^ 32 ≤ bitsValue (s.bitsAhead n) := Nat.mod_le _ _
    _ < 2 ^ (s.bitsAhead n).length := bitsValue_lt _
    _ = 2 ^ n := by rw [s.bitsAhead_length]

/-- The first bit read is the most significant: bit n - 1 - j is the bit read after j others. -/
theorem State.nextWord_getLsbD (s : State) {n j : Nat} (hn : n ≤ 32) (h : j < n) :
    (s.nextWord n).getLsbD (n - 1 - j) = s.streamBit (s.brBitPos + j) := by
  have hl : (s.bitsAhead n).length = n := s.bitsAhead_length n
  have hbit := word_bitsValue_getLsbD (hl.le.trans hn) (hl.symm ▸ h)
  rwa [s.bitsAhead_getElem, hl] at hbit

/-! ### BR_READ (R105) -/

section
variable {s : State} {n : Nat}

theorem exec_brRead_closed (h : s.brOpen = false) : exec (.brRead n) s = .next (s.errorEntry ⟨.badState, 0⟩) := by
  have hbody : brReadBody n s = .raised ⟨.badState, 0⟩ s := by
    rw [brReadBody, h]
    rfl
  rw [exec_eq, commandBody, hbody, Ran.finish_raised]

theorem exec_brRead_enough (ho : s.brOpen = true) (h : s.brBitPos + n ≤ s.brTotal) :
    exec (.brRead n) s = .next ((s.skipBits n).setRes (s.nextWord n) 0 0 0).finishOk := by
  have hn : ¬ s.brTotal - s.brBitPos < n := by omega
  have hbody : brReadBody n s = .ok () ((s.skipBits n).setRes (s.nextWord n) 0 0 0) := by
    rw [brReadBody, ho, if_neg (by decide), if_neg hn, readBits_ok h, Ran.bind_ok, State.nextWord,
      State.bitsAhead]
  rw [exec_eq, commandBody, hbody, Ran.finish_ok]

theorem exec_brRead_short (ho : s.brOpen = true) (h : s.brTotal - s.brBitPos < n) :
    exec (.brRead n) s = .next (s.errorEntry ⟨.truncatedStream, word (s.brTotal - s.brBitPos)⟩) := by
  have hbody : brReadBody n s = .raised ⟨.truncatedStream, word (s.brTotal - s.brBitPos)⟩ s := by
    rw [brReadBody, ho, if_neg (by decide), if_pos h, raise]
  rw [exec_eq, commandBody, hbody, Ran.finish_raised]

end

/-- Settles O45: BR_READ checks the state and the bits that remain before it reads any, and RES0 is then the word of
the bits read. -/
theorem brReadReturnsNextBits : Obligations.BrReadReturnsNextBits := by
  intro s n _ hn
  exact ⟨exec_brRead_closed, fun ho => ⟨fun h =>
    ⟨s.nextWord n, exec_brRead_enough ho h, s.nextWord_lt n, fun j hj => s.nextWord_getLsbD hn hj⟩,
    exec_brRead_short ho⟩⟩

end Sys2Proof.Machine
end

section
/-! TreeCodec: what TC_SERIALIZE writes for a tree, and where it stops (R110). -/

namespace Sys2Proof.Machine

/-! ### The first leaf that cannot be spelled (R110) -/

theorem Node.unspellable_leaf (pixel : Bool) (x f : Word) :
    Node.unspellable pixel (.leaf x f) = true ↔ validSym x pixel = false := by
  rw [Node.unspellable, Bool.not_eq_true']

/-- Only a leaf can be unspellable. -/
theorem Node.leaf_of_unspellable {pixel : Bool} {n : Node} (h : n.unspellable pixel = true) :
    ∃ x f, n = .leaf x f ∧ validSym x pixel = false := by
  cases n with
  | leaf x f => exact ⟨x, f, rfl, (Node.unspellable_leaf pixel x f).1 h⟩
  | internal f l r => cases h

/-- The search of TC_SERIALIZE stops at the lowest leaf that cannot be spelled. -/
theorem findIdx?_unspellable {ns : List Node} {pixel : Bool} {i : Nat} {x f : Word} (hi : ns[i]? = some (.leaf x f))
    (hx : validSym x pixel = false)
    (hlow : ∀ (j : Nat) (y g : Word), j < i → ns[j]? = some (.leaf y g) → validSym y pixel = true) :
    ns.findIdx? (Node.unspellable pixel) = some i := by
  obtain ⟨hlt, hget⟩ := List.getElem?_eq_some_iff.1 hi
  refine List.findIdx?_eq_some_iff_getElem.2 ⟨hlt, ?_, fun j hji hj => ?_⟩
  · rw [hget]
    exact (Node.unspellable_leaf pixel x f).2 hx
  · obtain ⟨y, g, hy, hbad⟩ := Node.leaf_of_unspellable hj
    have hgood := hlow j y g hji (by rw [List.getElem?_eq_getElem (hji.trans hlt), hy])
    exact Bool.false_ne_true (hbad.symm.trans hgood)

/-! ### The header of a tree by its shape (R73) -/

/-- A tree that is not null is serialized as the shape of its root. -/
theorem Tree.Ok.text_eq {t : Tree} (h : t.Ok) {sh : Shape} {r : Nat} (hr : t.root = some r) (hs : t.HasShape sh r)
    (pixel : Bool) : t.text pixel = sh.text pixel := by
  have hlast := h.root_last hr
  simp only [Tree.text, hr]
  exact serNode_text h t.look_eq pixel hs (by omega)

section
variable {s : State} {t : Tree} {shape : Option Shape}

theorem State.treeOrNull_eq (h : s.tree = some t) : s.treeOrNull = t := by
  rw [State.treeOrNull, h, Option.getD_some]

/-- The header TC_SERIALIZE emits is the one of the tree's shape. -/
theorem State.headerText_eq (h : s.tree = some t) (ht : t.Ok) (hs : t.HasWholeShape shape) :
    s.headerText = headerOf s.variant s.imgW s.imgH shape := by
  rw [State.headerText, State.treeText_eq h ht, State.pixelText, List.append_cons (decText s.imgW)]
  cases shape with
  | none => rw [show t = ⟨[], none⟩ from hs]; rfl
  | some sh =>
    obtain ⟨r, hr, hsh⟩ := hs
    rw [ht.text_eq hr hsh]
    rfl

/-! ### TC_SERIALIZE (R110) -/

theorem exec_tcSerialize_tree_none (h : s.tree = none) :
    exec .tcSerialize s = .next (s.errorEntry ⟨.badState, 0⟩) := by
  have hbody : commandBody .tcSerialize s = .raised ⟨.badState, 0⟩ s := by
    simp only [commandBody, State.treeValid, h]
    rfl
  rw [exec_eq, hbody, Ran.finish_raised]

theorem exec_tcSerialize_tree (h : s.tree = some t) : exec .tcSerialize s = .next (tcSerializeBody s).finish := by
  have hbody : commandBody .tcSerialize s = tcSerializeBody s := by
    simp [commandBody, State.treeValid, h]
  rw [exec_eq, hbody]

theorem tcSerializeBody_unspellable {i : Nat} (h : s.tree = some t)
    (hi : t.nodes.findIdx? (Node.unspellable s.variant) = some i) :
    tcSerializeBody s = .raised ⟨.invalidSymbol, word i⟩ s := by
  simp only [tcSerializeBody, State.treeOrNull_eq h, hi, raise]

theorem tcSerializeBody_spellable (h : s.tree = some t)
    (hv : ∀ x ∈ t.nodes.filterMap Node.sym?, validSym x s.variant = true) :
    tcSerializeBody s = emitBytes s.headerText s := by
  simp only [tcSerializeBody, State.treeOrNull_eq h, no_unspellable hv]

/-- A tree whose leaves can be spelled: the command is one emission of its header. -/
theorem exec_tcSerialize_spellable (h : s.tree = some t) (ht : t.Ok) (hs : t.HasWholeShape shape)
    (hv : ∀ x ∈ t.nodes.filterMap Node.sym?, validSym x s.variant = true) :
    exec .tcSerialize s = .next (emitBytes (headerOf s.variant s.imgW s.imgH shape) s).finish := by
  rw [exec_tcSerialize_tree h, tcSerializeBody_spellable h hv, State.headerText_eq h ht hs]

end

/-- Settles O48: past its state check TC_SERIALIZE either stops at the lowest leaf it cannot spell, before any byte, or
is one emission of the header of the tree's shape, which fits or stops where the budget ends. -/
theorem tcSerializeWritesHeader : Obligations.TcSerializeWritesHeader := by
  intro s
  refine ⟨exec_tcSerialize_tree_none, fun t h => ⟨fun i x f hi hx hlow => ?_, fun shape ht hs hv =>
    ⟨fun hroom => ?_, fun hroom => ?_⟩⟩⟩
  · rw [exec_tcSerialize_tree h, tcSerializeBody_unspellable h (findIdx?_unspellable hi hx hlow), Ran.finish_raised]
  · obtain ⟨u, hu, he⟩ := emitBytes_ok hroom
    exact ⟨u, by rw [exec_tcSerialize_spellable h ht hs hv, hu, Ran.finish_ok], he⟩
  · obtain ⟨u, hu, he⟩ := emitBytes_overflow hroom
    exact ⟨u, by rw [exec_tcSerialize_spellable h ht hs hv, hu, Ran.finish_raised], he⟩

end Sys2Proof.Machine
end

section
/-! Compressor: how ENCODE ends in each of its cases (R115). -/

namespace Sys2Proof.Machine

/-! ### The state checks of ENCODE (R115) -/

section
variable {s : State} {m : CodeTable}

theorem State.ctOrEmpty_eq (h : s.ct = some m) : s.ctOrEmpty = m := by
  rw [State.ctOrEmpty, h, Option.getD_some]

theorem exec_encodeSyms_ct_none (h : s.ct = none) : exec .encodeSyms s = .next (s.errorEntry ⟨.badState, 0⟩) := by
  have hbody : commandBody .encodeSyms s = .raised ⟨.badState, 0⟩ s := by
    simp only [commandBody, State.ctValid, h]
    rfl
  rw [exec_eq, hbody, Ran.finish_raised]

theorem exec_encodeSyms_closed (h : s.bwOpen = false) : exec .encodeSyms s = .next (s.errorEntry ⟨.badState, 0⟩) := by
  have hbody : commandBody .encodeSyms s = .raised ⟨.badState, 0⟩ s := by
    rw [commandBody, writerCheck_closed h]
    exact ite_self _
  rw [exec_eq, hbody, Ran.finish_raised]

theorem exec_encodeSyms_ready (hct : s.ct = some m) (ho : s.bwOpen = true) :
    exec .encodeSyms s = .next (encodeBody s).finish := by
  have hbody : commandBody .encodeSyms s = encodeBody s := by
    simp [commandBody, State.ctValid, hct, ho]
  rw [exec_eq, hbody]

/-! ### The symbols ENCODE has passed (R115) -/

theorem encodeBody_unavailable (h : s.cfg.symCap < s.symCount.toNat) :
    encodeBody s = .raised ⟨.sourceUnavailable, s.symCount⟩ s := by
  rw [encodeBody, if_pos h, raise_toNat]

/-- While the first `i` symbols have codes, ENCODE is one write of their code bits, and then its loop over the other
symbols. -/
theorem encodeBody_codes {i : Nat} (hct : s.ct = some m) (hcap : s.symCount.toNat ≤ s.cfg.symCap)
    (hi : i ≤ s.symCount.toNat) (hcodes : ∀ x ∈ s.symbols.take i, (m.code? x).isSome = true) :
    encodeBody s =
      (writeBits (codeBits m (s.symbols.take i)) s).andThen (encodeLoop (s.symCount.toNat - i) i) := by
  rw [symbols_take s hi, ← State.ctOrEmpty_eq hct] at hcodes
  have hloop := encodeLoop_codes (n := s.symCount.toNat - i) hcodes
  rw [Nat.add_sub_cancel' hi, Nat.zero_add, State.ctOrEmpty_eq hct] at hloop
  rw [encodeBody, if_neg hcap.not_gt, hloop, symbols_take s hi]

theorem encodeBody_allCodes (hct : s.ct = some m) (hcap : s.symCount.toNat ≤ s.cfg.symCap)
    (hcodes : ∀ x ∈ s.symbols, (m.code? x).isSome = true) : encodeBody s = writeBits (codeBits m s.symbols) s := by
  have htake : s.symbols.take s.symCount.toNat = s.symbols := List.take_of_length_le (by simp [State.symbols])
  rw [encodeBody_codes hct hcap le_rfl (by rwa [htake]), htake, Nat.sub_self]
  cases writeBits (codeBits m s.symbols) s <;> rfl

/-- At a symbol without a code the loop raises INVALID_SYMBOL before it writes a bit. -/
theorem encodeLoop_noCode {left i : Nat} (h : s.ctOrEmpty.code? (s.symAt i) = none) :
    encodeLoop (left + 1) i s = .raised ⟨.invalidSymbol, word i⟩ s := by
  simp only [encodeLoop, h, raise]

/-! ### How ENCODE ends past its checks (R115, R80) -/

section
variable {i : Nat}

theorem encodeBody_room (hct : s.ct = some m) (hcap : s.symCount.toNat ≤ s.cfg.symCap)
    (hcodes : ∀ x ∈ s.symbols, (m.code? x).isSome = true)
    (hroom : (s.bwNbits.val + (codeBits m s.symbols).length) / 8 ≤ s.room) :
    ∃ t, encodeBody s = .ok () t ∧ WroteBits (codeBits m s.symbols) s t := by
  rw [encodeBody_allCodes hct hcap hcodes]
  exact writeBits_ok hroom

theorem encodeBody_noCode (hct : s.ct = some m) (hcap : s.symCount.toNat ≤ s.cfg.symCap)
    (hi : i < s.symCount.toNat) (hcodes : ∀ x ∈ s.symbols.take i, (m.code? x).isSome = true)
    (hnone : m.code? (s.symAt i) = none)
    (hroom : (s.bwNbits.val + (codeBits m (s.symbols.take i)).length) / 8 ≤ s.room) :
    ∃ t, encodeBody s = .raised ⟨.invalidSymbol, word i⟩ t ∧ WroteBits (codeBits m (s.symbols.take i)) s t := by
  obtain ⟨t, ht, hw⟩ := writeBits_ok hroom
  have hframe : WriteFrame s t := hw.frame
  have hstop : t.ctOrEmpty.code? (t.symAt i) = none := by
    rw [hframe.ctOrEmpty, hframe.symAt, State.ctOrEmpty_eq hct, hnone]
  refine ⟨t, ?_, hw⟩
  rw [encodeBody_codes hct hcap hi.le hcodes, ht, Ran.andThen_ok,
    show s.symCount.toNat - i = s.symCount.toNat - i - 1 + 1 by omega, encodeLoop_noCode hstop]

/-- The bits that do not fit are those of symbols that have codes; `i` may also lie past the last symbol. -/
theorem encodeBody_overflow (hct : s.ct = some m) (hcap : s.symCount.toNat ≤ s.cfg.symCap)
    (hcodes : ∀ x ∈ s.symbols.take i, (m.code? x).isSome = true)
    (hroom : s.room < (s.bwNbits.val + (codeBits m (s.symbols.take i)).length) / 8) :
    ∃ t, encodeBody s = .raised ⟨.streamOverflow, t.outLen⟩ t ∧
      WroteBits ((codeBits m (s.symbols.take i)).take (8 * s.room + 7 - s.bwNbits.val)) s t := by
  obtain ⟨t, ht, hw⟩ := writeBits_overflow hroom
  refine ⟨t, ?_, hw⟩
  rcases Nat.lt_or_ge s.symCount.toNat i with hpast | hi
  · have htake : s.symbols.take i = s.symbols := List.take_of_length_le (by simpa [State.symbols] using hpast.le)
    rw [htake] at hcodes ht
    rw [encodeBody_allCodes hct hcap hcodes, ht]
  · rw [encodeBody_codes hct hcap hi hcodes, ht, Ran.andThen_raised]

end

end

/-- Settles O51: past its checks ENCODE is one write of the code bits up to the first symbol without a code, which
either fits or stops before the bit whose byte has no room. -/
theorem encodeWritesCodes : Obligations.EncodeWritesCodes := by
  intro s
  refine ⟨exec_encodeSyms_ct_none, exec_encodeSyms_closed, fun m hct ho => ?_⟩
  rw [exec_encodeSyms_ready hct ho]
  refine ⟨fun hcap => ?_, fun hcap => ⟨fun hcodes hroom => ?_, fun i hcodes => ⟨fun hi hnone hroom => ?_,
    fun hroom => ?_⟩⟩⟩
  · rw [encodeBody_unavailable hcap, Ran.finish_raised]
  · obtain ⟨t, ht, hw⟩ := encodeBody_room hct hcap hcodes hroom
    exact ⟨t, by rw [ht, Ran.finish_ok], hw⟩
  · obtain ⟨t, ht, hw⟩ := encodeBody_noCode hct hcap hi hcodes hnone hroom
    exact ⟨t, by rw [ht, Ran.finish_raised], hw⟩
  · obtain ⟨t, ht, hw⟩ := encodeBody_overflow hct hcap hcodes hroom
    exact ⟨t, by rw [ht, Ran.finish_raised], hw⟩

end Sys2Proof.Machine
end

section
/-! Compressor: COMPRESS against its stage commands run one after another (R117).

The stages see the state that COMPRESS sees up to the completion registers, which each of them writes at its end, and,
before BW_OPEN, up to the writer, which COMPRESS closes at its start. Such states are those that a map `g` takes to one:
`State.finishOk` forgets the completion registers, `State.freshEnd` the writer as well. -/

namespace Sys2Proof.Machine

/-! ### Statements that read nothing a map of states forgets -/

/-- Where `f` succeeds, it also succeeds from each state that `g` does not tell apart from that one, and ends in states
that `g` does not tell apart. -/
def Respects (g : State → State) (f : State → Ran Unit) : Prop :=
  ∀ ⦃s t t' : State⦄, g s = g t → f t = .ok () t' → ∃ s', f s = .ok () s' ∧ g s' = g t'

/-- `g` forgets nothing that emitByte reads or writes (R97). -/
structure KeepsOutput (g : State → State) : Prop where
  outBudget : ∀ s, (g s).outBudget = s.outBudget
  outLen : ∀ s, (g s).outLen = s.outLen
  pushByte : ∀ v s, g ((g s).pushByte v) = g (s.pushByte v)

/-- The state BW_OPEN ends in (R99, R81). -/
def State.freshEnd (s : State) : State := (s.freshWriter true).finishOk

theorem State.freshEnd_eq (s : State) : s.freshEnd = { s with
    bwOpen := true, bwAcc := 0, bwNbits := 0, bitCount := 0
    errKind := .none, errInfo := 0, done := true, latch := none } := rfl

theorem State.finishOk_finishOk (s : State) : s.finishOk.finishOk = s.finishOk := rfl

theorem State.finishOk_freshEnd (s : State) : s.freshEnd.finishOk = s.freshEnd := (s.freshWriter true).finishOk_finishOk

theorem State.freshEnd_finishOk (s : State) : s.finishOk.freshEnd = s.freshEnd := rfl

theorem State.freshEnd_freshWriter (s : State) (o : Bool) : (s.freshWriter o).freshEnd = s.freshEnd := rfl

theorem keepsOutput_finishOk : KeepsOutput State.finishOk := ⟨fun _ => rfl, fun _ => rfl, fun _ _ => rfl⟩

theorem keepsOutput_freshEnd : KeepsOutput State.freshEnd := ⟨fun _ => rfl, fun _ => rfl, fun _ _ => rfl⟩

section
variable {g : State → State} {f k : State → Ran Unit}

/-- What is the same before and after `g` is the same in states that `g` does not tell apart. -/
theorem read_congr (g : State → State) {α : Type} {s t : State} (r : State → α) (hr : ∀ s, r (g s) = r s)
    (hst : g s = g t) : r s = r t := by
  rw [← hr s, hst, hr t]

/-- A statement that always succeeds, with an update that needs nothing that `g` forgets. -/
theorem respects_ok (u : State → State) (hu : ∀ s, g (u (g s)) = g (u s)) : Respects g fun s => .ok () (u s) := by
  intro s t t' hst ht
  cases ht
  exact ⟨u s, rfl, read_congr g (fun s => g (u s)) hu hst⟩

theorem respects_skip (g : State → State) : Respects g fun s => .ok () s := by
  intro s t t' hst ht
  cases ht
  exact ⟨s, rfl, hst⟩

/-- A statement that reads a value `g` keeps. -/
theorem Respects.read {α : Type} {r : State → α} {F : α → State → Ran Unit} (hF : ∀ a, Respects g (F a))
    (hr : ∀ s, r (g s) = r s) : Respects g fun s => F (r s) s := by
  intro s t t' hst ht
  have hread : r s = r t := read_congr g r hr hst
  simpa only [hread] using hF (r t) hst ht

/-- A statement behind a check that `g` does not alter. -/
theorem Respects.guard {c : State → Prop} [DecidablePred c] {k : ErrKind} {n : State → Nat}
    (hf : Respects g f) (hc : ∀ s, c (g s) = c s) : Respects g fun s => if c s then raise k (n s) s else f s := by
  intro s t t' hst ht
  have hcheck : c s = c t := read_congr g c hc hst
  by_cases h : c t
  · simp [h, raise] at ht
  · simp only [hcheck, if_neg h] at ht ⊢
    exact hf hst ht

theorem Respects.andThen (hf : Respects g f) (hk : Respects g k) : Respects g fun s => (f s).andThen k := by
  intro s t t' hst ht
  obtain ⟨⟨⟩, t₁, hft, hkt⟩ := Ran.andThen_eq_ok.1 ht
  obtain ⟨s₁, hfs, hst₁⟩ := hf hst hft
  obtain ⟨s', hks, hst'⟩ := hk hst₁ hkt
  exact ⟨s', Ran.andThen_eq_ok.2 ⟨(), s₁, hfs, hks⟩, hst'⟩

theorem emitByte_respects (hg : KeepsOutput g) (v : Byte) : Respects g (emitByte v) := by
  intro s t t' hst ht
  have hbudget : s.outBudget = t.outBudget := read_congr g State.outBudget hg.outBudget hst
  have hlen : s.outLen = t.outLen := read_congr g State.outLen hg.outLen hst
  rcases emitByte_cases v t with ⟨_, hr⟩ | ⟨hlt, hr⟩
  · cases hr.symm.trans ht
  · cases hr.symm.trans ht
    have hle : ¬ s.outBudget ≤ s.outLen := by rw [hbudget, hlen]; exact BitVec.not_le.2 hlt
    exact ⟨s.pushByte v, by rw [emitByte, if_neg hle], read_congr g (fun s => g (s.pushByte v)) (hg.pushByte v) hst⟩

theorem emitBytes_respects (hg : KeepsOutput g) (bs : List Byte) : Respects g (emitBytes bs) := by
  induction bs with
  | nil => exact respects_skip g
  | cons v vs ih => exact (emitByte_respects hg v).andThen ih

/-! ### A command that succeeds -/

/-- A command that leaves no error kind succeeded (R81, R122). -/
theorem exec_succeeds {i : Instr} {s t : State} (he : exec i s = .next t) (hk : t.errKind = .none) :
    ∃ u, commandBody i s = .ok () u ∧ t = u.finishOk := by
  rw [exec_eq] at he
  cases hb : commandBody i s with
  | ok a u =>
    rw [hb] at he
    exact ⟨u, rfl, (Host.Outcome.next.inj he).symm⟩
  | raised r u =>
    rw [hb] at he
    cases he
    exact absurd hk (commandBody_kinded i s r u hb)

theorem guard_eq_ok {c : Prop} [Decidable c] {x : Ran Unit} {k : ErrKind} {n : Nat} {s u : State}
    (hx : (if c then raise k n s else x) = .ok () u) : x = .ok () u := by
  split at hx
  · cases hx
  · exact hx

theorem exec_succeeds_finishOk {i : Instr} {s t : State} (he : exec i s = .next t) (hk : t.errKind = .none) :
    t.finishOk = t := by
  obtain ⟨u, -, rfl⟩ := exec_succeeds he hk
  exact u.finishOk_finishOk

/-- A stage command that succeeds, against the stage of COMPRESS. -/
theorem Respects.stage {i : Instr} {s t t' : State} (hf : Respects g f) (hg : ∀ s, g s.finishOk = g s)
    (he : exec i t = .next t') (hk : t'.errKind = .none) (hst : g s = g t)
    (hbody : ∀ t u, commandBody i t = .ok () u → f t = .ok () u) : ∃ v, f s = .ok () v ∧ g v = g t' := by
  obtain ⟨u, hu, rfl⟩ := exec_succeeds he hk
  rw [hg]
  exact hf hst (hbody t u hu)

end

/-! ### The stages before BW_OPEN (R86, R91, R94, R110) -/

/-- The counting loop reads SYM_MEM, CTRL.VARIANT and the configuration only. -/
theorem countLoop_congr {s t : State} (hsym : s.symAt = t.symAt) (hvariant : s.variant = t.variant)
    (hcfg : s.cfg = t.cfg) (left i : Nat) (ft : List FtEntry) : countLoop s left i ft = countLoop t left i ft := by
  induction left generalizing i ft with
  | zero => rfl
  | succ left ih => simp only [countLoop, hsym, hvariant, hcfg, ih]

/-- FC_COUNT with its check and its loop read from the state before: to invalidate the tables changes nothing they
look at. -/
theorem fcCountBody_eq (s : State) :
    fcCountBody s =
      if s.cfg.symCap < s.symCount.toNat then raise .sourceUnavailable s.symCount.toNat s.invalidateAll
      else (Ran.ofExcept (countLoop s s.symCount.toNat 0 []) s.invalidateAll).bind fun ft s =>
        .ok () (s.storeFt ft) := by
  rw [← countLoop_congr (s := s.invalidateAll) (t := s) rfl rfl rfl]
  rfl

theorem fcCountBody_eq_ok {s t : State} : fcCountBody s = .ok () t ↔ s.symCount.toNat ≤ s.cfg.symCap ∧
    ∃ ft, countLoop s s.symCount.toNat 0 [] = .ok ft ∧ t = s.invalidateAll.storeFt ft := by
  rw [fcCountBody_eq]
  by_cases hcap : s.cfg.symCap < s.symCount.toNat
  · simp [hcap, raise]
  · cases countLoop s s.symCount.toNat 0 [] <;> simp [hcap, Nat.le_of_not_lt hcap, eq_comm]

theorem fcCountBody_respects : Respects State.freshEnd fcCountBody := by
  intro s t t' hst ht
  obtain ⟨hcap, ft, hloop, rfl⟩ := fcCountBody_eq_ok.1 ht
  have hcount : s.symCount = t.symCount := read_congr State.freshEnd State.symCount (fun _ => rfl) hst
  have hcfg : s.cfg = t.cfg := read_congr State.freshEnd State.cfg (fun _ => rfl) hst
  have hsym : s.symAt = t.symAt := read_congr State.freshEnd State.symAt (fun _ => rfl) hst
  have hvariant : s.variant = t.variant := read_congr State.freshEnd State.variant (fun _ => rfl) hst
  rw [← hcount, ← hcfg] at hcap
  rw [← hcount, ← countLoop_congr hsym hvariant hcfg] at hloop
  refine ⟨_, fcCountBody_eq_ok.2 ⟨hcap, ft, hloop, rfl⟩,
    read_congr State.freshEnd (fun s => (s.invalidateAll.storeFt ft).freshEnd) (fun s => ?_) hst⟩
  simp only [State.freshEnd_eq, State.invalidateAll, State.invalidateFt, State.invalidateTreeCodes,
    State.invalidateTree, State.invalidateCodes, State.storeFt]

theorem tbBuildBody_respects : Respects State.freshEnd tbBuildBody := by
  refine Respects.read (r := State.ftEntries) (fun ft =>
    respects_ok (fun s => s.invalidateTreeCodes.storeTree (buildTree ft)) fun s => ?_) fun _ => rfl
  simp only [State.freshEnd_eq, State.invalidateTreeCodes, State.invalidateTree, State.invalidateCodes, State.storeTree]

theorem ctBuildBody_respects : Respects State.freshEnd ctBuildBody := by
  refine Respects.read (r := State.treeCodes) (fun m =>
    respects_ok (fun s => s.invalidateCodes.storeCodes m) fun s => ?_) fun _ => rfl
  simp only [State.freshEnd_eq, State.invalidateCodes, State.storeCodes]

theorem tcSerializeBody_respects : Respects State.freshEnd tcSerializeBody := by
  intro s t t' hst ht
  have htree : s.treeOrNull = t.treeOrNull := read_congr State.freshEnd State.treeOrNull (fun _ => rfl) hst
  have hvariant : s.variant = t.variant := read_congr State.freshEnd State.variant (fun _ => rfl) hst
  have htext : s.headerText = t.headerText := read_congr State.freshEnd State.headerText (fun _ => rfl) hst
  simp only [tcSerializeBody, htree, hvariant, htext] at ht ⊢
  cases hfind : t.treeOrNull.nodes.findIdx? (Node.unspellable t.variant) with
  | some i =>
    rw [hfind] at ht
    cases ht
  | none =>
    rw [hfind] at ht
    exact emitBytes_respects keepsOutput_freshEnd _ hst ht

/-! ### The stages after BW_OPEN (R101, R115) -/

theorem writeBit_respects (b : Bool) : Respects State.finishOk (writeBit b) := by
  intro s t t' hst ht
  have hnbits : s.bwNbits = t.bwNbits := read_congr State.finishOk State.bwNbits (fun _ => rfl) hst
  have hacc : s.bwAcc = t.bwAcc := read_congr State.finishOk State.bwAcc (fun _ => rfl) hst
  simp only [writeBit, hnbits, hacc] at ht ⊢
  by_cases h7 : t.bwNbits = 7
  · rw [if_pos h7] at ht ⊢
    exact ((emitByte_respects keepsOutput_finishOk _).andThen
      (respects_ok (fun s => (s.setPending 0 0).countBit) fun _ => rfl)) hst ht
  · rw [if_neg h7] at ht ⊢
    exact respects_ok (g := State.finishOk)
      (fun s => (s.setPending (shiftIn t.bwAcc b) (t.bwNbits + 1)).countBit) (fun _ => rfl) hst ht

theorem writeBits_respects (bits : List Bool) : Respects State.finishOk (writeBits bits) := by
  induction bits with
  | nil => exact respects_skip _
  | cons b bs ih => exact (writeBit_respects b).andThen ih

theorem encodeLoop_respects (left i : Nat) : Respects State.finishOk (encodeLoop left i) := by
  induction left generalizing i with
  | zero => exact respects_skip _
  | succ left ih =>
    intro s t t' hst ht
    have hct : s.ctOrEmpty = t.ctOrEmpty := read_congr State.finishOk State.ctOrEmpty (fun _ => rfl) hst
    have hsym : s.symAt i = t.symAt i := read_congr State.finishOk (fun s => s.symAt i) (fun _ => rfl) hst
    simp only [encodeLoop, hct, hsym] at ht ⊢
    cases hcode : t.ctOrEmpty.code? (t.symAt i) with
    | none =>
      rw [hcode] at ht
      cases ht
    | some c =>
      rw [hcode] at ht
      exact ((writeBits_respects c).andThen (ih (i + 1))) hst ht

theorem encodeBody_respects : Respects State.finishOk encodeBody :=
  Respects.guard (Respects.read (r := fun s => s.symCount.toNat) (fun n => encodeLoop_respects n 0) fun _ => rfl)
    fun _ => rfl

theorem bwCloseBody_respects : Respects State.finishOk bwCloseBody :=
  Respects.guard (Respects.read (r := fun s => [s.partialByte, s.trailerByte])
    (fun bs => (emitBytes_respects keepsOutput_finishOk bs).andThen (respects_ok State.closeWriter fun _ => rfl))
    fun _ => rfl) fun _ => rfl

/-! ### The empty sequence (R116) -/

theorem countSymbol_ne_nil (x : Word) (ft : List FtEntry) : countSymbol x ft ≠ [] := by
  cases ft with
  | nil => exact List.cons_ne_nil _ _
  | cons e ft =>
    rw [countSymbol]
    split <;> exact List.cons_ne_nil _ _

/-- The loop leaves the table empty only when it counts no symbol. -/
theorem countLoop_eq_nil {s : State} {left i : Nat} {ft ft' : List FtEntry} (h : countLoop s left i ft = .ok ft') :
    ft' = [] ↔ left = 0 ∧ ft = [] := by
  induction left generalizing i ft with
  | zero =>
    cases h
    simp
  | succ left ih =>
    simp only [countLoop] at h
    split at h
    · cases h
    · split at h
      · cases h
      · rw [ih h]
        simp [countSymbol_ne_nil]

theorem fcCountBody_nDistinct {s t : State} (h : fcCountBody s = .ok () t) : t.nDistinct = 0 ↔ s.symCount = 0 := by
  obtain ⟨-, ft, hloop, rfl⟩ := fcCountBody_eq_ok.1 h
  have hnil : ft = [] ↔ s.symCount.toNat = 0 := (countLoop_eq_nil hloop).trans (and_iff_left rfl)
  calc (s.invalidateAll.storeFt ft).nDistinct = 0 ↔ ft = [] := List.length_eq_zero_iff
    _ ↔ s.symCount.toNat = 0 := hnil
    _ ↔ s.symCount = 0 := ⟨fun h => BitVec.eq_of_toNat_eq h, congrArg BitVec.toNat⟩

theorem tbBuildBody_nDistinct {s t : State} (h : tbBuildBody s = .ok () t) : t.nDistinct = s.nDistinct := by
  cases h
  rfl

theorem ctBuildBody_nDistinct {s t : State} (h : ctBuildBody s = .ok () t) : t.nDistinct = s.nDistinct := by
  cases h
  rfl

/-! ### COMPRESS (R116, R117) -/

/-- FC_COUNT invalidates the tables itself, so at the start of COMPRESS it runs as from a closed writer. -/
theorem fcCountBody_compressStart (s : State) :
    fcCountBody (compressStart s) = fcCountBody (({ s with outLen := 0 }).freshWriter false) := rfl

theorem exec_bwOpen_eq_next {s t : State} (h : exec .bwOpen s = .next t) : t = s.freshEnd :=
  (Host.Outcome.next.inj h).symm

theorem compressEmit_empty {s : State} (h : s.nDistinct = 0) : compressEmit s = bwCloseBody (s.freshWriter true) := by
  rw [compressEmit, if_pos h, bwOpenBody, Ran.andThen_ok]

theorem compressEmit_symbols {s t u v : State} (h : s.nDistinct ≠ 0) (hserialize : tcSerializeBody s = .ok () t)
    (hencode : encodeBody (t.freshWriter true) = .ok () u) (hclose : bwCloseBody u = .ok () v) :
    compressEmit s = .ok () v := by
  simp only [compressEmit, if_neg h, hserialize, Ran.andThen_ok, bwOpenBody, hencode, hclose]

theorem exec_compress {s s₁ s₂ s₃ v : State} (hcount : fcCountBody (compressStart s) = .ok () s₁)
    (htree : tbBuildBody s₁ = .ok () s₂) (hcodes : ctBuildBody s₂ = .ok () s₃)
    (hemit : compressEmit s₃ = .ok () v) : exec .compress s = .next v.finishOk := by
  have hbody : commandBody .compress s = .ok () v := by
    simp only [commandBody, compressBody, hcount, Ran.andThen_ok, htree, hcodes, hemit]
  rw [exec_eq, hbody, Ran.finish_ok]

/-- Settles O54: stage by stage, COMPRESS and the stage commands stay in states that `State.freshEnd` does not tell
apart, from BW_OPEN on in states that only the completion registers tell apart, and the last completion writes those. -/
theorem compressMatchesStages : Obligations.CompressMatchesStages := by
  intro s s1 s2 s3 he1 hk1 he2 hk2 he3 hk3
  obtain ⟨v1, hv1, h1⟩ := fcCountBody_respects.stage State.freshEnd_finishOk he1 hk1
    (State.freshEnd_freshWriter _ false) fun _ _ => id
  obtain ⟨v2, hv2, h2⟩ := tbBuildBody_respects.stage State.freshEnd_finishOk he2 hk2 h1 fun _ _ => guard_eq_ok
  obtain ⟨v3, hv3, h3⟩ := ctBuildBody_respects.stage State.freshEnd_finishOk he3 hk3 h2 fun _ _ => guard_eq_ok
  rw [← fcCountBody_compressStart] at hv1
  have hempty : v3.nDistinct = 0 ↔ s.symCount = 0 := by
    rw [ctBuildBody_nDistinct hv3, tbBuildBody_nDistinct hv2, fcCountBody_nDistinct hv1, compressStart_eq]
  constructor
  · intro h0 s4 s5 he4 he5 hk5
    obtain rfl := exec_bwOpen_eq_next he4
    obtain ⟨v5, hv5, h5⟩ := bwCloseBody_respects.stage (s := v3.freshWriter true) State.finishOk_finishOk he5 hk5
      (h3.trans s3.finishOk_freshEnd.symm) fun _ _ => guard_eq_ok
    rw [exec_compress hv1 hv2 hv3 ((compressEmit_empty (hempty.2 h0)).trans hv5), h5, exec_succeeds_finishOk he5 hk5]
  · intro h0 s4 s5 s6 s7 he4 hk4 he5 he6 hk6 he7 hk7
    obtain ⟨v4, hv4, h4⟩ := tcSerializeBody_respects.stage State.freshEnd_finishOk he4 hk4 h3 fun _ _ => guard_eq_ok
    obtain rfl := exec_bwOpen_eq_next he5
    obtain ⟨v6, hv6, h6⟩ := encodeBody_respects.stage (s := v4.freshWriter true) State.finishOk_finishOk he6 hk6
      (h4.trans s4.finishOk_freshEnd.symm) fun _ _ h => guard_eq_ok (guard_eq_ok h)
    obtain ⟨v7, hv7, h7⟩ := bwCloseBody_respects.stage State.finishOk_finishOk he7 hk7 h6 fun _ _ => guard_eq_ok
    rw [exec_compress hv1 hv2 hv3 (compressEmit_symbols (mt hempty.1 h0) hv4 hv6 hv7), h7,
      exec_succeeds_finishOk he7 hk7]

end Sys2Proof.Machine
end

section
/-! Compressor: the file that COMPRESS of an acceptable sequence leaves in OUT_MEM (R116, R75). -/

namespace Sys2Proof.Machine

/-! ### Bytes that stand one after another -/

section
variable {read : Nat → Byte} {a : Nat} {bs cs : List Byte}

theorem BytesAt.append (h : BytesAt read a bs) (g : BytesAt read (a + bs.length) cs) : BytesAt read a (bs ++ cs) := by
  intro k hk
  rw [List.length_append] at hk
  rw [List.getElem_append]
  split
  · next hlt => exact h k hlt
  · next hge =>
    rw [← g (k - bs.length) (by omega)]
    congr 1
    omega

theorem BytesAt.congr {read' : Nat → Byte} (h : BytesAt read a bs)
    (e : ∀ k, a ≤ k → k < a + bs.length → read' k = read k) : BytesAt read' a bs :=
  fun k hk => (e (a + k) (by omega) (by omega)).trans (h k hk)

end

/-! ### The tables of COMPRESS (R116) -/

/-- The state COMPRESS emits from: OUT_LEN is 0, the tables are those of the sequence, and the writer is closed and
empty (R116). -/
def State.tablesBuilt (s : State) : State := { s with
  outLen := 0
  ft := some (freqTable s.symbols), tree := some (huffTree s.symbols), ct := some (huffTree s.symbols).codes
  bwOpen := false, bwAcc := 0, bwNbits := 0, bitCount := 0 }

section
variable {s : State}

/-- The counting loop of an acceptable sequence makes its frequency table (R86). -/
theorem countLoop_symbols (h : Encodable s.cfg s.variant s.symbols) :
    countLoop s s.symCount.toNat 0 [] = .ok (freqTable s.symbols) := by
  obtain ⟨hvalid, -, hdistinct⟩ := h
  rw [symbols_eq] at hvalid hdistinct ⊢
  exact countLoop_run (n := 0) (xs := []) hvalid hdistinct

theorem symbols_length (s : State) : s.symbols.length = s.symCount.toNat := by
  rw [State.symbols, List.length_map, List.length_range]

theorem fcCountBody_symbols (h : Encodable s.cfg s.variant s.symbols) :
    fcCountBody s = .ok () (s.invalidateAll.storeFt (freqTable s.symbols)) :=
  fcCountBody_eq_ok.2 ⟨symbols_length s ▸ h.length_le, _, countLoop_symbols h, rfl⟩

/-- COMPRESS of an acceptable sequence is its emission from the tables of the sequence. -/
theorem exec_compress_tablesBuilt (h : Encodable s.cfg s.variant s.symbols) {v : State}
    (hemit : compressEmit s.tablesBuilt = .ok () v) : exec .compress s = .next v.finishOk := by
  have hcount : fcCountBody (compressStart s) = .ok () { s.tablesBuilt with tree := none, ct := none } := by
    rw [compressStart_eq]
    exact fcCountBody_symbols h
  have hcodes : ctBuildBody { s.tablesBuilt with ct := none } = .ok () s.tablesBuilt := by
    rw [ctBuildBody, State.treeCodes_eq (t := huffTree s.symbols) rfl (huffTree_ok _)]
    rfl
  exact exec_compress hcount rfl hcodes hemit

/-! ### The file COMPRESS writes (R75, R116) -/

theorem symbols_eq_nil_iff : s.symbols = [] ↔ s.symCount = 0 := by
  rw [← List.length_eq_zero_iff, symbols_length]
  exact ⟨fun h => BitVec.eq_of_toNat_eq h, congrArg BitVec.toNat⟩

theorem tablesBuilt_nDistinct : s.tablesBuilt.nDistinct = 0 ↔ s.symbols = [] := by
  have hlen : s.tablesBuilt.nDistinct = (firstSeen s.symbols).length := freqTable_length s.symbols
  simp only [hlen, List.length_eq_zero_iff, List.eq_nil_iff_forall_not_mem, mem_firstSeen]

theorem tablesBuilt_headerText : s.tablesBuilt.headerText = huffHeader s.variant s.imgW s.imgH s.symbols := by
  rw [State.headerText, State.treeText_eq (t := huffTree s.symbols) rfl (huffTree_ok _), State.pixelText, huffHeader,
    List.append_cons (decText _)]
  rfl

/-- The empty sequence: an empty stream is emitted, and nothing before it (R116). -/
theorem compressEmit_file_nil (hxs : s.symbols = []) (hfit : 2 ≤ s.outBudget.toNat) :
    ∃ v, compressEmit s.tablesBuilt = .ok () v ∧ v.outLen.toNat = 2 ∧ BytesAt v.outAt 0 [0, 0] := by
  obtain ⟨v, hv, -, hlen, hat, -⟩ := write_close (s := s.tablesBuilt.freshWriter true) rfl (.refl _) hfit
  exact ⟨v.closeWriter, (compressEmit_empty (tablesBuilt_nDistinct.2 hxs)).trans hv, hlen, hat⟩

/-- The header of a sequence fits: it is emitted, and no table and no symbol is touched (R110). -/
theorem tcSerializeBody_tablesBuilt (h : Encodable s.cfg s.variant s.symbols)
    (hfit : (huffHeader s.variant s.imgW s.imgH s.symbols).length ≤ s.outBudget.toNat) :
    ∃ u, tcSerializeBody s.tablesBuilt = .ok () u ∧
      EmittedBytes (huffHeader s.variant s.imgW s.imgH s.symbols) s.tablesBuilt u := by
  rw [tcSerializeBody_spellable (s := s.tablesBuilt) rfl fun x hx => h.valid x (mem_huffTree_syms.1 hx),
    tablesBuilt_headerText]
  exact emitBytes_ok hfit

/-- The stream of the code bits fits: it is emitted from a fresh writer, and the bytes before it stay (R115, R101). -/
theorem encodeBody_close {xs : List Word} (hct : s.ct = some (huffTree xs).codes) (hxs : s.symbols = xs)
    (hcap : s.symCount.toNat ≤ s.cfg.symCap) (hfresh : s.bwNbits = 0)
    (hfit : s.outLen.toNat + (streamOf (huffBits xs)).length ≤ s.outBudget.toNat) :
    ∃ t v, encodeBody s = .ok () t ∧ bwCloseBody t = .ok () v ∧
      v.outLen.toNat = s.outLen.toNat + (streamOf (huffBits xs)).length ∧
      BytesAt v.outAt s.outLen.toNat (streamOf (huffBits xs)) ∧ ∀ a, a < s.outLen.toNat → v.outAt a = s.outAt a := by
  subst hxs
  rw [streamOf_length] at hfit
  have hbits : s.bwNbits.val = 0 := congrArg Fin.val hfresh
  have hcodes : ∀ x ∈ s.symbols, ((huffTree s.symbols).codes.code? x).isSome = true :=
    fun x hx => Option.isSome_iff_exists.2 (huffTree_code hx)
  obtain ⟨t, ht, hw⟩ := encodeBody_room hct hcap hcodes (by rw [hbits, State.room]; unfold huffBits at hfit; omega)
  have htlen := hw.outLen_eq
  rw [hbits, Nat.zero_add] at htlen
  obtain ⟨v, hv, -, hlen, hat, hkeep⟩ :=
    write_close hfresh hw (by rw [hw.outBudget, htlen]; unfold huffBits at hfit; omega)
  exact ⟨t, v.closeWriter, ht, hv, hlen, hat, fun a ha => hkeep a (.inl ha)⟩

/-- A sequence that is not empty: its header is emitted, and then the stream of its code bits (R116). -/
theorem compressEmit_file_cons (h : Encodable s.cfg s.variant s.symbols) (hxs : s.symbols ≠ [])
    (hfit : (huffHeader s.variant s.imgW s.imgH s.symbols).length + (streamOf (huffBits s.symbols)).length ≤
      s.outBudget.toNat) :
    ∃ v, compressEmit s.tablesBuilt = .ok () v ∧
      v.outLen.toNat =
        (huffHeader s.variant s.imgW s.imgH s.symbols).length + (streamOf (huffBits s.symbols)).length ∧
      BytesAt v.outAt 0 (huffHeader s.variant s.imgW s.imgH s.symbols ++ streamOf (huffBits s.symbols)) := by
  obtain ⟨u, hu, he⟩ := tcSerializeBody_tablesBuilt h (by omega)
  generalize huffHeader s.variant s.imgW s.imgH s.symbols = header at hfit he ⊢
  have hulen : (u.freshWriter true).outLen.toNat = header.length := he.outLen_eq.trans (Nat.zero_add _)
  have hubudget : (u.freshWriter true).outBudget = s.outBudget := he.outBudget
  have hucap : (u.freshWriter true).symCount.toNat ≤ (u.freshWriter true).cfg.symCap := by
    rw [he.frame]
    exact symbols_length s ▸ h.length_le
  obtain ⟨t, v, ht, hv, hlen, hat, hkeep⟩ := encodeBody_close (s := u.freshWriter true) (xs := s.symbols)
    (by rw [he.frame]; rfl) (by rw [he.frame]; rfl) hucap rfl (by rwa [hulen, hubudget])
  rw [hulen] at hlen hat hkeep
  have hheader : BytesAt v.outAt 0 header := he.bytes_at.congr fun k _ hk => hkeep k (hk.trans_eq (Nat.zero_add _))
  exact ⟨v, compressEmit_symbols (mt tablesBuilt_nDistinct.1 hxs) hu ht hv, hlen,
    hheader.append ((Nat.zero_add header.length).symm ▸ hat)⟩

/-- COMPRESS of an acceptable sequence whose file fits leaves the file at OUT_MEM[0..], and OUT_LEN is its length
(R116, R75). -/
theorem exec_compress_file (h : Encodable s.cfg s.variant s.symbols)
    (hfit : (huffFile s.variant s.imgW s.imgH s.symbols).length ≤ s.outBudget.toNat) :
    ∃ t, exec .compress s = .next t ∧ t.outLen.toNat = (huffFile s.variant s.imgW s.imgH s.symbols).length ∧
      BytesAt t.outAt 0 (huffFile s.variant s.imgW s.imgH s.symbols) := by
  suffices hemit : ∃ v, compressEmit s.tablesBuilt = .ok () v ∧
      v.outLen.toNat = (huffFile s.variant s.imgW s.imgH s.symbols).length ∧
      BytesAt v.outAt 0 (huffFile s.variant s.imgW s.imgH s.symbols) by
    obtain ⟨v, hv, hlen, hat⟩ := hemit
    exact ⟨v.finishOk, exec_compress_tablesBuilt h hv, hlen, hat⟩
  unfold huffFile at hfit ⊢
  by_cases hxs : s.symbols = []
  · rw [if_pos hxs] at hfit ⊢
    exact compressEmit_file_nil hxs hfit
  · rw [if_neg hxs, List.length_append] at hfit ⊢
    exact compressEmit_file_cons h hxs hfit

end

end Sys2Proof.Machine
end

section
/-! The file of a sequence as a reader finds it: its stream carries the code bits (R76), and its header is a header of
the grammar whose tree has the sequence's codes and fits (R72, R73). -/

namespace Sys2Proof.Machine

/-! ### The stream of a file (R76) -/

/-- Bit `k` of bytes is bit 7 - (k mod 8) of byte floor(k/8) (R52). -/
theorem bytesBits_getElem? (bs : List Byte) (k : Nat) :
    (bytesBits bs)[k]? = (bs[k / 8]?).map fun x => x.getLsbD (7 - k % 8) := by
  induction bs generalizing k with
  | nil => rfl
  | cons b bs ih =>
    rw [bytesBits_cons]
    rcases Nat.lt_or_ge k 8 with hlt | hge
    · rw [List.getElem?_append_left (by rwa [byteBits_length]), Nat.div_eq_of_lt hlt, Nat.mod_eq_of_lt hlt]
      simp [byteBits, hlt]
    · rw [List.getElem?_append_right (by rwa [byteBits_length]), byteBits_length, ih,
        show k / 8 = (k - 8) / 8 + 1 by omega, show k % 8 = (k - 8) % 8 by omega, List.getElem?_cons_succ]

/-- The stream of bits carries them (R76). -/
theorem streamOf_carries (bits : List Bool) : CarriesBits (streamOf bits) bits where
  length_ge := by rw [streamOf_length]; omega
  trailer := by
    refine ⟨BitVec.ofNat 8 (bits.length % 8), by rw [streamOf, List.getLast?_concat], ?_⟩
    rw [streamOf_length, BitVec.toNat_ofNat]
    omega
  bit := by
    intro k b hb
    have hpacked : (bytesBits (packBytes bits))[k]? = some b := by
      rw [(packBytes_bits bits).1]
      exact getElem?_append_some _ hb
    rw [bytesBits_getElem?] at hpacked
    obtain ⟨x, hx, hxb⟩ := Option.map_eq_some_iff.1 hpacked
    exact ⟨x, getElem?_append_some _ hx, hxb⟩

/-! ### The header of a file (R72, R73) -/

/-- No header starts with the byte of the empty-input file (R77). -/
theorem HeaderText.head {pixel : Bool} {w h : Word} {shape : Option Shape} {text : List Byte}
    (ht : HeaderText pixel w h shape text) : ∃ b tl, text = b :: tl ∧ b ≠ 0 := by
  obtain ⟨a, b, rfl, ha, hb⟩ := ht
  cases pixel with
  | false =>
    obtain rfl : a = [] := ha
    obtain ⟨tl, rfl⟩ := hb.head
    exact ⟨byteOpen, _, rfl, by decide⟩
  | true =>
    obtain ⟨c, d, rfl, hc, -⟩ := ha
    obtain ⟨e, tl, rfl, he⟩ := hc.head
    refine ⟨e, _, rfl, ?_⟩
    rintro rfl
    exact absurd he (by decide)

section
variable {c : Config} {pixel : Bool} {xs : List Word}

/-- The constraint of R11. -/
theorem nodeCap_ge_of_legal (hc : c.legal = true) : max 2 (2 * c.maxDistinct - 1) ≤ c.nodeCap := by
  simp only [Config.legal, decide_eq_true_eq] at hc
  omega

theorem huffTree_root (hxs : xs ≠ []) : ∃ r, (huffTree xs).root = some r := by
  obtain ⟨x, hx⟩ := List.exists_mem_of_ne_nil xs hxs
  have hnodes : (huffTree xs).nodes ≠ [] := by
    intro hnil
    have hsym := mem_huffTree_syms.2 hx
    rw [hnil] at hsym
    cases hsym
  exact ⟨_, (huffTree_ok xs).root_eq.trans (if_neg hnodes)⟩

/-- The tree of an acceptable sequence fits in NODE (R11). -/
theorem huffTree_fits (hc : c.legal = true) (h : Encodable c pixel xs) : (huffTree xs).nodes.length ≤ c.nodeCap := by
  have hcap := nodeCap_ge_of_legal hc
  have hlen := buildTree_length (freqTable xs)
  have hdistinct := h.distinct_le
  rw [freqTable_length] at hlen
  rw [huffTree]
  omega

/-- The tree of an acceptable sequence that is not empty has a shape, which fits, and its header is a header of the
grammar (R73). -/
theorem huffTree_shape (hc : c.legal = true) (h : Encodable c pixel xs) (hxs : xs ≠ []) :
    ∃ sh, (huffTree xs).HasWholeShape (some sh) ∧ sh.Writable c.nodeCap ∧
      ∀ w v, HeaderText pixel w v (some sh) (huffHeader pixel w v xs) := by
  obtain ⟨r, hr⟩ := huffTree_root hxs
  obtain ⟨sh, ⟨r', hr', hs⟩, hinternal, hnodup, hsize, hsyms⟩ := (huffTree_ok xs).whole_shape hr
  refine ⟨sh, ⟨r', hr', hs⟩, ⟨hnodup, hsize.trans (huffTree_fits hc h)⟩, fun w v => ?_⟩
  rw [huffHeader, (huffTree_ok xs).text_eq hr' hs]
  refine headerOf_text fun sh' e => ?_
  obtain rfl := Option.some.inj e
  exact ⟨hinternal, fun x hx => h.valid x (mem_huffTree_syms.1 (hsyms x hx))⟩

end

end Sys2Proof.Machine
end

section
/-! Decompressor: DECOMPRESS stage by stage on a file, and the round trip of R121. -/

namespace Sys2Proof.Machine

/-! ### DECODE (R118) -/

section
variable {s : State} {t : Tree} {root : Nat} {codes : List (Word × Code)}

/-- DECODE of the codes of a sequence writes the sequence (R118). -/
theorem decodeBody_codes (htree : s.tree = some t) (ht : t.Ok) (hr : t.root = some root)
    (hcodes : ∀ p ∈ codes, t.IsCode p.1 p.2) (hcap : codes.length ≤ s.cfg.symCap) (hpos : s.brBitPos ≤ s.brTotal)
    (hbits : s.bitsAhead (s.brTotal - s.brBitPos) = codes.flatMap Prod.snd) :
    ∃ u, decodeBody s = .ok () u ∧ DecodedTo codes (codes.flatMap Prod.snd).length s u := by
  have hlen : s.brTotal - s.brBitPos = (codes.flatMap Prod.snd).length := by rw [← hbits, State.bitsAhead_length]
  have hloop := decodeLoop_codes (s := s.setSymCount 0) (left := 0) (k := 0) (rest := []) ht hr hcodes
    (by rw [List.append_nil, Nat.add_zero, ← hlen]; exact hbits)
    (by rw [State.setSymCount_brBitPos, State.setSymCount_brTotal]; omega) (by rwa [Nat.zero_add])
  refine ⟨(s.setSymCount 0).decoded 0 codes, ?_, decoded_to codes 0 s⟩
  simp only [decodeBody, State.treeOrNull_eq htree, hr, State.setSymCount_brBitPos, State.setSymCount_brTotal, hlen]
  simp only [Nat.add_zero] at hloop
  simp only [hloop, decodeLoop, Ran.bind_ok, ne_eq, not_true, if_false]

end

/-! ### DECOMPRESS (R119) -/

/-- From `s`, DECOMPRESS restored the sequence `xs` and reached `t`, with FT and the codes invalid (R119). -/
structure RestoredTo (xs : List Word) (s t : State) : Prop where
  ft_eq : t.ft = none
  ct_eq : t.ct = none
  symCount_eq : t.symCount = word xs.length
  symbols : ∀ k, t.symAt k = (xs[k]?).getD (s.symAt k)

/-- The state DECOMPRESS decodes from: the values of the header are set, and the reader is open on `total` bits after
it (R119). -/
def State.decodeStart (s : State) (hd : Header) (total : Nat) : State := { s with
  ft := none, tree := some hd.tree, ct := none, hdrVariant := hd.pixel, inPos := word hd.next
  imgW := (hd.size.map Prod.fst).getD s.imgW, imgH := (hd.size.map Prod.snd).getD s.imgH
  brOpen := true, brBase := hd.next, brTotal := total, brBitPos := 0 }

@[simp] theorem decompressStart_cfg (s : State) : (decompressStart s).cfg = s.cfg := by rw [decompressStart_eq]
@[simp] theorem decompressStart_inLen (s : State) : (decompressStart s).inLen = s.inLen := by rw [decompressStart_eq]
@[simp] theorem decompressStart_inPos (s : State) : (decompressStart s).inPos = 0 := by rw [decompressStart_eq]
@[simp] theorem decompressStart_inAt (s : State) : (decompressStart s).inAt = s.inAt := by
  rw [decompressStart_eq]
  rfl

/-- BR_OPEN after TC_PARSE, in DECOMPRESS: the reader starts where the header ends (R119). -/
theorem decompressStart_openReader (s : State) {hd : Header} (hnext : (word hd.next).toNat = hd.next) (total : Nat) :
    ((decompressStart s).invalidateTreeCodes.setHeader hd).openReader (word hd.next).toNat total =
      s.decodeStart hd total := by
  rw [decompressStart_eq, State.setHeader, hnext, State.decodeStart]
  rfl

section
variable {s : State}

theorem decompressBody_empty (hcap : 2 ≤ s.cfg.inCap) (hlen : s.inLen.toNat = 2) (hat : BytesAt s.inAt 0 [0, 0]) :
    decompressBody s = .ok () (decompressStart s).setEmptyFile := by
  have h0 : s.inAt 0 = 0 := hat 0 (by decide)
  have h1 : s.inAt 1 = 0 := hat 1 (by decide)
  simp [decompressBody, h0, h1, hlen, hcap.not_gt]

theorem decompressBody_stages (hcap : s.inLen.toNat ≤ s.cfg.inCap) (hlen : 2 ≤ s.inLen.toNat) (h0 : s.inAt 0 ≠ 0) :
    decompressBody s = ((tcParseBody (decompressStart s)).andThen brOpenBody).andThen decodeBody := by
  simp only [decompressBody, decompressStart_inAt, decompressStart_inLen, decompressStart_cfg, if_neg hcap.not_gt,
    if_neg hlen.not_gt, if_neg h0]

section
variable {pixel : Bool} {w h : Word} {sh : Shape} {text bytes : List Byte} {bits : List Bool}

/-- What TC_PARSE makes of a header text that ends before index `next` (R111). -/
def headerOfShape (pixel : Bool) (w h : Word) (sh : Shape) (next : Nat) : Header :=
  ⟨treeOfShape (some sh), pixel, next, if pixel then some (w, h) else none⟩

/-- TC_PARSE reads a header that stands at IN_POS, whatever follows it, and its tree is a tree (R111, R112). -/
theorem tcParseBody_text (ht : HeaderText pixel w h (some sh) text) (hs : TextAt s s.inPos.toNat text)
    (hsh : sh.Writable s.cfg.nodeCap) (hcap : s.inLen.toNat ≤ s.cfg.inCap) :
    tcParseBody s =
      .ok () (s.invalidateTreeCodes.setHeader (headerOfShape pixel w h sh (s.inPos.toNat + text.length))) ∧
      (treeOfShape (some sh)).Ok := by
  have hparse := parseHeader_text (s := s.invalidateTreeCodes) ht hs fun _ e => Option.some.inj e ▸ hsh
  have hcap' : ¬ s.invalidateTreeCodes.cfg.inCap < s.invalidateTreeCodes.inLen.toNat := hcap.not_gt
  refine ⟨?_, (parseHeader_sound hparse).1⟩
  simp only [tcParseBody, if_neg hcap', hparse, Ran.ofExcept_ok, Ran.bind_ok]
  rfl

/-- BR_OPEN of a stream opens the reader on its bits (R104, R107). -/
theorem brOpenBody_bits (h : CarriesBits bytes bits) (hat : BytesAt s.inAt s.inPos.toNat bytes)
    (hlen : s.inLen.toNat = s.inPos.toNat + bytes.length) (hcap : s.inLen.toNat ≤ s.cfg.inCap) :
    brOpenBody s = .ok () (s.openReader s.inPos.toNat bits.length) ∧
      (s.openReader s.inPos.toNat bits.length).bitsAhead bits.length = bits := by
  obtain ⟨hopen, hbit⟩ := brOpenBody_carries h hat hlen hcap
  refine ⟨hopen, List.ext_getElem (State.bitsAhead_length _ _) fun k h₁ h₂ => ?_⟩
  rw [State.bitsAhead_getElem, State.openReader_brBitPos, Nat.zero_add]
  exact hbit k _ (List.getElem?_eq_getElem h₂)

/-- The first two stages of DECOMPRESS, on a header and a stream that are the whole input: the header's tree is a tree,
and the bits ahead are those of the stream (R119, R111, R104). -/
theorem tcParse_brOpen_file (ht : HeaderText pixel w h (some sh) text) (hsh : sh.Writable s.cfg.nodeCap)
    (hbits : CarriesBits bytes bits) (hat : BytesAt s.inAt 0 (text ++ bytes))
    (hlen : s.inLen.toNat = (text ++ bytes).length) (hcap : s.inLen.toNat ≤ s.cfg.inCap) :
    (tcParseBody (decompressStart s)).andThen brOpenBody =
        .ok () (s.decodeStart (headerOfShape pixel w h sh text.length) bits.length) ∧
      (treeOfShape (some sh)).Ok ∧
      (s.decodeStart (headerOfShape pixel w h sh text.length) bits.length).bitsAhead bits.length = bits := by
  have hs : TextAt s 0 (text ++ bytes) := ⟨hat, by rw [Nat.zero_add, hlen]⟩
  have hbytes := hs.right.1
  rw [Nat.zero_add] at hbytes
  rw [List.length_append] at hlen
  have hpos : (word text.length).toNat = text.length :=
    (BitVec.toNat_ofNat ..).trans (Nat.mod_eq_of_lt ((Nat.le.intro hlen.symm).trans_lt s.inLen.isLt))
  obtain ⟨hparse, hok⟩ := tcParseBody_text (s := decompressStart s) ht
    (by simpa [TextAt] using hs.left) (by rwa [decompressStart_cfg]) (by simpa using hcap)
  rw [decompressStart_inPos, show (0 : Word).toNat = 0 from rfl, Nat.zero_add] at hparse
  have hin : ((decompressStart s).invalidateTreeCodes.setHeader (headerOfShape pixel w h sh text.length)).inAt =
      s.inAt := by
    rw [decompressStart_eq]
    rfl
  obtain ⟨hopen, hahead⟩ := brOpenBody_bits
    (s := (decompressStart s).invalidateTreeCodes.setHeader (headerOfShape pixel w h sh text.length)) hbits
    (by rw [hin]; exact hpos.symm ▸ hbytes) (by rw [decompressStart_eq]; exact hpos.symm ▸ hlen)
    (by rw [decompressStart_eq]; exact hcap)
  have hstart := decompressStart_openReader s (hd := headerOfShape pixel w h sh text.length) hpos bits.length
  exact ⟨by rw [hparse, Ran.andThen_ok, hopen]; exact congrArg _ hstart, hok, hstart ▸ hahead⟩

/-- DECOMPRESS of a header and the stream of the codes of a sequence restores the sequence and the values of the
header (R119, R118). -/
theorem decompressBody_file {codes : List (Word × Code)} (ht : HeaderText pixel w h (some sh) text)
    (hsh : sh.Writable s.cfg.nodeCap) (hcodes : ∀ p ∈ codes, (treeOfShape (some sh)).IsCode p.1 p.2)
    (hbits : CarriesBits bytes (codes.flatMap Prod.snd)) (hat : BytesAt s.inAt 0 (text ++ bytes))
    (hlen : s.inLen.toNat = (text ++ bytes).length) (hcap : s.inLen.toNat ≤ s.cfg.inCap)
    (hsym : codes.length ≤ s.cfg.symCap) :
    ∃ u, decompressBody s = .ok () u ∧ RestoredTo (codes.map Prod.fst) s u ∧
      u.hdrVariant = pixel ∧ (pixel = true → u.imgW = w ∧ u.imgH = h) := by
  obtain ⟨b, tl, htext, hb⟩ := ht.head
  have hfirst : s.inAt 0 ≠ 0 := by
    subst htext
    exact hat 0 (Nat.succ_pos _) ▸ hb
  have htwo : 2 ≤ s.inLen.toNat := by
    rw [hlen, List.length_append]
    exact hbits.length_ge.trans (Nat.le_add_left _ _)
  obtain ⟨hopen, hok, hahead⟩ := tcParse_brOpen_file ht hsh hbits hat hlen hcap
  obtain ⟨u, hu, hsymbols, hframe⟩ := decodeBody_codes (s := s.decodeStart (headerOfShape pixel w h sh text.length) _)
    rfl hok rfl hcodes hsym (Nat.zero_le _) hahead
  refine ⟨u, by rw [decompressBody_stages hcap htwo hfirst, hopen, Ran.andThen_ok, hu],
    ⟨by rw [hframe]; rfl, by rw [hframe]; rfl, by rw [hframe, List.length_map], fun k => ?_⟩, by rw [hframe]; rfl, ?_⟩
  · rw [hsymbols, List.getElem?_map]
    rfl
  · rintro rfl
    rw [hframe]
    exact ⟨rfl, rfl⟩

end

/-! ### The file of a sequence (R121) -/

/-- The symbols of a sequence with their codes. -/
def symbolCodes (m : CodeTable) (xs : List Word) : List (Word × Code) := xs.map fun x => (x, (m.code? x).getD [])

theorem symbolCodes_fst (m : CodeTable) (xs : List Word) : (symbolCodes m xs).map Prod.fst = xs :=
  (List.map_map ..).trans (List.map_id xs)

theorem symbolCodes_bits (m : CodeTable) (xs : List Word) : (symbolCodes m xs).flatMap Prod.snd = codeBits m xs :=
  List.flatMap_map ..

theorem huffTree_isCode {xs : List Word} {x : Word} (hx : x ∈ xs) :
    (huffTree xs).IsCode x (((huffTree xs).codes.code? x).getD []) := by
  obtain ⟨c, hc⟩ := huffTree_code hx
  rw [hc, Option.getD_some]
  exact ((huffTree_ok xs).codes_code? x c).1 hc

/-- DECOMPRESS of the file of a sequence that is not empty restores it and the values of its header (R121). -/
theorem decompressBody_huffFile {xs : List Word} {pixel : Bool} {w h : Word} (hc : s.cfg.legal = true)
    (he : Encodable s.cfg pixel xs) (hxs : xs ≠ []) (hat : BytesAt s.inAt 0 (huffFile pixel w h xs))
    (hlen : s.inLen.toNat = (huffFile pixel w h xs).length) (hcap : s.inLen.toNat ≤ s.cfg.inCap) :
    ∃ u, decompressBody s = .ok () u ∧ RestoredTo xs s u ∧
      u.hdrVariant = pixel ∧ (pixel = true → u.imgW = w ∧ u.imgH = h) := by
  obtain ⟨sh, hshape, hsh, hheader⟩ := huffTree_shape hc he hxs
  have hcodes : ∀ p ∈ symbolCodes (huffTree xs).codes xs, (treeOfShape (some sh)).IsCode p.1 p.2 := by
    intro p hp
    obtain ⟨x, hx, rfl⟩ := List.mem_map.1 hp
    exact ((treeOfShape_shape (some sh)).isCode x _).2 ((hshape.isCode x _).1 (huffTree_isCode hx))
  have hbits : CarriesBits (streamOf (huffBits xs)) ((symbolCodes (huffTree xs).codes xs).flatMap Prod.snd) := by
    rw [symbolCodes_bits]
    exact streamOf_carries _
  unfold huffFile at hat hlen
  rw [if_neg hxs] at hat hlen
  have hu := decompressBody_file (hheader w h) hsh hcodes hbits hat hlen hcap
    ((List.length_map _).trans_le he.length_le)
  rwa [symbolCodes_fst] at hu

/-- DECOMPRESS of the empty-input file restores the empty sequence (R119, R121). -/
theorem decompressBody_emptyFile (hat : BytesAt s.inAt 0 [0, 0]) (hlen : s.inLen.toNat = 2)
    (hcap : s.inLen.toNat ≤ s.cfg.inCap) : ∃ u, decompressBody s = .ok () u ∧ RestoredTo [] s u := by
  refine ⟨_, decompressBody_empty (hlen ▸ hcap) hlen hat, ?_⟩
  rw [decompressStart_eq]
  exact ⟨rfl, rfl, rfl, fun _ => rfl⟩

/-- A DECOMPRESS that restores a sequence changes nothing that is not its output (R119, R40). -/
theorem RestoredTo.exec_decompress {xs : List Word} {u : State} (hu : decompressBody s = .ok () u)
    (h : RestoredTo xs s u) : exec .decompress s = .next u.finishOk ∧ u.finishOk = { s with
      ft := none, tree := u.tree, ct := none, hdrVariant := u.hdrVariant, inPos := u.inPos, imgW := u.imgW
      imgH := u.imgH, brOpen := u.brOpen, brBase := u.brBase, brTotal := u.brTotal, brBitPos := u.brBitPos
      symCount := word xs.length, symMem := u.symMem }.finishOk := by
  have hframe := decompressBody_frame s
  rw [hu, Ran.state_ok, DecompressFrame, h.ft_eq, h.ct_eq, h.symCount_eq] at hframe
  exact ⟨by rw [exec_eq, commandBody, hu, Ran.finish_ok], congrArg State.finishOk hframe⟩

end

theorem symbols_getElem? (s : State) (k : Nat) :
    s.symbols[k]? = if k < s.symCount.toNat then some (s.symAt k) else none := by
  rw [State.symbols, List.getElem?_map]
  split
  · next h => rw [List.getElem?_range h, Option.map_some]
  · next h => rw [List.getElem?_eq_none (by simpa using h), Option.map_none]

/-- Settles O60: COMPRESS leaves the file of its sequence, empty or header and stream, in OUT_MEM, and DECOMPRESS of
that file restores the sequence. -/
theorem decompressInvertsCompress : Obligations.DecompressInvertsCompress := by
  intro c d s hcfg hlegal henc hfit hbudget hexec hcopy hinLen
  obtain ⟨t, ht, hlen, hat⟩ := exec_compress_file henc hfit
  obtain rfl : d = t := Host.Outcome.next.inj (hexec.symm.trans ht)
  have hinAt : BytesAt s.inAt 0 (huffFile c.variant c.imgW c.imgH c.symbols) :=
    hat.congr fun k _ hk => hcopy k (by omega)
  rw [← hinLen] at hlen
  have hcap : s.inLen.toNat ≤ s.cfg.inCap := by rw [hlen, hcfg]; exact hfit.trans hbudget
  rw [← hcfg] at henc
  have hcount : word c.symbols.length = c.symCount := by
    rw [symbols_length, word, BitVec.ofNat_toNat, BitVec.setWidth_eq]
  suffices hrestored : ∃ u, decompressBody s = .ok () u ∧ RestoredTo c.symbols s u ∧
      (c.symbols ≠ [] → u.hdrVariant = c.variant ∧ (c.variant = true → u.imgW = c.imgW ∧ u.imgH = c.imgH)) by
    obtain ⟨u, hu, hr, hvalues⟩ := hrestored
    obtain ⟨hdecompress, hframe⟩ := hr.exec_decompress hu
    rw [hcount] at hframe
    refine ⟨u.finishOk, hdecompress, hframe, fun k => ?_, fun h => hvalues (mt symbols_eq_nil_iff.1 h)⟩
    have hk : u.finishOk.symAt k = (c.symbols[k]?).getD (s.symAt k) := hr.symbols k
    rw [hk, symbols_getElem?]
    split <;> rfl
  by_cases hxs : c.symbols = []
  · rw [hxs] at hinAt hlen ⊢
    obtain ⟨u, hu, hr⟩ := decompressBody_emptyFile hinAt hlen hcap
    exact ⟨u, hu, hr, fun h => absurd rfl h⟩
  · obtain ⟨u, hu, hr, hvalues⟩ := decompressBody_huffFile hlegal henc hxs hinAt hlen hcap
    exact ⟨u, hu, hr, fun _ => hvalues⟩

end Sys2Proof.Machine
end

section
/-! Reset: the values R135 gives the registers, the latch, irq and the hidden state. -/

namespace Sys2Proof.Machine

/-- The reset column of R22, under the parameters `c`. -/
def RegName.resetValue (c : Config) : RegName → Word
  | .id => 0x48554646
  | .version => 0x00010007
  | .capSym => word c.symCap
  | .capIn => word c.inCap
  | .capOut => word c.outCap
  | .capDistinct => word c.maxDistinct
  | .capNode => word c.nodeCap
  | .outBudget => word c.outCap
  | .root => nilWord
  | _ => 0

/-- The state has the values that reset sets (R135). -/
structure State.HasResetValues (c : Config) (t : State) : Prop where
  register : ∀ r, t.readReg r = r.resetValue c
  latch : t.latch = none
  irq : t.irq = false
  writer : t.bwAcc = 0 ∧ t.bwNbits = 0
  reader : t.brBase = 0 ∧ t.brTotal = 0 ∧ t.brBitPos = 0

@[simp] theorem flagBit_false (pos : Nat) : flagBit false pos = 0 := rfl

/-- No flag is set after reset, so STATUS is 0 (R26, R135). -/
@[simp] theorem State.status_resetOf (c : Config) : (State.resetOf c).status = 0 := by
  simp [State.status, State.busy, State.ftValid, State.treeValid, State.treeNull, State.ctValid, State.brHasNext,
    State.irq, State.resetOf]

/-- After reset a register reads its reset column (R135). -/
theorem State.readReg_resetOf (c : Config) (r : RegName) : (State.resetOf c).readReg r = r.resetValue c := by
  cases r with
  | status => exact State.status_resetOf c
  | irqEn => exact BitVec.or_self
  | _ => rfl

/-- No register shows the inbox, the data of the last read or the counts of the free values, which are all that a
later reset leaves different from power-on. -/
theorem State.readReg_platformReset (s : State) (r : RegName) :
    s.platformReset.readReg r = (State.resetOf s.cfg).readReg r := by
  cases r <;> rfl

theorem State.hasResetValues_resetOf (c : Config) : (State.resetOf c).HasResetValues c where
  register := State.readReg_resetOf c
  latch := rfl
  irq := rfl
  writer := ⟨rfl, rfl⟩
  reader := ⟨rfl, rfl, rfl⟩

theorem State.hasResetValues_platformReset (s : State) : s.platformReset.HasResetValues s.cfg where
  register r := (s.readReg_platformReset r).trans (State.readReg_resetOf s.cfg r)
  latch := rfl
  irq := rfl
  writer := ⟨rfl, rfl⟩
  reader := ⟨rfl, rfl, rfl⟩

/-- When the platform asserts the reset input, the step is that reset, with a command latched or not (R135). -/
theorem step_reset {s : State} {rest : List HostInput} (h : s.HostMoves .reset rest) :
    step s = .next ({ s with inbox := rest } : State).platformReset :=
  step_host h

/-- Settles O24: power-on and an asserted reset both give the reset values, and the reset column of R22 is read off
`RegName.resetValue`. -/
theorem resetValues : Obligations.ResetValues := by
  unfold Obligations.ResetValues
  intro ok
  have hok : ∀ {c : Config} {t : State}, t.HasResetValues c → ok c t := by
    intro c t ⟨hreg, hlatch, hirq, ⟨hacc, hnbits⟩, hbase, htotal, hbitPos⟩
    refine ⟨hreg _, hreg _, hreg _, hreg _, hreg _, hreg _, hreg _, hreg _, hreg _, ?_,
      hlatch, hirq, hacc, hnbits, hbase, htotal, hbitPos⟩
    simp only [hreg, List.forall_mem_cons, RegName.resetValue, List.not_mem_nil, false_imp_iff, implies_true, and_self]
  exact ⟨fun c => hok (State.hasResetValues_resetOf c), fun s rest h =>
    ⟨_, step_reset h, hok (State.hasResetValues_platformReset { s with inbox := rest })⟩⟩

end Sys2Proof.Machine
end

section
/-! Encoding: the fields of a word by its value, the rows of the opcode map by their commands, and with them that the
decoder and the encoder are inverse (R63, R65) and which words are illegal (R66). -/

namespace Sys2Proof

/-! ### The fields of a word (R63) -/

theorem fieldOp_eq (w : Word) : fieldOp w = w.toNat % 256 := by
  simp [fieldOp, BitVec.extractLsb'_toNat]

theorem fieldN_eq (w : Word) : fieldN w = w.toNat / 256 % 64 := by
  simp [fieldN, BitVec.extractLsb'_toNat, Nat.shiftRight_eq_div_pow]

theorem fieldRsv_eq (w : Word) : fieldRsv w = w.toNat / 16384 := by
  have hw := w.isLt
  simp only [fieldRsv, BitVec.extractLsb'_toNat, Nat.shiftRight_eq_div_pow]
  omega

/-! ### The word of a command (R65) -/

/-- The word of a well-formed command is OP + 256 N, and N is at most 32. -/
theorem encode_toNat (i : Instr) : Laws.EncodedWord.Statement i := by
  cases i with
  | nop => exact Laws.EncodedWord.nop
  | clear => exact Laws.EncodedWord.clear
  | fcCount => exact Laws.EncodedWord.fcCount
  | qFreq => exact Laws.EncodedWord.qFreq
  | tbBuild => exact Laws.EncodedWord.tbBuild
  | qNode => exact Laws.EncodedWord.qNode
  | ctBuild => exact Laws.EncodedWord.ctBuild
  | qCode => exact Laws.EncodedWord.qCode
  | bwOpen => exact Laws.EncodedWord.bwOpen
  | bwWrite n => exact Laws.EncodedWord.bwWrite n
  | bwClose => exact Laws.EncodedWord.bwClose
  | brOpen => exact Laws.EncodedWord.brOpen
  | brRead n => exact Laws.EncodedWord.brRead n
  | tcSerialize => exact Laws.EncodedWord.tcSerialize
  | tcParse => exact Laws.EncodedWord.tcParse
  | encodeSyms => exact Laws.EncodedWord.encodeSyms
  | compress => exact Laws.EncodedWord.compress
  | decodeSyms => exact Laws.EncodedWord.decodeSyms
  | decompress => exact Laws.EncodedWord.decompress

theorem opcodeOf_lt (i : Instr) : opcodeOf i < 256 := by
  cases i <;> simp [opcodeOf]

/-! ### The rows of the opcode map (R65) -/

theorem plainRow_eq_ok {n : Nat} {i j : Instr} : plainRow n i = .ok j ↔ n = 0 ∧ i = j := by
  unfold plainRow
  split <;> simp [*]

theorem countedRow_eq_ok {n : Nat} {i j : Instr} : countedRow n i = .ok j ↔ (1 ≤ n ∧ n ≤ 32) ∧ i = j := by
  unfold countedRow
  split <;> simp [*]

theorem plainRow_eq_error {n : Nat} {i : Instr} : (∃ e, plainRow n i = .error e) ↔ n ≠ 0 := by
  unfold plainRow
  split <;> simp [*]

theorem countedRow_eq_error {n : Nat} {i : Instr} : (∃ e, countedRow n i = .error e) ↔ n = 0 ∨ 32 < n := by
  unfold countedRow
  split
  · simp
    omega
  · simp
    omega

/-- The row of a command's opcode holds that command. -/
theorem decodeRow_opcodeOf {i : Instr} (h : i.wellFormed = true) : decodeRow (opcodeOf i) (countOf i) = .ok i := by
  cases i with
  | bwWrite n => exact countedRow_eq_ok.2 ⟨of_decide_eq_true h, rfl⟩
  | brRead n => exact countedRow_eq_ok.2 ⟨of_decide_eq_true h, rfl⟩
  | _ => rfl

/-- A row gives a well-formed command, of the row's opcode and count. -/
theorem decodeRow_eq_ok {op n : Nat} {i : Instr} (h : decodeRow op n = .ok i) :
    i.wellFormed = true ∧ opcodeOf i = op ∧ countOf i = n := by
  unfold decodeRow at h
  split at h
  case h_10 | h_13 =>
    obtain ⟨hn, rfl⟩ := countedRow_eq_ok.1 h
    exact ⟨decide_eq_true hn, rfl, rfl⟩
  case h_20 => cases h
  all_goals
    obtain ⟨rfl, rfl⟩ := plainRow_eq_ok.1 h
    exact ⟨rfl, rfl, rfl⟩

/-- Which opcodes and counts no row admits (R66). -/
theorem decodeRow_eq_error (op n : Nat) : (∃ e, decodeRow op n = .error e) ↔
    op ∉ [0x00, 0x01, 0x10, 0x11, 0x12, 0x13, 0x14, 0x15, 0x20, 0x21, 0x22, 0x28, 0x29, 0x30, 0x31, 0x38, 0x39, 0x3C,
      0x3D] ∨
    (op ∉ [0x21, 0x29] ∧ n ≠ 0) ∨ (op ∈ [0x21, 0x29] ∧ (n = 0 ∨ 32 < n)) := by
  unfold decodeRow
  split
  case h_20 =>
    refine ⟨fun _ => .inl ?_, fun _ => ⟨_, rfl⟩⟩
    intro hop
    simp only [List.mem_cons, List.not_mem_nil, or_false] at hop
    simp only [imp_false] at *
    omega
  case h_10 | h_13 => simp [countedRow_eq_error]
  all_goals simp [plainRow_eq_error]

/-! ### Decoding and encoding -/

theorem decode_encode {i : Instr} (h : i.wellFormed = true) : decode (encode i) = .ok i := by
  obtain ⟨hw, hn⟩ := encode_toNat i h
  have hop := opcodeOf_lt i
  have hfieldOp : fieldOp (encode i) = opcodeOf i := by rw [fieldOp_eq]; omega
  have hfieldN : fieldN (encode i) = countOf i := by rw [fieldN_eq]; omega
  have hfieldRsv : fieldRsv (encode i) = 0 := by rw [fieldRsv_eq]; omega
  rw [decode, hfieldOp, hfieldN, hfieldRsv, if_neg (by simp), decodeRow_opcodeOf h]

theorem encode_of_decode {w : Word} {i : Instr} (h : decode w = .ok i) : i.wellFormed = true ∧ encode i = w := by
  unfold decode at h
  split at h
  · cases h
  · next hrsv =>
    obtain ⟨hwf, hop, hn⟩ := decodeRow_eq_ok h
    obtain ⟨hw, -⟩ := encode_toNat i hwf
    rw [fieldRsv_eq] at hrsv
    rw [fieldOp_eq] at hop
    rw [fieldN_eq] at hn
    exact ⟨hwf, BitVec.eq_of_toNat_eq (by omega)⟩

theorem decode_eq_error (w : Word) :
    (∃ e, decode w = .error e) ↔ fieldRsv w ≠ 0 ∨ ∃ e, decodeRow (fieldOp w) (fieldN w) = .error e := by
  unfold decode
  split <;> simp [*]

/-- Settles O1: the fields of the word of a command are its OP, its N and 0, and its row of the opcode map holds it. -/
theorem decodeInvertsEncode : Obligations.DecodeInvertsEncode :=
  fun _ => decode_encode

/-- Settles O2: the row that a word selects holds a command of that OP and N, and RSV is 0. -/
theorem encodeInvertsDecode : Obligations.EncodeInvertsDecode :=
  fun _ _ => encode_of_decode

/-- Settles O3: a word is illegal when RSV is not 0 or no row of the opcode map admits its OP and N. -/
theorem illegalWordsAreThoseOfR66 : Obligations.IllegalWordsAreThoseOfR66 := by
  intro w op n
  rw [decode_eq_error, decodeRow_eq_error, fieldRsv_eq, fieldOp_eq, fieldN_eq]
  exact or_left_comm

/-- Settles O4: the words are closed terms, and the decoder runs on each of them. -/
theorem tableWordsDecode : Obligations.TableWordsDecode := by
  unfold Obligations.TableWordsDecode
  decide

end Sys2Proof
end

section
/-! FrequencyCounter: the loop of FC_COUNT in both directions, and how FC_COUNT ends in each of its cases (R86). -/

namespace Sys2Proof.Machine

/-! ### The loop (R86) -/

section
variable {s : State} {left i : Nat} {xs : List Word} {ft : List FtEntry}

/-- One step of the loop: the next symbol is invalid, is one too many, or is counted. -/
theorem countLoop_succ (s : State) (left i : Nat) (xs : List Word) :
    countLoop s (left + 1) i (freqTable xs) =
      if validSym (s.symAt i) s.variant = false then .error ⟨.invalidSymbol, word i⟩
      else if s.symAt i ∉ xs ∧ (firstSeen xs).length = s.cfg.maxDistinct then .error ⟨.capacityExceeded, word i⟩
      else countLoop s left (i + 1) (freqTable (xs ++ [s.symAt i])) := by
  rw [countLoop, freqTable_any, freqTable_length, countSymbol_freqTable]
  simp

/-- A loop that succeeds ran through valid symbols that fit, and made their table. -/
theorem countLoop_eq_ok (h : countLoop s left i (freqTable xs) = .ok ft)
    (hxs : (firstSeen xs).length ≤ s.cfg.maxDistinct) :
    ft = freqTable (xs ++ s.symbolsFrom i left) ∧ (∀ x ∈ s.symbolsFrom i left, validSym x s.variant = true) ∧
      (firstSeen (xs ++ s.symbolsFrom i left)).length ≤ s.cfg.maxDistinct := by
  induction left generalizing i xs with
  | zero =>
    cases h
    simpa using hxs
  | succ left ih =>
    rw [countLoop_succ] at h
    split at h
    · cases h
    · next hvalid =>
      split at h
      · cases h
      · next hroom =>
        have hnext : (firstSeen (xs ++ [s.symAt i])).length ≤ s.cfg.maxDistinct := by
          rw [firstSeen_append_singleton]
          split
          · exact hxs
          · next hnew =>
            have hne : (firstSeen xs).length ≠ s.cfg.maxDistinct := fun e => hroom ⟨hnew, e⟩
            rw [List.length_append, List.length_singleton]
            omega
        obtain ⟨hft, hall, hlen⟩ := ih h hnext
        rw [List.append_assoc, List.singleton_append, ← symbolsFrom_succ] at hft hlen
        refine ⟨hft, fun x hx => ?_, hlen⟩
        rw [symbolsFrom_succ] at hx
        rcases List.mem_cons.1 hx with rfl | hx
        · exact Bool.eq_true_of_not_eq_false hvalid
        · exact hall x hx

end

/-! ### FC_COUNT (R86) -/

theorem State.invalidateAll_eq (s : State) : s.invalidateAll = { s with ft := none, tree := none, ct := none } := rfl

section
variable {s t : State} {i : Nat}

/-- FC_COUNT succeeds exactly on an acceptable sequence, and stores its frequency table. -/
theorem fcCountBody_eq_ok_iff : fcCountBody s = .ok () t ↔
    Encodable s.cfg s.variant s.symbols ∧ t = s.invalidateAll.storeFt (freqTable s.symbols) := by
  constructor
  · intro h
    obtain ⟨hcap, ft, hloop, rfl⟩ := fcCountBody_eq_ok.1 h
    obtain ⟨rfl, hvalid, hdistinct⟩ := countLoop_eq_ok (xs := []) hloop (Nat.zero_le _)
    rw [List.nil_append, ← symbols_eq] at hdistinct ⊢
    rw [← symbols_eq] at hvalid
    exact ⟨⟨hvalid, symbols_length s ▸ hcap, hdistinct⟩, rfl⟩
  · rintro ⟨henc, rfl⟩
    exact fcCountBody_symbols henc

/-- A loop that stops ends FC_COUNT with the tables invalid. -/
theorem fcCountBody_stops {r : Raise} (hcap : s.symCount.toNat ≤ s.cfg.symCap)
    (hloop : countLoop s s.symCount.toNat 0 [] = .error r) : fcCountBody s = .raised r s.invalidateAll := by
  rw [fcCountBody_eq, if_neg hcap.not_gt, hloop, Ran.ofExcept_error, Ran.bind_raised]

theorem fcCountBody_unavailable (hcap : s.cfg.symCap < s.symCount.toNat) :
    fcCountBody s = .raised ⟨.sourceUnavailable, s.symCount⟩ s.invalidateAll := by
  rw [fcCountBody_eq, if_pos hcap, raise_toNat]

/-- The first `i` symbols are valid and fit in FT: the loop of FC_COUNT comes to symbol `i`. -/
structure State.CountsTo (s : State) (i : Nat) : Prop where
  available : s.symCount.toNat ≤ s.cfg.symCap
  before_end : i < s.symCount.toNat
  valid : ∀ x ∈ s.symbols.take i, validSym x s.variant = true
  distinct_le : (firstSeen (s.symbols.take i)).length ≤ s.cfg.maxDistinct

theorem State.CountsTo.loop (h : s.CountsTo i) : ∃ left, countLoop s s.symCount.toNat 0 [] =
    countLoop s (left + 1) i (freqTable (s.symbols.take i)) := by
  obtain ⟨-, hi, hvalid, hdistinct⟩ := h
  rw [symbols_take s hi.le] at hvalid hdistinct ⊢
  have hrun := countLoop_run (n := s.symCount.toNat - i - 1 + 1) (xs := []) hvalid hdistinct
  rw [show i + (s.symCount.toNat - i - 1 + 1) = s.symCount.toNat by omega, Nat.zero_add] at hrun
  exact ⟨_, hrun⟩

theorem fcCountBody_invalid (h : s.CountsTo i) (hbad : validSym (s.symAt i) s.variant = false) :
    fcCountBody s = .raised ⟨.invalidSymbol, word i⟩ s.invalidateAll := by
  obtain ⟨left, hloop⟩ := h.loop
  exact fcCountBody_stops h.available (by rw [hloop, countLoop_succ, if_pos hbad])

theorem fcCountBody_full (h : s.CountsTo i) (hvalid : validSym (s.symAt i) s.variant = true)
    (hnew : s.symAt i ∉ s.symbols.take i) (hfull : (firstSeen (s.symbols.take i)).length = s.cfg.maxDistinct) :
    fcCountBody s = .raised ⟨.capacityExceeded, word i⟩ s.invalidateAll := by
  obtain ⟨left, hloop⟩ := h.loop
  exact fcCountBody_stops h.available
    (by rw [hloop, countLoop_succ, if_neg (by simp [hvalid]), if_pos ⟨hnew, hfull⟩])

end

/-- Settles O32: on an acceptable sequence the loop makes the frequency table, and FC_COUNT stores it. -/
theorem fcCountBuildsFrequencyTable : Obligations.FcCountBuildsFrequencyTable := by
  intro s henc
  rw [exec_eq, commandBody, fcCountBody_symbols henc, Ran.finish_ok, State.invalidateAll_eq, State.storeFt]

/-- Settles O33: FC_COUNT stops at its check of SYM_COUNT, or its loop stops at the first symbol that is invalid or one
too many, each time with the tables invalid. -/
theorem fcCountErrors : Obligations.FcCountErrors := by
  intro s cleared
  refine ⟨fun hcap => ?_, fun i hcap hi hvalid hdistinct => ?_⟩
  · rw [exec_eq, commandBody, fcCountBody_unavailable hcap, Ran.finish_raised, State.invalidateAll_eq]
  · have hto : s.CountsTo i := ⟨hcap, hi, hvalid, hdistinct⟩
    refine ⟨fun hbad => ?_, fun hgood hnew hfull => ?_⟩
    · rw [exec_eq, commandBody, fcCountBody_invalid hto hbad, Ran.finish_raised, State.invalidateAll_eq]
    · rw [exec_eq, commandBody, fcCountBody_full hto hgood hnew hfull, Ran.finish_raised, State.invalidateAll_eq]

end Sys2Proof.Machine
end

section
/-! What every command keeps: a property that each primitive effect of the pseudocode keeps is kept by every command
(R80), and by every step once the effects of the host port keep it as well. -/

namespace Sys2Proof.Machine

/-- The primitive effects of the commands keep the property: the updates of their pseudocode, each where the
pseudocode makes it. -/
structure KeptByEffects (P : State → Prop) : Prop where
  invalidateAll : ∀ s, P s → P s.invalidateAll
  freqTable : ∀ s, P s → Encodable s.cfg s.variant s.symbols → P (s.invalidateAll.storeFt (freqTable s.symbols))
  builtTree : ∀ s, P s → P (s.invalidateTreeCodes.storeTree (buildTree s.ftEntries))
  treeCodes : ∀ s, P s → s.treeValid = true → P (s.invalidateCodes.storeCodes s.treeCodes)
  invalidateTreeCodes : ∀ s, P s → P s.invalidateTreeCodes
  header : ∀ s h, P s → parseHeader s.invalidateTreeCodes = .ok h → P (s.invalidateTreeCodes.setHeader h)
  emptyFile : ∀ s, P s → s.ct = none → P s.setEmptyFile
  results : ∀ s r0 r1 r2 r3, P s → P (s.setRes r0 r1 r2 r3)
  hdrVariant : ∀ s b, P s → P { s with hdrVariant := b }
  outStart : ∀ s, P s → P { s with outLen := 0 }
  inStart : ∀ s, P s → P { s with inPos := 0 }
  freshWriter : ∀ s b, P s → P (s.freshWriter b)
  closeWriter : ∀ s, P s → P s.closeWriter
  pushByte : ∀ s v, P s → s.outLen < s.outBudget → P (s.pushByte v)
  pendingBit : ∀ s b, P s → s.bwOpen = true → s.bwNbits ≠ 7 →
    P (s.setPending (shiftIn s.bwAcc b) (s.bwNbits + 1)).countBit
  lastBit : ∀ s v, P s → s.bwOpen = true → s.bwNbits = 7 → s.outLen < s.outBudget →
    P ((s.pushByte v).setPending 0 0).countBit
  clearReader : ∀ s, P s → P s.clearReader
  openReader : ∀ s base total, P s → 8 * base + total ≤ 8 * s.cfg.inCap → P (s.openReader base total)
  skipBits : ∀ s n, P s → s.brBitPos + n ≤ s.brTotal → P (s.skipBits n)
  symbol : ∀ s k x, P s → P (s.setSym k x)
  symCount : ∀ s k, P s → P (s.setSymCount k)

namespace KeptByEffects

/-- A statement behind a check of a flag keeps what it keeps where the flag is set. -/
theorem check {P : State → Prop} {s : State} {b : Bool} {x : Ran Unit} (hs : P s) (hx : b = true → P x.state) :
    P (if !b then raise .badState 0 s else x : Ran Unit).state := by
  cases b with
  | false => exact hs
  | true => exact hx rfl

section
variable {P : State → Prop} (hP : KeptByEffects P) {s : State}
include hP

/-! ### The frequency counter, the tree and the codes -/

theorem fcCountBody (hs : P s) : P (fcCountBody s).state := by
  cases h : Machine.fcCountBody s with
  | ok _ t =>
    obtain ⟨henc, rfl⟩ := fcCountBody_eq_ok_iff.1 h
    exact hP.freqTable s hs henc
  | raised r t =>
    rw [fcCountBody_eq] at h
    have ht : t = s.invalidateAll := by
      split at h
      · cases h
        rfl
      · cases hloop : countLoop s s.symCount.toNat 0 [] <;> rw [hloop] at h <;> cases h
        rfl
    exact ht ▸ hP.invalidateAll s hs

theorem qFreqBody (hs : P s) : P (qFreqBody s).state := by
  unfold Machine.qFreqBody
  split
  · exact hs
  · split
    · exact hs
    · exact hP.results _ _ _ _ _ hs

theorem qNodeBody (hs : P s) : P (qNodeBody s).state := by
  unfold Machine.qNodeBody
  split
  · exact hs
  · split
    · exact hs
    · next n _ => cases n <;> exact hP.results _ _ _ _ _ hs

theorem qCodeBody (hs : P s) : P (qCodeBody s).state := by
  unfold Machine.qCodeBody
  split
  · exact hs
  · split <;> exact hP.results _ _ _ _ _ hs

theorem tcParseBody (hs : P s) : P (tcParseBody s).state := by
  have htc := hP.invalidateTreeCodes s hs
  unfold Machine.tcParseBody
  dsimp only
  split
  · exact htc
  · cases hp : parseHeader s.invalidateTreeCodes with
    | ok h => exact hP.header s h hs hp
    | error r => exact htc

theorem clearBody (hs : P s) : P (clearBody s) :=
  hP.hdrVariant _ _ (hP.results _ _ _ _ _ (hP.clearReader _ (hP.freshWriter _ _ (hP.invalidateAll s hs))))

/-! ### The writer -/

theorem emitBytes (bs : List Byte) (hs : P s) : P (emitBytes bs s).state := by
  induction bs generalizing s with
  | nil => exact hs
  | cons v vs ih =>
    refine Ran.andThen_keeps ?_ fun t ht => ih ht
    rcases emitByte_cases v s with ⟨_, h⟩ | ⟨hlt, h⟩ <;> rw [h]
    · exact hs
    · exact hP.pushByte s v hs hlt

/-- An open writer stays open while bits are written. -/
theorem writeBit (b : Bool) (h : P s ∧ s.bwOpen = true) :
    P (writeBit b s).state ∧ (Machine.writeBit b s).state.bwOpen = true := by
  obtain ⟨hs, ho⟩ := h
  refine ⟨?_, by rw [writeBit_frame b s]; exact ho⟩
  unfold Machine.writeBit
  by_cases h7 : s.bwNbits = 7
  · rw [if_pos h7]
    rcases emitByte_cases (shiftIn s.bwAcc b) s with ⟨_, h⟩ | ⟨hlt, h⟩ <;> rw [h]
    · exact hs
    · exact hP.lastBit s _ hs ho h7 hlt
  · rw [if_neg h7]
    exact hP.pendingBit s b hs ho h7

theorem writeBits (bs : List Bool) (h : P s ∧ s.bwOpen = true) :
    P (writeBits bs s).state ∧ (Machine.writeBits bs s).state.bwOpen = true := by
  induction bs generalizing s with
  | nil => exact h
  | cons b bs ih => exact Ran.andThen_keeps (P := fun t => P t ∧ t.bwOpen = true) (hP.writeBit b h) fun t ht => ih ht

theorem encodeLoop (left i : Nat) (h : P s ∧ s.bwOpen = true) : P (encodeLoop left i s).state := by
  induction left generalizing i s with
  | zero => exact h.1
  | succ left ih =>
    rw [Machine.encodeLoop]
    split
    · exact h.1
    · next c _ =>
      have hc := hP.writeBits c h
      cases hw : Machine.writeBits c s <;> rw [hw] at hc
      · exact ih _ hc
      · exact hc.1

theorem encodeBody (hs : P s) (ho : s.bwOpen = true) : P (encodeBody s).state := by
  unfold Machine.encodeBody
  split
  · exact hs
  · exact hP.encodeLoop _ _ ⟨hs, ho⟩

theorem bwCloseBody (hs : P s) : P (bwCloseBody s).state := by
  unfold Machine.bwCloseBody
  split
  · exact hs
  · exact Ran.andThen_keeps (hP.emitBytes _ hs) hP.closeWriter

theorem tcSerializeBody (hs : P s) : P (tcSerializeBody s).state := by
  unfold Machine.tcSerializeBody
  split
  · exact hs
  · exact hP.emitBytes _ hs

/-! ### COMPRESS (R116) -/

theorem compressEmit (hs : P s) : P (compressEmit s).state := by
  unfold Machine.compressEmit
  split
  · exact hP.bwCloseBody (hP.freshWriter s true hs)
  · refine Ran.andThen_keeps ?_ fun t ht => hP.bwCloseBody ht
    have hser := hP.tcSerializeBody hs
    cases hb : Machine.tcSerializeBody s <;> rw [hb] at hser
    · exact hP.encodeBody (hP.freshWriter _ true hser) rfl
    · exact hser

theorem compressBody (hs : P s) : P (compressBody s).state := by
  have hstart : P (compressStart s) := hP.freshWriter _ _ (hP.invalidateAll _ (hP.outStart s hs))
  have hcount := hP.fcCountBody hstart
  unfold Machine.compressBody
  cases hb : Machine.fcCountBody (compressStart s) <;> rw [hb] at hcount
  · exact hP.compressEmit (hP.treeCodes _ (hP.builtTree _ hcount) rfl)
  · exact hcount

/-! ### The reader -/

theorem brOpenBody (hs : P s) : P (brOpenBody s).state := by
  have hclosed := hP.clearReader s hs
  rw [brOpenBody_eq]
  split
  · exact hclosed
  · split
    · exact hclosed
    · split
      · exact hclosed
      · next hcap hn ht =>
        rw [streamBytes_eq] at hn
        refine hP.openReader s _ _ hs ?_
        rw [streamBytes_eq]
        omega

theorem brReadBody (n : Nat) (hs : P s) : P (brReadBody n s).state := by
  unfold Machine.brReadBody
  by_cases ho : s.brOpen = true
  · rw [if_neg (by simp [ho])]
    split
    · exact hs
    · next hn =>
      rcases Nat.eq_zero_or_pos n with rfl | hpos
      · exact hP.results _ _ _ _ _ hs
      · rw [readBits_ok (by omega)]
        exact hP.results _ _ _ _ _ (hP.skipBits s n hs (by omega))
  · rw [if_pos (by simp [ho])]
    exact hs

theorem decodeLoop (t : Tree) (root left cur k : Nat) (hs : P s) : P (decodeLoop t root left cur k s).state := by
  induction left generalizing cur k s with
  | zero => exact hs
  | succ left ih =>
    rw [Machine.decodeLoop]
    rcases readBit_cases s with ⟨_, h⟩ | ⟨hlt, h⟩ <;> rw [h]
    · exact hs
    · have hskip := hP.skipBits s 1 hs hlt
      rw [Ran.bind_ok]
      split
      · exact hskip
      · split
        · exact ih _ _ hskip
        · split
          · exact hskip
          · exact ih _ _ (hP.symCount _ _ (hP.symbol _ _ _ hskip))

theorem decodeBody (hs : P s) : P (decodeBody s).state := by
  have hstart := hP.symCount s 0 hs
  unfold Machine.decodeBody
  dsimp only
  split
  · split <;> exact hstart
  · refine Ran.bind_keeps (hP.decodeLoop _ _ _ _ _ hstart) fun x t ht => ?_
    obtain ⟨cur, k⟩ := x
    dsimp only
    split <;> exact ht

/-! ### DECOMPRESS (R119) -/

theorem decompressBody (hs : P s) : P (decompressBody s).state := by
  have hstart : P (decompressStart s) := hP.clearReader _ (hP.invalidateAll _ (hP.inStart s hs))
  unfold Machine.decompressBody
  dsimp only
  split
  · exact hstart
  · split
    · exact hstart
    · split
      · split
        · exact hstart
        · split
          · exact hstart
          · exact hP.emptyFile _ hstart rfl
      · exact Ran.andThen_keeps (Ran.andThen_keeps (hP.tcParseBody hstart) fun t ht => hP.brOpenBody ht)
          fun t ht => hP.decodeBody ht

/-! ### Every command -/

/-- What every primitive effect keeps, every command keeps up to its end, with or without a raise. -/
theorem commandBody (i : Instr) (hs : P s) : P (commandBody i s).state := by
  cases i with
  | nop => exact hs
  | clear => exact hP.clearBody hs
  | fcCount => exact hP.fcCountBody hs
  | qFreq => exact hP.qFreqBody hs
  | tbBuild => exact check hs fun _ => hP.builtTree s hs
  | qNode => exact hP.qNodeBody hs
  | ctBuild => exact check hs (hP.treeCodes s hs)
  | qCode => exact hP.qCodeBody hs
  | bwOpen => exact hP.freshWriter s true hs
  | bwWrite n => exact check hs fun ho => (hP.writeBits _ ⟨hs, ho⟩).1
  | bwClose => exact check hs fun _ => hP.bwCloseBody hs
  | brOpen => exact hP.brOpenBody hs
  | brRead n => exact hP.brReadBody n hs
  | tcSerialize => exact check hs fun _ => hP.tcSerializeBody hs
  | tcParse => exact hP.tcParseBody hs
  | encodeSyms => exact check hs fun _ => check hs (hP.encodeBody hs)
  | compress => exact hP.compressBody hs
  | decodeSyms => exact check hs fun _ => check hs fun _ => hP.decodeBody hs
  | decompress => exact hP.decompressBody hs

end

/-- What every primitive effect, the completion and every host event keep, every step keeps. -/
theorem step {P : State → Prop} (hP : KeptByEffects P) (hok : ∀ s, P s → P s.finishOk)
    (herr : ∀ s r, P s → P (s.errorEntry r)) {s t : State}
    (hhost : ∀ e rest, s.HostMoves e rest → hostEvent e { s with inbox := rest } = .next t → P t)
    (hs : P s) (h : step s = .next t) : P t := by
  obtain ⟨-, ⟨-, -, rfl⟩ | ⟨e, rest, hm, he⟩ | ⟨w, i, -, -, rfl⟩ | ⟨w, r, -, -, rfl⟩⟩ := step_cases h
  · exact hs
  · exact hhost e rest hm he
  · have hbody := hP.commandBody i hs
    cases hb : Machine.commandBody i s <;> rw [hb] at hbody
    · exact hok _ hbody
    · exact herr _ _ hbody
  · exact herr _ _ hs

end KeptByEffects

end Sys2Proof.Machine
end

section
/-! The four invariants: each primitive effect of a command and each effect of a host event keeps them, and reset
meets them. -/

namespace Sys2Proof.Machine

/-! ### Canonical form -/

/-- A change of other fields. -/
theorem State.Canonical.same {s t : State} (h : s.Canonical)
    (he : t = { t with symMem := s.symMem, inMem := s.inMem, outMem := s.outMem, ct := s.ct }) : t.Canonical := by
  rw [he]
  exact ⟨h.sym, h.inp, h.out, h.codes⟩

/-- A change of other fields that invalidates the codes. -/
theorem State.Canonical.withoutCodes {s t : State} (h : s.Canonical)
    (he : t = { t with symMem := s.symMem, inMem := s.inMem, outMem := s.outMem, ct := none }) : t.Canonical := by
  rw [he]
  exact ⟨h.sym, h.inp, h.out, by simp⟩

theorem State.Canonical.setOut {s : State} (h : s.Canonical) (a : Nat) (v : Byte) : (s.setOut a v).Canonical :=
  ⟨h.sym, h.inp, Memory.write_wf h.out _ _, h.codes⟩

theorem State.Canonical.setIn {s : State} (h : s.Canonical) (a : Nat) (v : Byte) : (s.setIn a v).Canonical :=
  ⟨h.sym, Memory.write_wf h.inp _ _, h.out, h.codes⟩

theorem State.Canonical.setSym {s : State} (h : s.Canonical) (k : Nat) (x : Word) : (s.setSym k x).Canonical :=
  ⟨Memory.write_wf h.sym _ _, h.inp, h.out, h.codes⟩

theorem State.treeCodes_wf (s : State) : Assoc.wf s.treeCodes = true := by
  unfold State.treeCodes
  split
  · rfl
  · exact codeTableOf_wf _

theorem keptByEffects_canonical : KeptByEffects State.Canonical where
  invalidateAll _ h := h.withoutCodes rfl
  freqTable _ h _ := h.withoutCodes rfl
  builtTree _ h := h.withoutCodes rfl
  treeCodes s h _ := ⟨h.sym, h.inp, h.out, by rintro _ ⟨⟩; exact s.treeCodes_wf⟩
  invalidateTreeCodes _ h := h.withoutCodes rfl
  header _ _ h _ := h.withoutCodes rfl
  emptyFile _ h _ := h.same rfl
  results _ _ _ _ _ h := h.same rfl
  hdrVariant _ _ h := h.same rfl
  outStart _ h := h.same rfl
  inStart _ h := h.same rfl
  freshWriter _ _ h := h.same rfl
  closeWriter _ h := h.same rfl
  pushByte s v h _ := (h.setOut s.outLen.toNat v).same rfl
  pendingBit _ _ h _ _ := h.same rfl
  lastBit s v h _ _ _ := (h.setOut s.outLen.toNat v).same rfl
  clearReader _ h := h.same rfl
  openReader _ _ _ h _ := h.same rfl
  skipBits _ _ h _ := h.same rfl
  symbol _ k x h := h.setSym k x
  symCount _ _ h := h.same rfl

theorem canonical_platformReset (s : State) : s.platformReset.Canonical :=
  ⟨rfl, rfl, rfl, fun _ h => by cases h⟩

/-- Settles O25: every write of a buffer keeps its keys sorted, and CT is only ever the map that CT_BUILD fills. -/
theorem canonicalFormStays : Obligations.CanonicalFormStays := by
  intro s t hs h
  refine keptByEffects_canonical.step (fun _ h => h.same rfl)
    (fun _ _ h => h.same rfl) (fun e rest hm he => ?_) hs h
  refine hostEvent_keeps hm he (fun _ _ h => h.same rfl)
    (fun _ _ _ h => h.same rfl) (fun _ _ _ h => h.same rfl) ?_
    (fun _ _ h => ⟨h.same rfl, h.same rfl⟩) (fun _ i v h => h.setSym i v)
    (fun _ i v h => h.setIn i v) (fun _ i v h => h.setOut i v) (fun s _ _ => canonical_platformReset s) hs
  intro s r v h _
  cases r <;> exact h.same rfl

/-! ### Streams -/

/-- OUT_CAP fits in a register (R10). -/
theorem outCap_lt_of_legal {c : Config} (h : c.legal = true) : c.outCap < 2 ^ 32 := by
  simp only [Config.legal, decide_eq_true_eq] at h
  omega

theorem word_toNat {n : Nat} (h : n < 2 ^ 32) : (word n).toNat = n := by
  rw [word, BitVec.toNat_ofNat, Nat.mod_eq_of_lt h]

theorem shiftIn_toNat (acc : Byte) (b : Bool) (h : acc.toNat < 128) :
    (shiftIn acc b).toNat = 2 * acc.toNat + b.toNat := by
  revert acc b
  decide

/-- A write of OUT_LEN or OUT_BUDGET stores at most OUT_CAP (R33, R34). -/
theorem State.clampOut_le {s : State} (h : s.cfg.legal = true) (v : Word) : (s.clampOut v).toNat ≤ s.cfg.outCap := by
  unfold State.clampOut
  split
  · exact (word_toNat (outCap_lt_of_legal h)).le
  · omega

/-- What the stream invariant says of the writer (R46). -/
structure State.WriterOk (s : State) : Prop where
  acc_lt : s.bwAcc.toNat < 2 ^ s.bwNbits.val
  isOpen : s.bwOpen = true → s.bitCount % 8 = s.bwNbits.val
  closed : s.bwOpen = false → s.bwAcc = 0 ∧ s.bwNbits = 0

/-- What the stream invariant says of the reader (R47). -/
structure State.ReaderOk (s : State) : Prop where
  pos : s.brBitPos ≤ s.brTotal
  range : 8 * s.brBase + s.brTotal ≤ 8 * s.cfg.inCap
  closed : s.brOpen = false → s.brBase = 0 ∧ s.brTotal = 0 ∧ s.brBitPos = 0

namespace State.StreamsOk

variable {s t : State}

/-- The invariant is about the configuration, OUT_LEN, OUT_BUDGET, the writer and the reader. -/
theorem mk' (hcfg : t.cfg.legal = true) (hlen : t.outLen.toNat ≤ t.cfg.outCap)
    (hbudget : t.outBudget.toNat ≤ t.cfg.outCap) (hw : t.WriterOk) (hr : t.ReaderOk) : t.StreamsOk :=
  ⟨hcfg, hlen, hbudget, hw.acc_lt, hw.isOpen, hw.closed, hr.pos, hr.range, hr.closed⟩

/-- A change of other fields. -/
theorem same (h : s.StreamsOk) (he : t = { t with
    cfg := s.cfg, outLen := s.outLen, outBudget := s.outBudget, bitCount := s.bitCount
    bwOpen := s.bwOpen, bwAcc := s.bwAcc, bwNbits := s.bwNbits
    brOpen := s.brOpen, brBase := s.brBase, brTotal := s.brTotal, brBitPos := s.brBitPos }) : t.StreamsOk := by
  rw [he]
  exact ⟨h.config, h.outLen_le, h.outBudget_le, h.acc_lt, h.writer_open, h.writer_closed, h.reader_pos,
    h.reader_range, h.reader_closed⟩

theorem withWriter (h : s.StreamsOk) {o : Bool} {acc : Byte} {n : Fin 8} {k : Nat}
    (hw : ({ s with bwOpen := o, bwAcc := acc, bwNbits := n, bitCount := k } : State).WriterOk) :
    ({ s with bwOpen := o, bwAcc := acc, bwNbits := n, bitCount := k } : State).StreamsOk :=
  mk' h.config h.outLen_le h.outBudget_le hw ⟨h.reader_pos, h.reader_range, h.reader_closed⟩

theorem withReader (h : s.StreamsOk) {o : Bool} {base total pos : Nat}
    (hr : ({ s with brOpen := o, brBase := base, brTotal := total, brBitPos := pos } : State).ReaderOk) :
    ({ s with brOpen := o, brBase := base, brTotal := total, brBitPos := pos } : State).StreamsOk :=
  mk' h.config h.outLen_le h.outBudget_le ⟨h.acc_lt, h.writer_open, h.writer_closed⟩ hr

theorem withOutLen (h : s.StreamsOk) {v : Word} (hv : v.toNat ≤ s.cfg.outCap) :
    ({ s with outLen := v } : State).StreamsOk :=
  mk' h.config hv h.outBudget_le ⟨h.acc_lt, h.writer_open, h.writer_closed⟩
    ⟨h.reader_pos, h.reader_range, h.reader_closed⟩

theorem withOutBudget (h : s.StreamsOk) {v : Word} (hv : v.toNat ≤ s.cfg.outCap) :
    ({ s with outBudget := v } : State).StreamsOk :=
  mk' h.config h.outLen_le hv ⟨h.acc_lt, h.writer_open, h.writer_closed⟩
    ⟨h.reader_pos, h.reader_range, h.reader_closed⟩

/-- An empty writer, with a count of 0 or closed. -/
theorem emptyWriter (h : s.StreamsOk) {o : Bool} {k : Nat} (hk : o = true → k % 8 = 0) :
    ({ s with bwOpen := o, bwAcc := 0, bwNbits := 0, bitCount := k } : State).StreamsOk :=
  h.withWriter ⟨Nat.zero_lt_one, hk, fun _ => ⟨rfl, rfl⟩⟩

theorem pushByte (h : s.StreamsOk) (hlt : s.outLen < s.outBudget)
    (v : Byte) : (s.pushByte v).StreamsOk := by
  refine (h.withOutLen (v := s.outLen + 1) ?_).same rfl
  have hbudget := h.outBudget_le
  have hlt' : s.outLen.toNat < s.outBudget.toNat := hlt
  rw [succ_toNat_of_lt hlt]
  omega

/-- A pending bit of an open writer (R98). -/
theorem pendingBit (h : s.StreamsOk) (ho : s.bwOpen = true) (h7 : s.bwNbits ≠ 7) (b : Bool) :
    (s.setPending (shiftIn s.bwAcc b) (s.bwNbits + 1)).countBit.StreamsOk := by
  have hacc := h.acc_lt
  have hn : (s.bwNbits + 1).val = s.bwNbits.val + 1 :=
    Fin.val_add_one_of_lt (lt_of_le_of_ne (Fin.le_last _) h7)
  refine h.withWriter (o := s.bwOpen) (acc := shiftIn s.bwAcc b) (n := s.bwNbits + 1) ⟨?_, fun _ => ?_, fun hc => ?_⟩
  · have h128 : s.bwAcc.toNat < 2 ^ 7 := hacc.trans_le (Nat.pow_le_pow_right (by decide) (by omega))
    have hb : b.toNat ≤ 1 := b.toNat_le
    show (shiftIn s.bwAcc b).toNat < 2 ^ (s.bwNbits + 1).val
    rw [shiftIn_toNat _ b h128, hn, pow_succ]
    omega
  · have hcount := h.writer_open ho
    have hlt := (s.bwNbits + 1).isLt
    show (s.bitCount + 1) % 8 = (s.bwNbits + 1).val
    omega
  · exact absurd (ho.symm.trans hc) (by decide)

/-- The last bit of a byte, which is emitted (R98). -/
theorem lastBit (h : s.StreamsOk) (ho : s.bwOpen = true) (h7 : s.bwNbits = 7) (hlt : s.outLen < s.outBudget)
    (v : Byte) :
    ((s.pushByte v).setPending 0 0).countBit.StreamsOk := by
  refine (h.pushByte hlt v).emptyWriter (o := s.bwOpen) fun _ => ?_
  have hcount := h.writer_open ho
  rw [h7, show (7 : Fin 8).val = 7 from rfl] at hcount
  show (s.bitCount + 1) % 8 = 0
  omega

theorem closedReader (h : s.StreamsOk) : s.clearReader.StreamsOk :=
  h.withReader ⟨le_rfl, Nat.zero_le _, fun _ => ⟨rfl, rfl, rfl⟩⟩

theorem skipBits (h : s.StreamsOk) {n : Nat} (hn : s.brBitPos + n ≤ s.brTotal) : (s.skipBits n).StreamsOk := by
  refine h.withReader (o := s.brOpen) (base := s.brBase) (total := s.brTotal) ⟨hn, h.reader_range, fun hc => ?_⟩
  obtain ⟨hbase, htotal, hpos⟩ := h.reader_closed hc
  exact ⟨hbase, htotal, by show s.brBitPos + n = 0; omega⟩

end State.StreamsOk

theorem keptByEffects_streamsOk : KeptByEffects State.StreamsOk where
  invalidateAll _ h := h.same rfl
  freqTable _ h _ := h.same rfl
  builtTree _ h := h.same rfl
  treeCodes _ h _ := h.same rfl
  invalidateTreeCodes _ h := h.same rfl
  header _ _ h _ := h.same rfl
  emptyFile _ h _ := h.same rfl
  results _ _ _ _ _ h := h.same rfl
  hdrVariant _ _ h := h.same rfl
  outStart _ h := h.withOutLen (Nat.zero_le _)
  inStart _ h := h.same rfl
  freshWriter _ _ h := h.emptyWriter fun _ => rfl
  closeWriter s h := h.emptyWriter (k := s.bitCount) (by simp)
  pushByte _ v h hlt := h.pushByte hlt v
  pendingBit _ b h ho h7 := h.pendingBit ho h7 b
  lastBit _ v h ho h7 hlt := h.lastBit ho h7 hlt v
  clearReader _ h := h.closedReader
  openReader _ _ _ h hr := h.withReader ⟨Nat.zero_le _, hr, by simp⟩
  skipBits _ _ h hn := h.skipBits hn
  symbol _ _ _ h := h.same rfl
  symCount _ _ h := h.same rfl

theorem streamsOk_resetOf {c : Config} (h : c.legal = true) : (State.resetOf c).StreamsOk where
  config := h
  outLen_le := Nat.zero_le _
  outBudget_le := (word_toNat (outCap_lt_of_legal h)).le
  acc_lt := Nat.zero_lt_one
  writer_open := by simp [State.resetOf]
  writer_closed _ := ⟨rfl, rfl⟩
  reader_pos := le_rfl
  reader_range := Nat.zero_le _
  reader_closed _ := ⟨rfl, rfl, rfl⟩

/-- Settles O26: OUT_LEN grows only below OUT_BUDGET, BIT_COUNT and BW_NBITS move together, and BR_BITPOS stays in the
stream that BR_OPEN latched; a host write of OUT_LEN or OUT_BUDGET is clamped. -/
theorem streamsStayConsistent : Obligations.StreamsStayConsistent := by
  intro s t hs h
  refine keptByEffects_streamsOk.step (fun _ h => h.same rfl) (fun _ _ h => h.same rfl) (fun e rest hm he => ?_) hs h
  refine hostEvent_keeps hm he (fun _ _ h => h.same rfl) (fun _ _ _ h => h.same rfl) (fun _ _ _ h => h.same rfl) ?_
    (fun _ _ h => ⟨h.same rfl, h.same rfl⟩) (fun _ _ _ h => h.same rfl) (fun _ _ _ h => h.same rfl)
    (fun _ _ _ h => h.same rfl) (fun s hc _ => (streamsOk_resetOf hc).same rfl) hs
  intro s r v h _
  cases r with
  | outLen => exact h.withOutLen (State.clampOut_le h.config v)
  | outBudget => exact h.withOutBudget (State.clampOut_le h.config v)
  | _ => exact h.same rfl

/-! ### Tables -/

theorem freqTable_count_ne_zero {xs : List Word} (hlen : xs.length < 2 ^ 32) {e : FtEntry} (he : e ∈ freqTable xs) :
    e.count ≠ 0 := by
  obtain ⟨x, hx, rfl⟩ := List.mem_map.1 he
  have hpos := List.count_pos_iff.2 (mem_firstSeen.1 hx)
  have hle := xs.count_le_length (a := x)
  intro h0
  have hcount := word_toNat (hle.trans_lt hlen)
  rw [show word (xs.count x) = 0 from h0] at hcount
  exact hpos.ne hcount

theorem symbols_length_lt (s : State) : s.symbols.length < 2 ^ 32 :=
  (symbols_length s).trans_lt s.symCount.isLt

/-- A frequency table that fits (R41). -/
structure FtOk (c : Config) (ft : List FtEntry) : Prop where
  nodup : (ft.map FtEntry.sym).Nodup
  pos : ∀ e ∈ ft, e.count ≠ 0
  fits : ft.length ≤ c.maxDistinct

/-- A tree that fits (R42). -/
structure TreeFits (c : Config) (t : Tree) : Prop where
  ok : t.Ok
  fits : t.nodes.length ≤ c.nodeCap

theorem ftOk_nil (c : Config) : FtOk c [] := ⟨List.nodup_nil, by simp, Nat.zero_le _⟩

theorem ftOk_freqTable {s : State} (h : Encodable s.cfg s.variant s.symbols) : FtOk s.cfg (freqTable s.symbols) where
  nodup := by
    rw [freqTable_syms]
    exact firstSeen_nodup _
  pos _ he := freqTable_count_ne_zero (symbols_length_lt s) he
  fits := by
    rw [freqTable_length]
    exact h.distinct_le

theorem treeFits_null (c : Config) : TreeFits c ⟨[], none⟩ := ⟨Tree.Ok.null, Nat.zero_le _⟩

theorem treeFits_buildTree {c : Config} (hc : c.legal = true) {ft : List FtEntry} (h : FtOk c ft) :
    TreeFits c (buildTree ft) := by
  refine ⟨buildTree_ok h.nodup, (buildTree_length ft).trans ?_⟩
  have hcap := nodeCap_ge_of_legal hc
  have hfits := h.fits
  omega

namespace State.TablesOk

variable {s t : State}

/-- The invariant is about the configuration and each table that is valid. -/
theorem mk' (hcfg : t.cfg.legal = true) (hft : ∀ ft, t.ft = some ft → FtOk t.cfg ft)
    (htree : ∀ u, t.tree = some u → TreeFits t.cfg u)
    (hct : ∀ m, t.ct = some m → ∃ u, t.tree = some u ∧ m = u.codes) : t.TablesOk :=
  ⟨hcfg, fun ft h => (hft ft h).nodup, fun ft h => (hft ft h).pos, fun ft h => (hft ft h).fits,
    fun u h => (htree u h).ok, fun u h => (htree u h).fits, hct⟩

theorem ftOk (h : s.TablesOk) (ft : List FtEntry) (hft : s.ft = some ft) : FtOk s.cfg ft :=
  ⟨h.ft_nodup ft hft, h.ft_pos ft hft, h.ft_fits ft hft⟩

theorem treeFits (h : s.TablesOk) (u : Tree) (hu : s.tree = some u) : TreeFits s.cfg u :=
  ⟨h.tree_ok u hu, h.tree_fits u hu⟩

/-- A change of other fields. -/
theorem same (h : s.TablesOk) (he : t = { t with cfg := s.cfg, ft := s.ft, tree := s.tree, ct := s.ct }) :
    t.TablesOk := by
  rw [he]
  exact ⟨h.config, h.ft_nodup, h.ft_pos, h.ft_fits, h.tree_ok, h.tree_fits, h.codes_of_tree⟩

theorem withoutTables (h : s.TablesOk) : ({ s with ft := none, tree := none, ct := none } : State).TablesOk :=
  mk' h.config (by simp) (by simp) (by simp)

theorem withFt (h : s.TablesOk) {ft : List FtEntry} (hft : FtOk s.cfg ft) :
    ({ s with ft := some ft, tree := none, ct := none } : State).TablesOk :=
  mk' h.config (by rintro _ ⟨⟩; exact hft) (by simp) (by simp)

theorem withoutTree (h : s.TablesOk) : ({ s with tree := none, ct := none } : State).TablesOk :=
  mk' h.config h.ftOk (by simp) (by simp)

theorem withTree (h : s.TablesOk) {u : Tree} (hu : TreeFits s.cfg u) :
    ({ s with tree := some u, ct := none } : State).TablesOk :=
  mk' h.config h.ftOk (by rintro _ ⟨⟩; exact hu) (by simp)

theorem withCodes (h : s.TablesOk) {u : Tree} (hu : s.tree = some u) :
    ({ s with ct := some u.codes } : State).TablesOk :=
  mk' h.config h.ftOk h.treeFits (by rintro _ ⟨⟩; exact ⟨u, hu, rfl⟩)

/-- FT, or the empty table while it is invalid. -/
theorem ftEntries (h : s.TablesOk) : FtOk s.cfg s.ftEntries := by
  unfold State.ftEntries
  cases hft : s.ft with
  | none => exact ftOk_nil _
  | some ft => exact h.ftOk ft hft

end State.TablesOk

theorem keptByEffects_tablesOk : KeptByEffects State.TablesOk where
  invalidateAll _ h := h.withoutTables
  freqTable _ h henc := h.withFt (ftOk_freqTable henc)
  builtTree _ h := h.withTree (treeFits_buildTree h.config h.ftEntries)
  treeCodes s h hv := by
    obtain ⟨u, hu⟩ := Option.isSome_iff_exists.1 hv
    rw [State.treeCodes_eq hu (h.tree_ok u hu)]
    exact h.withCodes hu
  invalidateTreeCodes _ h := h.withoutTree
  header _ _ h hp := by
    obtain ⟨hok, hfits⟩ := parseHeader_sound hp
    exact (h.withTree ⟨hok, hfits⟩).same rfl
  emptyFile s h hct := (h.withTree (treeFits_null s.cfg)).same (by rw [State.setEmptyFile, hct])
  results _ _ _ _ _ h := h.same rfl
  hdrVariant _ _ h := h.same rfl
  outStart _ h := h.same rfl
  inStart _ h := h.same rfl
  freshWriter _ _ h := h.same rfl
  closeWriter _ h := h.same rfl
  pushByte _ _ h _ := h.same rfl
  pendingBit _ _ h _ _ := h.same rfl
  lastBit _ _ h _ _ _ := h.same rfl
  clearReader _ h := h.same rfl
  openReader _ _ _ h _ := h.same rfl
  skipBits _ _ h _ := h.same rfl
  symbol _ _ _ h := h.same rfl
  symCount _ _ h := h.same rfl

theorem tablesOk_resetOf {c : Config} (h : c.legal = true) : (State.resetOf c).TablesOk :=
  State.TablesOk.mk' h (by simp [State.resetOf]) (by simp [State.resetOf]) (by simp [State.resetOf])

/-- Settles O28: FT is only ever the table of an acceptable sequence, the tree one that TB_BUILD or TC_PARSE built, and
CT the code table of the tree that is valid; whatever replaces the tree invalidates CT. -/
theorem tablesStayConsistent : Obligations.TablesStayConsistent := by
  intro s t hs h
  refine keptByEffects_tablesOk.step (fun _ h => h.same rfl) (fun _ _ h => h.same rfl) (fun e rest hm he => ?_) hs h
  refine hostEvent_keeps hm he (fun _ _ h => h.same rfl) (fun _ _ _ h => h.same rfl) (fun _ _ _ h => h.same rfl) ?_
    (fun _ _ h => ⟨h.same rfl, h.same rfl⟩) (fun _ _ _ h => h.same rfl) (fun _ _ _ h => h.same rfl)
    (fun _ _ _ h => h.same rfl) (fun s hc _ => (tablesOk_resetOf hc).same rfl) hs
  intro s r v h _
  cases r <;> exact h.same rfl

/-! ### The command protocol -/

/-- A state with an empty latch keeps the protocol when a success leaves no info value. -/
theorem State.ProtocolOk.ended {t : State} (hl : t.latch = none) (hi : t.errKind = .none → t.errInfo = 0) :
    t.ProtocolOk := ⟨by simp [hl], hi⟩

theorem protocolOk_finish {x : Ran Unit} (h : x.Kinded) : x.finish.ProtocolOk := by
  cases x with
  | ok _ t => exact .ended rfl fun _ => rfl
  | raised r t => exact .ended rfl fun he => absurd he (h r t rfl)

/-- A change of other fields. -/
theorem State.ProtocolOk.same {s t : State} (h : s.ProtocolOk) (he : t = { t with
    latch := s.latch, cmd := s.cmd, done := s.done, err := s.err, errKind := s.errKind, errInfo := s.errInfo }) :
    t.ProtocolOk := by
  rw [he]
  exact ⟨h.latched, h.info_zero⟩

/-- The acceptance of a word (R78). -/
theorem State.ProtocolOk.accept {s : State} (h : s.ProtocolOk) (w : Word) : (s.accept w).ProtocolOk :=
  ⟨by rintro _ ⟨⟩; exact ⟨rfl, rfl, rfl⟩, h.info_zero⟩

/-- The acknowledgement only clears DONE and ERR (R26). -/
theorem State.ProtocolOk.acknowledge {s : State} (h : s.ProtocolOk) (w : Word) : (s.acknowledge w).ProtocolOk := by
  refine ⟨fun v hv => ?_, h.info_zero⟩
  obtain ⟨hcmd, hdone, herr⟩ := h.latched v hv
  exact ⟨hcmd, by simp [State.acknowledge, hdone], by simp [State.acknowledge, herr]⟩

/-- Settles O27: a host write of CMD latches its word with DONE and ERR 0, no other host event raises them, and every
end of a command empties the latch. -/
theorem protocolStays : Obligations.ProtocolStays := by
  intro s t hs h
  obtain ⟨-, ⟨-, -, rfl⟩ | ⟨e, rest, hm, he⟩ | ⟨w, i, -, -, rfl⟩ | ⟨w, r, -, -, rfl⟩⟩ := step_cases h
  · exact hs
  · refine hostEvent_keeps hm he (fun _ _ h => h.same rfl) (fun _ _ _ h => h.same rfl) (fun _ _ _ h => h.same rfl) ?_
      (fun _ v h => ⟨h.same rfl, h.acknowledge v⟩) (fun _ _ _ h => h.same rfl) (fun _ _ _ h => h.same rfl)
      (fun _ _ _ h => h.same rfl) (fun _ _ _ => .ended rfl fun _ => rfl) hs
    intro s r v h _
    cases r with
    | cmd => exact h.accept v
    | status => exact h.acknowledge v
    | _ => exact h.same rfl
  · exact protocolOk_finish (commandBody_kinded i s)
  · exact .ended rfl fun hk => by cases hk

/-! ### Reset -/

/-- Settles O29: after reset the buffers are empty, every table is invalid, and the writer, the reader and the latch
are empty. -/
theorem resetMeetsInvariants : Obligations.ResetMeetsInvariants := fun _ hc =>
  ⟨⟨rfl, rfl, rfl, fun _ h => by cases h⟩, streamsOk_resetOf hc, .ended rfl fun _ => rfl, tablesOk_resetOf hc, rfl⟩

end Sys2Proof.Machine
end

section
/-! Control: what a step performs (R79, R134, R11), how every command ends (R81), and what commands leave as it was
(R124, R40, R45). -/

namespace Sys2Proof.Machine

/-! ### What a step performs (R79) -/

section
variable {s : State} {w : Word} {i : Instr}

/-- With a word latched and no host event before it, the Engine moves. -/
theorem step_engine (hc : s.cfg.legal = true) (hl : s.latch = some w) (hf : s.hostFirst = false) :
    step s = engineStep w s := by
  simp [step, hc, agentStep, hl, hf]

theorem engineStep_legal (h : decode w = .ok i) : engineStep w s = exec i s := by
  simp only [engineStep, h]

theorem engineStep_illegal {e : DecodeError} (h : decode w = .error e) :
    engineStep w s = .next (s.errorEntry ⟨.illegalCommand, w⟩) := by
  simp only [engineStep, h, raise_toNat, complete_eq, Ran.finish_raised]

end

/-- Settles O5: the Engine moves, and the word decodes to the command it performs. -/
theorem stepPerformsLatchedCommand : Obligations.StepPerformsLatchedCommand := by
  intro s w i hc hl hf hd
  rw [step_engine hc hl hf, engineStep_legal hd]

/-- Settles O6: the Engine moves, and a word that does not decode is an error entry and nothing more. -/
theorem illegalWordEndsAtOnce : Obligations.IllegalWordEndsAtOnce := by
  intro s w e hc hl hf hd
  rw [step_engine hc hl hf, engineStep_illegal hd, State.errorEntry]

/-- Settles O23: without a latched word the Host moves, and it has no event. -/
theorem idleChangesNothing : Obligations.IdleChangesNothing := by
  intro s hc hl hi
  simp [step, hc, agentStep, hl, hostStep, hi]

/-- Settles O12: the ranges and the constraint are what `Config.legal` decides, and a step asks for it first. -/
theorem illegalConfigurationRefused : Obligations.IllegalConfigurationRefused := by
  intro s h
  have hc : ¬ s.cfg.legal = true := by
    intro hl
    simp only [Config.legal, decide_eq_true_eq] at hl
    omega
  rw [step, if_neg hc]

/-! ### How a command ends, and what it leaves (R81, R40) -/

section
variable {i : Instr} {s t : State}

/-- The two ends of a command (R81). -/
theorem exec_ends (h : exec i s = .next t) : ∃ u, (commandBody i s).state = u ∧ BodyFrame s u ∧
    (t = u.finishOk ∨ ∃ r : Raise, r.kind ≠ .none ∧ t = u.errorEntry r) := by
  rw [exec_eq] at h
  obtain rfl := Host.Outcome.next.inj h
  have hframe := commandBody_frame i s
  cases hb : commandBody i s with
  | ok _ u =>
    rw [hb] at hframe
    exact ⟨u, rfl, hframe, .inl rfl⟩
  | raised r u =>
    rw [hb] at hframe
    exact ⟨u, rfl, hframe, .inr ⟨r, commandBody_kinded i s r u hb, rfl⟩⟩

end

/-- Settles O7: the end of a command is `finishOk` or an error entry of a kind other than NONE, and its pseudocode
leaves ERR to that end. -/
theorem everyCommandEndsByR81 : Obligations.EveryCommandEndsByR81 := by
  intro i s
  refine ⟨_, exec_eq i s, ?_⟩
  obtain ⟨u, -, hframe, h | ⟨r, hr, h⟩⟩ := exec_ends (exec_eq i s)
  · rw [h]
    have herr : u.err = s.err := by rw [hframe]
    exact ⟨rfl, rfl, .inl ⟨rfl, rfl, herr⟩⟩
  · rw [h]
    exact ⟨rfl, rfl, .inr ⟨hr, rfl⟩⟩

/-- Settles O8: the frame of every pseudocode leaves these fields, and so does either end of a command. -/
theorem commandsLeaveHostOwnedState : Obligations.CommandsLeaveHostOwnedState := by
  intro i s t h
  obtain ⟨u, -, hframe, rfl | ⟨r, -, rfl⟩⟩ := exec_ends h
  all_goals
    rw [hframe]
    exact ⟨rfl, rfl, rfl, rfl, rfl, rfl, rfl, rfl, rfl, rfl, rfl, rfl, rfl, rfl, rfl⟩

/-! ### Which commands write OUT_MEM, SYM_MEM and the results (R29, R30, R33, R40) -/

/-- The command may write OUT_MEM and OUT_LEN (R33). -/
def emits : Instr → Bool
  | .tcSerialize | .bwWrite _ | .bwClose | .encodeSyms | .compress => true
  | _ => false

/-- The command may write SYM_MEM and SYM_COUNT (R30). -/
def writesSymbols : Instr → Bool
  | .decodeSyms | .decompress => true
  | _ => false

/-- The command may write RES0 to RES3 (R29). -/
def writesResults : Instr → Bool
  | .clear | .brRead _ | .qFreq | .qNode | .qCode => true
  | _ => false

/-- From `s` to `t` the command wrote none of them that is not its to write. -/
structure WritesOnlyItsOwn (i : Instr) (s t : State) : Prop where
  output : emits i = false → t.outMem = s.outMem ∧ t.outLen = s.outLen
  symbols : writesSymbols i = false → t.symMem = s.symMem ∧ t.symCount = s.symCount
  results : writesResults i = false → t.res0 = s.res0 ∧ t.res1 = s.res1 ∧ t.res2 = s.res2 ∧ t.res3 = s.res3

section
variable {i : Instr} {s t : State}

theorem WritesOnlyItsOwn.refl (i : Instr) (s : State) : WritesOnlyItsOwn i s s :=
  ⟨fun _ => ⟨rfl, rfl⟩, fun _ => ⟨rfl, rfl⟩, fun _ => ⟨rfl, rfl, rfl, rfl⟩⟩

/-- A frame that leaves all of them. -/
theorem WritesOnlyItsOwn.of_kept (h : t = { t with
    outMem := s.outMem, outLen := s.outLen, symMem := s.symMem, symCount := s.symCount
    res0 := s.res0, res1 := s.res1, res2 := s.res2, res3 := s.res3 }) : WritesOnlyItsOwn i s t := by
  rw [h]
  exact ⟨fun _ => ⟨rfl, rfl⟩, fun _ => ⟨rfl, rfl⟩, fun _ => ⟨rfl, rfl, rfl, rfl⟩⟩

/-- The frame of a command that may write the output. -/
theorem WritesOnlyItsOwn.of_emits (hi : emits i = true) (h : t = { t with
    symMem := s.symMem, symCount := s.symCount, res0 := s.res0, res1 := s.res1, res2 := s.res2, res3 := s.res3 }) :
    WritesOnlyItsOwn i s t := by
  rw [h]
  exact ⟨by simp [hi], fun _ => ⟨rfl, rfl⟩, fun _ => ⟨rfl, rfl, rfl, rfl⟩⟩

/-- The frame of a command that may write the sequence. -/
theorem WritesOnlyItsOwn.of_writesSymbols (hi : writesSymbols i = true) (h : t = { t with
    outMem := s.outMem, outLen := s.outLen, res0 := s.res0, res1 := s.res1, res2 := s.res2, res3 := s.res3 }) :
    WritesOnlyItsOwn i s t := by
  rw [h]
  exact ⟨fun _ => ⟨rfl, rfl⟩, by simp [hi], fun _ => ⟨rfl, rfl, rfl, rfl⟩⟩

/-- The frame of a command that may write the results. -/
theorem WritesOnlyItsOwn.of_writesResults (hi : writesResults i = true) (h : t = { t with
    outMem := s.outMem, outLen := s.outLen, symMem := s.symMem, symCount := s.symCount }) :
    WritesOnlyItsOwn i s t := by
  rw [h]
  exact ⟨fun _ => ⟨rfl, rfl⟩, fun _ => ⟨rfl, rfl⟩, by simp [hi]⟩

/-- A command behind a state check. -/
theorem WritesOnlyItsOwn.check {c : Prop} [Decidable c] {x : Ran Unit} (h : WritesOnlyItsOwn i s x.state) :
    WritesOnlyItsOwn i s (if c then raise .badState 0 s else x : Ran Unit).state :=
  Ran.guard_keeps (.refl i s) h

/-- The frame of each command, read for these registers and buffers. -/
theorem commandBody_writesOnlyItsOwn (i : Instr) (s : State) : WritesOnlyItsOwn i s (commandBody i s).state := by
  cases i with
  | nop => exact .refl _ s
  | clear => exact .of_writesResults rfl (by rw [commandBody, clearBody_eq]; rfl)
  | fcCount => exact .of_kept (by rw [commandBody, fcCountBody_frame])
  | qFreq => exact .of_writesResults rfl (by rw [commandBody, qFreqBody_frame])
  | tbBuild => exact .check (.of_kept rfl)
  | qNode => exact .of_writesResults rfl (by rw [commandBody, qNodeBody_frame])
  | ctBuild => exact .check (.of_kept rfl)
  | qCode => exact .of_writesResults rfl (by rw [commandBody, qCodeBody_frame])
  | bwOpen => exact .of_kept rfl
  | bwWrite n => exact .check (.of_emits rfl (by rw [writeBits_frame _ s]))
  | bwClose => exact .check (.of_emits rfl (by rw [bwCloseBody_frame]))
  | brOpen => exact .of_kept (by rw [commandBody, brOpenBody_frame])
  | brRead n => exact .of_writesResults rfl (by rw [commandBody, brReadBody_frame])
  | tcSerialize => exact .check (.of_emits rfl (by rw [tcSerializeBody_frame s]))
  | tcParse => exact .of_kept (by rw [commandBody, tcParseBody_frame])
  | encodeSyms => exact .check (.check (.of_emits rfl (by rw [encodeBody_frame s])))
  | compress => exact .of_emits rfl (by rw [commandBody, compressBody_frame s])
  | decodeSyms => exact .check (.check (.of_writesSymbols rfl (by rw [decodeBody_frame s])))
  | decompress => exact .of_writesSymbols rfl (by rw [commandBody, decompressBody_frame s])

/-- The end of a command writes the completion registers and the latch only (R81). -/
theorem exec_writesOnlyItsOwn (h : exec i s = .next t) : WritesOnlyItsOwn i s t := by
  have hbody := commandBody_writesOnlyItsOwn i s
  obtain ⟨u, hu, -, rfl | ⟨r, -, rfl⟩⟩ := exec_ends h
  all_goals
    rw [hu] at hbody
    exact ⟨hbody.output, hbody.symbols, hbody.results⟩

end

/-- Settles O9: the frame of every other command leaves the output, the sequence or the results. -/
theorem buffersWrittenOnlyByTheirCommands : Obligations.BuffersWrittenOnlyByTheirCommands := by
  intro i s t h
  obtain ⟨hout, hsyms, hres⟩ := exec_writesOnlyItsOwn h
  refine ⟨fun hser hwrite hclose hencode hcompress => hout ?_, fun hdecode hdecompress => hsyms ?_,
    fun hclear hread hfreq hnode hcode => hres ?_⟩
  · cases i with
    | tcSerialize => exact absurd rfl hser
    | bwWrite n => exact absurd rfl (hwrite n)
    | bwClose => exact absurd rfl hclose
    | encodeSyms => exact absurd rfl hencode
    | compress => exact absurd rfl hcompress
    | _ => rfl
  · cases i with
    | decodeSyms => exact absurd rfl hdecode
    | decompress => exact absurd rfl hdecompress
    | _ => rfl
  · cases i with
    | clear => exact absurd rfl hclear
    | brRead n => exact absurd rfl (hread n)
    | qFreq => exact absurd rfl hfreq
    | qNode => exact absurd rfl hnode
    | qCode => exact absurd rfl hcode
    | _ => rfl

/-! ### A missing table, writer or reader (R124, R45) -/

section
variable {s : State}

theorem exec_qFreq_ft_none (h : s.ft = none) : exec .qFreq s = .next (s.errorEntry ⟨.badState, 0⟩) := by
  rw [exec_eq, commandBody, qFreqBody_ft_none h, Ran.finish_raised]

theorem exec_qCode_ct_none (h : s.ct = none) : exec .qCode s = .next (s.errorEntry ⟨.badState, 0⟩) := by
  rw [exec_eq, commandBody, qCodeBody_ct_none h, Ran.finish_raised]

/-- A command behind a check of a flag that is 0. -/
theorem finish_check_false {b : Bool} (h : b = false) (x : Ran Unit) :
    (if !b then raise .badState 0 s else x).finish = s.errorEntry ⟨.badState, 0⟩ := by
  rw [h]
  rfl

theorem exec_tbBuild_ft_none (h : s.ft = none) : exec .tbBuild s = .next (s.errorEntry ⟨.badState, 0⟩) := by
  rw [exec_eq, commandBody, finish_check_false (by rw [State.ftValid, h, Option.isSome_none])]

theorem exec_decodeSyms_tree_none (h : s.tree = none) : exec .decodeSyms s = .next (s.errorEntry ⟨.badState, 0⟩) := by
  rw [exec_eq, commandBody, finish_check_false (by rw [State.treeValid, h, Option.isSome_none])]

theorem exec_decodeSyms_closed (h : s.brOpen = false) : exec .decodeSyms s = .next (s.errorEntry ⟨.badState, 0⟩) := by
  cases ht : s.tree with
  | none => exact exec_decodeSyms_tree_none ht
  | some t =>
    have hv : s.treeValid = true := by rw [State.treeValid, ht, Option.isSome_some]
    rw [exec_eq, commandBody, if_neg (by simp [hv]), finish_check_false h]

end

/-- Settles O10: each of these commands checks the flag before it writes anything. -/
theorem badStateChangesNothing : Obligations.BadStateChangesNothing := by
  intro s n fails
  refine ⟨fun hft => ?_, fun htree => ?_, fun hct => ?_, fun hbw => ?_, fun hbr => ?_⟩
  · have hft := Option.isNone_iff_eq_none.1 (Option.isSome_eq_false_iff.1 hft)
    exact ⟨exec_qFreq_ft_none hft, exec_tbBuild_ft_none hft⟩
  · have htree := Option.isNone_iff_eq_none.1 (Option.isSome_eq_false_iff.1 htree)
    exact ⟨exec_qNode_tree_none htree, exec_ctBuild_tree_none htree, exec_tcSerialize_tree_none htree,
      exec_decodeSyms_tree_none htree⟩
  · have hct := Option.isNone_iff_eq_none.1 (Option.isSome_eq_false_iff.1 hct)
    exact ⟨exec_qCode_ct_none hct, exec_encodeSyms_ct_none hct⟩
  · exact ⟨exec_bwWrite_closed hbw, exec_bwClose_closed hbw, exec_encodeSyms_closed hbw⟩
  · exact ⟨exec_brRead_closed hbr, exec_decodeSyms_closed hbr⟩

end Sys2Proof.Machine
end

section
/-! The host port: what a step does for each access, by the place at its offset (R49, R50, R51, R58). -/

namespace Sys2Proof.Machine

/-! ### Accesses as steps -/

section
variable {s : State} {off : Offset} {v : Word} {rest : List HostInput} {r : RegName}

/-- Settles O11. -/
theorem unsupportedAccessRefused : Obligations.UnsupportedAccessRefused := by
  intro s rest bytes off v h
  have hbad : accessOk bytes off = false := decide_eq_false (by omega)
  exact ⟨fun hm => by rw [step_host hm, hostEvent, hbad]; rfl, fun hm => by rw [step_host hm, hostEvent, hbad]; rfl⟩

theorem step_hostRead (ha : off.toNat % 4 = 0) (h : s.HostMoves (.read 4 off) rest) :
    step s = .next ({ s with inbox := rest }.hostRead off) :=
  (step_host h).trans (hostEvent_read ha _)

/-- A read of a place that is defined returns its data (R58). -/
theorem hostRead_defined (h : s.busy = false ∨ (placeAt off).readsWhileBusy = true) :
    s.hostRead off = { s with readData := some (s.readPlace (placeAt off)) } := by
  rw [State.hostRead, if_neg]
  rcases h with h | h <;> simp [h]

theorem readReg_inbox (s : State) (rest : List HostInput) (r : RegName) :
    ({ s with inbox := rest } : State).readReg r = s.readReg r := by
  cases r <;> rfl

/-- The step that reads a register: idle, or one that is defined while busy too. -/
theorem step_readReg (hp : placeAt off = .reg r) (hb : s.busy = false ∨ r.readsWhileBusy = true)
    (ha : off.toNat % 4 = 0) (h : s.HostMoves (.read 4 off) rest) :
    step s = .next { s with inbox := rest, readData := some (s.readReg r) } := by
  rw [step_hostRead ha h, hostRead_defined (by rw [hp]; exact hb), hp, State.readPlace, readReg_inbox]

/-- The step that writes a register while BUSY = 0. -/
theorem step_writeReg (hp : placeAt off = .reg r) (ha : off.toNat % 4 = 0) (h : s.HostMoves (.write 4 off v) rest)
    (hidle : s.busy = false) : step s = .next ({ s with inbox := rest }.writeReg r v) := by
  rw [step_hostWrite_idle ha h hidle, hp, State.writePlace]

end

/-! ### The address map by ranges (R22, R49) -/

section
variable {off : Offset}

/-- Past the last register the block is reserved. -/
theorem regAt_reserved {a : Nat} (h : 0x080 ≤ a) : regAt a = none := by
  unfold regAt
  split
  case h_32 => rfl
  all_goals omega

theorem placeAt_reg {r : RegName} (h : regAt off.toNat = some r) : placeAt off = .reg r := by
  have hlt : off.toNat < 0x080 := by
    by_contra hge
    rw [regAt_reserved (by omega)] at h
    cases h
  simp [placeAt, h, show off.toNat < 0x100000 by omega]

theorem placeAt_reserved (hlt : off.toNat < 0x100000) (h : regAt off.toNat = none) : placeAt off = .reserved := by
  simp [placeAt, h, hlt]

theorem placeAt_symRange (hlo : 0x100000 ≤ off.toNat) (hhi : off.toNat < 0x200000) :
    placeAt off = .sym ((off.toNat - 0x100000) / 4) := by
  simp [placeAt, hhi, show ¬ off.toNat < 0x100000 by omega]

theorem placeAt_inRange (hlo : 0x200000 ≤ off.toNat) (hhi : off.toNat < 0x300000) :
    placeAt off = .inWord ((off.toNat - 0x200000) / 4) := by
  simp [placeAt, hhi, show ¬ off.toNat < 0x100000 by omega, show ¬ off.toNat < 0x200000 by omega]

theorem placeAt_outRange (hlo : 0x300000 ≤ off.toNat) : placeAt off = .outWord ((off.toNat - 0x300000) / 4) := by
  simp [placeAt, show ¬ off.toNat < 0x100000 by omega, show ¬ off.toNat < 0x200000 by omega,
    show ¬ off.toNat < 0x300000 by omega]

end

/-! ### Places that ignore host writes (R22) -/

/-- The offset of a register that a host write does not change, or a reserved offset (R22). -/
def IsIgnored (off : Offset) : Prop :=
  off.toNat ∈ [0x000, 0x004, 0x008, 0x00C, 0x010, 0x014, 0x018, 0x01C, 0x038, 0x03C, 0x040, 0x044, 0x048, 0x04C, 0x06C,
    0x070, 0x074, 0x078, 0x07C] ∨ (0x080 ≤ off.toNat ∧ off.toNat < 0x100000)

/-- The place is a read-only register or reserved. -/
def Place.ignoresWrites : Place → Bool
  | .reg r => !r.writable
  | .reserved => true
  | .sym _ => false
  | .inWord _ => false
  | .outWord _ => false

theorem IsIgnored.ignoresWrites {off : Offset} (h : IsIgnored off) : (placeAt off).ignoresWrites = true := by
  have hlt : off.toNat < 0x100000 := by
    rcases h with h | h
    · exact (by decide : ∀ a ∈ _, a < 0x100000) _ h
    · exact h.2
  have hreg : (regAt off.toNat).all (fun r => !r.writable) = true := by
    rcases h with h | h
    · exact (by decide : ∀ a ∈ _, (regAt a).all (fun r => !r.writable) = true) _ h
    · rw [regAt_reserved h.1]; rfl
  cases hr : regAt off.toNat with
  | none => rw [placeAt_reserved hlt hr]; rfl
  | some r => rw [placeAt_reg hr]; rwa [hr, Option.all_some] at hreg

theorem writeReg_readOnly {s : State} {v : Word} {r : RegName} (h : r.writable = false) : s.writeReg r v = s := by
  cases r <;> cases h <;> rfl

theorem writePlace_ignored {s : State} {v : Word} {p : Place} (h : p.ignoresWrites = true) : s.writePlace v p = s := by
  cases p with
  | reg r => exact writeReg_readOnly (Bool.not_eq_true' _ ▸ h)
  | reserved => rfl
  | sym i | inWord k | outWord k => cases h

theorem busyWrite_ignored {s : State} {v : Word} {p : Place} (h : p.ignoresWrites = true) : s.busyWrite p v = s := by
  cases p with
  | reg r =>
    have hr : r.writable = false := Bool.not_eq_true' _ ▸ h
    cases r <;> cases hr <;> rfl
  | reserved => rfl
  | sym i | inWord k | outWord k => cases h

end Sys2Proof.Machine
end

section
/-! What a host access of each place does (R22 to R38, R49, R51, R58). -/

namespace Sys2Proof.Machine

/-! ### Register writes -/

/-- A host write of STATUS or of IRQ_EN takes effect busy or not (R26, R58). -/
theorem step_write_alwaysEffective {s : State} {off : Offset} {v : Word} {rest : List HostInput} {r : RegName}
    (hr : r = .status ∨ r = .irqEn) (hp : placeAt off = .reg r) (ha : off.toNat % 4 = 0)
    (h : s.HostMoves (.write 4 off v) rest) : step s = .next ({ s with inbox := rest }.writeReg r v) := by
  cases hb : s.busy with
  | false => exact step_writeReg hp ha h hb
  | true =>
    rw [step_hostWrite_busy ha h hb, hp]
    rcases hr with rfl | rfl <;> rfl

theorem acknowledge_eq (s : State) (w : Word) : s.acknowledge w = { s with
    done := if w.getLsbD 1 then false else s.done
    err := if w.getLsbD 2 then false else s.err
    busyWr := if w.getLsbD 3 then false else s.busyWr } := by
  have hclear : ∀ b c : Bool, (b && !c) = if c then false else b := by decide
  rw [State.acknowledge, hclear, hclear, hclear]

/-- Settles O14. -/
theorem statusAndIrqEnWrites : Obligations.StatusAndIrqEnWrites := by
  intro s rest w
  constructor
  · intro hm
    rw [step_write_alwaysEffective (.inl rfl) rfl rfl hm, State.writeReg, acknowledge_eq]
  · exact step_write_alwaysEffective (.inr rfl) rfl rfl

theorem clampOut_eq (s : State) (v : Word) : s.clampOut v = word (min v.toNat s.cfg.outCap) := by
  unfold State.clampOut
  split
  next h => rw [Nat.min_eq_right (by omega)]
  next h => rw [Nat.min_eq_left (by omega), word, BitVec.ofNat_toNat, BitVec.setWidth_eq]

/-- Settles O15. -/
theorem operandRegisterWrites : Obligations.OperandRegisterWrites := by
  intro s rest v hidle
  have hwrite : ∀ (off : Offset) (r : RegName), placeAt off = .reg r → off.toNat % 4 = 0 →
      s.HostMoves (.write 4 off v) rest → step s = .next ({ s with inbox := rest }.writeReg r v) :=
    fun off r hp ha hm => step_writeReg hp ha hm hidle
  refine ⟨hwrite _ .ctrl rfl rfl, hwrite _ .arg0 rfl rfl, hwrite _ .arg1 rfl rfl, hwrite _ .symCount rfl rfl,
    hwrite _ .inLen rfl rfl, hwrite _ .inPos rfl rfl, fun hm => ?outLen, fun hm => ?outBudget,
    hwrite _ .imgW rfl rfl, hwrite _ .imgH rfl rfl, fun off ha hoff hm => ?ignored⟩
  case outLen => rw [hwrite _ .outLen rfl rfl hm, State.writeReg, clampOut_eq]
  case outBudget => rw [hwrite _ .outBudget rfl rfl hm, State.writeReg, clampOut_eq]
  case ignored => rw [step_hostWrite_idle ha hm hidle, writePlace_ignored (IsIgnored.ignoresWrites hoff)]

/-! ### Writes while BUSY = 1 (R58) -/

section
variable {s : State} {off : Offset} {v : Word}

/-- The write is dropped and noted when the place is an operand register or a window entry within capacity. -/
def DroppedAt (s : State) (off : Offset) : Prop :=
  off.toNat ∈ [0x020, 0x030, 0x034, 0x050, 0x054, 0x058, 0x05C, 0x060, 0x064, 0x068] ∨
  (0x100000 ≤ off.toNat ∧ off.toNat < 0x100000 + 4 * s.cfg.symCap) ∨
  (0x200000 ≤ off.toNat ∧ off.toNat < 0x200000 + s.cfg.inCap) ∨
  (0x300000 ≤ off.toNat ∧ off.toNat < 0x300000 + s.cfg.outCap)

/-- The offset of a window word at or beyond the capacity (R49). -/
def BeyondCapacity (s : State) (off : Offset) : Prop :=
  (0x100000 + 4 * s.cfg.symCap ≤ off.toNat ∧ off.toNat < 0x200000) ∨
  (0x200000 + s.cfg.inCap ≤ off.toNat ∧ off.toNat < 0x300000) ∨ 0x300000 + s.cfg.outCap ≤ off.toNat

theorem busyWrite_operand {a : Nat} (h : a ∈ [0x020, 0x030, 0x034, 0x050, 0x054, 0x058, 0x05C, 0x060, 0x064, 0x068])
    (hoff : off.toNat = a) : s.busyWrite (placeAt off) v = s.noteDropped := by
  simp only [List.mem_cons, List.not_mem_nil, or_false] at h
  rcases h with rfl | rfl | rfl | rfl | rfl | rfl | rfl | rfl | rfl | rfl <;>
    (rw [placeAt_reg (by rw [hoff]; rfl)]; rfl)

theorem busyWrite_dropped (hl : s.cfg.legal = true) (ha : off.toNat % 4 = 0) (h : DroppedAt s off) :
    s.busyWrite (placeAt off) v = s.noteDropped := by
  simp only [Config.legal, decide_eq_true_eq] at hl
  rcases h with h | h | h | h
  · exact busyWrite_operand h rfl
  · rw [placeAt_symRange h.1 (by omega), State.busyWrite, if_neg]
    simp only [State.isHole, decide_eq_true_eq]
    omega
  · rw [placeAt_inRange h.1 (by omega), State.busyWrite, if_neg]
    simp only [State.isHole, decide_eq_true_eq]
    omega
  · rw [placeAt_outRange h.1, State.busyWrite, if_neg]
    simp only [State.isHole, decide_eq_true_eq]
    omega

theorem busyWrite_hole (ha : off.toNat % 4 = 0) (h : BeyondCapacity s off) :
    s.busyWrite (placeAt off) v = s.noteHoleWrite := by
  rcases h with h | h | h
  · rw [placeAt_symRange (by omega) h.2, State.busyWrite, if_pos]
    simp only [State.isHole, decide_eq_true_eq]
    omega
  · rw [placeAt_inRange (by omega) h.2, State.busyWrite, if_pos]
    simp only [State.isHole, decide_eq_true_eq]
    omega
  · rw [placeAt_outRange (by omega), State.busyWrite, if_pos]
    simp only [State.isHole, decide_eq_true_eq]
    omega

end

/-- Settles O16. -/
theorem busyWritesDropped : Obligations.BusyWritesDropped := by
  intro s rest off v hm ha hbusy
  rw [step_hostWrite_busy ha hm hbusy]
  refine ⟨fun h => ?_, fun h => ?_, fun h => ?_⟩
  · rw [busyWrite_dropped (s := { s with inbox := rest }) hm.1 ha h, State.noteDropped]
  · rw [busyWrite_ignored (IsIgnored.ignoresWrites h)]
  · rw [busyWrite_hole (s := { s with inbox := rest }) ha h]
    exact ⟨_, rfl, rfl, fun hset => by simp [State.noteHoleWrite, hset]⟩

/-! ### Windows (R49, R51) -/

section
variable {s : State} {off : Offset} {v : Word} {rest : List HostInput} {k : Nat}

theorem step_write_inWord (hp : placeAt off = .inWord k) (ha : off.toNat % 4 = 0)
    (h : s.HostMoves (.write 4 off v) rest) (hidle : s.busy = false) :
    ∃ t, step s = .next t ∧ t = { s with inbox := rest, inMem := t.inMem } ∧
      ∀ a, t.inAt a = if a / 4 = k ∧ a < s.cfg.inCap then v.extractLsb' (8 * (a % 4)) 8 else s.inAt a := by
  rw [step_hostWrite_idle ha h hidle, hp, State.writePlace]
  obtain ⟨hframe, hbytes⟩ := writeLanes_in s.cfg.inCap k v { s with inbox := rest }
  exact ⟨_, rfl, hframe, hbytes⟩

theorem step_write_outWord (hp : placeAt off = .outWord k) (ha : off.toNat % 4 = 0)
    (h : s.HostMoves (.write 4 off v) rest) (hidle : s.busy = false) :
    ∃ t, step s = .next t ∧ t = { s with inbox := rest, outMem := t.outMem } ∧
      ∀ a, t.outAt a = if a / 4 = k ∧ a < s.cfg.outCap then v.extractLsb' (8 * (a % 4)) 8 else s.outAt a := by
  rw [step_hostWrite_idle ha h hidle, hp, State.writePlace]
  obtain ⟨hframe, hbytes⟩ := writeLanes_out s.cfg.outCap k v { s with inbox := rest }
  exact ⟨_, rfl, hframe, hbytes⟩

/-- A read of any place while BUSY = 0. -/
theorem step_read_idle (ha : off.toNat % 4 = 0) (h : s.HostMoves (.read 4 off) rest) (hidle : s.busy = false) :
    step s = .next { s with
      inbox := rest, readData := some (({ s with inbox := rest } : State).readPlace (placeAt off)) } := by
  rw [step_hostRead ha h, hostRead_defined (s := { s with inbox := rest }) (.inl hidle)]

end

/-- Settles O17. -/
theorem byteWindowAccess : Obligations.ByteWindowAccess := by
  intro s rest k v hidle hk
  obtain ⟨hinAligned, hin⟩ := placeAt_in hk
  obtain ⟨houtAligned, hout⟩ := placeAt_out hk
  refine ⟨fun hm => step_write_inWord hin hinAligned hm hidle, fun hm => step_write_outWord hout houtAligned hm hidle,
    fun hm => ?readIn, fun hm => ?readOut⟩
  case readIn =>
    rw [step_read_idle hinAligned hm hidle, hin]
    exact ⟨_, rfl, fun j hj => lanesWord_lane _ _ k hj⟩
  case readOut =>
    rw [step_read_idle houtAligned hm hidle, hout]
    exact ⟨_, rfl, fun j hj => lanesWord_lane _ _ k hj⟩

theorem writePlace_sym (s : State) (i : Nat) (v : Word) :
    s.writePlace v (.sym i) = { s with symMem := (s.writePlace v (.sym i)).symMem } ∧
    ∀ j, (s.writePlace v (.sym i)).symAt j = if j = i ∧ i < s.cfg.symCap then v else s.symAt j := by
  by_cases hi : i < s.cfg.symCap
  · rw [State.writePlace, if_pos hi]
    exact ⟨rfl, fun j => by rw [State.symAt_setSym]; simp only [hi, and_true]⟩
  · rw [State.writePlace, if_neg hi]
    exact ⟨rfl, fun j => by rw [if_neg (fun h => hi h.2)]⟩

/-- Settles O18. -/
theorem symbolWindowAccess : Obligations.SymbolWindowAccess := by
  intro s rest i v hidle hi
  obtain ⟨haligned, hsym⟩ := placeAt_sym hi
  refine ⟨fun hm => ?_, fun hm => ?_⟩
  · obtain ⟨hframe, hwords⟩ := writePlace_sym { s with inbox := rest } i v
    rw [step_hostWrite_idle haligned hm hidle, hsym]
    exact ⟨_, rfl, hframe, hwords⟩
  · rw [step_read_idle haligned hm hidle, hsym]
    rfl

/-- Settles O19: a read either returns the data of its place or draws a free value. -/
theorem hostReadsHaveNoSideEffect : Obligations.HostReadsHaveNoSideEffect := by
  intro s rest off hm ha
  rw [step_hostRead ha hm, State.hostRead]
  split
  next => exact ⟨_, rfl, rfl, rfl⟩
  next => exact ⟨_, rfl, rfl, rfl⟩

/-! ### Register reads (R22 to R38) -/

theorem flagBit_getLsbD (b : Bool) {pos : Nat} (i : Nat) (h : pos < 32) :
    (flagBit b pos).getLsbD i = (b && decide (i = pos)) := by
  cases b with
  | false => simp [flagBit]
  | true =>
    simp only [flagBit, if_true, BitVec.getLsbD_shiftLeft, BitVec.getLsbD_one, Bool.true_and]
    rw [Bool.eq_iff_iff]
    simp only [Bool.and_eq_true, Bool.not_eq_true', decide_eq_true_eq, decide_eq_false_iff_not]
    omega

/-- Each bit of STATUS in turn (R26). -/
theorem status_getLsbD (s : State) (i : Nat) : s.status.getLsbD i =
    [s.busy, s.done, s.err, s.busyWr, s.ftValid, s.treeValid, s.treeNull, s.ctValid, s.bwOpen, s.brOpen, s.brHasNext,
      s.hdrVariant, s.irq].getD i false := by
  simp only [State.status, BitVec.getLsbD_or, flagBit_getLsbD, Nat.reduceLT]
  by_cases h : i < 13
  · interval_cases i <;> simp
  · have hne : ∀ n < 13, i ≠ n := by omega
    rw [List.getD_eq_default _ _ (by simpa using h)]
    simp [hne]

theorem treeNull_iff (s : State) : s.treeNull = true ↔ ∃ t, s.tree = some t ∧ t.root = none := by
  cases h : s.tree <;> simp [State.treeNull, State.treeValid, State.treeOrNull, h]

theorem brHasNext_iff (s : State) : s.brHasNext = true ↔ s.brOpen = true ∧ s.brBitPos < s.brTotal := by
  cases h : s.brOpen <;> simp [State.brHasNext, State.brRemain, h]

/-- Settles O20. -/
theorem statusReadShowsFlags : Obligations.StatusReadShowsFlags := by
  intro s rest hm
  have hbits := status_getLsbD s
  refine ⟨s.status, step_readReg (r := .status) rfl (.inr rfl) rfl hm, hbits 0, hbits 1, hbits 2, hbits 3, hbits 4,
    hbits 5, ?treeNull, hbits 7, hbits 8, hbits 9, ?hasNext, hbits 11, hbits 12, fun i hi => ?rest⟩
  case treeNull => exact (Bool.eq_iff_iff.mp (hbits 6)).trans (treeNull_iff s)
  case hasNext => exact (Bool.eq_iff_iff.mp (hbits 10)).trans (brHasNext_iff s)
  case rest => exact (hbits i).trans (List.getD_eq_default _ _ hi)

end Sys2Proof.Machine
end

section
/-! Register reads at every offset (R22 to R38), and the host program WRB (R68). -/

namespace Sys2Proof.Machine

/-! ### Register reads -/

section
variable {s : State}

theorem readReg_ctrl (s : State) : s.readReg .ctrl = word s.variant.toNat :=
  (by decide : ∀ b : Bool, flagBit b 0 = word b.toNat) s.variant

theorem readReg_irqEn (s : State) : s.readReg .irqEn = word (s.doneIe.toNat + 2 * s.errIe.toNat) :=
  (by decide : ∀ b c : Bool, flagBit b 0 ||| flagBit c 1 = word (b.toNat + 2 * c.toNat)) s.doneIe s.errIe

theorem readReg_nDistinct_none (h : s.ft = none) : s.readReg .nDistinct = 0 := by
  simp [State.readReg, State.nDistinct, State.ftEntries, h]

theorem readReg_nDistinct_some {ft : List FtEntry} (h : s.ft = some ft) : s.readReg .nDistinct = word ft.length := by
  simp [State.readReg, State.nDistinct, State.ftEntries, h]

theorem readReg_nodeCount_none (h : s.tree = none) : s.readReg .nodeCount = 0 := by
  simp [State.readReg, State.nodeCount, State.treeOrNull, h]

theorem readReg_nodeCount_some {t : Tree} (h : s.tree = some t) : s.readReg .nodeCount = word t.nodes.length := by
  simp [State.readReg, State.nodeCount, State.treeOrNull, h]

theorem readReg_root_none (h : s.tree = none) : s.readReg .root = 0xFFFFFFFF := by
  simp [State.readReg, State.rootWord, State.treeOrNull, h, indexWord, nilWord]

theorem readReg_root_some {t : Tree} (h : s.tree = some t) : s.readReg .root = indexWord t.root := by
  simp [State.readReg, State.rootWord, State.treeOrNull, h]

theorem readReg_bitCount (h : s.bitCount < 2 ^ 32) : s.readReg .bitCount = word s.bitCount := if_pos h

theorem readReg_brRemain_open (h : s.brOpen = true) : s.readReg .brRemain = word (s.brTotal - s.brBitPos) := by
  simp [State.readReg, State.brRemain, h]

theorem readReg_brRemain_closed (h : s.brOpen = false) : s.readReg .brRemain = 0 := by
  simp [State.readReg, State.brRemain, h]

/-- A reserved offset reads 0, busy or not (R22, R58). -/
theorem step_read_reserved {off : Offset} {rest : List HostInput} (ha : off.toNat % 4 = 0)
    (hoff : off.toNat = 0x01C ∨ (0x080 ≤ off.toNat ∧ off.toNat < 0x100000)) (h : s.HostMoves (.read 4 off) rest) :
    step s = .next { s with inbox := rest, readData := some 0 } := by
  have hp : placeAt off = .reserved := by
    rcases hoff with h | h
    · exact placeAt_reserved (by omega) (by rw [h]; rfl)
    · exact placeAt_reserved h.2 (regAt_reserved h.1)
  rw [step_hostRead ha h, hostRead_defined (by rw [hp]; exact .inr rfl), hp, State.readPlace]

end

/-- Settles O21. -/
theorem registerReads : Obligations.RegisterReads := by
  intro s rest reads
  have hbusy : ∀ (off : Offset) (r : RegName) (w : Word), placeAt off = .reg r → off.toNat % 4 = 0 →
      r.readsWhileBusy = true → s.readReg r = w → reads off w :=
    fun off r w hp ha hr hw hm => hw ▸ step_readReg hp (.inr hr) ha hm
  refine ⟨⟨hbusy _ .id _ rfl rfl rfl rfl, hbusy _ .version _ rfl rfl rfl rfl, hbusy _ .capSym _ rfl rfl rfl rfl,
    hbusy _ .capIn _ rfl rfl rfl rfl, hbusy _ .capOut _ rfl rfl rfl rfl, hbusy _ .capDistinct _ rfl rfl rfl rfl,
    hbusy _ .capNode _ rfl rfl rfl rfl, hbusy _ .irqEn _ rfl rfl rfl (readReg_irqEn s), hbusy _ .cmd _ rfl rfl rfl rfl,
    fun off ha hoff => step_read_reserved ha hoff⟩, fun hidle => ?_⟩
  have hreads : ∀ (off : Offset) (r : RegName) (w : Word), placeAt off = .reg r → off.toNat % 4 = 0 →
      s.readReg r = w → reads off w :=
    fun off r w hp ha hw hm => hw ▸ step_readReg hp (.inl hidle) ha hm
  have hcode : ∀ p ∈ [(ErrKind.none, 0), (.sourceUnavailable, 1), (.streamOverflow, 2), (.truncatedStream, 3),
      (.malformedHeader, 4), (.malformedStream, 5), (.invalidSymbol, 6), (.capacityExceeded, 7), (.badState, 8),
      (.illegalCommand, 9), (.badArgument, 10)], p.1.code = p.2 := by decide
  exact ⟨hreads _ .ctrl _ rfl rfl (readReg_ctrl s), hreads _ .arg0 _ rfl rfl rfl, hreads _ .arg1 _ rfl rfl rfl,
    fun p hp hk => hreads _ .errKind _ rfl rfl (by rw [← hcode p hp, ← hk]; rfl), hreads _ .errInfo _ rfl rfl rfl,
    hreads _ .res0 _ rfl rfl rfl, hreads _ .res1 _ rfl rfl rfl, hreads _ .res2 _ rfl rfl rfl,
    hreads _ .res3 _ rfl rfl rfl, hreads _ .symCount _ rfl rfl rfl, hreads _ .inLen _ rfl rfl rfl,
    hreads _ .inPos _ rfl rfl rfl, hreads _ .outLen _ rfl rfl rfl, hreads _ .outBudget _ rfl rfl rfl,
    hreads _ .imgW _ rfl rfl rfl, hreads _ .imgH _ rfl rfl rfl,
    fun h => hreads _ .nDistinct _ rfl rfl (readReg_nDistinct_none h),
    fun ft h => hreads _ .nDistinct _ rfl rfl (readReg_nDistinct_some h),
    fun h => ⟨hreads _ .nodeCount _ rfl rfl (readReg_nodeCount_none h), hreads _ .root _ rfl rfl (readReg_root_none h)⟩,
    fun t h => ⟨hreads _ .nodeCount _ rfl rfl (readReg_nodeCount_some h),
      fun hr => hreads _ .root _ rfl rfl (by rw [readReg_root_some h, hr]; rfl),
      fun r hr => hreads _ .root _ rfl rfl (by rw [readReg_root_some h, hr]; rfl)⟩,
    fun h => hreads _ .bitCount _ rfl rfl (readReg_bitCount h),
    fun h => hreads _ .brRemain _ rfl rfl (readReg_brRemain_open h),
    fun h => hreads _ .brRemain _ rfl rfl (readReg_brRemain_closed h)⟩

/-! ### WRB (R68) -/

theorem laneMask_getLsbD (i : Nat) : (0xFF#32).getLsbD i = decide (i < 8) := by
  have h : 0xFF#32 = (BitVec.allOnes 8).setWidth 32 := rfl
  rw [h, BitVec.getLsbD_setWidth, BitVec.getLsbD_allOnes, Bool.and_eq_right_iff_imp]
  simp only [decide_eq_true_eq]
  omega

theorem replaceLane_lane (w : Word) (a : Nat) (v : Byte) {j : Nat} (hj : j < 4) :
    (replaceLane w a v).extractLsb' (8 * j) 8 = if j = a % 4 then v else w.extractLsb' (8 * j) 8 := by
  rw [replaceLane]
  have hn : a % 4 < 4 := Nat.mod_lt _ (by decide)
  generalize a % 4 = n at hn
  apply BitVec.eq_of_getLsbD_eq
  intro i hi
  have hlt : 8 * j + i < 32 := by omega
  simp only [BitVec.getLsbD_extractLsb', BitVec.getLsbD_or, BitVec.getLsbD_and, BitVec.getLsbD_not,
    BitVec.getLsbD_shiftLeft, BitVec.getLsbD_setWidth, laneMask_getLsbD, hi, hlt, decide_true, Bool.true_and]
  rcases Nat.lt_trichotomy j n with h | rfl | h
  · simp [show 8 * j + i < 8 * n by omega, h.ne, hi]
  · simp [hi, show i < 32 by omega]
  · have hhi : ¬ 8 * j + i - 8 * n < 8 := by omega
    simp [hhi, h.ne', hi, BitVec.getLsbD_of_ge v _ (not_lt.mp hhi)]

/-- Byte `b` of a window after the write of a word whose lane `a % 4` was replaced: every other lane was read. -/
theorem wrbLane_eq (cap : Nat) (byteAt : Nat → Byte) {a : Nat} (ha : a < cap) (v : Byte) (b : Nat) :
    (if b / 4 = a / 4 ∧ b < cap then
      (replaceLane (lanesWord cap byteAt (a / 4)) a v).extractLsb' (8 * (b % 4)) 8 else byteAt b) =
    if b = a then v else byteAt b := by
  have hb : b % 4 < 4 := Nat.mod_lt _ (by decide)
  by_cases hword : b / 4 = a / 4 ∧ b < cap
  · rw [if_pos hword, replaceLane_lane _ _ _ hb, lanesWord_lane _ _ _ hb, ← hword.1, Nat.div_add_mod, if_pos hword.2]
    exact if_congr (by omega) rfl rfl
  · rw [if_neg hword, if_neg (by rintro rfl; exact hword ⟨rfl, ha⟩)]

/-- A frame over a state whose last data read was set names the data through the new state. -/
theorem frame_readData {s t : State} {d : Option Word} {m n : Memory 8}
    (h : t = { s with readData := d, inMem := m, outMem := n }) :
    t = { s with readData := t.readData, inMem := m, outMem := n } := by
  have hd : t.readData = d := congrArg State.readData h
  rw [hd]
  exact h

/-- The two statements of WRB on an idle block, each of whose accesses takes effect at once: a read of the word, and the
write of the word with one lane replaced. -/
theorem run_wrb {b : BufName} {a : Nat} {s : State} (ha : (windowOffset b (a / 4)).toNat % 4 = 0) (v : Byte)
    (hidle : s.busy = false) {w : Word} (hw : s.readPlace (placeAt (windowOffset b (a / 4))) = w) :
    ∃ h1 h2, HostRun.step ⟨(HostPseudo.wrb b a v).expand, 0, 0, []⟩ s = some (h1, .next { s with readData := some w }) ∧
      HostRun.step h1 { s with readData := some w } = some (h2, .next
        (({ s with readData := some w } : State).writePlace (replaceLane w a v)
          (placeAt (windowOffset b (a / 4))))) := by
  have hread : hostEvent (.read 4 (windowOffset b (a / 4))) s = .next { s with readData := some w } := by
    rw [hostEvent_read ha, hostRead_defined (.inl hidle), hw]
  have hwrite := hostEvent_write ha (replaceLane w a v) { s with readData := some w }
  rw [hostWrite_idle (s := { s with readData := some w }) hidle] at hwrite
  refine ⟨⟨(HostPseudo.wrb b a v).expand, 1, w, []⟩, ⟨(HostPseudo.wrb b a v).expand, 2, w, []⟩, ?_, ?_⟩
  · simp [HostRun.step, HostPseudo.expand, HostStmt.access, hread, HostRun.note, HostRun.next]
  · simp [HostRun.step, HostPseudo.expand, HostStmt.access, hwrite, HostRun.note, HostRun.next]

/-- Settles O22. -/
theorem wrbChangesOneByte : Obligations.WrbChangesOneByte := by
  intro s a v hl hidle
  simp only [Config.legal, decide_eq_true_eq] at hl
  refine ⟨fun ha => ?_, fun ha => ?_⟩
  · obtain ⟨haligned, hplace⟩ := placeAt_in (k := a / 4) (by omega)
    obtain ⟨h1, h2, hrun1, hrun2⟩ := run_wrb (b := .inp) haligned v hidle (congrArg s.readPlace hplace)
    obtain ⟨hframe, hbytes⟩ := writeLanes_in s.cfg.inCap (a / 4)
      (replaceLane (lanesWord s.cfg.inCap s.inAt (a / 4)) a v)
      { s with readData := some (lanesWord s.cfg.inCap s.inAt (a / 4)) }
    rw [windowOffset, hplace] at hrun2
    exact ⟨h1, h2, _, _, hrun1, hrun2, frame_readData hframe, fun b => (hbytes b).trans (wrbLane_eq _ _ ha v b)⟩
  · obtain ⟨haligned, hplace⟩ := placeAt_out (k := a / 4) (by omega)
    obtain ⟨h1, h2, hrun1, hrun2⟩ := run_wrb (b := .out) haligned v hidle (congrArg s.readPlace hplace)
    obtain ⟨hframe, hbytes⟩ := writeLanes_out s.cfg.outCap (a / 4)
      (replaceLane (lanesWord s.cfg.outCap s.outAt (a / 4)) a v)
      { s with readData := some (lanesWord s.cfg.outCap s.outAt (a / 4)) }
    rw [windowOffset, hplace] at hrun2
    exact ⟨h1, h2, _, _, hrun1, hrun2, frame_readData hframe, fun b => (hbytes b).trans (wrbLane_eq _ _ ha v b)⟩

end Sys2Proof.Machine
end

section
/-! TreeBuilder and CodeTable: the tree TB_BUILD makes (R91, R92), and the codes CT_BUILD makes of a tree (R95). -/

namespace Sys2Proof.Machine

/-! ### TB_BUILD (R91, R92) -/

theorem exec_tbBuild_ft {s : State} {ft : List FtEntry} (h : s.ft = some ft) :
    exec .tbBuild s = .next { s with tree := some (buildTree ft), ct := none }.finishOk := by
  have hbody : commandBody .tbBuild s = tbBuildBody s := by simp [commandBody, State.ftValid, h]
  have hentries : s.ftEntries = ft := by rw [State.ftEntries, h, Option.getD_some]
  rw [exec_eq, hbody, tbBuildBody, hentries, Ran.finish_ok]
  rfl

/-- Settles O35: from two entries on, each entry from N on merges the two waiting entries of least key. -/
theorem tbBuildMergesLeastPairs : Obligations.TbBuildMergesLeastPairs := by
  intro s
  refine ⟨exec_tbBuild_ft_none, fun ft hft => ⟨buildTree ft, exec_tbBuild_ft hft, ?_, ?_, fun hlen => ?_⟩⟩
  · rintro rfl; rfl
  · rintro e rfl; rfl
  · obtain ⟨x, more, htree, hmore, -, -, hmerging⟩ := buildTree_spec hlen
    have hnodes : (ftLeaves ft ++ more).length = 2 * ft.length - 1 := by
      rw [List.length_append, ftLeaves, List.length_map, hmore]
      omega
    rw [htree]
    exact ⟨rfl, hnodes, fun i e he => getElem?_append_some _ (ftLeaves_getElem? he),
      fun j hlo hhi => hmerging.merges j hlo (hnodes ▸ hhi)⟩

/-! ### The codes of a tree (R95) -/

section
variable {t : Tree} {x y : Word} {c d : Code}

theorem Tree.Ok.codes_ne_nil (h : t.Ok) (hx : t.codes.code? x = some c) : c ≠ [] :=
  h.code_ne_nil ((h.codes_code? x c).1 hx)

/-- No code of a tree starts another symbol's code. -/
theorem Tree.Ok.codes_prefixFree (h : t.Ok) (hx : t.codes.code? x = some c) (hy : t.codes.code? y = some d)
    (hcd : c <+: d) : x = y ∧ c = d := by
  obtain ⟨e, rfl⟩ := hcd
  obtain ⟨rfl, hxy⟩ := ((h.codes_code? x c).1 hx).eq_of_append ((h.codes_code? y _).1 hy)
  exact ⟨hxy, (List.append_nil c).symm⟩

end

/-! ### The code bits of a sequence (R95) -/

theorem codeBits_length (m : CodeTable) (xs : List Word) :
    (codeBits m xs).length = (xs.map fun x => ((m.code? x).getD []).length).sum := by
  rw [codeBits, List.length_flatMap]

/-- A sum over a sequence, by its distinct symbols. -/
theorem sum_map_eq_firstSeen (f : Word → Nat) (xs : List Word) :
    (xs.map f).sum = ((firstSeen xs).map fun x => f x * xs.count x).sum := by
  have hset : xs.toFinset = (firstSeen xs).toFinset := by ext x; simp
  rw [Finset.sum_list_map_count, hset, List.sum_toFinset _ (firstSeen_nodup xs)]
  simp only [smul_eq_mul, Nat.mul_comm]

theorem codeBits_length_freqTable (m : CodeTable) {xs : List Word} (h : xs.length < 2 ^ 32) :
    (codeBits m xs).length = ((freqTable xs).map fun e => ((m.code? e.sym).getD []).length * e.count.toNat).sum := by
  rw [codeBits_length, sum_map_eq_firstSeen, freqTable, List.map_map]
  congr 1
  refine List.map_congr_left fun x _ => ?_
  rw [Function.comp_apply, word_toNat (List.count_le_length.trans_lt h)]

/-! ### The stages up to ENCODE -/

section
variable {s t : State}

theorem fcCountBody_raised {r : Raise} (h : fcCountBody s = .raised r t) : t = s.invalidateAll := by
  rw [fcCountBody_eq] at h
  split at h
  · cases h; rfl
  · cases hloop : countLoop s s.symCount.toNat 0 [] with
    | ok ft => rw [hloop] at h; cases h
    | error e => rw [hloop] at h; cases h; rfl

/-- FT is valid after FC_COUNT exactly when it counted the whole sequence. -/
theorem exec_fcCount_ft {ft : List FtEntry} (he : exec .fcCount s = .next t) (hft : t.ft = some ft) :
    Encodable s.cfg s.variant s.symbols ∧ ft = freqTable s.symbols ∧
      t = { s with ft := some (freqTable s.symbols), tree := none, ct := none }.finishOk := by
  rw [exec_eq, commandBody] at he
  cases hb : fcCountBody s with
  | raised r u =>
    rw [hb, fcCountBody_raised hb] at he
    cases he
    cases hft
  | ok a u =>
    obtain ⟨henc, rfl⟩ := fcCountBody_eq_ok_iff.1 hb
    rw [hb] at he
    cases he
    exact ⟨henc, (Option.some.inj hft).symm, rfl⟩

theorem writeBits_eq_ok {bits : List Bool} (h : writeBits bits s = .ok () t) : WroteBits bits s t := by
  by_cases hroom : (s.bwNbits.val + bits.length) / 8 ≤ s.room
  · obtain ⟨u, hu, hw⟩ := writeBits_ok hroom
    rw [hu] at h
    cases h
    exact hw
  · obtain ⟨u, hu, -⟩ := writeBits_overflow (not_le.1 hroom)
    rw [hu] at h
    cases h

/-- ENCODE of a sequence with the codes of its own tree counts its code bits. -/
theorem exec_encodeSyms_bitCount (hct : s.ct = some (huffTree s.symbols).codes) (ho : s.bwOpen = true)
    (henc : Encodable s.cfg s.variant s.symbols) (he : exec .encodeSyms s = .next t) (hk : t.errKind = .none) :
    t.bitCount = s.bitCount + (huffBits s.symbols).length := by
  obtain ⟨u, hu, rfl⟩ := exec_succeeds he hk
  have hbody : commandBody .encodeSyms s = encodeBody s := by simp [commandBody, State.ctValid, hct, ho]
  have hcodes : ∀ x ∈ s.symbols, ((huffTree s.symbols).codes.code? x).isSome = true :=
    fun x hx => Option.isSome_iff_exists.2 (huffTree_code hx)
  rw [hbody, encodeBody_allCodes hct (symbols_length s ▸ henc.length_le) hcodes] at hu
  exact (writeBits_eq_ok hu).bitCount_eq

end

/-- Settles O38: a code is a path to a leaf, and no path to a leaf goes on from another leaf; the code bits of a
sequence sum its code lengths, symbol by symbol. -/
theorem codesArePrefixFree : Obligations.CodesArePrefixFree := by
  constructor
  · intro s t hs ht
    exact ⟨t.codes, exec_ctBuild_tree hs ht,
      fun x y c d hx hy => ⟨ht.codes_ne_nil hx, ht.codes_prefixFree hx hy⟩,
      fun x c hx => (ht.codes_code? x c).1 hx,
      fun r p x f hr hp => (ht.codes_code? x p).2 ⟨r, f, hr, hp⟩⟩
  · intro s s1 s2 s3 s4 s5 ft m he1 hft he2 he3 hm he4 he5 hk5
    obtain ⟨henc, rfl, rfl⟩ := exec_fcCount_ft he1 hft
    rw [exec_tbBuild_ft hft] at he2
    cases he2
    rw [exec_ctBuild_tree rfl (huffTree_ok s.symbols)] at he3
    cases he3
    cases hm
    cases exec_bwOpen_eq_next he4
    rw [← codeBits_length_freqTable _ (symbols_length_lt s)]
    refine (exec_encodeSyms_bitCount ?_ ?_ ?_ he5 hk5).trans (Nat.zero_add _)
    · rfl
    · rfl
    · exact henc

end Sys2Proof.Machine
end

section
/-! Streams (R76): what a closed writer leaves (R102), what a reader opens (R107); and the spelling of a
number (R108). -/

namespace Sys2Proof.Machine

/-! ### Streams (R76) -/

theorem streamOf_isStream (bits : List Bool) : IsStream (streamOf bits) bits where
  length_eq := streamOf_length bits
  data_eq := by rw [streamOf, List.dropLast_concat]; exact (packBytes_bits bits).1
  trailer_eq := by rw [streamOf, List.getLast?_concat]

/-- The bits that stand in the bytes are the stream's valid bits, so its zero padding makes it a stream of R76. -/
theorem IsStream.carries {bytes : List Byte} {bits : List Bool} (h : IsStream bytes bits) : CarriesBits bytes bits where
  length_ge := by rw [h.length_eq]; omega
  trailer := by
    refine ⟨_, h.trailer_eq, ?_⟩
    rw [h.length_eq, BitVec.toNat_ofNat]
    omega
  bit := by
    intro k b hb
    have hdata : (bytesBits bytes.dropLast)[k]? = some b := by
      rw [h.data_eq]
      exact getElem?_append_some _ hb
    rw [bytesBits_getElem?] at hdata
    obtain ⟨x, hx, hxb⟩ := Option.map_eq_some_iff.1 hdata
    obtain ⟨hlt, hget⟩ := List.getElem?_eq_some_iff.1 hx
    rw [List.getElem_dropLast] at hget
    exact ⟨x, List.getElem?_eq_some_iff.2 ⟨by rw [List.length_dropLast] at hlt; omega, hget⟩, hxb⟩

theorem outBytes_of_bytesAt {s : State} {a : Nat} {bs : List Byte} (h : BytesAt s.outAt a bs) :
    s.outBytes a bs.length = bs := by
  refine List.ext_getElem (outBytes_length s a _) fun k h₁ h₂ => ?_
  simp only [State.outBytes, List.getElem_map, List.getElem_range]
  exact h k h₂

/-- Settles O43: the bytes the writer leaves are `streamOf` the bits. -/
theorem closedWriterLeavesStream : Obligations.ClosedWriterLeavesStream := by
  intro s t u bits hopen hfresh hwrote hroom he
  obtain ⟨v, hv, -, hlen, hat, -⟩ := write_close hfresh hwrote hroom
  have hopen' : t.bwOpen = true := by rw [hwrote.frame]; exact hopen
  rw [exec_bwClose_open hopen', hv, Ran.finish_ok] at he
  cases he
  have hn : v.outLen.toNat - s.outLen.toNat = (streamOf bits).length := by rw [hlen, Nat.add_sub_cancel_left]
  have hbytes : v.closeWriter.finishOk.outBytes s.outLen.toNat (v.outLen.toNat - s.outLen.toNat) = streamOf bits := by
    rw [hn]
    exact outBytes_of_bytesAt hat
  exact hbytes ▸ streamOf_isStream bits

/-- Settles O46. -/
theorem readerDeliversStreamBits : Obligations.ReaderDeliversStreamBits := by
  refine ⟨fun s bytes bits hcarries hat hlen hcap => ?_, fun bytes bits => IsStream.carries⟩
  obtain ⟨hopen, hbit⟩ := brOpenBody_carries hcarries hat hlen hcap
  refine ⟨(s.clearReader.openReader s.inPos.toNat bits.length).finishOk, ?_, rfl, rfl, rfl, rfl, hbit⟩
  rw [exec_eq, commandBody, hopen, Ran.finish_ok]

/-! ### Numbers as text (R70, R108) -/

/-- Settles O47. -/
theorem emittedDecimalIsCanonical : Obligations.EmittedDecimalIsCanonical := by
  intro v
  obtain ⟨hne, hdigits, hvalue, hnoZero, hzero⟩ := decText_spec v
  exact ⟨List.all_eq_true.2 hdigits, hvalue, hnoZero, hzero, List.length_pos_iff.2 hne⟩

end Sys2Proof.Machine
end

section
/-! TreeCodec: TC_PARSE on a header of the grammar (R111, R112), and where it stops on anything else (R109, R111). -/

namespace Sys2Proof.Machine

/-! ### TC_PARSE by the result of the parser (R111) -/

section
variable {s : State} {r : Raise} {hd : Header}

theorem State.invalidateTreeCodes_eq (s : State) : s.invalidateTreeCodes = { s with tree := none, ct := none } := rfl

theorem tcParseBody_eq (s : State) : tcParseBody s =
    if s.cfg.inCap < s.inLen.toNat then raise .sourceUnavailable s.inLen.toNat s.invalidateTreeCodes
    else (Ran.ofExcept (parseHeader s.invalidateTreeCodes) s.invalidateTreeCodes).bind fun h s =>
      .ok () (s.setHeader h) := rfl

theorem tcParseBody_ok (hcap : s.inLen.toNat ≤ s.cfg.inCap) (hp : parseHeader s.invalidateTreeCodes = .ok hd) :
    tcParseBody s = .ok () (s.invalidateTreeCodes.setHeader hd) := by
  rw [tcParseBody_eq, if_neg hcap.not_gt, hp, Ran.ofExcept_ok, Ran.bind_ok]

theorem tcParseBody_error (hcap : s.inLen.toNat ≤ s.cfg.inCap) (hp : parseHeader s.invalidateTreeCodes = .error r) :
    tcParseBody s = .raised r s.invalidateTreeCodes := by
  rw [tcParseBody_eq, if_neg hcap.not_gt, hp, Ran.ofExcept_error, Ran.bind_raised]

theorem tcParseBody_unavailable (hcap : s.cfg.inCap < s.inLen.toNat) :
    tcParseBody s = .raised ⟨.sourceUnavailable, s.inLen⟩ s.invalidateTreeCodes := by
  rw [tcParseBody_eq, if_pos hcap, raise_toNat]

/-- A failure of TC_PARSE leaves the tree and the codes invalid, and nothing of the header. -/
theorem tcParseBody_raised {t : State} (h : tcParseBody s = .raised r t) : t = s.invalidateTreeCodes := by
  rcases Nat.lt_or_ge s.cfg.inCap s.inLen.toNat with hcap | hcap
  · rw [tcParseBody_unavailable hcap] at h
    cases h
    rfl
  · cases hp : parseHeader s.invalidateTreeCodes with
    | ok hd => rw [tcParseBody_ok hcap hp] at h; cases h
    | error e => rw [tcParseBody_error hcap hp] at h; cases h; rfl

theorem exec_tcParse_error (hcap : s.inLen.toNat ≤ s.cfg.inCap) (hp : parseHeader s.invalidateTreeCodes = .error r) :
    exec .tcParse s = .next ({ s with tree := none, ct := none }.errorEntry r) := by
  rw [exec_eq, commandBody, tcParseBody_error hcap hp, Ran.finish_raised, State.invalidateTreeCodes_eq]

end

/-! ### A header of the grammar (R111, R112) -/

/-- What TC_PARSE makes of a header's text that ends before index `next`; `none` is the null tree (R111). -/
def headerOfText (pixel : Bool) (w h : Word) (shape : Option Shape) (next : Nat) : Header :=
  ⟨treeOfShape shape, pixel, next, if pixel then some (w, h) else none⟩

theorem setHeader_headerOfText (s : State) (pixel : Bool) (w h : Word) (shape : Option Shape) (next : Nat) :
    s.invalidateTreeCodes.setHeader (headerOfText pixel w h shape next) = { s with
      tree := some (treeOfShape shape), ct := none, hdrVariant := pixel, inPos := word next
      imgW := if pixel then w else s.imgW, imgH := if pixel then h else s.imgH } := by
  cases pixel <;> rfl

section
variable {s : State} {pixel : Bool} {w h : Word} {shape : Option Shape} {text : List Byte}

theorem tcParseBody_headerText (ht : HeaderText pixel w h shape text)
    (hv : ∀ sh, shape = some sh → sh.Writable s.cfg.nodeCap) (hs : TextAt s s.inPos.toNat text)
    (hcap : s.inLen.toNat ≤ s.cfg.inCap) :
    tcParseBody s = .ok ()
        (s.invalidateTreeCodes.setHeader (headerOfText pixel w h shape (s.inPos.toNat + text.length))) ∧
      (treeOfShape shape).Ok := by
  have hp := parseHeader_text (s := s.invalidateTreeCodes) ht hs hv
  exact ⟨tcParseBody_ok hcap hp, (parseHeader_sound hp).1⟩

end

/-- Settles O49. -/
theorem tcParseInvertsSerialize : Obligations.TcParseInvertsSerialize := by
  refine ⟨fun s pixel w h shape text ht hv hat hlen hcap => ?_, fun pixel w h shape hv => headerOf_text hv⟩
  obtain ⟨hbody, hok⟩ := tcParseBody_headerText ht (fun sh hsh => ⟨(hv sh hsh).1, (hv sh hsh).2⟩) ⟨hat, hlen⟩ hcap
  refine ⟨?_, hok, treeOfShape_shape shape, ?_⟩
  · rw [exec_eq, commandBody, hbody, Ran.finish_ok, setHeader_headerOfText]
  · rintro sh rfl
    exact ⟨congrArg (fun n => some (n - 1)) (sh.entries_length 0).symm, sh.entries_syms 0⟩

/-! ### Errors (R109, R111) -/

section
variable {s : State} {pixel slot : Bool} {w h : Word} {pre t a : List Byte} {d : Nat} {nodes : List Node} {r : Raise}

theorem parseHeader_past (h : s.inLen.toNat ≤ s.inPos.toNat) :
    parseHeader s = .error ⟨.truncatedStream, word s.inPos.toNat⟩ := by
  simp only [parseHeader, byteIn_end h, bind, Except.bind]

/-- A node that the parser does not take ends TC_PARSE with the node's own error. -/
theorem exec_tcParse_node (hcap : s.inLen.toNat ≤ s.cfg.inCap) (hnode : 2 ≤ s.cfg.nodeCap)
    (hpre : PrefixText pixel w h pre) (hstart : NodeStarts pixel s.cfg.nodeCap slot t d nodes)
    (hat : TextAt s s.inPos.toNat (pre ++ t ++ a)) (ha : ∃ c tl, a = c :: tl ∧ c ≠ byteSep ∧ c ≠ byteClose)
    (h0 : d = 0 → ∃ c tl, a = byteOpen :: c :: tl ∧ c ≠ byteSep)
    (hr : parseNode s.invalidateTreeCodes pixel (s.cfg.nodeCap - (d + 1)) (s.inPos.toNat + (pre ++ t).length) nodes =
      .error r) :
    exec .tcParse s = .next ({ s with tree := none, ct := none }.errorEntry r) := by
  rw [List.length_append, ← Nat.add_assoc] at hr
  rw [List.append_assoc] at hat
  exact exec_tcParse_error hcap (NodeStarts.header_stops (s := s.invalidateTreeCodes) hpre hstart hnode hat ha h0 hr)

theorem SymText.node_head {x : Word} (hx : SymText pixel a x) (tl : List Byte) :
    ∃ c tl', a ++ tl = c :: tl' ∧ c ≠ byteSep ∧ c ≠ byteClose := by
  obtain ⟨c, tl', rfl, -, hsep, hclose, -⟩ := hx.head
  exact ⟨c, tl' ++ tl, rfl, hsep, hclose⟩

theorem NodeText.node_head {sh : Shape} (ha : NodeText pixel a sh) :
    ∃ c tl, a = c :: tl ∧ c ≠ byteSep ∧ c ≠ byteClose := by
  obtain ⟨c, tl, rfl, hsep, hclose, -⟩ := ha.head
  exact ⟨c, tl, rfl, hsep, hclose⟩

end

/-- Settles O50: TC_PARSE ends with the parser's error, which is that of the first byte that does not fit, or of the
node that is not taken. -/
theorem tcParseErrors : Obligations.TcParseErrors := by
  intro s fails noDigit stands
  refine ⟨fun t he hk => ?_, fun hcap => ?_, fun hcap hnode =>
    ⟨fun text ok hnext hat => ⟨fun hend => ?_, fun hlt hbad => ?_⟩, fun hpast => ?_,
      fun pixel w h slot pre t d nodes hpre hstart => ⟨fun a b x f hd hx hf hat hstop hmem => ?_,
      fun hd hdeep hat => ?_, fun a sh h0 ha hat hstop hnodup hfull hlevels => ?_,
      fun a sh h0 ha hat hread hlt hdigit hover => ?_⟩⟩⟩
  · rw [exec_eq, commandBody] at he
    cases hb : tcParseBody s with
    | ok a u => rw [hb] at he; cases he; exact absurd rfl hk
    | raised r u => rw [hb, tcParseBody_raised hb] at he; cases he; rfl
  · show exec .tcParse s = _
    rw [exec_eq, commandBody, tcParseBody_unavailable hcap, Ran.finish_raised, State.invalidateTreeCodes_eq, word,
      BitVec.ofNat_toNat, BitVec.setWidth_eq]
  · exact exec_tcParse_error hcap
      (HeaderNext.stops (s := s.invalidateTreeCodes) hnext hnode hat (.inl ⟨hend.le, rfl⟩))
  · exact exec_tcParse_error hcap
      (HeaderNext.stops (s := s.invalidateTreeCodes) hnext hnode hat (.inr ⟨hlt, hbad, rfl⟩))
  · exact exec_tcParse_error hcap (parseHeader_past (s := s.invalidateTreeCodes) hpast.le)
  · have hat' : TextAt s s.inPos.toNat (pre ++ t ++ (a ++ [byteColon] ++ b)) := by
      simpa only [List.append_assoc, TextAt] using (hat : TextAt _ _ _)
    refine exec_tcParse_node hcap hnode hpre hstart hat' ?_ (fun h => absurd h hd.ne') ?_
    · rw [List.append_assoc]; exact hx.node_head _
    · exact parseNode_twice (s := s.invalidateTreeCodes) hx hf hat'.right hstop hmem
  · refine exec_tcParse_node hcap hnode hpre hstart hat ⟨_, _, rfl, by decide, by decide⟩ (fun h => absurd h hd.ne') ?_
    rw [← hdeep, Nat.sub_self]
    exact parseNode_deep (TextAt.byteIn (s := s.invalidateTreeCodes) (TextAt.right hat))
  · exact exec_tcParse_node hcap hnode hpre hstart hat ha.node_head (fun h => ha.second (h0 h))
      (parseNode_full (s := s.invalidateTreeCodes) ha (TextAt.right hat) hstop hnodup hfull
        (Nat.le_sub_of_add_le' hlevels))
  · exact exec_tcParse_node hcap hnode hpre hstart hat ha.node_head (fun h => ha.second (h0 h))
      (parseNode_overflows (s := s.invalidateTreeCodes) ha (TextAt.right hat) hread.distinct hread.fits
        (Nat.le_sub_of_add_le' hread.levels) ⟨hlt, hdigit, hover, rfl⟩)

end Sys2Proof.Machine
end

section
/-! Compressor: the whole state COMPRESS leaves, when the file fits in OUT_BUDGET (R116, R75) and when it does not
(R124, R80). -/

namespace Sys2Proof.Machine

theorem eq_word_of_toNat {w : Word} {n : Nat} (h : w.toNat = n) : w = word n := by
  rw [← h, word, BitVec.ofNat_toNat, BitVec.setWidth_eq]

/-! ### A stream that is written and closed (R101, R102) -/

/-- From `s`, a stream of `bits` was written and closed, and `t` was reached: the stream stands from the old OUT_LEN on,
BIT_COUNT counts its bits, the writer is closed, and nothing else changed. -/
structure WroteStream (bits : List Bool) (s t : State) : Prop where
  outLen_eq : t.outLen.toNat = s.outLen.toNat + (streamOf bits).length
  bytes_at : BytesAt t.outAt s.outLen.toNat (streamOf bits)
  out_frame : ∀ a, a < s.outLen.toNat ∨ t.outLen.toNat ≤ a → t.outAt a = s.outAt a
  frame : t = { s with
    bwOpen := false, bwAcc := 0, bwNbits := 0, bitCount := s.bitCount + bits.length
    outLen := t.outLen, outMem := t.outMem }

/-- A writer without pending bits that took `bits` closes with their stream. -/
theorem bwCloseBody_wrote {s t : State} {bits : List Bool} (hfresh : s.bwNbits = 0) (hw : WroteBits bits s t)
    (hroom : t.outLen.toNat + 2 ≤ t.outBudget.toNat) :
    ∃ u, bwCloseBody t = .ok () u ∧ WroteStream bits s u := by
  obtain ⟨v, hv, hcount, hlen, hat, hkeep⟩ := write_close hfresh hw hroom
  have hframe := bwCloseBody_frame t
  rw [hv, Ran.state_ok] at hframe
  refine ⟨v.closeWriter, hv, hlen, hat, hkeep, ?_⟩
  rw [hframe, hw.frame, ← hw.bitCount_eq]
  rfl

/-! ### COMPRESS after its tables (R116) -/

section
variable {s u : State}

/-- The header of a state's sequence. -/
def State.fileHeader (s : State) : List Byte := huffHeader s.variant s.imgW s.imgH s.symbols

/-- The file of a state's sequence. -/
def State.file (s : State) : List Byte := huffFile s.variant s.imgW s.imgH s.symbols

theorem State.file_nil (h : s.symbols = []) : s.file = streamOf [] ∧ huffBits s.symbols = [] := by
  rw [State.file, huffFile, if_pos h, h]
  exact ⟨rfl, rfl⟩

theorem State.file_cons (h : s.symbols ≠ []) : s.file = s.fileHeader ++ streamOf (huffBits s.symbols) := if_neg h

/-- COMPRESS of an acceptable sequence is its emission from the tables of the sequence. -/
theorem compressBody_tablesBuilt (h : Encodable s.cfg s.variant s.symbols) :
    compressBody s = compressEmit s.tablesBuilt := by
  have hcount : fcCountBody (compressStart s) = .ok () { s.tablesBuilt with tree := none, ct := none } := by
    rw [compressStart_eq]
    exact fcCountBody_symbols h
  have htree : tbBuildBody { s.tablesBuilt with tree := none, ct := none } =
      .ok () { s.tablesBuilt with ct := none } := rfl
  have hcodes : ctBuildBody { s.tablesBuilt with ct := none } = .ok () s.tablesBuilt := by
    rw [ctBuildBody, State.treeCodes_eq (t := huffTree s.symbols) rfl (huffTree_ok _)]
    rfl
  rw [compressBody, hcount, Ran.andThen_ok, htree, Ran.andThen_ok, hcodes, Ran.andThen_ok]

/-- Without symbols only an empty stream is emitted. -/
theorem compressBody_nil (h : Encodable s.cfg s.variant s.symbols) (hxs : s.symbols = []) :
    compressBody s = bwCloseBody { s.tablesBuilt with bwOpen := true } := by
  rw [compressBody_tablesBuilt h, compressEmit_empty (tablesBuilt_nDistinct.2 hxs)]
  rfl

/-- With symbols the header is emitted first. -/
theorem compressBody_cons (h : Encodable s.cfg s.variant s.symbols) (hxs : s.symbols ≠ []) :
    compressBody s =
      (((emitBytes s.fileHeader s.tablesBuilt).andThen bwOpenBody).andThen encodeBody).andThen bwCloseBody := by
  have hheader : tcSerializeBody s.tablesBuilt = emitBytes s.fileHeader s.tablesBuilt := by
    rw [tcSerializeBody_spellable (s := s.tablesBuilt) rfl fun x hx => h.valid x (mem_huffTree_syms.1 hx),
      tablesBuilt_headerText]
    rfl
  rw [compressBody_tablesBuilt h, compressEmit, if_neg (mt tablesBuilt_nDistinct.1 hxs), hheader]

/-- BW_OPEN after the header only opens the writer: COMPRESS has cleared it. -/
theorem EmittedBytes.freshWriter {bytes : List Byte} (h : EmittedBytes bytes s.tablesBuilt u) :
    u.freshWriter true = { u with bwOpen := true } := by
  rw [h.frame]
  rfl

/-- After the header the code bits of the sequence are written. -/
theorem encodeBody_tablesBuilt {bytes : List Byte} (h : Encodable s.cfg s.variant s.symbols)
    (he : EmittedBytes bytes s.tablesBuilt u) :
    encodeBody { u with bwOpen := true } = writeBits (huffBits s.symbols) { u with bwOpen := true } := by
  have hcap : s.symCount.toNat ≤ s.cfg.symCap := symbols_length s ▸ h.length_le
  have hcodes : ∀ x ∈ s.symbols, ((huffTree s.symbols).codes.code? x).isSome = true :=
    fun x hx => Option.isSome_iff_exists.2 (huffTree_code hx)
  have hsyms : ({ u with bwOpen := true } : State).symbols = s.symbols := by rw [he.frame]; rfl
  have hct : ({ u with bwOpen := true } : State).ct = some (huffTree s.symbols).codes := by rw [he.frame]; rfl
  rw [← hsyms] at hcodes
  rw [encodeBody_allCodes hct (by rw [he.frame]; exact hcap) (hsyms ▸ hcodes), hsyms]
  rfl

/-- With the header emitted, COMPRESS writes the code bits and closes the stream. -/
theorem compressBody_header (h : Encodable s.cfg s.variant s.symbols) (hxs : s.symbols ≠ [])
    (hu : emitBytes s.fileHeader s.tablesBuilt = .ok () u) (he : EmittedBytes s.fileHeader s.tablesBuilt u) :
    compressBody s = (writeBits (huffBits s.symbols) { u with bwOpen := true }).andThen bwCloseBody := by
  rw [compressBody_cons h hxs, hu, Ran.andThen_ok, bwOpenBody, Ran.andThen_ok, he.freshWriter,
    encodeBody_tablesBuilt h he]

/-- The room for the code bits is what the header leaves. -/
theorem EmittedBytes.room_header (he : EmittedBytes s.fileHeader s.tablesBuilt u) :
    ({ u with bwOpen := true } : State).room = s.outBudget.toNat - s.fileHeader.length ∧
      ({ u with bwOpen := true } : State).bwNbits = 0 ∧ u.outLen.toNat = s.fileHeader.length ∧
      u.outBudget = s.outBudget := by
  have hlen : u.outLen.toNat = s.fileHeader.length := he.outLen_eq.trans (Nat.zero_add _)
  have hbudget : u.outBudget = s.outBudget := he.outBudget
  refine ⟨?_, by rw [he.frame]; rfl, hlen, hbudget⟩
  rw [← hlen, ← hbudget]
  rfl

/-! ### The file (R75, R116) -/

/-- From `s`, COMPRESS left the file of the sequence at OUT_MEM[0..] with the tables valid and reached `t`. -/
structure WroteFile (s t : State) : Prop where
  bytes_at : BytesAt t.outAt 0 s.file
  out_frame : ∀ a, s.file.length ≤ a → t.outAt a = s.outAt a
  frame : t = { s.tablesBuilt with
    bitCount := (huffBits s.symbols).length, outLen := word s.file.length, outMem := t.outMem }

theorem compressBody_file_nil (h : Encodable s.cfg s.variant s.symbols) (hxs : s.symbols = [])
    (hfit : s.file.length ≤ s.outBudget.toNat) : ∃ t, compressBody s = .ok () t ∧ WroteFile s t := by
  obtain ⟨hfile, hbits⟩ := State.file_nil hxs
  rw [hfile] at hfit
  obtain ⟨t, ht, hlen, hat, hkeep, hframe⟩ :=
    bwCloseBody_wrote (s := { s.tablesBuilt with bwOpen := true }) rfl (.refl _) hfit
  have hword : t.outLen = word (streamOf []).length := eq_word_of_toNat (hlen.trans (Nat.zero_add _))
  refine ⟨t, (compressBody_nil h hxs).trans ht, ?_, fun a ha => ?_, ?_⟩
  · rw [hfile]; exact hat
  · rw [hfile] at ha
    exact hkeep a (.inr ((hlen.trans (Nat.zero_add _)).trans_le ha))
  · rw [hfile, hbits, ← hword, hframe]
    rfl

theorem compressBody_file_cons (h : Encodable s.cfg s.variant s.symbols) (hxs : s.symbols ≠ [])
    (hfit : s.file.length ≤ s.outBudget.toNat) : ∃ t, compressBody s = .ok () t ∧ WroteFile s t := by
  have hfile := State.file_cons hxs
  rw [hfile, List.length_append, streamOf_length] at hfit
  obtain ⟨u, hu, he⟩ := emitBytes_ok (bs := s.fileHeader) (s := s.tablesBuilt) (by
    show _ ≤ s.outBudget.toNat - 0
    omega)
  obtain ⟨hroom, hfresh, hulen, hubudget⟩ := he.room_header
  have hz : ({ u with bwOpen := true } : State).bwNbits.val = 0 := congrArg Fin.val hfresh
  obtain ⟨w, hw, hwrote⟩ := writeBits_ok (bits := huffBits s.symbols) (s := { u with bwOpen := true }) (by
    rw [hz, hroom]
    omega)
  have hwlen := hwrote.outLen_eq
  rw [hz, Nat.zero_add] at hwlen
  obtain ⟨t, ht, hlen, hat, hkeep, hframe⟩ := bwCloseBody_wrote hfresh hwrote (by
    rw [hwrote.outBudget, hwlen]
    show u.outLen.toNat + _ + 2 ≤ u.outBudget.toNat
    rw [hulen, hubudget]
    omega)
  have hlen : t.outLen.toNat = s.file.length := by
    rw [hlen, hfile, List.length_append]
    exact congrArg (· + _) hulen
  have hat : BytesAt t.outAt s.fileHeader.length (streamOf (huffBits s.symbols)) := hulen ▸ hat
  refine ⟨t, by rw [compressBody_header h hxs hu he, hw, Ran.andThen_ok, ht], ?_, fun a ha => ?_, ?_⟩
  · rw [hfile]
    refine BytesAt.append (he.bytes_at.congr fun k _ hk => hkeep k (.inl ?_)) ((Nat.zero_add _).symm ▸ hat)
    exact hk.trans_eq ((Nat.zero_add _).trans hulen.symm)
  · rw [hkeep a (.inr (hlen.trans_le ha))]
    refine he.out_frame a (.inr ?_)
    rw [hfile, List.length_append] at ha
    exact (Nat.zero_add _).trans_le ((Nat.le_add_right _ _).trans ha)
  · rw [← eq_word_of_toNat hlen, hframe, he.frame]
    exact congrArg (fun n => ({ s.tablesBuilt with bitCount := n, outLen := t.outLen, outMem := t.outMem } : State))
      (Nat.zero_add _)

end

/-- Settles O52: without symbols the file is an empty stream, and else the header and the stream of the code bits. -/
theorem compressWritesFile : Obligations.CompressWritesFile := by
  intro s henc hfit
  obtain ⟨t, ht, hat, hkeep, hframe⟩ : ∃ t, compressBody s = .ok () t ∧ WroteFile s t := by
    by_cases hxs : s.symbols = []
    · exact compressBody_file_nil henc hxs hfit
    · exact compressBody_file_cons henc hxs hfit
  exact ⟨t.finishOk, by rw [exec_eq, commandBody, ht, Ran.finish_ok], congrArg State.finishOk hframe, hat, hkeep⟩

end Sys2Proof.Machine
end

section
/-! Compressor: how COMPRESS fails (R116, R124, R80). -/

namespace Sys2Proof.Machine

section
variable {s u v : State} {r : Raise} {i : Nat}

/-! ### FC_COUNT's errors -/

/-- An error of FC_COUNT ends COMPRESS with only its start-of-command writes done. -/
theorem exec_compress_count (h : fcCountBody (compressStart s) = .raised r (compressStart s).invalidateAll) :
    exec .compress s = .next ({ s with
      outLen := 0, ft := none, tree := none, ct := none, bwOpen := false, bwAcc := 0, bwNbits := 0
      bitCount := 0 }.errorEntry r) := by
  have hbody : compressBody s = .raised r (compressStart s).invalidateAll := by
    rw [compressBody, h, Ran.andThen_raised, Ran.andThen_raised, Ran.andThen_raised]
  rw [exec_eq, commandBody, hbody, Ran.finish_raised, State.invalidateAll_eq, compressStart_eq]

/-- COMPRESS counts the symbols it is given. -/
theorem State.CountsTo.compressStart (h : s.CountsTo i) : (compressStart s).CountsTo i := by
  rw [compressStart_eq]
  exact ⟨h.available, h.before_end, h.valid, h.distinct_le⟩

/-! ### A budget too small for the file -/

theorem exec_compress_raised (h : compressBody s = .raised r v) : exec .compress s = .next (v.errorEntry r) := by
  rw [exec_eq, commandBody, h, Ran.finish_raised]

theorem exec_compress_nil_overflow (h : Encodable s.cfg s.variant s.symbols) (hxs : s.symbols = [])
    (hbudget : s.outBudget.toNat < 2) :
    exec .compress s = .next ({ s.tablesBuilt with bwOpen := true }.errorEntry ⟨.streamOverflow, 0⟩) := by
  refine exec_compress_raised ?_
  rw [compressBody_nil h hxs]
  exact bwCloseBody_overflow (s := { s.tablesBuilt with bwOpen := true }) hbudget

/-- The budget ends inside the header. -/
theorem exec_compress_header_overflow (h : Encodable s.cfg s.variant s.symbols) (hxs : s.symbols ≠ [])
    (hbudget : s.outBudget.toNat < s.fileHeader.length) :
    ∃ u, EmittedBytes (s.fileHeader.take s.outBudget.toNat) s.tablesBuilt u ∧
      exec .compress s = .next (u.errorEntry ⟨.streamOverflow, u.outLen⟩) := by
  obtain ⟨u, hu, he⟩ := emitBytes_overflow (bs := s.fileHeader) (s := s.tablesBuilt) hbudget
  refine ⟨u, he, exec_compress_raised ?_⟩
  rw [compressBody_cons h hxs, hu, Ran.andThen_raised, Ran.andThen_raised, Ran.andThen_raised]

/-- The header fits: it is emitted. -/
theorem emitBytes_fileHeader (hfit : s.fileHeader.length ≤ s.outBudget.toNat) :
    ∃ u, emitBytes s.fileHeader s.tablesBuilt = .ok () u ∧ EmittedBytes s.fileHeader s.tablesBuilt u :=
  emitBytes_ok (s := s.tablesBuilt) hfit

/-- The budget ends inside the code bits. -/
theorem exec_compress_bits_overflow (h : Encodable s.cfg s.variant s.symbols) (hxs : s.symbols ≠ [])
    (hfit : s.fileHeader.length ≤ s.outBudget.toNat)
    (hbudget : s.outBudget.toNat < s.fileHeader.length + (huffBits s.symbols).length / 8) :
    ∃ u v, EmittedBytes s.fileHeader s.tablesBuilt u ∧
      WroteBits ((huffBits s.symbols).take (8 * (s.outBudget.toNat - s.fileHeader.length) + 7))
        { u with bwOpen := true } v ∧
      exec .compress s = .next (v.errorEntry ⟨.streamOverflow, v.outLen⟩) := by
  obtain ⟨u, hu, he⟩ := emitBytes_fileHeader hfit
  obtain ⟨hroom, hfresh, -, -⟩ := he.room_header
  have hz : ({ u with bwOpen := true } : State).bwNbits.val = 0 := congrArg Fin.val hfresh
  obtain ⟨v, hv, hw⟩ := writeBits_overflow (bits := huffBits s.symbols) (s := { u with bwOpen := true }) (by
    rw [hz, hroom]
    omega)
  rw [hz, hroom, Nat.sub_zero] at hw
  exact ⟨u, v, he, hw, exec_compress_raised (by rw [compressBody_header h hxs hu he, hv, Ran.andThen_raised])⟩

/-- Every code bit fits, and the last byte and the trailer do not. -/
theorem exec_compress_close_overflow (h : Encodable s.cfg s.variant s.symbols) (hxs : s.symbols ≠ [])
    (hfit : s.fileHeader.length + (huffBits s.symbols).length / 8 ≤ s.outBudget.toNat)
    (hbudget : s.outBudget.toNat < s.file.length) :
    ∃ u v, EmittedBytes s.fileHeader s.tablesBuilt u ∧ WroteBits (huffBits s.symbols) { u with bwOpen := true } v ∧
      exec .compress s = .next (v.errorEntry ⟨.streamOverflow, v.outLen⟩) := by
  rw [State.file_cons hxs, List.length_append, streamOf_length] at hbudget
  obtain ⟨u, hu, he⟩ := emitBytes_fileHeader (s := s) (by omega)
  obtain ⟨hroom, hfresh, hulen, hubudget⟩ := he.room_header
  have hz : ({ u with bwOpen := true } : State).bwNbits.val = 0 := congrArg Fin.val hfresh
  obtain ⟨v, hv, hw⟩ := writeBits_ok (bits := huffBits s.symbols) (s := { u with bwOpen := true }) (by
    rw [hz, hroom]
    omega)
  have hvlen : v.outLen.toNat = u.outLen.toNat + (0 + (huffBits s.symbols).length) / 8 := hz ▸ hw.outLen_eq
  have hvbudget : v.outBudget = u.outBudget := hw.outBudget
  refine ⟨u, v, he, hw, exec_compress_raised ?_⟩
  rw [compressBody_header h hxs hu he, hv, Ran.andThen_ok]
  exact bwCloseBody_overflow (by rw [hvbudget, hubudget, hvlen, hulen]; omega)

end

/-- Settles O53: the budget ends in the header, in the code bits, or in the two bytes of BW_CLOSE. -/
theorem compressErrors : Obligations.CompressErrors := by
  intro s start
  refine ⟨fun hcap => ?_, fun i hcap hi hvalid hdistinct => ?_, fun henc => ?_⟩
  · have hcount := fcCountBody_unavailable (s := compressStart s) (by rw [compressStart_eq]; exact hcap)
    exact (exec_compress_count hcount).trans (by rw [compressStart_eq])
  · have hto : (compressStart s).CountsTo i := State.CountsTo.compressStart ⟨hcap, hi, hvalid, hdistinct⟩
    refine ⟨fun hbad => exec_compress_count (fcCountBody_invalid hto ?_), fun hgood hnew hfull =>
      exec_compress_count (fcCountBody_full hto ?_ ?_ ?_)⟩
    all_goals rw [compressStart_eq]; assumption
  · exact ⟨exec_compress_nil_overflow henc, fun hxs => ⟨exec_compress_header_overflow henc hxs,
      exec_compress_bits_overflow henc hxs, exec_compress_close_overflow henc hxs⟩⟩

end Sys2Proof.Machine
end

section
/-! Decompressor: DECODE of a stream of codes, and how DECODE fails (R118). -/

namespace Sys2Proof.Machine

section
variable {s : State} {t : Tree} {root : Nat} {codes : List (Word × Code)}

theorem exec_decodeSyms_ready (htree : s.tree = some t) (ho : s.brOpen = true) :
    exec .decodeSyms s = .next (decodeBody s).finish := by
  have hbody : commandBody .decodeSyms s = decodeBody s := by
    simp [commandBody, State.treeValid, htree, ho]
  rw [exec_eq, hbody]

/-! ### A stream of codes (R118) -/

/-- The null tree has no codes. -/
theorem codes_eq_nil_of_root_none (hr : t.root = none) (hcodes : ∀ p ∈ codes, t.IsCode p.1 p.2) : codes = [] := by
  refine List.eq_nil_iff_forall_not_mem.2 fun p hp => ?_
  obtain ⟨r, f, hroot, -⟩ := hcodes p hp
  rw [hr] at hroot
  cases hroot

/-- DECODE of a stream that is the codes of a sequence; under the null tree it is the empty stream. -/
theorem decodeBody_stream (htree : s.tree = some t) (ht : t.Ok) (hcodes : ∀ p ∈ codes, t.IsCode p.1 p.2)
    (hcap : codes.length ≤ s.cfg.symCap) (hpos : s.brBitPos ≤ s.brTotal)
    (hbits : s.bitsAhead (s.brTotal - s.brBitPos) = codes.flatMap Prod.snd) :
    ∃ u, decodeBody s = .ok () u ∧ DecodedTo codes (codes.flatMap Prod.snd).length s u := by
  cases hr : t.root with
  | some r => exact decodeBody_codes htree ht hr hcodes hcap hpos hbits
  | none =>
    obtain rfl := codes_eq_nil_of_root_none hr hcodes
    have hlen : s.brTotal - s.brBitPos = 0 := by
      rw [← State.bitsAhead_length s (_ - _), hbits]
      rfl
    refine ⟨s.setSymCount 0, ?_, fun k => rfl, rfl⟩
    simp only [decodeBody, State.treeOrNull_eq htree, hr]
    exact if_neg (by show ¬ s.brBitPos < s.brTotal; omega)

end

/-- Settles O55. -/
theorem decodeFollowsCodes : Obligations.DecodeFollowsCodes := by
  intro s t codes htree ht ho hpos hcodes hcap _ hbits
  obtain ⟨u, hu, hsymbols, hframe⟩ := decodeBody_stream htree ht hcodes hcap hpos hbits
  have hend : s.brBitPos + (codes.flatMap Prod.snd).length = s.brTotal := by
    rw [← hbits, List.length_map, List.length_range, Nat.add_sub_cancel' hpos]
  rw [hend] at hframe
  exact ⟨u.finishOk, by rw [exec_decodeSyms_ready htree ho, hu, Ran.finish_ok], congrArg State.finishOk hframe,
    hsymbols⟩

/-! ### The walk where it stops (R118) -/

section
variable {s : State} {t : Tree} {root left cur k : Nat} {n : Node}

/-- One bit of the walk, with no child to descend to. -/
theorem decodeLoop_noChild (hb : s.brBitPos < s.brTotal) (hn : t.nodes[cur]? = some n)
    (hc : n.child (s.streamBit s.brBitPos) = none) :
    decodeLoop t root (left + 1) cur k s = .raised ⟨.malformedStream, word s.brBitPos⟩ (s.skipBits 1) := by
  rcases readBit_cases s with ⟨h, -⟩ | ⟨-, hr⟩
  · omega
  · simp only [decodeLoop, hr, Ran.bind_ok, State.nodeAt_eq _ t cur n hn, hc, raise]
    rfl

/-- The bit after a path, as the reader at the end of the path sees it. -/
theorem streamBit_after {path rest : List Bool} {b : Bool} {m : Nat} (hs : s.bitsAhead m = path ++ b :: rest) :
    (s.skipBits path.length).streamBit (s.skipBits path.length).brBitPos = b := by
  have hm : path.length < m := by
    have hlen := congrArg List.length hs
    rw [State.bitsAhead_length, List.length_append, List.length_cons] at hlen
    omega
  have hbit : (s.bitsAhead m)[path.length]? = some b := by
    rw [hs, List.getElem?_append_right le_rfl, Nat.sub_self, List.getElem?_cons_zero]
  rw [List.getElem?_eq_getElem (by rwa [State.bitsAhead_length]), State.bitsAhead_getElem] at hbit
  exact Option.some.inj hbit

/-- The walk along a path to an entry with no right child, where the bit 1 comes. -/
theorem decodeLoop_absentChild (ht : t.Ok) {path rest : List Bool} {f : Word} {l : Nat}
    (hs : s.bitsAhead (path.length + (rest.length + 1)) = path ++ true :: rest)
    (hb : s.brBitPos + path.length + (rest.length + 1) ≤ s.brTotal)
    (hp : t.reach root path = some (.internal f l none)) :
    decodeLoop t root (path.length + (rest.length + 1)) root k s =
      .raised ⟨.malformedStream, word (s.brBitPos + path.length)⟩ (s.skipBits (path.length + 1)) := by
  rw [Tree.reach_eq] at hp
  obtain ⟨j, hj, hn⟩ := Option.bind_eq_some_iff.1 hp
  rw [decodeLoop_path ht hs hb hj hn, decodeLoop_noChild (by simp; omega) hn (by rw [streamBit_after hs]; rfl),
    skipBits_skipBits, State.skipBits_brBitPos]

/-- The walk along a code, when the sequence already has SYM_CAP symbols. -/
theorem decodeLoop_code_full (ht : t.Ok) (hr : t.root = some root) {c : Code} {rest : List Bool} {x : Word}
    (hc : t.IsCode x c) (hs : s.bitsAhead (c.length + rest.length) = c ++ rest)
    (hb : s.brBitPos + c.length + rest.length ≤ s.brTotal) (hk : k = s.cfg.symCap) :
    decodeLoop t root (c.length + rest.length) root k s =
      .raised ⟨.capacityExceeded, word k⟩ (s.skipBits c.length) := by
  obtain ⟨r, j, f, hr', hj, hl⟩ := Tree.IsCode.iff.1 hc
  obtain rfl : root = r := Option.some.inj (hr.symm.trans hr')
  rcases List.eq_nil_or_concat c with rfl | ⟨path, b, rfl⟩
  · exact absurd rfl (ht.code_ne_nil hc)
  · rw [List.concat_eq_append] at hs hj hb ⊢
    obtain ⟨i, n, hi, hn, hchild⟩ := reachIdx_snoc hj
    obtain ⟨f', l', c', rfl⟩ : ∃ f l c, n = .internal f l c := by
      cases n with
      | leaf y g => cases hchild
      | internal f l c => exact ⟨f, l, c, rfl⟩
    rw [List.length_append, List.length_singleton] at hs hb ⊢
    rw [Nat.add_assoc, Nat.add_comm 1] at hs ⊢
    rw [List.append_assoc, List.singleton_append] at hs
    rw [decodeLoop_path ht hs (by omega) hi hn,
      decodeLoop_leaf (by simp; omega) hn (by rw [streamBit_after hs]; exact hchild) hl, skipBits_skipBits, raise]
    exact if_pos hk

/-! ### DECODE past the codes of a sequence (R118) -/

theorem DecodeFrame.brTotal {u : State} (h : DecodeFrame s u) : u.brTotal = s.brTotal := by
  unfold DecodeFrame at h; rw [h]

theorem DecodeFrame.cfg {u : State} (h : DecodeFrame s u) : u.cfg = s.cfg := by
  unfold DecodeFrame at h; rw [h]

variable {codes : List (Word × Code)} {tail : List Bool}

/-- The state DECODE has reached after the codes of a sequence. -/
def State.afterCodes (s : State) (codes : List (Word × Code)) : State := (s.setSymCount 0).decoded 0 codes

/-- When codes and then `tail` are ahead, DECODE goes through the codes, and `tail` is ahead. -/
theorem decodeBody_afterCodes (htree : s.tree = some t) (ht : t.Ok) (hr : t.root = some root)
    (hcodes : ∀ p ∈ codes, t.IsCode p.1 p.2) (hcap : codes.length ≤ s.cfg.symCap)
    (hbits : s.bitsAhead (s.brTotal - s.brBitPos) = codes.flatMap Prod.snd ++ tail)
    (hne : codes.flatMap Prod.snd ++ tail ≠ []) :
    decodeBody s = (decodeLoop t root tail.length root codes.length (s.afterCodes codes)).bind (fun p u =>
        if p.1 ≠ root then raise .truncatedStream p.2 u else .ok () u) ∧
      (s.afterCodes codes).bitsAhead tail.length = tail ∧
      (s.afterCodes codes).brBitPos = s.brBitPos + (codes.flatMap Prod.snd).length ∧
      (s.afterCodes codes).brBitPos + tail.length = (s.afterCodes codes).brTotal ∧
      (s.afterCodes codes).cfg = s.cfg := by
  have hlen : s.brTotal - s.brBitPos = (codes.flatMap Prod.snd).length + tail.length := by
    rw [← State.bitsAhead_length s (_ - _), hbits, List.length_append]
  have hpos : 0 < (codes.flatMap Prod.snd).length + tail.length := by
    rw [← List.length_append]
    exact List.length_pos_iff.2 hne
  rw [hlen] at hbits
  have hloop := decodeLoop_codes (s := s.setSymCount 0) (left := tail.length) (k := 0) ht hr hcodes hbits
    (by rw [State.setSymCount_brBitPos, State.setSymCount_brTotal]; omega) (by rwa [Nat.zero_add])
  obtain ⟨hframe, hbitPos, -, -⟩ := decoded_spec (s.setSymCount 0) 0 codes
  have htotal : (s.afterCodes codes).brTotal = s.brTotal := hframe.brTotal
  have hbitPos : (s.afterCodes codes).brBitPos = s.brBitPos + (codes.flatMap Prod.snd).length := hbitPos
  refine ⟨?_, ?_, hbitPos, by omega, hframe.cfg⟩
  · simp only [decodeBody, State.treeOrNull_eq htree, hr, State.setSymCount_brBitPos, State.setSymCount_brTotal, hlen]
    rw [hloop, Nat.zero_add]
    rfl
  · have htail := congrArg (List.drop (codes.flatMap Prod.snd).length) hbits
    rw [List.drop_left] at htail
    refine Eq.trans (List.ext_getElem ?_ fun i h₁ h₂ => ?_) htail
    · rw [State.bitsAhead_length, List.length_drop, State.bitsAhead_length, Nat.add_sub_cancel_left]
    · rw [State.bitsAhead_getElem, List.getElem_drop, State.bitsAhead_getElem, hbitPos, Nat.add_assoc]
      exact hframe.streamBit _

/-- A raise of the walk past the codes ends DECODE, with the bits it took past them consumed. -/
theorem exec_decodeSyms_raised (htree : s.tree = some t) (ho : s.brOpen = true) {r : Raise} {m : Nat}
    (h : decodeBody s = .raised r ((s.afterCodes codes).skipBits m)) :
    ∃ u, DecodedTo codes ((codes.flatMap Prod.snd).length + m) s u ∧ exec .decodeSyms s = .next (u.errorEntry r) :=
  ⟨_, decoded_to codes m s, by rw [exec_decodeSyms_ready htree ho, h, Ran.finish_raised]; rfl⟩

end

/-- Settles O56: after the codes of a sequence the walk stops at an absent child, at the end of the bits inside a code,
or at the end of a code for which there is no room. -/
theorem decodeErrors : Obligations.DecodeErrors := by
  intro s t htree ho ahead
  refine ⟨fun hnull hlt => ?_, fun r codes ht hr hcodes hcap _ => ?_⟩
  · have hbody : decodeBody s = .raised ⟨.malformedStream, word s.brBitPos⟩ (s.setSymCount 0) := by
      simp only [decodeBody, State.treeOrNull_eq htree, hnull]
      exact if_pos hlt
    rw [exec_decodeSyms_ready htree ho, hbody, Ran.finish_raised]
    rfl
  refine ⟨fun path rest f l hahead hpath => ?_, fun path f l c hahead hne hpath => ?_,
    fun x c rest hahead hfull hc => ?_⟩
  · rw [List.append_assoc] at hahead
    obtain ⟨hbody, hbits, hbitPos, htotal, -⟩ :=
      decodeBody_afterCodes htree ht hr hcodes hcap hahead (by simp)
    rw [List.length_append, List.length_cons] at hbody hbits htotal
    rw [decodeLoop_absentChild ht hbits (by omega) hpath, Ran.bind_raised, hbitPos] at hbody
    exact exec_decodeSyms_raised htree ho hbody
  · obtain ⟨hbody, hbits, hbitPos, htotal, -⟩ :=
      decodeBody_afterCodes htree ht hr hcodes hcap hahead (by simp [hne])
    rw [Tree.reach_eq] at hpath
    obtain ⟨j, hj, hn⟩ := Option.bind_eq_some_iff.1 hpath
    have hjr : j ≠ r := by
      rintro rfl
      exact hne (ht.path_unique hr hj rfl)
    have hloop := decodeLoop_path (root := r) (left := 0) (k := codes.length) (rest := []) ht
      (by rw [Nat.add_zero, List.append_nil]; exact hbits) (by omega) hj hn
    rw [Nat.add_zero] at hloop
    rw [hloop, decodeLoop, Ran.bind_ok, if_pos hjr, raise] at hbody
    exact exec_decodeSyms_raised htree ho hbody
  · rw [List.append_assoc] at hahead
    have hcne : c ≠ [] := ht.code_ne_nil hc
    obtain ⟨hbody, hbits, hbitPos, htotal, hcfg⟩ :=
      decodeBody_afterCodes htree ht hr hcodes hcap hahead (by simp [hcne])
    rw [List.length_append] at hbody hbits htotal
    rw [decodeLoop_code_full ht hr hc hbits (by omega) (by rw [hcfg]; exact hfull), Ran.bind_raised, hfull] at hbody
    exact exec_decodeSyms_raised htree ho hbody

end Sys2Proof.Machine
end

section
/-! Decompressor: files too short for a header (R119), and DECOMPRESS against its stage commands (R120). -/

namespace Sys2Proof.Machine

/-! ### Files that end before the header (R119) -/

section
variable {s : State}

theorem exec_decompress_raised {r : Raise} {k : ErrKind} {w : Word} (hr : r = ⟨k, w⟩)
    (h : decompressBody s = .raised r (decompressStart s)) :
    exec .decompress s = .next ({ s with
      inPos := 0, ft := none, tree := none, ct := none, brOpen := false, brBase := 0, brTotal := 0
      brBitPos := 0 }.errorEntry ⟨k, w⟩) := by
  rw [exec_eq, commandBody, h, Ran.finish_raised, decompressStart_eq, hr]

theorem decompressBody_unavailable (hcap : s.cfg.inCap < s.inLen.toNat) :
    decompressBody s = .raised ⟨.sourceUnavailable, s.inLen⟩ (decompressStart s) := by
  simp only [decompressBody, decompressStart_inLen, decompressStart_cfg, if_pos hcap, raise_toNat]

theorem decompressBody_short (hcap : s.inLen.toNat ≤ s.cfg.inCap) (hlen : s.inLen.toNat < 2) :
    decompressBody s = .raised ⟨.truncatedStream, s.inLen⟩ (decompressStart s) := by
  simp only [decompressBody, decompressStart_inLen, decompressStart_cfg, if_neg hcap.not_gt, if_pos hlen, raise_toNat]

/-- A file that starts with 0x00 is the file 00 00, or it is malformed at the byte that says so. -/
theorem decompressBody_zero (hcap : s.inLen.toNat ≤ s.cfg.inCap) (hlen : 2 ≤ s.inLen.toNat) (h0 : s.inAt 0 = 0) :
    decompressBody s =
      if s.inAt 1 ≠ 0 then raise .malformedHeader 1 (decompressStart s)
      else if s.inLen.toNat ≠ 2 then raise .malformedHeader 2 (decompressStart s)
      else .ok () (decompressStart s).setEmptyFile := by
  simp only [decompressBody, decompressStart_inLen, decompressStart_cfg, decompressStart_inAt, if_neg hcap.not_gt,
    if_neg hlen.not_gt, if_pos h0]

end

/-- Settles O57. -/
theorem decompressOfShortFiles : Obligations.DecompressOfShortFiles := by
  intro s start
  refine ⟨fun hcap => exec_decompress_raised rfl (decompressBody_unavailable hcap),
    fun hcap hlen => exec_decompress_raised rfl (decompressBody_short hcap hlen),
    fun hcap hlen h0 h1 => exec_decompress_raised rfl ?_, fun hcap hlen h0 h1 => exec_decompress_raised rfl ?_,
    fun hcap hlen h0 h1 => ?_⟩
  · rw [decompressBody_zero hcap hlen h0, if_pos h1, raise]
    rfl
  · rw [decompressBody_zero hcap hlen.le h0, if_neg (not_not.2 h1), if_pos hlen.ne', raise]
    rfl
  · rw [exec_eq, commandBody, decompressBody_zero hcap hlen.ge h0, if_neg (not_not.2 h1), if_neg (not_not.2 hlen),
      Ran.finish_ok, decompressStart_eq, State.setEmptyFile]

/-! ### A body in a state that differs only where the body does not look (R120)

The stages see the state DECOMPRESS sees but for FT and the completion registers, which the stage before wrote. -/

/-- The same end, in the state that `g` makes of the one reached. -/
def Ran.mapState {α : Type} (g : State → State) : Ran α → Ran α
  | .ok a s => .ok a (g s)
  | .raised r s => .raised r (g s)

/-- A command's end writes over what an earlier success left. -/
theorem finish_mapState_finishOk (x : Ran Unit) : (x.mapState State.finishOk).finish = x.finish := by
  cases x <;> rfl

theorem finish_mapState_invalidateFt (x : Ran Unit) :
    (x.mapState State.invalidateFt).finish = { x.finish with ft := none } := by
  cases x <;> rfl

/-- `g` changes nothing that DECODE reads or writes (R118). -/
structure KeepsDecoder (g : State → State) : Prop where
  brBitPos : ∀ s, (g s).brBitPos = s.brBitPos
  brTotal : ∀ s, (g s).brTotal = s.brTotal
  streamBit : ∀ s, (g s).streamBit = s.streamBit
  nodeAt : ∀ s, (g s).nodeAt = s.nodeAt
  treeOrNull : ∀ s, (g s).treeOrNull = s.treeOrNull
  cfg : ∀ s, (g s).cfg = s.cfg
  skipBits : ∀ s n, (g s).skipBits n = g (s.skipBits n)
  setSym : ∀ s i x, (g s).setSym i x = g (s.setSym i x)
  setSymCount : ∀ s k, (g s).setSymCount k = g (s.setSymCount k)

theorem keepsDecoder_finishOk : KeepsDecoder State.finishOk :=
  ⟨fun _ => rfl, fun _ => rfl, fun _ => rfl, fun _ => rfl, fun _ => rfl, fun _ => rfl, fun _ _ => rfl,
    fun _ _ _ => rfl, fun _ _ => rfl⟩

theorem keepsDecoder_invalidateFt : KeepsDecoder State.invalidateFt :=
  ⟨fun _ => rfl, fun _ => rfl, fun _ => rfl, fun _ => rfl, fun _ => rfl, fun _ => rfl, fun _ _ => rfl,
    fun _ _ _ => rfl, fun _ _ => rfl⟩

section
variable {g : State → State}

theorem readBit_map (hg : KeepsDecoder g) (s : State) : readBit (g s) = (readBit s).mapState g := by
  simp only [readBit, hg.brBitPos, hg.brTotal, hg.streamBit, hg.skipBits]
  split <;> rfl

theorem decodeLoop_map (hg : KeepsDecoder g) (t : Tree) (root left cur k : Nat) (s : State) :
    decodeLoop t root left cur k (g s) = (decodeLoop t root left cur k s).mapState g := by
  induction left generalizing cur k s with
  | zero => rfl
  | succ left ih =>
    simp only [decodeLoop, readBit_map hg]
    cases readBit s with
    | raised r u => rfl
    | ok b u =>
      simp only [Ran.mapState, Ran.bind_ok, hg.nodeAt, hg.cfg, hg.brBitPos, hg.setSym, hg.setSymCount, ih]
      split
      · rfl
      · split
        · rfl
        · split <;> rfl

theorem decodeBody_map (hg : KeepsDecoder g) (s : State) : decodeBody (g s) = (decodeBody s).mapState g := by
  simp only [decodeBody, hg.treeOrNull, hg.setSymCount, hg.brBitPos, hg.brTotal, decodeLoop_map hg]
  split
  · split <;> rfl
  · next root _ =>
    cases decodeLoop s.treeOrNull root _ root 0 (s.setSymCount 0) with
    | raised r u => rfl
    | ok p u =>
      simp only [Ran.mapState, Ran.bind_ok]
      split <;> rfl

end

/-! ### What the parser and BR_OPEN read (R104, R109, R111) -/

/-- The states show TC_PARSE and BR_OPEN the same input and the same parameters. -/
structure SameInput (s t : State) : Prop where
  inAt : s.inAt = t.inAt
  inLen : s.inLen = t.inLen
  inPos : s.inPos = t.inPos
  cfg : s.cfg = t.cfg

namespace SameInput

variable {s t : State} (h : SameInput s t)
include h

theorem byteIn : byteIn s = byteIn t := by
  funext q
  simp only [Machine.byteIn, h.inLen, h.inAt]

theorem expectByte : expectByte s = expectByte t := by
  funext q c
  simp only [Machine.expectByte, h.byteIn]

theorem parseDigits (left v q : Nat) : parseDigits s left v q = parseDigits t left v q := by
  induction left generalizing v q with
  | zero => rfl
  | succ left ih => simp only [Machine.parseDigits, h.inAt, ih]

theorem parseDec : parseDec s = parseDec t := by
  funext p
  simp only [Machine.parseDec, h.byteIn, h.parseDigits, h.inLen]

theorem allocNode : allocNode s = allocNode t := by
  funext nodes e q
  simp only [Machine.allocNode, h.cfg]

theorem parseLeaf : parseLeaf s = parseLeaf t := by
  funext pixel p c nodes
  simp only [Machine.parseLeaf, Machine.parseSym, h.expectByte, h.parseDec, h.allocNode]

theorem parseInternal : parseInternal s = parseInternal t := by
  funext parse p nodes
  simp only [Machine.parseInternal, Machine.parseRight, h.byteIn, h.expectByte, h.parseDec, h.allocNode]

theorem parseNode (pixel : Bool) (levels : Nat) : parseNode s pixel levels = parseNode t pixel levels := by
  induction levels with
  | zero =>
    funext p nodes
    simp only [Machine.parseNode, h.byteIn, h.parseLeaf]
  | succ levels ih =>
    funext p nodes
    simp only [Machine.parseNode, h.byteIn, h.parseLeaf, h.parseInternal, ih]

theorem parseTop : parseTop s = parseTop t := by
  funext pixel p
  simp only [Machine.parseTop, Machine.parseTree, h.byteIn, h.expectByte, h.parseNode, h.cfg]

theorem parseHeader : parseHeader s = parseHeader t := by
  simp only [Machine.parseHeader, Machine.parsePixelSize, h.byteIn, h.expectByte, h.parseDec, h.parseTop, h.inPos]

end SameInput

/-- BR_OPEN in a state that shows it the same stream, when the writes of the reader end in what `k` makes of them. -/
theorem brOpenBody_map {s t : State} {k : State → State} (h : SameInput t s)
    (hclear : t.clearReader = k s.clearReader)
    (hopen : ∀ base total, t.openReader base total = k (s.openReader base total)) :
    brOpenBody t = (brOpenBody s).mapState k := by
  have hbytes : t.streamBytes = s.streamBytes := by rw [streamBytes_eq, streamBytes_eq, h.inLen, h.inPos]
  simp only [brOpenBody_eq, hbytes, h.inAt, h.inLen, h.inPos, h.cfg, hclear, hopen]
  split
  · rfl
  · split
    · rfl
    · split <;> rfl

theorem brOpenBody_finishOk (s : State) : brOpenBody s.finishOk = (brOpenBody s).mapState State.finishOk :=
  brOpenBody_map ⟨rfl, rfl, rfl, rfl⟩ rfl fun _ _ => rfl

/-- What DECOMPRESS has cleared that TC_PARSE leaves: FT, and the reader. -/
def State.forDecompress (s : State) : State := s.invalidateFt.clearReader

/-- BR_OPEN sets the whole reader, so it does not matter that it was cleared. -/
theorem brOpenBody_forDecompress (s : State) :
    brOpenBody s.forDecompress = (brOpenBody s).mapState State.invalidateFt :=
  brOpenBody_map ⟨rfl, rfl, rfl, rfl⟩ rfl fun _ _ => rfl

theorem tcParseBody_forDecompress (s : State) :
    tcParseBody s.forDecompress = (tcParseBody s).mapState State.forDecompress := by
  have hsame : SameInput s.forDecompress.invalidateTreeCodes s.invalidateTreeCodes := ⟨rfl, rfl, rfl, rfl⟩
  rw [tcParseBody_eq, tcParseBody_eq, hsame.parseHeader]
  show (if s.cfg.inCap < s.inLen.toNat then _ else _) = _
  split
  · rfl
  · cases parseHeader s.invalidateTreeCodes <;> rfl

/-! ### DECOMPRESS stage by stage (R120) -/

section
variable {s t u : State}

/-- TC_PARSE fails on a file that is too long as DECOMPRESS does, so its check comes to the same. -/
theorem decompressBody_eq_stages (hlen : 2 ≤ s.inLen.toNat) (h0 : s.inAt 0 ≠ 0) :
    decompressBody s = (((tcParseBody { s with inPos := 0 }).mapState State.forDecompress).andThen brOpenBody).andThen
      decodeBody := by
  have hstart : tcParseBody (decompressStart s) = (tcParseBody { s with inPos := 0 }).mapState State.forDecompress := by
    have hsame : SameInput (decompressStart s).invalidateTreeCodes
        ({ s with inPos := 0 } : State).forDecompress.invalidateTreeCodes := ⟨rfl, rfl, rfl, rfl⟩
    rw [← tcParseBody_forDecompress, tcParseBody_eq, tcParseBody_eq, hsame.parseHeader]
    rfl
  rcases Nat.lt_or_ge s.cfg.inCap s.inLen.toNat with hcap | hcap
  · have hparse := tcParseBody_unavailable (s := { s with inPos := 0 }) hcap
    rw [decompressBody_unavailable hcap, hparse]
    rfl
  · rw [decompressBody_stages hcap hlen h0, hstart]

theorem tcParseBody_ok_tree (h : tcParseBody s = .ok () t) : ∃ tr, t.tree = some tr := by
  rcases Nat.lt_or_ge s.cfg.inCap s.inLen.toNat with hcap | hcap
  · rw [tcParseBody_unavailable hcap] at h; cases h
  · cases hp : parseHeader s.invalidateTreeCodes with
    | error r => rw [tcParseBody_error hcap hp] at h; cases h
    | ok hd => rw [tcParseBody_ok hcap hp] at h; cases h; exact ⟨_, rfl⟩

theorem brOpenBody_ok_open (h : brOpenBody s = .ok () t) : t.brOpen = true ∧ t.tree = s.tree := by
  rw [brOpenBody_eq] at h
  split at h
  · cases h
  · split at h
    · cases h
    · split at h <;> cases h
      exact ⟨rfl, rfl⟩

/-- A failed TC_PARSE ends DECOMPRESS with its error. -/
theorem exec_decompress_parse_raised (hlen : 2 ≤ s.inLen.toNat) (h0 : s.inAt 0 ≠ 0) {r : Raise}
    (h : tcParseBody { s with inPos := 0 } = .raised r t) :
    exec .decompress s = .next { t.errorEntry r with
      ft := none, brOpen := false, brBase := 0, brTotal := 0, brBitPos := 0 } := by
  rw [exec_eq, commandBody, decompressBody_eq_stages hlen h0, h]
  rfl

/-- After TC_PARSE, DECOMPRESS ends as BR_OPEN and DECODE do, but with FT invalid. -/
theorem exec_decompress_parse_ok (hlen : 2 ≤ s.inLen.toNat) (h0 : s.inAt 0 ≠ 0)
    (h : tcParseBody { s with inPos := 0 } = .ok () t) :
    exec .decompress s = .next { ((brOpenBody t).andThen decodeBody).finish with ft := none } := by
  have hrest : (brOpenBody t.forDecompress).andThen decodeBody =
      ((brOpenBody t).andThen decodeBody).mapState State.invalidateFt := by
    rw [brOpenBody_forDecompress]
    cases brOpenBody t with
    | raised r u => rfl
    | ok a u => exact decodeBody_map keepsDecoder_invalidateFt u
  rw [exec_eq, commandBody, decompressBody_eq_stages hlen h0, h, Ran.mapState, Ran.andThen_ok, hrest,
    finish_mapState_invalidateFt]

/-- BR_OPEN and DECODE do not see that the command before them succeeded. -/
theorem exec_brOpen_finishOk (s : State) : exec .brOpen s.finishOk = .next (brOpenBody s).finish := by
  rw [exec_eq, commandBody, brOpenBody_finishOk, finish_mapState_finishOk]

theorem exec_decodeSyms_finishOk {tr : Tree} (htree : s.tree = some tr) (ho : s.brOpen = true) :
    exec .decodeSyms s.finishOk = .next (decodeBody s).finish := by
  rw [exec_decodeSyms_ready (s := s.finishOk) htree ho, decodeBody_map keepsDecoder_finishOk, finish_mapState_finishOk]

end

/-- Settles O58. -/
theorem decompressMatchesStages : Obligations.DecompressMatchesStages := by
  intro s s1 hlen h0 he1
  rw [exec_eq, commandBody] at he1
  cases hparse : tcParseBody { s with inPos := 0 } with
  | raised r u1 =>
    rw [hparse] at he1
    cases he1
    exact ⟨fun _ => exec_decompress_parse_raised hlen h0 hparse,
      fun hk => absurd hk (tcParseBody_kinded { s with inPos := 0 } r u1 hparse)⟩
  | ok a u1 =>
    rw [hparse] at he1
    cases he1
    refine ⟨fun hk => absurd rfl hk, fun _ s2 he2 => ?_⟩
    rw [Ran.finish_ok, exec_brOpen_finishOk] at he2
    cases he2
    rw [exec_decompress_parse_ok hlen h0 hparse]
    cases hopen : brOpenBody u1 with
    | raised r u2 => exact ⟨fun _ => rfl, fun hk => absurd hk (brOpenBody_kinded u1 r u2 hopen)⟩
    | ok b u2 =>
      refine ⟨fun hk => absurd rfl hk, fun _ s3 he3 => ?_⟩
      obtain ⟨tr, htree⟩ := tcParseBody_ok_tree hparse
      obtain ⟨ho, hsame⟩ := brOpenBody_ok_open hopen
      rw [Ran.finish_ok, exec_decodeSyms_finishOk (hsame.trans htree) ho] at he3
      cases he3
      rw [Ran.andThen_ok]

/-! ### DECOMPRESS of a file (R119) -/

section
variable {s : State} {pixel : Bool} {w h : Word} {shape : Option Shape} {text bytes : List Byte}
  {codes : List (Word × Code)}

/-- TC_PARSE and BR_OPEN on a header and a stream that are the whole input: the bits ahead are those of the stream. -/
theorem tcParse_brOpen_text {bits : List Bool} (ht : HeaderText pixel w h shape text)
    (hv : ∀ sh, shape = some sh → sh.Writable s.cfg.nodeCap) (hbits : CarriesBits bytes bits)
    (hat : BytesAt s.inAt 0 (text ++ bytes)) (hlen : s.inLen.toNat = (text ++ bytes).length)
    (hcap : s.inLen.toNat ≤ s.cfg.inCap) :
    (tcParseBody (decompressStart s)).andThen brOpenBody =
        .ok () (s.decodeStart (headerOfText pixel w h shape text.length) bits.length) ∧
      (treeOfShape shape).Ok ∧
      (s.decodeStart (headerOfText pixel w h shape text.length) bits.length).bitsAhead bits.length = bits := by
  have hs : TextAt s 0 (text ++ bytes) := ⟨hat, by rw [Nat.zero_add, hlen]⟩
  have hbytes := hs.right.1
  rw [Nat.zero_add] at hbytes
  rw [List.length_append] at hlen
  have hpos : (word text.length).toNat = text.length := word_toNat ((Nat.le.intro hlen.symm).trans_lt s.inLen.isLt)
  obtain ⟨hparse, hok⟩ := tcParseBody_headerText (s := decompressStart s) ht (by rwa [decompressStart_cfg])
    (by simpa [TextAt] using hs.left) (by simpa using hcap)
  rw [decompressStart_inPos, show (0 : Word).toNat = 0 from rfl, Nat.zero_add] at hparse
  have hin : ((decompressStart s).invalidateTreeCodes.setHeader (headerOfText pixel w h shape text.length)).inAt =
      s.inAt := by
    rw [decompressStart_eq]
    rfl
  obtain ⟨hopen, hahead⟩ := brOpenBody_bits
    (s := (decompressStart s).invalidateTreeCodes.setHeader (headerOfText pixel w h shape text.length)) hbits
    (by rw [hin]; exact hpos.symm ▸ hbytes) (by rw [decompressStart_eq]; exact hpos.symm ▸ hlen)
    (by rw [decompressStart_eq]; exact hcap)
  have hstart := decompressStart_openReader s (hd := headerOfText pixel w h shape text.length) hpos bits.length
  exact ⟨by rw [hparse, Ran.andThen_ok, hopen]; exact congrArg _ hstart, hok, hstart ▸ hahead⟩

/-- DECOMPRESS of a header and the stream of the codes of a sequence decodes the sequence from the state its first two
stages leave. -/
theorem decompressBody_codes (ht : HeaderText pixel w h shape text)
    (hv : ∀ sh, shape = some sh → sh.Writable s.cfg.nodeCap) (hcodes : ∀ p ∈ codes, (treeOfShape shape).IsCode p.1 p.2)
    (hbits : CarriesBits bytes (codes.flatMap Prod.snd)) (hat : BytesAt s.inAt 0 (text ++ bytes))
    (hlen : s.inLen.toNat = (text ++ bytes).length) (hcap : s.inLen.toNat ≤ s.cfg.inCap)
    (hsym : codes.length ≤ s.cfg.symCap) :
    ∃ u, decompressBody s = .ok () u ∧ DecodedTo codes (codes.flatMap Prod.snd).length
      (s.decodeStart (headerOfText pixel w h shape text.length) (codes.flatMap Prod.snd).length) u := by
  obtain ⟨b, tl, htext, hb⟩ := ht.head
  have hfirst : s.inAt 0 ≠ 0 := by
    subst htext
    exact hat 0 (Nat.succ_pos _) ▸ hb
  have htwo : 2 ≤ s.inLen.toNat := by
    rw [hlen, List.length_append]
    exact hbits.length_ge.trans (Nat.le_add_left _ _)
  obtain ⟨hopen, hok, hahead⟩ := tcParse_brOpen_text ht hv hbits hat hlen hcap
  obtain ⟨u, hu, hdecoded⟩ := decodeBody_stream
    (s := s.decodeStart (headerOfText pixel w h shape text.length) (codes.flatMap Prod.snd).length) rfl hok hcodes hsym
    (Nat.zero_le _) hahead
  exact ⟨u, by rw [decompressBody_stages hcap htwo hfirst, hopen, Ran.andThen_ok, hu], hdecoded⟩

end

/-- Settles O59. -/
theorem decompressDecodesFile : Obligations.DecompressDecodesFile := by
  intro s pixel w h shape text bytes codes ht hv hcodes hbits hat hlen hcap hsym _
  obtain ⟨u, hu, hsymbols, hframe⟩ := decompressBody_codes ht (fun sh hsh => ⟨(hv sh hsh).1, (hv sh hsh).2⟩) hcodes
    hbits hat hlen hcap hsym
  refine ⟨u.finishOk, by rw [exec_eq, commandBody, hu, Ran.finish_ok], ?_, hsymbols⟩
  have hbitPos : 0 + (codes.flatMap Prod.snd).length = (codes.flatMap Prod.snd).length := Nat.zero_add _
  rw [State.decodeStart, hbitPos] at hframe
  rw [hframe]
  cases pixel <;> rfl

end Sys2Proof.Machine
end
